-- ==== Sys2Proof/Word.lean ====
section
/-! DEFINITION. The bit-vector types of the Arbigo 3140: bytes, 16-bit words and five-bit codes. -/

namespace Sys2Proof

/-- One byte of a cell, a host port frame or a record (spec 12, R178, R179). -/
abbrev Byte := BitVec 8

/-- One 16-bit word of a payload, and every 16-bit counter (spec 00, Conventions). -/
abbrev Word := BitVec 16

/-- A five-bit field: a station number, an index, or an owner or reserver code, where 0 is none,
1 to 30 a station and 31 the value that names no station (R178). -/
abbrev Code5 := BitVec 5

end Sys2Proof
end

