-- ==== Sys2Proof/Config.lean ====
section
/-! DEFINITION. The sizes and limits that the spec fixes for the device. The spec leaves no value
undefined, so this file holds no free value. -/

namespace Sys2Proof.Config

/-- Cells that the forwarding store can hold (R12). -/
abbrev storeCapacity : Nat := 1024

/-- Least number of fill symbols between a transmitted cell and the next (R12). -/
abbrev minGap : Nat := 2

/-- Consecutive break symbols that make one report of break fill received (R10). -/
abbrev breakRun : Nat := 16

/-- Bytes of a cell after its start delimiter: 72 of content and 2 of payload check (R1). -/
abbrev cellBytes : Nat := 74

/-- Greatest legal hosted count (R21). -/
abbrev maxHosted : Nat := 32

/-- Greatest attempt number of a census (R6, R23). -/
abbrev maxAttempt : Nat := 16

/-- Room of a roster or census list (R5, R6). -/
abbrev maxEntries : Nat := 30

/-- Findings in one revolution that raise a damage burst (R55). -/
abbrev burstFindings : Nat := 8

/-- Entries that the request table can hold (R62). -/
abbrev tableCapacity : Nat := 16

/-- Bound of the commitment, and room of the completion queue (R62, R142). -/
abbrev maxCommitment : Nat := 24

/-- Places of the serve window (R88). -/
abbrev servePlaces : Nat := 4

/-- Records that the notice queue can hold (R148). -/
abbrev noticeCapacity : Nat := 16

/-- Greatest lost count (R150). -/
abbrev maxLost : Nat := 65535

/-- The fill byte of the host port (R179). -/
abbrev fillByte : Byte := 0xFF#8

end Sys2Proof.Config
end

