-- ==== Sys2Proof/Syntax.lean ====
section
/-! DEFINITION. What the commands carry (cells, symbols, host port frames) and the commands
themselves: one constructor of `Instr` for each row of spec/opcode_table.json. -/

namespace Sys2Proof

/-- The four cell kinds, each with its own start delimiter (R1). -/
inductive CellKind
  | data
  | mark
  | census
  | tail
  deriving DecidableEq, Repr

/-- The eight header bytes of a cell in line order; what bytes 2 to 7 mean depends on the kind
(R178). -/
structure Header where
  kindCode : Byte
  byte2 : Byte
  byte3 : Byte
  byte4 : Byte
  byte5 : Byte
  byte6 : Byte
  byte7 : Byte
  check : Byte
  deriving DecidableEq, Repr

/-- The 32 payload words of a cell (R1, R178). -/
abbrev Payload := Vector Word 32

/-- A cell as it stands on the line: the kind of its start delimiter, its header, its payload and
its payload check (R1). -/
structure Cell where
  kind : CellKind
  header : Header
  payload : Payload
  payloadCheck : Word
  deriving DecidableEq, Repr

/-- A cell as the receiver completes it: its bytes, an invalid symbol taken as a zero byte, and the
part in which an invalid symbol fell (R9). -/
structure Reception where
  cell : Cell
  headerError : Bool
  payloadError : Bool
  deriving DecidableEq, Repr

/-- The address of a data cell: home station and index, "cell 7.12" (R2). -/
structure Address where
  station : Code5
  index : Code5
  deriving DecidableEq, Repr

/-- One entry of a roster or of a census: a station number and its hosted count (R5, R6). -/
structure RosterEntry where
  station : Byte
  hosted : Byte
  deriving DecidableEq, Repr

/-- The twelve commands of the host port (R179). -/
inductive HostCommand
  | start
  | submit
  | abort
  | take
  | note
  | watchSet
  | watchClear
  | homeLoad
  | homeRead
  | status
  | roster
  | reset
  deriving DecidableEq, Repr

/-- The symbols of the line by class (R8). -/
inductive Symbol
  | data (value : Byte)
  | startDelimiter (kind : CellKind)
  | endDelimiter
  | idle
  | breakFill
  | invalid
  deriving DecidableEq, Repr

/-- The field bytes of a SUBMIT frame between the command byte and the check byte (R165, R179). -/
structure SubmitFrame where
  kind : Byte
  tag : Byte
  passLimit : Byte
  targetHigh : Byte
  targetLow : Byte
  firstWord : Byte
  wordCount : Byte
  expectedPresent : Byte
  expectedGeneration : Byte
  words : List Word
  deriving DecidableEq, Repr

/-- The field bytes of a WATCH SET frame (R122, R179). -/
structure WatchSetFrame where
  entry : Byte
  valueStation : Byte
  valueIndex : Byte
  stationCare : Byte
  indexCare : Byte
  trigger : Byte
  capture : Byte
  deriving DecidableEq, Repr

/-- The commands that the block takes: the rows of spec/opcode_table.json. -/
inductive Instr
  /-- STATION_RESET (R41): RESETN is held low or power is applied. -/
  | stationReset
  /-- STATION_RESET_RELEASE (R170), with the levels of SN4 to SN0. -/
  | stationResetRelease (straps : Code5)
  /-- CELL_ARRIVAL (R13): the receiver completes a cell. -/
  | cellArrival (reception : Reception)
  /-- BREAK_FILL_RECEIVED (R10): a run of 16 break symbols is complete. -/
  | breakFillReceived
  /-- SIGNAL_LOSS (R11): the signal-loss interval runs out. -/
  | signalLoss
  /-- SIGNAL_RETURN (R11), with the first valid symbol received. -/
  | signalReturn (symbol : Symbol)
  /-- CELL_TRANSMITTED (R12): the oldest stored cell has left on LOUT. -/
  | cellTransmitted
  /-- LISTEN_TIMER_EXPIRY (R22). -/
  | listenTimerExpiry
  /-- CENSUS_TIMER_EXPIRY (R23). -/
  | censusTimerExpiry
  /-- YIELD_WAIT_EXPIRY (R29). -/
  | yieldWaitExpiry
  /-- BUILD_LIMIT_EXPIRY (R37). -/
  | buildLimitExpiry
  /-- BREAK_HOLD_EXPIRY (R156). -/
  | breakHoldExpiry
  /-- CSN_FALL (R164). -/
  | csnFall
  /-- CSN_RISE (R168), with the whole bytes of the frame received when the rise cuts it off,
  command byte first; none where they stand in the command in hand already. -/
  | csnRise (received : List Byte)
  /-- START (R21), with its two field bytes. -/
  | start (hostedCount restore : Byte)
  /-- SUBMIT (R66). -/
  | submit (frame : SubmitFrame)
  /-- ABORT (R76). -/
  | abort (tag : Byte)
  /-- TAKE (R147). -/
  | take
  /-- NOTE (R151). -/
  | note
  /-- WATCH SET (R122). -/
  | watchSet (frame : WatchSetFrame)
  /-- WATCH CLEAR (R123). -/
  | watchClear (entry : Byte)
  /-- HOME LOAD (R137). -/
  | homeLoad (index generation : Byte) (words : Payload)
  /-- HOME READ (R139). -/
  | homeRead (index : Byte)
  /-- STATUS (R173). -/
  | status
  /-- ROSTER (R174). -/
  | roster
  /-- RESET (R175), with its release option byte. -/
  | reset (option : Byte)
  /-- BAD_CHECK (R166), with the whole frame, its check byte last. -/
  | badCheck (frame : List Byte)
  /-- UNKNOWN_COMMAND (R167), with the command byte. -/
  | unknownCommand (code : Byte)
  /-- TAKE_FINAL_BYTE (R147). -/
  | takeFinalByte
  /-- NOTE_FINAL_BYTE (R151). -/
  | noteFinalByte
  /-- STATUS_FINAL_BYTE (R173). -/
  | statusFinalByte
  /-- SYMBOL_RECEIVED (R9): one symbol is received on LIN. -/
  | symbolReceived (symbol : Symbol)
  deriving DecidableEq, Repr

end Sys2Proof
end

