-- ==== Sys2Proof/Machine/Operands.lean ====
section
/-! DEFINITION. Reading and writing the fields of cells and of host port frames: byte order, the
header layouts of R178, the frame layouts of R179 and the framing of R165 and R166. -/

namespace Sys2Proof

/-! ### Bytes, words and five-bit fields -/

/-- A word as two bytes, high byte first (12, opening sentence). -/
def wordBytes (w : Word) : List Byte := [w.extractLsb' 8 8, w.extractLsb' 0 8]

/-- The word of two bytes, high byte first. -/
def wordOfBytes (high low : Byte) : Word := high ++ low

/-- A number as a two-byte field, high byte first. -/
def natBytes (n : Nat) : List Byte := wordBytes (BitVec.ofNat 16 n)

/-- A number as a one-byte field. -/
def natByte (n : Nat) : Byte := BitVec.ofNat 8 n

/-- A yes-or-no item: 0 no, 1 yes (R179). -/
def boolByte (b : Bool) : Byte := if b then 1#8 else 0#8

/-- Bits 4 to 0 of a byte; the unused bits are ignored (R177). -/
def field5 (b : Byte) : Code5 := b.setWidth 5

/-- Writes bits 4 to 0 of a byte and keeps the other bits as received (R177). -/
def withField5 (b : Byte) (c : Code5) : Byte := (b &&& 0xE0#8) ||| c.setWidth 8

/-- Writes bit `i` of a byte and keeps the other bits as received (R177). -/
def withBit (b : Byte) (i : Nat) (v : Bool) : Byte :=
  if v then b ||| BitVec.twoPow 8 i else b &&& ~~~(BitVec.twoPow 8 i)

/-- A five-bit code as a byte whose unused bits are zero (R177). -/
def codeByte (c : Code5) : Byte := c.setWidth 8

/-- The code of an owner or reserver field that holds none (R178). -/
def noStation : Code5 := 0#5

/-- The code that names no station (R3, R178). -/
def badStation : Code5 := 31#5

/-! ### Payloads and cells -/

/-- The 64 payload bytes: word `i` in bytes 2i+1 and 2i+2, high byte first (R178). -/
def payloadBytes (p : Payload) : List Byte := p.toList.flatMap wordBytes

/-- The payload whose bytes are given in line order (R178). -/
def payloadOfBytes (bytes : List Byte) : Payload :=
  Vector.ofFn fun i => wordOfBytes (bytes.getD (2 * i.val) 0#8) (bytes.getD (2 * i.val + 1) 0#8)

/-- The payload of 32 zero words. -/
def zeroPayload : Payload := Vector.replicate 32 0#16

/-- Word `i` of a payload. -/
def payloadWord (p : Payload) (i : Nat) : Word := p.toList.getD i 0#16

/-- Writes a range of words from `first` on; words outside the range keep their values (R95). -/
def writeWords (p : Payload) (first : Nat) (words : List Word) : Payload :=
  Vector.ofFn fun i =>
    if first ≤ i.val ∧ i.val < first + words.length then words.getD (i.val - first) 0#16 else p[i]

/-- The code of a cell kind in header byte 1 (R178). -/
def CellKind.code : CellKind → Byte
  | .data => 0x01#8
  | .mark => 0x02#8
  | .census => 0x03#8
  | .tail => 0x04#8

/-- The seven header bytes that the header check covers (R1). -/
def Header.checkedBytes (h : Header) : List Byte :=
  [h.kindCode, h.byte2, h.byte3, h.byte4, h.byte5, h.byte6, h.byte7]

/-- The eight header bytes in line order. -/
def Header.bytes (h : Header) : List Byte := h.checkedBytes ++ [h.check]

/-- The 74 bytes between the delimiters of a cell (R1). -/
def Cell.bytes (c : Cell) : List Byte :=
  c.header.bytes ++ payloadBytes c.payload ++ wordBytes c.payloadCheck

/-- The cell that 74 received bytes make after a start delimiter (R1, R9). -/
def Cell.ofBytes (kind : CellKind) (bytes : List Byte) : Cell :=
  { kind
    header :=
      { kindCode := bytes.getD 0 0#8, byte2 := bytes.getD 1 0#8, byte3 := bytes.getD 2 0#8
        byte4 := bytes.getD 3 0#8, byte5 := bytes.getD 4 0#8, byte6 := bytes.getD 5 0#8
        byte7 := bytes.getD 6 0#8, check := bytes.getD 7 0#8 }
    payload := payloadOfBytes (bytes.drop 8)
    payloadCheck := wordOfBytes (bytes.getD 72 0#8) (bytes.getD 73 0#8) }

/-! ### The fields of a DATA header (R178) -/

namespace Header

/-- Address of a DATA header: station in byte 2, index in byte 3, bits 4 to 0 of each. -/
def address (h : Header) : Address := ⟨field5 h.byte2, field5 h.byte3⟩

/-- Generation of a DATA header, byte 4. -/
def generation (h : Header) : Byte := h.byte4

/-- Owner code of a DATA header, bits 4 to 0 of byte 5. -/
def owner (h : Header) : Code5 := field5 h.byte5

/-- Reserver code of a DATA header, bits 4 to 0 of byte 6. -/
def reserver (h : Header) : Code5 := field5 h.byte6

/-- HANDOFF, bit 0 of byte 7. -/
def handoff (h : Header) : Bool := h.byte7.getLsbD 0

/-- DAMAGED, bit 1 of byte 7. -/
def damaged (h : Header) : Bool := h.byte7.getLsbD 1

/-- RESTORED, bit 2 of byte 7. -/
def restored (h : Header) : Bool := h.byte7.getLsbD 2

/-- Writes the generation. -/
def withGeneration (h : Header) (g : Byte) : Header := { h with byte4 := g }

/-- Writes the owner code, keeping the unused bits of its byte (R177). -/
def withOwner (h : Header) (c : Code5) : Header := { h with byte5 := withField5 h.byte5 c }

/-- Writes the reserver code, keeping the unused bits of its byte (R177). -/
def withReserver (h : Header) (c : Code5) : Header := { h with byte6 := withField5 h.byte6 c }

/-- Writes HANDOFF. -/
def withHandoff (h : Header) (v : Bool) : Header := { h with byte7 := withBit h.byte7 0 v }

/-- Writes DAMAGED. -/
def withDamaged (h : Header) (v : Bool) : Header := { h with byte7 := withBit h.byte7 1 v }

/-- Writes RESTORED. -/
def withRestored (h : Header) (v : Bool) : Header := { h with byte7 := withBit h.byte7 2 v }

/-- The ownership fields that pass the cell to its reserver, or to none (R102, R105). -/
def passedOn (h : Header) : Header :=
  if h.reserver = noStation then (h.withOwner noStation).withHandoff false
  else ((h.withOwner h.reserver).withReserver noStation).withHandoff true

/-- Originator of a CENSUS or TAIL header, bits 4 to 0 of byte 2. -/
def originator (h : Header) : Code5 := field5 h.byte2

/-- Formation number of a MARK header, byte 2. -/
def markFormation (h : Header) : Byte := h.byte2

/-- Roster count of a MARK header, byte 3. -/
def rosterCount (h : Header) : Byte := h.byte3

/-- Attempt number of a CENSUS header, byte 3. -/
def attemptNumber (h : Header) : Byte := h.byte3

/-- Entry count of a CENSUS header, byte 4. -/
def entryCount (h : Header) : Byte := h.byte4

/-- Formation number of a TAIL header, byte 3. -/
def tailFormation (h : Header) : Byte := h.byte3

end Header

/-! ### The entry lists of MARK and CENSUS payloads (R178) -/

/-- Entry `i` of a list payload: station number, then hosted count. -/
def entryAt (p : Payload) (i : Nat) : RosterEntry :=
  ⟨(payloadWord p i).extractLsb' 8 8, (payloadWord p i).extractLsb' 0 8⟩

/-- The listed entries of a payload, in order. -/
def entriesOf (p : Payload) (count : Nat) : List RosterEntry := (List.range count).map (entryAt p)

/-- The word that carries an entry. -/
def entryWord (e : RosterEntry) : Word := wordOfBytes e.station e.hosted

/-- The payload of an entry list: the entries in order, then zero entries (R5, R6). -/
def payloadOfEntries (es : List RosterEntry) : Payload :=
  Vector.ofFn fun i => (es[i.val]?.map entryWord).getD 0#16

/-- The roster that a MARK carries (R5). -/
def Cell.roster (c : Cell) : List RosterEntry := entriesOf c.payload c.header.rosterCount.toNat

/-- The entries that a CENSUS cell carries (R6). -/
def Cell.censusEntries (c : Cell) : List RosterEntry :=
  entriesOf c.payload c.header.entryCount.toNat

/-! ### Host port frames (R165, R166, R179) -/

/-- The command byte of a command (R179). -/
def HostCommand.code : HostCommand → Byte
  | .start => 0x10#8
  | .submit => 0x11#8
  | .abort => 0x12#8
  | .take => 0x13#8
  | .note => 0x14#8
  | .watchSet => 0x15#8
  | .watchClear => 0x16#8
  | .homeLoad => 0x17#8
  | .homeRead => 0x18#8
  | .status => 0x19#8
  | .roster => 0x1A#8
  | .reset => 0x1B#8

/-- The command that a command byte names, if any (R165, R179). -/
def HostCommand.ofCode (b : Byte) : Option HostCommand :=
  [HostCommand.start, .submit, .abort, .take, .note, .watchSet, .watchClear, .homeLoad, .homeRead,
    .status, .roster, .reset].find? fun k => k.code == b

/-- Words that follow the fixed part of SUBMIT: the word count for WRITE (04h) and VERIFY (05h) when
it lies in 1 to 32, none otherwise (R165). -/
def submitWordCount (kind wordCount : Byte) : Nat :=
  if (kind = 0x04#8 ∨ kind = 0x05#8) ∧ 1 ≤ wordCount.toNat % 64 ∧ wordCount.toNat % 64 ≤ 32 then
    wordCount.toNat % 64
  else 0

/-- Field bytes that a command carries, given those received so far: the lengths of R179 are fixed
for every command but SUBMIT (R165). -/
def HostCommand.fieldCount (k : HostCommand) (fields : List Byte) : Nat :=
  match k with
  | .start => 2
  | .submit => 9 + 2 * submitWordCount (fields.getD 0 0#8) (fields.getD 6 0#8)
  | .abort => 1
  | .take => 0
  | .note => 0
  | .watchSet => 7
  | .watchClear => 1
  | .homeLoad => 66
  | .homeRead => 1
  | .status => 0
  | .roster => 0
  | .reset => 1

/-- Whether the bytes received are a command byte with all its fields and its check byte (R165). -/
def frameComplete : List Byte → Bool
  | [] => false
  | c :: rest =>
    match HostCommand.ofCode c with
    | none => false
    | some k => rest.length == k.fieldCount rest + 1

/-- Whether the bytes received are a command byte naming a command whose check byte has not been
completed (R168). -/
def frameCutOff : List Byte → Bool
  | [] => false
  | c :: rest =>
    match HostCommand.ofCode c with
    | none => false
    | some k => decide (rest.length < k.fieldCount rest + 1)

/-- The sum of bytes modulo 256 (R166). -/
def byteSum (bytes : List Byte) : Byte := bytes.foldl (· + ·) 0#8

/-- The check byte: the two's-complement of the sum of the command byte and the fields (R166). -/
def checkByte (bytes : List Byte) : Byte := -(byteSum bytes)

/-- The field bytes of a SUBMIT frame in order (R165, R179). -/
def SubmitFrame.fields (f : SubmitFrame) : List Byte :=
  [f.kind, f.tag, f.passLimit, f.targetHigh, f.targetLow, f.firstWord, f.wordCount,
    f.expectedPresent, f.expectedGeneration] ++ f.words.flatMap wordBytes

/-- Whether the frame carries as many words as its kind and word count call for (R165, R67). -/
def SubmitFrame.framed (f : SubmitFrame) : Bool :=
  f.words.length == submitWordCount f.kind f.wordCount

/-- The target address of a frame (R179). -/
def SubmitFrame.address (f : SubmitFrame) : Address := ⟨field5 f.targetHigh, field5 f.targetLow⟩

/-- The first word of a frame, bits 4 to 0 (R179). -/
def SubmitFrame.first (f : SubmitFrame) : Nat := f.firstWord.toNat % 32

/-- The word count of a frame, bits 5 to 0 (R179). -/
def SubmitFrame.count (f : SubmitFrame) : Nat := f.wordCount.toNat % 64

/-- The pass limit of a frame, bits 3 to 0 (R179). -/
def SubmitFrame.limit (f : SubmitFrame) : Nat := f.passLimit.toNat % 16

/-- A word range is malformed: no word, more than 32, or past word 31 (R67). -/
def SubmitFrame.badRange (f : SubmitFrame) : Bool :=
  f.count == 0 || decide (32 < f.count) || decide (32 < f.first + f.count)

/-- The field bytes of a WATCH SET frame in order (R179). -/
def WatchSetFrame.fields (f : WatchSetFrame) : List Byte :=
  [f.entry, f.valueStation, f.valueIndex, f.stationCare, f.indexCare, f.trigger, f.capture]

/-- Whether a symbol is valid for signal-loss detection: every symbol but an invalid one (R8). -/
def Symbol.valid : Symbol → Bool
  | .data _ => true
  | .startDelimiter _ => true
  | .endDelimiter => true
  | .idle => true
  | .breakFill => true
  | .invalid => false

end Sys2Proof
end

