-- ==== Sys2Proof/Machine/Flags.lean ====
section
/-! DEFINITION. The judgements made on cells: the two check computations (R178), the two
indications of R1, the ownership conditions of R4, and when a MARK, a CENSUS or a TAIL is well
formed (R5 to R7). -/

namespace Sys2Proof

/-! ### Check computations (R178) -/

/-- `n` steps of a cyclic check register, most significant bit first. -/
def crcShift {w : Nat} (generator : BitVec w) : Nat → BitVec w → BitVec w
  | 0, r => r
  | n + 1, r =>
    crcShift generator n
      (if r.msb then r.shiftLeft 1 ^^^ generator else r.shiftLeft 1)

/-- The header check: generator x⁸ + x² + x + 1, preset FFh, no final inversion (R178). -/
def crc8 (bytes : List Byte) : Byte :=
  bytes.foldl (fun r b => crcShift 0x07#8 8 (r ^^^ b)) 0xFF#8

/-- The payload check: generator x¹⁶ + x¹² + x⁵ + 1, preset FFFFh, no final inversion (R178). -/
def crc16 (bytes : List Byte) : Word :=
  bytes.foldl (fun r b => crcShift 0x1021#16 8 (r ^^^ (b.setWidth 16).shiftLeft 8)) 0xFFFF#16

/-- The header check that belongs to a header (R1). -/
def Header.computedCheck (h : Header) : Byte := crc8 h.checkedBytes

/-- The header with its check computed afresh. -/
def Header.sealed (h : Header) : Header := { h with check := h.computedCheck }

/-- The payload check that belongs to a payload (R1). -/
def payloadCheckOf (p : Payload) : Word := crc16 (payloadBytes p)

/-- The cell with both checks computed afresh, as for a cell built or altered (R1). -/
def Cell.sealed (c : Cell) : Cell :=
  { c with header := c.header.sealed, payloadCheck := payloadCheckOf c.payload }

/-- The cell with its header check computed afresh and its payload and payload check kept (R1). -/
def Cell.headerSealed (c : Cell) : Cell := { c with header := c.header.sealed }

/-! ### The indications of R1 -/

/-- The header check indication (R1). -/
def Reception.headerGood (r : Reception) : Bool :=
  !r.headerError && r.cell.header.kindCode == r.cell.kind.code
    && r.cell.header.check == r.cell.header.computedCheck

/-- The payload check indication (R1). -/
def Reception.payloadGood (r : Reception) : Bool :=
  !r.payloadError && r.cell.payloadCheck == payloadCheckOf r.cell.payload

/-- Both checks are good. -/
def Reception.good (r : Reception) : Bool := r.headerGood && r.payloadGood

/-! ### The ownership conditions of R4 -/

/-- The ownership fields keep the conditions of R4: no owner means no reserver and HANDOFF clear,
the reserver is not the owner, and neither field holds the value that names no station. -/
def Header.ownershipGood (h : Header) : Bool :=
  (h.owner != noStation || (h.reserver == noStation && !h.handoff))
    && (h.reserver == noStation || h.reserver != h.owner)
    && h.owner != badStation && h.reserver != badStation

/-! ### Well-formed MARK, CENSUS and TAIL cells -/

/-- An entry names a station 1 to 30 with a hosted count 0 to 32 (R5, R6). -/
def RosterEntry.inRange (e : RosterEntry) : Bool :=
  decide (1 ≤ e.station.toNat) && decide (e.station.toNat ≤ 30) && decide (e.hosted.toNat ≤ 32)

/-- No station number appears in two entries (R5, R6). -/
def distinctStations : List RosterEntry → Bool
  | [] => true
  | e :: es => es.all (fun f => f.station != e.station) && distinctStations es

/-- The entries of a payload's list are zero from entry `count` to the end of the room of 30. -/
def zeroBeyond (p : Payload) (count : Nat) : Bool :=
  (List.range Config.maxEntries).all fun i => decide (i < count) || payloadWord p i == 0#16

/-- A list of entries is well formed: 1 to 30 of them, in range and distinct, zero beyond. -/
def listWellFormed (p : Payload) (count : Nat) : Bool :=
  decide (1 ≤ count) && decide (count ≤ Config.maxEntries)
    && (entriesOf p count).all RosterEntry.inRange && distinctStations (entriesOf p count)
    && zeroBeyond p count

/-- A MARK is well formed (R5). -/
def Cell.markWellFormed (c : Cell) : Bool := listWellFormed c.payload c.header.rosterCount.toNat

/-- A station code names a station 1 to 30. -/
def stationLegal (c : Code5) : Bool := c != noStation && c != badStation

/-- An address lies outside the ranges of R67: station 0 or 31. -/
def Address.outOfRange (a : Address) : Bool := !stationLegal a.station

/-- A CENSUS cell is well formed (R6). -/
def Cell.censusWellFormed (c : Cell) : Bool :=
  stationLegal c.header.originator
    && decide (1 ≤ c.header.attemptNumber.toNat)
    && decide (c.header.attemptNumber.toNat ≤ Config.maxAttempt)
    && listWellFormed c.payload c.header.entryCount.toNat
    && (entryAt c.payload 0).station == codeByte c.header.originator

/-- A TAIL is well formed (R7). -/
def Cell.tailWellFormed (c : Cell) : Bool :=
  stationLegal c.header.originator && c.payload == zeroPayload

end Sys2Proof
end

