-- ==== Sys2Proof/WellFormed.lean ====
section
/-! DEFINITION. Which commands are events of the device: the relations between a command's operands
that the spec states of the event (R9, R11, R165 to R168). -/

namespace Sys2Proof

/-- A part in which an invalid symbol fell holds a zero byte (R9). -/
def Reception.wellFormed (r : Reception) : Bool :=
  (!r.headerError || r.cell.header.bytes.contains 0#8)
    && (!r.payloadError
      || (payloadBytes r.cell.payload ++ wordBytes r.cell.payloadCheck).contains 0#8)

/-- The command can stand for an event of the device. -/
def Instr.wellFormed : Instr → Bool
  | .stationReset => true
  | .stationResetRelease _ => true
  | .cellArrival r => r.wellFormed
  | .breakFillReceived => true
  | .signalLoss => true
  | .signalReturn x => x.valid
  | .cellTransmitted => true
  | .listenTimerExpiry => true
  | .censusTimerExpiry => true
  | .yieldWaitExpiry => true
  | .buildLimitExpiry => true
  | .breakHoldExpiry => true
  | .csnFall => true
  | .csnRise received => received.isEmpty || frameCutOff received
  | .start _ _ => true
  | .submit f => f.framed
  | .abort _ => true
  | .take => true
  | .note => true
  | .watchSet _ => true
  | .watchClear _ => true
  | .homeLoad _ _ _ => true
  | .homeRead _ => true
  | .status => true
  | .roster => true
  | .reset _ => true
  | .badCheck frame => frameComplete frame && byteSum frame != 0#8
  | .unknownCommand code => (HostCommand.ofCode code).isNone
  | .takeFinalByte => true
  | .noteFinalByte => true
  | .statusFinalByte => true
  | .symbolReceived _ => true

end Sys2Proof
end

