-- ==== Sys2Proof/Machine/State.lean ====
section
/-! DEFINITION. The state of the station as plain data, block by block as the spec names them, its
reset value, and the reasons a step can stop. -/

namespace Sys2Proof.Machine

/-! ### Line interface (spec 01) -/

/-- The receiver: hunting, or inside a cell with the bytes received so far and a mark for each part
in which a symbol error fell (R9). -/
inductive Receiver
  | hunting
  | inCell (kind : CellKind) (bytes : List Byte) (headerError payloadError : Bool)
  deriving DecidableEq, Repr

/-- The input fill indication (R10). -/
inductive Fill
  | idle
  | breakFill
  deriving DecidableEq, Repr

/-- The signal state (R11). -/
inductive Signal
  | present
  | lost
  deriving DecidableEq, Repr

/-- An interval or timer: its expiry can happen only while it runs (R18). -/
inductive Timer
  | stopped
  | running
  deriving DecidableEq, Repr

/-- The transmit mode (R14 to R17). -/
inductive TransmitMode
  | repeating
  | censusOnly
  | breakHold
  deriving DecidableEq, Repr

/-- The state of the line interface (R9 to R17). -/
structure Line where
  receiver : Receiver
  fill : Fill
  breakCount : Nat
  signal : Signal
  interval : Timer
  store : List Cell
  /-- Fill symbols that a transmitted cell is still owed before the next start delimiter (R12). -/
  gap : Nat
  mode : TransmitMode
  fillFollowing : Bool
  deriving DecidableEq, Repr

/-! ### Loop control (spec 02, 10) -/

/-- The loop state (R18). -/
inductive LoopState
  | offline
  | census
  | build
  | running
  | broken
  | excluded
  deriving DecidableEq, Repr

/-- The reasons that loop control records (R18). -/
inductive Reason
  | formTimeout
  | duplicateStation
  | buildTimeout
  | signalLost
  | breakReceived
  | positionFault
  | damageBurst
  | notInRoster
  deriving DecidableEq, Repr

/-- The role of the station in a formation (R18). -/
inductive Role
  | none
  | originator
  | nonOriginator
  deriving DecidableEq, Repr

/-- The state of loop control (R18, R35, R156). -/
structure Loop where
  state : LoopState
  hosted : Byte
  restore : Bool
  attempt : Nat
  yielded : Bool
  /-- Originator and attempt number of the last census answered (R25). -/
  lastAnswered : Option (Code5 × Byte)
  role : Role
  buildMarks : Nat
  /-- Whether the station has inserted its hosted cells in this BUILD (R35). -/
  inserted : Bool
  roster : List RosterEntry
  formation : Byte
  latestFormation : Byte
  lastReason : Option Reason
  listenTimer : Timer
  censusTimer : Timer
  yieldTimer : Timer
  buildTimer : Timer
  holdTimer : Timer
  deriving DecidableEq, Repr

/-! ### Position tracker (spec 03) -/

/-- The tracker's activity (R42). -/
inductive Activity
  | inactive
  | active
  deriving DecidableEq, Repr

/-- The causes of a position fault (R54). -/
inductive FaultCause
  | markOutOfPlace
  | markMissing
  | foreignMark
  | formationCell
  deriving DecidableEq, Repr

/-- The last position fault (R42, R54). -/
structure PositionFault where
  cause : FaultCause
  position : Nat
  revolution : Word
  deriving DecidableEq, Repr

/-- The state of the position tracker (R42). -/
structure Tracker where
  activity : Activity
  position : Nat
  damage : Nat
  revolution : Word
  /-- The level of REV, high when true (R48). -/
  rev : Bool
  lastFault : Option PositionFault
  deriving DecidableEq, Repr

/-! ### Request engine (spec 04 to 06) -/

/-- The seven request kinds (R58). -/
inductive RequestKind
  | read
  | header
  | peek
  | write
  | verify
  | claim
  | release
  deriving DecidableEq, Repr

/-- A request with its target and the fields its kind has (R58). -/
inductive Request
  | read (target : Address)
  | header (target : Address)
  | peek (position : Word)
  | write (target : Address) (first : Nat) (words : List Word) (expected : Option Byte)
  | verify (target : Address) (first : Nat) (words : List Word)
  | claim (target : Address)
  | release (target : Address)
  deriving DecidableEq, Repr

/-- The ending of a WITHDRAWING entry (R60). -/
inductive Ending
  | timeout
  | aborted
  deriving DecidableEq, Repr

/-- The state of a table entry, with the ending that a WITHDRAWING entry carries (R60, R72). -/
inductive EntryState
  | pending
  | reserved
  | withdrawing (ending : Ending)
  deriving DecidableEq, Repr

/-- An entry of the request table (R60). -/
structure Entry where
  tag : Byte
  request : Request
  position : Nat
  passLimit : Nat
  acceptance : Word
  marks : Nat
  state : EntryState
  deriving DecidableEq, Repr

/-- The state of the release sweep (R112). -/
structure Sweep where
  active : Bool
  released : Nat
  marks : Nat
  deriving DecidableEq, Repr

/-- The state of the request engine between events (R83). -/
structure Engine where
  table : List Entry
  acceptance : Word
  sweep : Sweep
  deriving DecidableEq, Repr

/-! ### Watch unit (spec 07) -/

/-- The trigger of a watch entry (R121). -/
inductive Trigger
  | change
  | owner
  | both
  deriving DecidableEq, Repr

/-- An entry of the watch table (R121). -/
structure WatchEntry where
  enabled : Bool
  value : Address
  stationCare : Code5
  indexCare : Code5
  trigger : Trigger
  capture : Bool
  deriving DecidableEq, Repr

/-- What a valid seen entry holds (R125). -/
structure Seen where
  generation : Byte
  owner : Code5
  deriving DecidableEq, Repr

/-- The state of the watch unit. The seen table is the list of its valid entries, positions strictly
rising; a position not listed is invalid (R125). -/
structure Watch where
  entries : Vector WatchEntry 8
  seen : List (Nat × Seen)
  deriving DecidableEq, Repr

/-! ### Home image (spec 08) -/

/-- The source of a home image entry (R132). -/
inductive Source
  | zero
  | loaded
  | refreshed
  deriving DecidableEq, Repr

/-- An entry of the home image (R132). -/
structure HomeEntry where
  payload : Payload
  generation : Byte
  source : Source
  deriving DecidableEq, Repr

/-! ### Completions and notices (spec 09) -/

/-- The results of a completion record (R144). -/
inductive Result
  | done
  | damaged
  | mismatch
  | owned
  | notOwner
  | stale
  | timeout
  | aborted
  | loopBroken
  deriving DecidableEq, Repr

/-- How a CLAIM was completed (R99, R104). -/
inductive How
  | takenFree
  | alreadyOwner
  | handedOver
  deriving DecidableEq, Repr

/-- What the tracker did to the cell that a PEEK returns (R53). -/
inductive Repaired
  | none
  | header
  | payload
  deriving DecidableEq, Repr

/-- The header fields that READ and HEADER report (R91, R92). -/
structure HeaderSummary where
  address : Address
  generation : Byte
  owner : Code5
  reserver : Code5
  handoff : Bool
  damaged : Bool
  restored : Bool
  deriving DecidableEq, Repr

/-- The data that a completion carries by kind and result (R145, R146). -/
inductive CompletionData
  | none
  | cell (summary : HeaderSummary) (words : Payload)
  | header (summary : HeaderSummary)
  | raw (header : Header) (words : Payload) (headerGood payloadGood : Bool) (repaired : Repaired)
  | generation (generation : Byte)
  | owned (owner : Code5) (generation : Byte)
  | mismatch (index : Nat) (value : Word) (generation : Byte)
  | claimed (generation : Byte) (reserver : Code5)
  | returned (station : Code5) (generation : Byte)
  | released (station : Code5) (generation : Byte)
  | notOwner (owner : Code5) (handoff : Bool)
  deriving DecidableEq, Repr

/-- A completion record (R144). The kind and the target are those of the request. -/
structure Completion where
  tag : Byte
  request : Request
  position : Nat
  acceptance : Word
  result : Result
  returned : Bool
  how : Option How
  revolution : Word
  data : CompletionData
  deriving DecidableEq, Repr

/-- The causes of a header repair (R49). -/
inductive RepairCause
  | check
  | address
  | ownership
  deriving DecidableEq, Repr

/-- What a DAMAGE FOUND notice reports (R52). -/
inductive Finding
  | header (expected received : Address) (cause : RepairCause)
  | payload (expected received : Address)
  | mark
  deriving DecidableEq, Repr

/-- The content of a watch notice (R128). -/
structure WatchReport where
  /-- CHANGED when true, OWNER otherwise. -/
  changed : Bool
  address : Address
  position : Nat
  /-- For entries 0 to 7 in order, whether the entry fired. -/
  firing : List Bool
  generationDiffered : Bool
  ownerDiffered : Bool
  oldGeneration : Byte
  oldOwner : Code5
  newGeneration : Byte
  newOwner : Code5
  damaged : Bool
  payload : Option Payload
  deriving DecidableEq, Repr

/-- The content of a notice by kind (R149). -/
inductive NoticeBody
  | damageFound (finding : Finding) (position : Nat) (payloadGood : Bool) (count : Nat)
  | watch (report : WatchReport)
  | orphanReturned (address : Address) (position : Nat) (station : Code5) (generation : Byte)
  | staleReservation (address : Address) (position : Nat) (owner : Code5) (generation : Byte)
  | sweepDone (released : Nat) (complete : Bool)
  | loopState (new former : LoopState) (reason : Option Reason) (formation : Option Byte)
      (role : Role)
  | lost (count : Nat)
  deriving DecidableEq, Repr

/-- A notice record with its revolution count (R148). -/
structure Notice where
  body : NoticeBody
  revolution : Word
  deriving DecidableEq, Repr

/-- The two queues and the lost count (R142, R148). -/
structure Queues where
  completions : List Completion
  notices : List Notice
  lost : Nat
  deriving DecidableEq, Repr

/-! ### Host port (spec 11) -/

/-- The phase of the host port (R164). -/
inductive Phase
  | idle
  | receiving
  | discarding
  | responding
  | spent
  deriving DecidableEq, Repr

/-- The command in hand: its code and the bytes received after it (R164). -/
structure CommandInHand where
  code : Byte
  received : List Byte
  deriving DecidableEq, Repr

/-- The response in hand: its bytes and the index of the next byte to shift out (R164). -/
structure ResponseInHand where
  bytes : List Byte
  next : Nat
  deriving DecidableEq, Repr

/-- The state of the host port (R164, R170), the level of the CSN pin, and the bytes on SI. -/
structure Port where
  phase : Phase
  command : Option CommandInHand
  response : Option ResponseInHand
  frameFault : Bool
  station : Code5
  csnLow : Bool
  /-- The model's own, as the queue of commands is: the bytes that the host clocks in on SI in
  this low period of CSN, one in each byte period that passes between commands (log 9). -/
  incoming : List Byte
  deriving DecidableEq, Repr

/-! ### The station -/

/-- The whole state: the blocks, RESETN, and the model's own queue of waiting commands. -/
structure State where
  /-- RESETN is held low (R8, R164). -/
  resetHeld : Bool
  line : Line
  loop : Loop
  tracker : Tracker
  engine : Engine
  watch : Watch
  home : Vector HomeEntry 32
  queues : Queues
  port : Port
  /-- Commands waiting, first in, first out. -/
  pending : List Instr
  deriving DecidableEq, Repr

/-- Reasons for a fault: none, since every event of the spec has its effect in every state. -/
inductive Fault
  deriving DecidableEq, Repr

/-- Reasons for a refusal. -/
inductive Refusal
  /-- Raised by exec alone, for a row of the table that has no meaning yet; safe, since the model
  stops there. No arm raises it now. -/
  | notModelled (mnemonic : String)
  deriving DecidableEq, Repr

/-! ### Reset values -/

/-- The line interface after station reset (R17); the signal-loss interval starts at release. R17
gives the fill symbols owed no value: that none are owed is a DESIGN CHOICE (log 33). -/
def Line.reset : Line :=
  { receiver := .hunting, fill := .idle, breakCount := 0, signal := .present, interval := .stopped
    store := [], gap := 0, mode := .repeating, fillFollowing := true }

/-- Loop control after station reset (R18, R156). -/
def Loop.reset : Loop :=
  { state := .offline, hosted := 0#8, restore := false, attempt := 0, yielded := false
    lastAnswered := none, role := .none, buildMarks := 0, inserted := false, roster := []
    formation := 0#8, latestFormation := 0#8, lastReason := none
    listenTimer := .stopped, censusTimer := .stopped, yieldTimer := .stopped
    buildTimer := .stopped, holdTimer := .stopped }

/-- The position tracker after station reset (R42). -/
def Tracker.reset : Tracker :=
  { activity := .inactive, position := 0, damage := 0, revolution := 0#16, rev := false
    lastFault := none }

/-- The request engine after station reset (R82, R112). -/
def Engine.reset : Engine :=
  { table := [], acceptance := 0#16, sweep := { active := false, released := 0, marks := 0 } }

/-- A watch entry after station reset (R120). -/
def WatchEntry.reset : WatchEntry :=
  { enabled := false, value := ⟨0#5, 0#5⟩, stationCare := 0#5, indexCare := 0#5
    trigger := .change, capture := false }

/-- The watch unit after station reset (R120). -/
def Watch.reset : Watch := { entries := Vector.replicate 8 WatchEntry.reset, seen := [] }

/-- A home image entry after station reset (R132). -/
def HomeEntry.reset : HomeEntry :=
  { payload := Vector.replicate 32 0#16, generation := 0#8, source := .zero }

/-- The queues after station reset (R142, R148). -/
def Queues.reset : Queues := { completions := [], notices := [], lost := 0 }

/-- The host port after station reset (R164). The station number before the release samples it, and
the level of CSN, are DESIGN CHOICES (log 2, 4). -/
def Port.reset : Port :=
  { phase := .idle, command := none, response := none, frameFault := false, station := 0#5
    csnLow := false, incoming := [] }

/-- The machine right after reset: every block at its reset value with RESETN held low (R41,
R164). -/
def State.reset : State :=
  { resetHeld := true
    line := Line.reset
    loop := Loop.reset
    tracker := Tracker.reset
    engine := Engine.reset
    watch := Watch.reset
    home := Vector.replicate 32 HomeEntry.reset
    queues := Queues.reset
    port := Port.reset
    pending := [] }

end Sys2Proof.Machine
end

