-- ==== Sys2Proof/Machine/Ops.lean ====
section
/-! DEFINITION. The shared operations over the state: entering cells into the forwarding store,
posting notices, completing requests, the roster arithmetic of positions, the views of the output
pins, and the entry into BROKEN, which every cause of a break takes. -/

namespace Sys2Proof.Machine

/-! ### The forwarding store (R12, R13) -/

/-- Enters a cell at the end of a store; a cell that finds it full is discarded (R12). -/
def storeEnter (store : List Cell) (c : Cell) : List Cell :=
  if store.length < Config.storeCapacity then store ++ [c] else store

/-- Enters a cell into the forwarding store after every entry already made (R13). -/
def State.enterCell (s : State) (c : Cell) : State :=
  { s with line := { s.line with store := storeEnter s.line.store c } }

/-- Enters cells into the forwarding store in the order given (R13). -/
def State.enterCells (s : State) (cs : List Cell) : State := cs.foldl State.enterCell s

/-! ### Notices (R148, R150) -/

/-- Enters a notice at the end of the queue, or drops and counts it when the queue is full; the lost
count stays at its greatest value (R150). -/
def Queues.post (q : Queues) (n : Notice) : Queues :=
  if q.notices.length < Config.noticeCapacity then { q with notices := q.notices ++ [n] }
  else { q with lost := min (q.lost + 1) Config.maxLost }

/-- Posts a notice stamped with the revolution count (R48, R149). -/
def State.post (s : State) (b : NoticeBody) : State :=
  { s with queues := s.queues.post ⟨b, s.tracker.revolution⟩ }

/-! ### Completions (R65, R143, R144) -/

/-- The completion record of an entry, with the items that do not depend on the result. -/
def Entry.completion (e : Entry) (revolution : Word) (result : Result) (data : CompletionData) :
    Completion :=
  { tag := e.tag, request := e.request, position := e.position, acceptance := e.acceptance
    result, returned := false, how := none, revolution, data }

/-- Pushes completion records in the order given (R143). -/
def State.pushRecords (s : State) (records : List Completion) : State :=
  { s with queues := { s.queues with completions := s.queues.completions ++ records } }

/-- Replaces the request table. -/
def State.withTable (s : State) (table : List Entry) : State :=
  { s with engine := { s.engine with table } }

/-- Table entries and completion records together (R62). -/
def State.commitment (s : State) : Nat :=
  s.engine.table.length + s.queues.completions.length

/-! ### Requests -/

/-- The kind of a request. -/
def Request.kind : Request → RequestKind
  | .read _ => .read
  | .header _ => .header
  | .peek _ => .peek
  | .write _ _ _ _ => .write
  | .verify _ _ _ => .verify
  | .claim _ => .claim
  | .release _ => .release

/-- The address that an ownership request (CLAIM or RELEASE) names (R58). -/
def Request.ownershipTarget : Request → Option Address
  | .claim a => some a
  | .release a => some a
  | .read _ => none
  | .header _ => none
  | .peek _ => none
  | .write _ _ _ _ => none
  | .verify _ _ _ => none

/-- Whether the entry is a CLAIM whose target position is `p` (R104). -/
def Entry.claimsAt (p : Nat) (e : Entry) : Bool := e.request.kind == .claim && e.position == p

/-! ### Positions (R44) -/

/-- The total of the hosted counts of a roster: T for the stored roster (R5). -/
def rosterTotal : List RosterEntry → Nat
  | [] => 0
  | e :: es => e.hosted.toNat + rosterTotal es

/-- The expected address of position `p`, 1 to T: each entry covers as many positions as its hosted
count (R44). Positions that the roster does not cover have none; 0.0 stands there unread. -/
def expectedAddress : List RosterEntry → Nat → Address
  | [], _ => ⟨0#5, 0#5⟩
  | e :: es, p =>
    if p ≤ e.hosted.toNat then ⟨field5 e.station, BitVec.ofNat 5 (p - 1)⟩
    else expectedAddress es (p - e.hosted.toNat)

/-- The position of an address, if it belongs to the loop (R44, reverse mapping). -/
def positionOf : List RosterEntry → Address → Option Nat
  | [], _ => none
  | e :: es, a =>
    if e.station = codeByte a.station then
      if a.index.toNat < e.hosted.toNat then some (1 + a.index.toNat) else none
    else (positionOf es a).map (e.hosted.toNat + ·)

/-- T, the number of data cells of the loop whose roster is stored (R5). -/
def State.total (s : State) : Nat := rosterTotal s.loop.roster

/-! ### Views of the output pins -/

/-- ATTN: asserted while either queue holds a record (R153). -/
def State.attn (s : State) : Bool :=
  !(s.queues.completions.isEmpty && s.queues.notices.isEmpty)

/-- What LOUT carries. -/
inductive LineOutput
  | silent
  | breakSymbols
  | idleSymbols
  | cell (cell : Cell)
  deriving DecidableEq, Repr

/-- The fill symbols that follow a transmitted cell or fill an empty store: break symbols in BREAK
HOLD, and in REPEAT with fill following while the input fill indication is BREAK; idle symbols
otherwise (R12, R14 to R16). -/
def Line.fillOutput (l : Line) : LineOutput :=
  match l.mode with
  | .breakHold => .breakSymbols
  | .censusOnly => .idleSymbols
  | .repeating => if l.fillFollowing && l.fill == .breakFill then .breakSymbols else .idleSymbols

/-- What LOUT carries: no valid symbol while RESETN is held (R8), break symbols alone in BREAK HOLD
(R16), else fill while a transmitted cell is owed any, then the oldest stored cell, or fill when the
store is empty (R12, R14, R15). -/
def State.lout (s : State) : LineOutput :=
  if s.resetHeld then .silent
  else if s.line.mode = .breakHold then .breakSymbols
  else if 0 < s.line.gap then s.line.fillOutput
  else
    match s.line.store with
    | [] => s.line.fillOutput
    | c :: _ => .cell c

/-- What SO carries `k` byte periods from now while it is driven: the bytes of the response in
hand from its index on, then the fill byte (R169, R179); the fill byte in RECEIVING (R165). With
CSN low in IDLE, after a release that found it low, the spec gives SO no byte, and the fill byte
there is the model's choice (log 31). -/
def State.so (s : State) (k : Nat) : Byte :=
  match s.port.response with
  | none => Config.fillByte
  | some r => r.bytes.getD (r.next + k) Config.fillByte

/-- Whether SO is driven: it is high-impedance while CSN is high and while RESETN is low (R180). -/
def State.soDriven (s : State) : Bool := s.port.csnLow && !s.resetHeld

/-! ### Changes of loop state -/

/-- A change of loop state stops the four formation timers (R18). -/
def Loop.timersStopped (l : Loop) : Loop :=
  { l with listenTimer := .stopped, censusTimer := .stopped, yieldTimer := .stopped
           buildTimer := .stopped }

/-- The LOOP STATE notice of a change from `former` to the loop state that `l` holds (R19, R149):
the reason with BROKEN and EXCLUDED, the formation number with BUILD and RUNNING, the role with
BUILD. -/
def Loop.notice (l : Loop) (former : LoopState) : NoticeBody :=
  .loopState l.state former
    (if l.state = .broken ∨ l.state = .excluded then l.lastReason else none)
    (if l.state = .build ∨ l.state = .running then some l.formation else none)
    (if l.state = .build then l.role else .none)

/-- Stores loop control's state after a change of loop state and posts its notice (R19). -/
def State.changeLoop (s : State) (l : Loop) : State :=
  { s with loop := l }.post (l.notice s.loop.state)

/-- Selects REPEAT with fill following off (R17). -/
def Line.repeatPlain (l : Line) : Line := { l with mode := .repeating, fillFollowing := false }

/-- Loop control on entry into BROKEN (R155, action 1). -/
def Loop.broken (l : Loop) (reason : Reason) : Loop :=
  { l.timersStopped with
    state := .broken, lastReason := some reason, role := .none, buildMarks := 0
    holdTimer := .running }

/-- The line interface on entry into BROKEN: BREAK HOLD, which empties the store (R16, R155). -/
def Line.held (l : Line) : Line := { l with mode := .breakHold, store := [] }

/-- Every table entry completes with LOOP BROKEN in list order (R81). -/
def State.completeBroken (s : State) : State :=
  (s.withTable []).pushRecords
    (s.engine.table.map fun e => e.completion s.tracker.revolution .loopBroken .none)

/-- An active release sweep ends with an INCOMPLETE notice on entry into BROKEN (R115). -/
def State.endSweepBroken (s : State) : State :=
  if s.engine.sweep.active then
    { s with engine := { s.engine with sweep := { s.engine.sweep with active := false } } }.post
      (.sweepDone s.engine.sweep.released false)
  else s

/-- Every seen entry becomes invalid (R126). -/
def State.forgetSeen (s : State) : State := { s with watch := { s.watch with seen := [] } }

/-- The tracker becomes INACTIVE and clears its position and damage counts (R42, R56). -/
def Tracker.stopped (t : Tracker) : Tracker :=
  { t with activity := .inactive, position := 0, damage := 0 }

/-- The entry into BROKEN, with the six actions of R155 in their order. -/
def State.enterBroken (s : State) (reason : Reason) : State :=
  let s1 := { s with line := s.line.held }.changeLoop (s.loop.broken reason)
  let s2 := s1.completeBroken.endSweepBroken.forgetSeen
  { s2 with tracker := s2.tracker.stopped }

/-- A report of break fill received or of signal loss: it breaks a RUNNING, BUILD or EXCLUDED
station and changes nothing in OFFLINE, CENSUS and BROKEN (R20, R31, R37, R39, R154, R157). -/
def State.breakReport (s : State) (reason : Reason) : State :=
  match s.loop.state with
  | .running => s.enterBroken reason
  | .build => s.enterBroken reason
  | .excluded => s.enterBroken reason
  | .offline => s
  | .census => s
  | .broken => s

end Sys2Proof.Machine
end

