-- ==== Sys2Proof/Machine/HomeImage.lean ====
section
/-! DEFINITION. The home image: the refresh of an entry from a clean departing cell (spec 08). -/

namespace Sys2Proof.Machine

/-- Home image entry `i`. -/
def State.homeEntry (s : State) (i : Nat) : HomeEntry := s.home.toList.getD i HomeEntry.reset

/-- Replaces home image entry `i` whole. -/
def State.withHomeEntry (s : State) (i : Nat) (e : HomeEntry) : State :=
  { s with home := s.home.setIfInBounds i e }

/-- The refresh at a passage: a departing cell of this station with DAMAGED clear replaces the entry
of its index; any other changes nothing (R133). -/
def State.refreshHome (s : State) (c : Cell) : State :=
  if c.header.address.station = s.port.station ∧ c.header.damaged = false then
    s.withHomeEntry c.header.address.index.toNat
      { payload := c.payload, generation := c.header.generation, source := .refreshed }
  else s

end Sys2Proof.Machine
end

