-- ==== Sys2Proof/Machine/CellBuild.lean ====
section
/-! DEFINITION. The cells that a station builds or rewrites: MARK, TAIL, CENSUS, hosted cells, the
answered census, and the repaired and marked data cell. Unused bits of a built cell are zero; an
altered cell keeps every bit it does not write (R177). -/

namespace Sys2Proof.Machine

/-- A built header of a kind, with zero in every byte not given and its check to be computed. -/
def builtHeader (kind : CellKind) (b2 b3 b4 : Byte) : Header :=
  { kindCode := kind.code, byte2 := b2, byte3 := b3, byte4 := b4
    byte5 := 0#8, byte6 := 0#8, byte7 := 0#8, check := 0#8 }

/-- A cell of a kind with the given header bytes 2 to 4 and payload, both checks computed. -/
def builtCell (kind : CellKind) (b2 b3 b4 : Byte) (p : Payload) : Cell :=
  { kind, header := builtHeader kind b2 b3 b4, payload := p, payloadCheck := 0#16 : Cell }.sealed

/-- The MARK of a formation number and a roster (R5, R32, R46). -/
def builtMark (formation : Byte) (roster : List RosterEntry) : Cell :=
  builtCell .mark formation (natByte roster.length) 0#8 (payloadOfEntries roster)

/-- The TAIL of an originator and a formation number (R7, R32, R35). -/
def builtTail (originator : Code5) (formation : Byte) : Cell :=
  builtCell .tail (codeByte originator) formation 0#8 zeroPayload

/-- The census that a station originates: its own number, the attempt number and its own entry
(R23). -/
def builtCensus (me : Code5) (attempt : Nat) (hosted : Byte) : Cell :=
  builtCell .census (codeByte me) (natByte attempt) 1#8 (payloadOfEntries [⟨codeByte me, hosted⟩])

/-- A census with an entry appended after the last one, the count raised, and both checks computed
afresh (R6, R25). -/
def answeredCensus (c : Cell) (e : RosterEntry) : Cell :=
  { c with
    header := { c.header with byte4 := c.header.byte4 + 1#8 }
    payload := writeWords c.payload c.header.entryCount.toNat [entryWord e] : Cell }.sealed

/-- The hosted cell of an index: from the home image with RESTORED set when the START asked for
restore, else zero words and generation 0 (R2, R3, R33, R136). -/
def State.hostedCell (s : State) (i : Nat) : Cell :=
  let e := s.homeEntry i
  { kind := .data
    header :=
      { kindCode := CellKind.code .data
        byte2 := codeByte s.port.station
        byte3 := natByte i
        byte4 := if s.loop.restore then e.generation else 0#8
        byte5 := 0#8
        byte6 := 0#8
        byte7 := if s.loop.restore then 0x04#8 else 0#8
        check := 0#8 }
    payload := if s.loop.restore then e.payload else zeroPayload
    payloadCheck := 0#16 : Cell }.sealed

/-- The station's hosted cells, indices 0 to h−1 in index order (R32, R35). -/
def State.hostedCells (s : State) : List Cell :=
  (List.range s.loop.hosted.toNat).map s.hostedCell

/-- Header repair: the header rewritten whole with the expected address and DAMAGED set, the payload
and its check kept as received (R50). -/
def repairedCell (c : Cell) (expected : Address) : Cell :=
  { c with
    header :=
      { kindCode := CellKind.code .data
        byte2 := codeByte expected.station
        byte3 := codeByte expected.index
        byte4 := 0#8
        byte5 := 0#8
        byte6 := 0#8
        byte7 := 0x02#8
        check := 0#8 } : Cell }.headerSealed

/-- Payload marking: DAMAGED set and the header check computed afresh, all else as received (R51).
-/
def markedCell (c : Cell) : Cell :=
  { c with header := c.header.withDamaged true : Cell }.headerSealed

end Sys2Proof.Machine
end

