-- ==== Sys2Proof/Machine/WatchUnit.lean ====
section
/-! DEFINITION. The watch unit: matching, the comparison of an arriving cell and its notice, and the
seen table (spec 07). -/

namespace Sys2Proof.Machine

/-! ### The seen table (R125, R126) -/

/-- The valid seen entry of position `p`, if any. -/
def seenAt (seen : List (Nat × Seen)) (p : Nat) : Option Seen :=
  (seen.find? fun e => e.1 == p).map (·.2)

/-- Makes seen entry `p` valid with the given content, keeping positions strictly rising. -/
def recordSeen (p : Nat) (v : Seen) : List (Nat × Seen) → List (Nat × Seen)
  | [] => [(p, v)]
  | e :: es =>
    if p < e.1 then (p, v) :: e :: es
    else if p = e.1 then (p, v) :: es
    else e :: recordSeen p v es

/-- Records the departing cell in the seen entry of its position (R125). -/
def State.recordDeparture (s : State) (p : Nat) (c : Cell) : State :=
  { s with
    watch := { s.watch with
      seen := recordSeen p ⟨c.header.generation, c.header.owner⟩ s.watch.seen } }

/-! ### Matching and firing (R121, R127) -/

/-- An enabled entry matches an address when every bit cared for is equal (R121). -/
def WatchEntry.covers (w : WatchEntry) (a : Address) : Bool :=
  w.enabled && (a.station ^^^ w.value.station) &&& w.stationCare == 0#5
    && (a.index ^^^ w.value.index) &&& w.indexCare == 0#5

/-- Whether a trigger fires on the differences found (R127). -/
def Trigger.firesOn (t : Trigger) (generationDiffers ownerDiffers : Bool) : Bool :=
  match t with
  | .change => generationDiffers
  | .owner => ownerDiffers
  | .both => generationDiffers || ownerDiffers

/-- Whether the trigger looks at the generation. -/
def Trigger.onGeneration : Trigger → Bool
  | .change => true
  | .owner => false
  | .both => true

/-- The watch report of an arriving cell compared with its seen entry, if an entry fires (R127,
R128). -/
def watchReport (entries : List WatchEntry) (old : Seen) (p : Nat) (c : Cell) :
    Option WatchReport :=
  let generationDiffers := c.header.generation != old.generation
  let ownerDiffers := c.header.owner != old.owner
  let fires := fun w : WatchEntry =>
    w.covers c.header.address && w.trigger.firesOn generationDiffers ownerDiffers
  if entries.any fires then
    some
      { changed := generationDiffers && entries.any fun w => fires w && w.trigger.onGeneration
        address := c.header.address
        position := p
        firing := entries.map fires
        generationDiffered := generationDiffers
        ownerDiffered := ownerDiffers
        oldGeneration := old.generation
        oldOwner := old.owner
        newGeneration := c.header.generation
        newOwner := c.header.owner
        damaged := c.header.damaged
        payload := if entries.any fun w => fires w && w.capture then some c.payload else none }
  else none

/-- The comparison of a passage: at most one watch notice, and none when the seen entry is invalid
(R127, R129). -/
def State.watchCompare (s : State) (p : Nat) (c : Cell) : State :=
  match seenAt s.watch.seen p with
  | none => s
  | some old =>
    match watchReport s.watch.entries.toList old p c with
    | none => s
    | some report => s.post (.watch report)

end Sys2Proof.Machine
end

