-- ==== Sys2Proof/Machine/Engine.lean ====
section
/-! DEFINITION. The request engine: the stages of a passage (R84), the service of each request kind
(spec 05, 06), and what a MARK passage does to the table and to a release sweep (R73 to R75,
R114). -/

namespace Sys2Proof.Machine

/-- The arriving cell as the tracker hands it on (R53). -/
structure Arrival where
  position : Nat
  raw : Reception
  repaired : Repaired
  cell : Cell
  deriving DecidableEq, Repr

/-- The cell in hand, and whether a WRITE has been served on it at this passage (R83, R85). -/
structure Hand where
  cell : Cell
  wrote : Bool
  deriving DecidableEq, Repr

/-- What a turn in the serve window does to its entry (R88). -/
inductive Verdict
  | stays (state : EntryState)
  | ends (result : Result) (data : CompletionData) (how : Option How)
  deriving DecidableEq, Repr

/-- The header of the cell in hand. -/
def Hand.header (h : Hand) : Header := h.cell.header

/-- Rewrites the header of the cell in hand. -/
def Hand.withHeader (h : Hand) (header : Header) : Hand := { h with cell := { h.cell with header } }

/-- The result that an ending stands for (R75, R76). -/
def Ending.result : Ending → Result
  | .timeout => .timeout
  | .aborted => .aborted

/-- The header fields that READ and HEADER report (R91, R92). -/
def headerSummary (h : Header) : HeaderSummary :=
  { address := h.address, generation := h.generation, owner := h.owner, reserver := h.reserver
    handoff := h.handoff, damaged := h.damaged, restored := h.restored }

/-! ### Service of READ, HEADER, PEEK, WRITE and VERIFY (spec 05) -/

/-- READ (R91). -/
def serveRead (h : Hand) : Hand × Verdict :=
  (h, .ends (if h.header.damaged then .damaged else .done) (.cell (headerSummary h.header) h.cell.payload)
    none)

/-- HEADER (R92). -/
def serveHeader (h : Hand) : Hand × Verdict :=
  (h, .ends .done (.header (headerSummary h.header)) none)

/-- PEEK: the raw form, whatever the passage has changed (R93). -/
def servePeek (a : Arrival) (h : Hand) : Hand × Verdict :=
  (h, .ends .done
    (.raw a.raw.cell.header a.raw.cell.payload a.raw.headerGood a.raw.payloadGood a.repaired) none)

/-- The cell in hand written (R95). -/
def Hand.written (h : Hand) (first : Nat) (words : List Word) : Hand :=
  { cell :=
      { h.cell with
        header := ((h.header.withGeneration (h.header.generation + 1#8)).withDamaged
          false).withRestored false
        payload := writeWords h.cell.payload first words }
    wrote := true }

/-- WRITE: the first condition of R94 that holds gives the result; otherwise the cell is written. -/
def serveWrite (me : Code5) (first : Nat) (words : List Word) (expected : Option Byte) (h : Hand) :
    Hand × Verdict :=
  if h.header.owner ≠ noStation ∧ h.header.owner ≠ me then
    (h, .ends .owned (.owned h.header.owner h.header.generation) none)
  else if expected.any (· != h.header.generation) then
    (h, .ends .stale (.generation h.header.generation) none)
  else if h.header.damaged ∧ ¬(first = 0 ∧ words.length = 32) then
    (h, .ends .damaged (.generation h.header.generation) none)
  else
    let h' := h.written first words
    (h', .ends .done (.generation h'.header.generation) none)

/-- The lowest-numbered word of a range that differs from the words given, with the cell's value
(R97). -/
def firstMismatch (p : Payload) : Nat → List Word → Option (Nat × Word)
  | _, [] => none
  | i, w :: ws => if payloadWord p i = w then firstMismatch p (i + 1) ws else some (i, payloadWord p i)

/-- VERIFY (R97). -/
def serveVerify (first : Nat) (words : List Word) (h : Hand) : Hand × Verdict :=
  if h.header.damaged then (h, .ends .damaged (.generation h.header.generation) none)
  else
    match firstMismatch h.cell.payload first words with
    | none => (h, .ends .done (.generation h.header.generation) none)
    | some (i, w) => (h, .ends .mismatch (.mismatch i w h.header.generation) none)

/-! ### Service of CLAIM and RELEASE (spec 06) -/

/-- CLAIM by the ownership fields of the cell in hand; the entry's state does not select the row
(R99). -/
def serveClaim (me : Code5) (h : Hand) : Hand × Verdict :=
  if h.header.owner = noStation then
    (h.withHeader (h.header.withOwner me),
      .ends .done (.claimed h.header.generation h.header.reserver) (some .takenFree))
  else if h.header.owner = me then
    (h, .ends .done (.claimed h.header.generation h.header.reserver) (some .alreadyOwner))
  else if h.header.reserver = noStation then
    (h.withHeader (h.header.withReserver me), .stays .reserved)
  else if h.header.reserver = me then (h, .stays .reserved)
  else (h, .stays .pending)

/-- Withdrawal of a WITHDRAWING CLAIM (R108). -/
def serveWithdrawal (me : Code5) (ending : Ending) (h : Hand) : Hand × Verdict :=
  (if h.header.reserver = me then h.withHeader (h.header.withReserver noStation) else h,
    .ends ending.result .none none)

/-- RELEASE (R102). -/
def serveRelease (me : Code5) (h : Hand) : Hand × Verdict :=
  if h.header.owner = me then
    let h' := h.withHeader h.header.passedOn
    (h', .ends .done (.released h'.header.owner h.header.generation) none)
  else (h, .ends .notOwner (.notOwner h.header.owner h.header.handoff) none)

/-- One entry's turn in the serve window, by its kind (R88). -/
def serveEntry (me : Code5) (a : Arrival) (e : Entry) (h : Hand) : Hand × Verdict :=
  match e.request with
  | .read _ => serveRead h
  | .header _ => serveHeader h
  | .peek _ => servePeek a h
  | .write _ first words expected => serveWrite me first words expected h
  | .verify _ first words => serveVerify first words h
  | .claim _ =>
    match e.state with
    | .pending => serveClaim me h
    | .reserved => serveClaim me h
    | .withdrawing ending => serveWithdrawal me ending h
  | .release _ => serveRelease me h

/-! ### The serve window (R87 to R89) -/

/-- The outcome of the service stage: the cell in hand, the entries kept in list order with a mark
on those deferred, and the records of those completed. -/
structure Service where
  hand : Hand
  kept : List (Entry × Bool)
  records : List Completion
  deriving DecidableEq, Repr

/-- Takes up the matching entries in list order while places remain; the rest are deferred (R88). -/
def serveEntries (me : Code5) (a : Arrival) (revolution : Word) :
    Nat → List Entry → Hand → Service
  | _, [], h => ⟨h, [], []⟩
  | places, e :: es, h =>
    if e.position = a.position then
      match places with
      | 0 =>
        let r := serveEntries me a revolution 0 es h
        { r with kept := (e, true) :: r.kept }
      | n + 1 =>
        let turn := serveEntry me a e h
        let r := serveEntries me a revolution n es turn.1
        match turn.2 with
        | .stays state => { r with kept := ({ e with state }, false) :: r.kept }
        | .ends result data how =>
          { r with records := { e.completion revolution result data with how } :: r.records }
    else
      let r := serveEntries me a revolution places es h
      { r with kept := (e, false) :: r.kept }

/-- A deferred RESERVED entry becomes PENDING when the cell in hand at the end of the stage does not
have this station as reserver; every other deferred entry keeps its state (R89). -/
def settleDeferred (me : Code5) (h : Hand) (e : Entry × Bool) : Entry :=
  if e.2 ∧ e.1.state = .reserved ∧ h.header.reserver ≠ me then { e.1 with state := .pending }
  else e.1

/-! ### The stages of a passage (R84) -/

/-- Stage 1, the handoff step: it acts on a cell owned by this station with HANDOFF set, and answers
the places left in the serve window (R88, R104 to R107). -/
def State.handoffStep (s : State) (a : Arrival) (h : Hand) : State × Hand × Nat :=
  if h.header.owner = s.port.station ∧ h.header.handoff = true then
    let returned := h.withHeader h.header.passedOn
    match s.engine.table.find? (Entry.claimsAt a.position) with
    | none =>
      (s.post (.orphanReturned h.header.address a.position returned.header.owner
        h.header.generation), returned, Config.servePlaces)
    | some e =>
      let s' := s.withTable (s.engine.table.eraseP (Entry.claimsAt a.position))
      match e.state with
      | .withdrawing ending =>
        (s'.pushRecords
          [{ e.completion s.tracker.revolution ending.result
              (.returned returned.header.owner h.header.generation) with returned := true }],
          returned, Config.servePlaces - 1)
      | .pending =>
        (s'.pushRecords
          [{ e.completion s.tracker.revolution .done
              (.claimed h.header.generation h.header.reserver) with how := some .handedOver }],
          h.withHeader (h.header.withHandoff false), Config.servePlaces - 1)
      | .reserved =>
        (s'.pushRecords
          [{ e.completion s.tracker.revolution .done
              (.claimed h.header.generation h.header.reserver) with how := some .handedOver }],
          h.withHeader (h.header.withHandoff false), Config.servePlaces - 1)
  else (s, h, Config.servePlaces)

/-- Stage 2, service of the matching entries within the window (R87 to R90). -/
def State.serviceStage (s : State) (a : Arrival) (places : Nat) (h : Hand) : State × Hand :=
  let r := serveEntries s.port.station a s.tracker.revolution places s.engine.table h
  ((s.withTable (r.kept.map (settleDeferred s.port.station r.hand))).pushRecords r.records, r.hand)

/-- Stage 3, the release sweep: while it is active, a cell owned by this station is passed on and
counted (R113). -/
def State.sweepStage (s : State) (h : Hand) : State × Hand :=
  if s.engine.sweep.active = true ∧ h.header.owner = s.port.station then
    ({ s with engine := { s.engine with
        sweep := { s.engine.sweep with released := s.engine.sweep.released + 1 } } },
      h.withHeader h.header.passedOn)
  else (s, h)

/-- Stage 4, stale reservation clearing: a reservation of this station's with no RESERVED CLAIM
entry for the position is removed and reported (R110). -/
def State.staleStage (s : State) (a : Arrival) (h : Hand) : State × Hand :=
  if h.header.reserver = s.port.station
      ∧ (s.engine.table.any fun e => e.claimsAt a.position && e.state == .reserved) = false then
    (s.post (.staleReservation h.header.address a.position h.header.owner h.header.generation),
      h.withHeader (h.header.withReserver noStation))
  else (s, h)

/-- The checks of the departing cell: both afresh after a WRITE, the header's afresh after a
change of the header, as the cell arrived otherwise (R85). -/
def Hand.departing (h : Hand) (arrived : Cell) : Cell :=
  if h.wrote then h.cell.sealed
  else if h.cell.header = arrived.header then h.cell
  else h.cell.headerSealed

/-- The watch comparison and the four stages, each from the cell in hand as the one before left it
(R84, R129). -/
def State.stages (s : State) (a : Arrival) : State × Hand :=
  let r1 := (s.watchCompare a.position a.cell).handoffStep a ⟨a.cell, false⟩
  let r2 := r1.1.serviceStage a r1.2.2 r1.2.1
  let r3 := r2.1.sweepStage r2.2
  r3.1.staleStage a r3.2

/-- The departing cell of a passage (R85). -/
def State.departing (s : State) (a : Arrival) : Cell := (s.stages a).2.departing a.cell

/-- A passage at the request engine: the stages, and the handing on of the departing cell to the
seen table, the home image and the forwarding store (R84, R86, R133). -/
def State.passage (s : State) (a : Arrival) : State :=
  (((s.stages a).1.recordDeparture a.position (s.departing a)).refreshHome
    (s.departing a)).enterCell (s.departing a)

/-! ### The MARK passage at the request engine (R73 to R75, R114) -/

/-- Marks seen rises by one in PENDING and RESERVED and is held in WITHDRAWING (R73). -/
def Entry.markSeen (e : Entry) : Entry :=
  match e.state with
  | .pending => { e with marks := e.marks + 1 }
  | .reserved => { e with marks := e.marks + 1 }
  | .withdrawing _ => e

/-- Marks seen equals the pass limit plus one (R74). -/
def Entry.atLimit (e : Entry) : Bool := e.marks == e.passLimit + 1

/-- A PENDING entry at its limit, which times out (R74). -/
def Entry.timesOut (e : Entry) : Bool := e.state == .pending && e.atLimit

/-- A RESERVED entry at its limit becomes WITHDRAWING with ending TIMEOUT (R75). -/
def Entry.limitReached (e : Entry) : Entry :=
  if e.state = .reserved ∧ e.atLimit = true then { e with state := .withdrawing .timeout } else e

/-- The timeouts of a MARK passage, in list order (R73 to R75). -/
def State.markTimeouts (s : State) : State :=
  let table := s.engine.table.map Entry.markSeen
  (s.withTable ((table.filter fun e => !e.timesOut).map Entry.limitReached)).pushRecords
    ((table.filter Entry.timesOut).map fun e => e.completion s.tracker.revolution .timeout .none)

/-- The MARK passage of an active release sweep; the second ends it (R114). -/
def State.markSweep (s : State) : State :=
  if s.engine.sweep.active then
    if s.engine.sweep.marks + 1 = 2 then
      { s with engine := { s.engine with
          sweep := { s.engine.sweep with active := false, marks := s.engine.sweep.marks + 1 } } }.post
        (.sweepDone s.engine.sweep.released true)
    else
      { s with engine := { s.engine with
          sweep := { s.engine.sweep with marks := s.engine.sweep.marks + 1 } } }
  else s

end Sys2Proof.Machine
end

