-- ==== Sys2Proof/Machine/PositionTracker.lean ====
section
/-! DEFINITION. The position tracker: the judgement of arrivals in RUNNING, MARK passages, the
checks and repairs of data cells, position faults and damage bursts (spec 03). -/

namespace Sys2Proof.Machine

/-! ### Faults and findings -/

/-- Raises a position fault: it is recorded, the arrival is not handed on, and loop control enters
BROKEN (R54). -/
def State.positionFault (s : State) (cause : FaultCause) (position : Nat) : State :=
  { s with tracker := { s.tracker with
      lastFault := some ⟨cause, position, s.tracker.revolution⟩ } }.enterBroken .positionFault

/-- A finding: its DAMAGE FOUND notice is posted, then the damage count goes up by one (R52, R55).
-/
def State.found (s : State) (finding : Finding) (position : Nat) (payloadGood : Bool) : State :=
  let s1 := s.post (.damageFound finding position payloadGood (s.tracker.damage + 1))
  { s1 with tracker := { s1.tracker with damage := s1.tracker.damage + 1 } }

/-- A repaired or marked cell is handed on, unless its finding has brought the damage count to 8,
which raises a damage burst instead (R55). -/
def State.handOnFound (s : State) (a : Arrival) : State :=
  if Config.burstFindings ≤ s.tracker.damage then s.enterBroken .damageBurst else s.passage a

/-! ### The MARK (R45 to R48) -/

/-- Actions 1 to 3 of a MARK passage: the counters restart, the revolution count goes up by one and
REV changes level (R47). -/
def Tracker.newRevolution (t : Tracker) : Tracker :=
  { t with position := 0, damage := 0, revolution := t.revolution + 1#16, rev := !t.rev }

/-- The actions of R47 at a MARK passage. `rewritten` is, for a MARK rewritten at this passage, its
payload check as received. -/
def State.markPassage (s : State) (mark : Cell) (rewritten : Option Bool) : State :=
  let s1 := { s with tracker := s.tracker.newRevolution }
  let s2 :=
    match rewritten with
    | none => s1
    | some payloadGood => s1.found .mark 0 payloadGood
  s2.markTimeouts.markSweep.enterCell mark

/-- The MARK carries the stored formation number and roster (R34, R36, R46). A MARK that is not well
formed carries no roster. -/
def State.ownMark (s : State) (c : Cell) : Bool :=
  c.markWellFormed && c.header.markFormation == s.loop.formation && c.roster == s.loop.roster

/-- The MARK rewritten from the stored roster and formation number (R34, R36, R46). -/
def State.rewrittenMark (s : State) : Cell := builtMark s.loop.formation s.loop.roster

/-- A MARK at position 0 (R46). -/
def State.checkMark (s : State) (r : Reception) : State :=
  if r.good then
    if s.ownMark r.cell then s.markPassage r.cell none else s.positionFault .foreignMark 0
  else s.markPassage s.rewrittenMark (some r.payloadGood)

/-! ### Data cells (R49 to R53) -/

/-- What the examination of a data cell finds (R49). -/
inductive CheckOutcome
  | passed
  | repair (cause : RepairCause)
  | marking
  deriving DecidableEq, Repr

/-- The examination of a data cell; the first matching row of R49 gives the outcome. -/
def examine (r : Reception) (expected : Address) : CheckOutcome :=
  if r.headerGood = false then .repair .check
  else if r.cell.header.address ≠ expected then .repair .address
  else if r.cell.header.ownershipGood = false then .repair .ownership
  else if r.payloadGood = false ∧ r.cell.header.damaged = false then .marking
  else .passed

/-- A data cell accepted at position counter + 1 (R45, R49 to R53). -/
def State.checkData (s : State) (r : Reception) : State :=
  let p := s.tracker.position + 1
  let expected := expectedAddress s.loop.roster p
  let s1 := { s with tracker := { s.tracker with position := p } }
  match examine r expected with
  | .passed => s1.passage ⟨p, r, .none, r.cell⟩
  | .repair cause =>
    (s1.found (.header expected r.cell.header.address cause) p r.payloadGood).handOnFound
      ⟨p, r, .header, repairedCell r.cell expected⟩
  | .marking =>
    (s1.found (.payload expected r.cell.header.address) p r.payloadGood).handOnFound
      ⟨p, r, .payload, markedCell r.cell⟩

/-! ### The judgement of an arrival -/

/-- The position at which an arrival is judged: position counter + 1, or 0 after position T (R54).
-/
def State.judgedPosition (s : State) : Nat :=
  if s.tracker.position < s.total then s.tracker.position + 1 else 0

/-- The judgement of an arrival in RUNNING by its kind and the position counter (R45, R54). -/
def State.trackArrival (s : State) (r : Reception) : State :=
  match r.cell.kind with
  | .data =>
    if s.tracker.position < s.total then s.checkData r else s.positionFault .markMissing 0
  | .mark =>
    if s.tracker.position < s.total then s.positionFault .markOutOfPlace (s.tracker.position + 1)
    else s.checkMark r
  | .census => s.positionFault .formationCell s.judgedPosition
  | .tail => s.positionFault .formationCell s.judgedPosition

end Sys2Proof.Machine
end

