-- ==== Sys2Proof/Machine/Formation.lean ====
section
/-! DEFINITION. Loop control: the fate of each arriving cell by loop state, the census, the build,
and the entries into CENSUS, BUILD, RUNNING and EXCLUDED (spec 02). -/

namespace Sys2Proof.Machine

/-! ### The formation number (R27) -/

/-- A formation number is later than another when their difference modulo 256 lies in 1 to 127. -/
def laterFormation (n latest : Byte) : Bool :=
  decide (1 ≤ (n - latest).toNat) && decide ((n - latest).toNat ≤ 127)

/-- A received formation number replaces the latest one when it is later (R27). -/
def Loop.hear (l : Loop) (n : Byte) : Loop :=
  { l with latestFormation := if laterFormation n l.latestFormation then n else l.latestFormation }

/-- A well-formed MARK with good checks acts on the latest formation number (R27). -/
def State.hearMark (s : State) (r : Reception) : State :=
  if r.good && r.cell.markWellFormed then
    { s with loop := s.loop.hear r.cell.header.markFormation }
  else s

/-! ### Changes of loop state -/

/-- The entry into CENSUS by an accepted START; BREAK HOLD stays while the hold is running (R17,
R21). -/
def State.enterCensus (s : State) (hosted : Byte) (restore : Bool) : State :=
  { s with
    line := if s.loop.holdTimer = Timer.running then s.line else s.line.repeatPlain }.changeLoop
    { s.loop.timersStopped with
      state := .census, hosted, restore, attempt := 0, yielded := false, lastAnswered := none
      role := .none, buildMarks := 0, listenTimer := .running }

/-- The entry into BUILD with a roster, a formation number and a role; an originator enters its
MARK, its hosted cells and the TAIL (R28, R30, R32). -/
def State.enterBuild (s : State) (roster : List RosterEntry) (formation : Byte) (role : Role) :
    State :=
  let s1 :=
    { s with line := s.line.repeatPlain }.changeLoop
      { s.loop.timersStopped with
        state := .build, role, buildMarks := 0, inserted := false, roster, formation
        buildTimer := .running }
  let s2 := s1.forgetSeen
  match role with
  | .originator =>
    s2.enterCells
      (builtMark formation roster :: (s2.hostedCells ++ [builtTail s2.port.station formation]))
  | .nonOriginator => s2
  | .none => s2

/-- The entry into RUNNING: the tracker starts, with the position counter at T for an originator
(R38, R43). -/
def State.enterRunning (s : State) : State :=
  let s1 :=
    { s with line := s.line.repeatPlain }.changeLoop
      { s.loop.timersStopped with state := .running, role := .none }
  { s1 with tracker := { s1.tracker with
      activity := .active, damage := 0
      position := if s.loop.role = .originator then s.total else s1.tracker.position } }

/-- The entry into EXCLUDED (R30, R40). -/
def State.enterExcluded (s : State) : State :=
  { s with line := s.line.repeatPlain }.changeLoop
    { s.loop.timersStopped with state := .excluded, lastReason := some .notInRoster }

/-! ### OFFLINE and EXCLUDED (R4, R20, R39) -/

/-- The fate of a data cell outside RUNNING where loop control forwards data cells: discarded when
its ownership fields break the conditions, forwarded as received otherwise (R4). -/
def State.forwardData (s : State) (c : Cell) : State :=
  if c.header.ownershipGood then s.enterCell c else s

/-- A repeater's fate of an arriving cell: OFFLINE and EXCLUDED forward all but the data cells
that R4 discards, and read the MARKs they forward (R20, R39). -/
def State.repeatArrival (s : State) (r : Reception) : State :=
  match r.cell.kind with
  | .data => s.forwardData r.cell
  | .mark => (s.hearMark r).enterCell r.cell
  | .census => s.enterCell r.cell
  | .tail => s.enterCell r.cell

/-! ### CENSUS (R22 to R31) -/

/-- Originates a census: the attempt goes up by one, the cell is entered and the census timer starts
(R23). -/
def State.originate (s : State) : State :=
  let attempt := s.loop.attempt + 1
  { s with loop := { s.loop with attempt, censusTimer := .running } }.enterCell
    (builtCensus s.port.station attempt s.loop.hosted)

/-- Answers a census: the entry is appended and the cell forwarded, the station yields and its yield
wait starts afresh (R25, case 3). -/
def State.answerCensus (s : State) (c : Cell) : State :=
  { s with loop := { s.loop with
      lastAnswered := some (c.header.originator, c.header.attemptNumber)
      yielded := true, censusTimer := .stopped, yieldTimer := .running } }.enterCell
    (answeredCensus c ⟨codeByte s.port.station, s.loop.hosted⟩)

/-- The station's own census completes: it becomes the originator of a new loop (R28). -/
def State.completeCensus (s : State) (c : Cell) : State :=
  let formation := s.loop.latestFormation + 1#8
  { s with loop := { s.loop with latestFormation := formation } }.enterBuild c.censusEntries
    formation .originator

/-- A CENSUS cell arriving in CENSUS (R24 to R26). -/
def State.judgeCensus (s : State) (r : Reception) : State :=
  let c := r.cell
  let me := s.port.station
  if ¬(r.good = true ∧ c.censusWellFormed = true) then s
  else if c.header.originator.toNat < me.toNat then
    if s.loop.lastAnswered = some (c.header.originator, c.header.attemptNumber) then s
    else if c.censusEntries.any (fun e => e.station == codeByte me) then
      s.enterBroken .duplicateStation
    else s.answerCensus c
  else if me.toNat < c.header.originator.toNat then s
  else if s.loop.yielded = true ∨ c.header.attemptNumber.toNat ≠ s.loop.attempt then s
  else s.completeCensus c

/-- The roster of a MARK holds this station with the hosted count recorded from START (R30). -/
def State.namedBy (s : State) (roster : List RosterEntry) : Bool :=
  roster.contains ⟨codeByte s.port.station, s.loop.hosted⟩

/-- A MARK arriving in CENSUS: forwarded in every case; a sound one joins or excludes the station
(R27, R30). -/
def State.censusMark (s : State) (r : Reception) : State :=
  let c := r.cell
  if r.good && c.markWellFormed then
    let s1 := (s.hearMark r).enterCell c
    if s.namedBy c.roster then s1.enterBuild c.roster c.header.markFormation .nonOriginator
    else s1.enterExcluded
  else s.enterCell c

/-- An arrival in CENSUS; data and TAIL cells are discarded (R31). -/
def State.censusArrival (s : State) (r : Reception) : State :=
  match r.cell.kind with
  | .data => s
  | .mark => s.censusMark r
  | .census => s.judgeCensus r
  | .tail => s

/-! ### BUILD (R32 to R38) -/

/-- Loop control's judgement of a MARK in BUILD. -/
inductive BuildMark
  | own
  | damaged
  | foreign
  deriving DecidableEq, Repr

/-- A MARK in BUILD: damaged with a bad check or when not well formed, else the loop's own or a
foreign one (R34, R36). -/
def State.buildMark (s : State) (r : Reception) : BuildMark :=
  if r.good && r.cell.markWellFormed then if s.ownMark r.cell then .own else .foreign else .damaged

/-- Loop control's judgement of a TAIL in BUILD. -/
inductive BuildTail
  | own
  | damaged
  | foreign
  deriving DecidableEq, Repr

/-- A TAIL in BUILD against the loop's originator and formation number: with good checks it is
foreign when it names another of either, and damaged when it names both but is not well formed
(R34, R35). -/
def State.buildTail (s : State) (originator : Code5) (r : Reception) : BuildTail :=
  if r.good = false then .damaged
  else if r.cell.header.originator ≠ originator ∨ r.cell.header.tailFormation ≠ s.loop.formation
  then .foreign
  else if r.cell.tailWellFormed then .own
  else .damaged

/-- An arrival at an originator in BUILD (R34). -/
def State.originatorArrival (s : State) (r : Reception) : State :=
  match r.cell.kind with
  | .data => s.forwardData r.cell
  | .mark =>
    let s1 := s.hearMark r
    match s.buildMark r with
    | .own => s1.enterCell r.cell
    | .damaged => s1.enterCell s.rewrittenMark
    | .foreign => s1
  | .census => s
  | .tail =>
    match s.buildTail s.port.station r with
    | .own => s.enterRunning
    | .damaged => s.enterRunning
    | .foreign => s

/-- The station number of the stored roster's first entry, the loop's originator (R35). -/
def State.firstStation (s : State) : Code5 :=
  match s.loop.roster with
  | [] => noStation
  | e :: _ => field5 e.station

/-- The loop's TAIL at a non-originator: the hosted cells are inserted ahead of it once (R35). -/
def State.insertAhead (s : State) (tail : Cell) : State :=
  if s.loop.inserted then s.enterCell tail
  else
    ({ s with loop := { s.loop with inserted := true } }.enterCells s.hostedCells).enterCell tail

/-- A MARK passage that a non-originator counts: the second enters RUNNING with that MARK as the
tracker's first passage, any other is forwarded (R36, R38, R43). -/
def State.countMark (s : State) (mark : Cell) : State :=
  let s1 := { s with loop := { s.loop with buildMarks := s.loop.buildMarks + 1 } }
  if s1.loop.buildMarks = 2 then s1.enterRunning.markPassage mark none else s1.enterCell mark

/-- An arrival at a non-originator in BUILD (R35, R36). -/
def State.nonOriginatorArrival (s : State) (r : Reception) : State :=
  match r.cell.kind with
  | .data => s.forwardData r.cell
  | .mark =>
    let s1 := s.hearMark r
    match s.buildMark r with
    | .own => s1.countMark r.cell
    | .damaged => s1.countMark s.rewrittenMark
    | .foreign => s1
  | .census => s
  | .tail =>
    match s.buildTail s.firstStation r with
    | .own => s.insertAhead r.cell
    | .damaged => s.insertAhead (builtTail s.firstStation s.loop.formation)
    | .foreign => s

/-- An arrival in BUILD, by the role. -/
def State.buildArrival (s : State) (r : Reception) : State :=
  match s.loop.role with
  | .originator => s.originatorArrival r
  | .nonOriginator => s.nonOriginatorArrival r
  | .none => s.nonOriginatorArrival r

/-! ### Fate of a reported cell (R13, R157) -/

/-- A station that reports no cells to loop control enters CENSUS cells into its store unaltered and
discards the others (R15, R16, R157). -/
def State.carryCensus (s : State) (c : Cell) : State :=
  match c.kind with
  | .census => s.enterCell c
  | .data => s
  | .mark => s
  | .tail => s

/-- The fate that loop control gives a reported cell, by the loop state (R13; table of 2.7). -/
def State.loopArrival (s : State) (r : Reception) : State :=
  match s.loop.state with
  | .offline => s.repeatArrival r
  | .census => s.censusArrival r
  | .build => s.buildArrival r
  | .running => s.trackArrival r
  | .broken => s.carryCensus r.cell
  | .excluded => s.repeatArrival r

/-- A completed cell: reported to loop control in REPEAT, carried or discarded by the line interface
in CENSUS ONLY and BREAK HOLD (R13 to R16). -/
def State.arrive (s : State) (r : Reception) : State :=
  match s.line.mode with
  | .repeating => s.loopArrival r
  | .censusOnly => s.carryCensus r.cell
  | .breakHold => s.carryCensus r.cell

end Sys2Proof.Machine
end

