-- ==== Sys2Proof/Machine/Records.lean ====
section
/-! DEFINITION. The byte layouts of codes, completion records and notice records (R179). -/

namespace Sys2Proof.Machine

/-! ### Codes (R179) -/

/-- Loop state codes. -/
def LoopState.code : LoopState → Byte
  | .offline => 0#8
  | .census => 1#8
  | .build => 2#8
  | .running => 3#8
  | .broken => 4#8
  | .excluded => 5#8

/-- Reason codes, 0 for none. -/
def reasonCode : Option Reason → Byte
  | none => 0#8
  | some .formTimeout => 1#8
  | some .duplicateStation => 2#8
  | some .buildTimeout => 3#8
  | some .signalLost => 4#8
  | some .breakReceived => 5#8
  | some .positionFault => 6#8
  | some .damageBurst => 7#8
  | some .notInRoster => 8#8

/-- Position fault cause codes. -/
def FaultCause.code : FaultCause → Byte
  | .markOutOfPlace => 1#8
  | .markMissing => 2#8
  | .foreignMark => 3#8
  | .formationCell => 4#8

/-- Result codes. -/
def Result.code : Result → Byte
  | .done => 1#8
  | .damaged => 2#8
  | .mismatch => 3#8
  | .owned => 4#8
  | .notOwner => 5#8
  | .stale => 6#8
  | .timeout => 7#8
  | .aborted => 8#8
  | .loopBroken => 9#8

/-- Ending codes. -/
def Ending.code : Ending → Byte
  | .timeout => 7#8
  | .aborted => 8#8

/-- Source codes. -/
def Source.code : Source → Byte
  | .zero => 0#8
  | .loaded => 1#8
  | .refreshed => 2#8

/-- Transmit mode codes. -/
def TransmitMode.code : TransmitMode → Byte
  | .repeating => 0#8
  | .censusOnly => 1#8
  | .breakHold => 2#8

/-- Role codes. -/
def Role.code : Role → Byte
  | .none => 0#8
  | .originator => 1#8
  | .nonOriginator => 2#8

/-- Activity codes. -/
def Activity.code : Activity → Byte
  | .inactive => 0#8
  | .active => 1#8

/-- Signal state codes. -/
def Signal.code : Signal → Byte
  | .present => 0#8
  | .lost => 1#8

/-- Input fill indication codes. -/
def Fill.code : Fill → Byte
  | .idle => 0#8
  | .breakFill => 1#8

/-- Trigger codes. -/
def Trigger.code : Trigger → Byte
  | .change => 1#8
  | .owner => 2#8
  | .both => 3#8

/-- Request kind codes: those of SUBMIT, in a completion record too (log 34). -/
def RequestKind.code : RequestKind → Byte
  | .read => 1#8
  | .header => 2#8
  | .peek => 3#8
  | .write => 4#8
  | .verify => 5#8
  | .claim => 6#8
  | .release => 7#8

/-- Codes of how a CLAIM was completed, 0 when absent. -/
def howCode : Option How → Byte
  | none => 0#8
  | some .takenFree => 1#8
  | some .alreadyOwner => 2#8
  | some .handedOver => 3#8

/-- Repaired indication codes. -/
def Repaired.code : Repaired → Byte
  | .none => 0#8
  | .header => 1#8
  | .payload => 2#8

/-- Repair cause codes. -/
def RepairCause.code : RepairCause → Byte
  | .check => 1#8
  | .address => 2#8
  | .ownership => 3#8

/-- The status bytes of responses. -/
inductive Status
  | accepted
  | record
  | empty
  | badCheck
  | unknown
  | badStation
  | malformed
  | running
  | excluded
  | wrongState
  | notRunning
  | sweeping
  | tagInUse
  | noCell
  | ownershipBusy
  | full
  | aborted
  | withdrawing
  | alreadyEnding
  | notFound
  | sweepStarted
  | optionIgnored
  deriving DecidableEq, Repr

/-- Status codes. -/
def Status.code : Status → Byte
  | .accepted => 0x00#8
  | .record => 0x01#8
  | .empty => 0x02#8
  | .badCheck => 0x03#8
  | .unknown => 0x04#8
  | .badStation => 0x10#8
  | .malformed => 0x11#8
  | .running => 0x12#8
  | .excluded => 0x13#8
  | .wrongState => 0x14#8
  | .notRunning => 0x20#8
  | .sweeping => 0x21#8
  | .tagInUse => 0x22#8
  | .noCell => 0x23#8
  | .ownershipBusy => 0x24#8
  | .full => 0x25#8
  | .aborted => 0x30#8
  | .withdrawing => 0x31#8
  | .alreadyEnding => 0x32#8
  | .notFound => 0x33#8
  | .sweepStarted => 0x40#8
  | .optionIgnored => 0x41#8

/-! ### Completion records (R179) -/

/-- An address as two bytes, station then index. -/
def addressBytes (a : Address) : List Byte := [codeByte a.station, codeByte a.index]

/-- The target of a request as two bytes: the address, or the position of a PEEK, as in SUBMIT
(log 34). -/
def Request.targetBytes : Request → List Byte
  | .read a => addressBytes a
  | .header a => addressBytes a
  | .peek p => wordBytes p
  | .write a _ _ _ => addressBytes a
  | .verify a _ _ => addressBytes a
  | .claim a => addressBytes a
  | .release a => addressBytes a

/-- The flags byte of a header summary: bit 0 HANDOFF, bit 1 DAMAGED, bit 2 RESTORED (R178). -/
def HeaderSummary.flags (h : HeaderSummary) : Byte :=
  (if h.handoff then 1#8 else 0#8) ||| (if h.damaged then 2#8 else 0#8)
    ||| (if h.restored then 4#8 else 0#8)

/-- A header summary: station, index, generation, owner, reserver and flags. -/
def HeaderSummary.bytes (h : HeaderSummary) : List Byte :=
  addressBytes h.address ++ [h.generation, codeByte h.owner, codeByte h.reserver, h.flags]

/-- The data part of a completion record (R145, R146). R179 gives the HANDOFF item of RELEASE NOT
OWNER one byte and no code: 01h for set and 00h for clear is the model's choice (log 32). -/
def CompletionData.bytes : CompletionData → List Byte
  | .none => []
  | .cell summary words => summary.bytes ++ payloadBytes words
  | .header summary => summary.bytes
  | .raw rawHeader words headerGood payloadGood repaired =>
    rawHeader.bytes ++ payloadBytes words ++
      [boolByte headerGood ||| (boolByte payloadGood).shiftLeft 1 ||| repaired.code.shiftLeft 2]
  | .generation g => [g]
  | .owned owner g => [codeByte owner, g]
  | .mismatch i w g => natByte i :: (wordBytes w ++ [g])
  | .claimed g reserver => [g, codeByte reserver]
  | .returned station g => [codeByte station, g]
  | .released station g => [codeByte station, g]
  | .notOwner owner handoff => [codeByte owner, boolByte handoff]

/-- The detail byte: bit 0 Returned, bits 2 and 1 the how. -/
def Completion.detail (c : Completion) : Byte :=
  boolByte c.returned ||| (howCode c.how).shiftLeft 1

/-- A completion record. -/
def Completion.bytes (c : Completion) : List Byte :=
  [natByte c.data.bytes.length, c.tag, c.request.kind.code] ++ c.request.targetBytes ++
    natBytes c.position ++ wordBytes c.acceptance ++ [c.result.code, c.detail] ++
    wordBytes c.revolution ++ c.data.bytes

/-! ### Notice records (R179) -/

/-- The kind code of a notice. -/
def NoticeBody.kindCode : NoticeBody → Byte
  | .damageFound _ _ _ _ => 1#8
  | .watch report => if report.changed then 2#8 else 3#8
  | .orphanReturned _ _ _ _ => 4#8
  | .staleReservation _ _ _ _ => 5#8
  | .sweepDone _ _ => 6#8
  | .loopState _ _ _ _ _ => 7#8
  | .lost _ => 8#8

/-- Indications as one byte, the first in bit 0. -/
def bitsByte : List Bool → Byte
  | [] => 0#8
  | b :: bs => boolByte b ||| (bitsByte bs).shiftLeft 1

/-- The content of a watch notice. -/
def WatchReport.bytes (w : WatchReport) : List Byte :=
  addressBytes w.address ++ natBytes w.position ++
    [bitsByte w.firing,
      bitsByte [w.generationDiffered, w.ownerDiffered, w.damaged, w.payload.isSome],
      w.oldGeneration, codeByte w.oldOwner, w.newGeneration, codeByte w.newOwner] ++
    (w.payload.map payloadBytes).getD []

/-- The finding of a DAMAGE FOUND notice as its code, its four address bytes and its cause. -/
def Finding.parts : Finding → Byte × List Byte × Byte
  | .header expected received cause =>
    (1#8, addressBytes expected ++ addressBytes received, cause.code)
  | .payload expected received => (2#8, addressBytes expected ++ addressBytes received, 0#8)
  | .mark => (3#8, [0#8, 0#8, 0#8, 0#8], 0#8)

/-- The content of a notice by kind. A formation number that a LOOP STATE notice does not carry is
sent as 0 (log 35). -/
def NoticeBody.bytes : NoticeBody → List Byte
  | .damageFound finding position payloadGood count =>
    finding.parts.1 :: (natBytes position ++ finding.parts.2.1 ++
      [finding.parts.2.2, boolByte payloadGood, natByte count])
  | .watch report => report.bytes
  | .orphanReturned a p station g => addressBytes a ++ natBytes p ++ [codeByte station, g]
  | .staleReservation a p owner g => addressBytes a ++ natBytes p ++ [codeByte owner, g]
  | .sweepDone released complete => natBytes released ++ [boolByte complete]
  | .loopState new former reason formation role =>
    [new.code, former.code, reasonCode reason, formation.getD 0#8, role.code]
  | .lost count => natBytes count

/-- A notice record. -/
def Notice.bytes (n : Notice) : List Byte :=
  [natByte n.body.bytes.length, n.body.kindCode] ++ wordBytes n.revolution ++ n.body.bytes

end Sys2Proof.Machine
end

