-- ==== Sys2Proof/Machine/HostPort.lean ====
section
/-! DEFINITION. The host port: transactions, the twelve commands with their effects and responses,
the frames that are not taken, and the final bytes of TAKE, NOTE and STATUS (spec 11, R164 to
R176, with the rules of the blocks that own the state concerned). -/

namespace Sys2Proof.Machine

/-! ### Transactions (R164 to R169) -/

/-- The port answers: the command in hand is the code with the bytes received after it, the response
is built, and the phase becomes `phase` (R164, R166, R169). -/
def Port.answer (p : Port) (phase : Phase) (code : Byte) (received response : List Byte) : Port :=
  { p with phase, command := some ⟨code, received⟩, response := some ⟨response, 0⟩ }

/-- The port can take a command: RESETN is not held and a transaction is in RECEIVING (R164). -/
def State.receiving (s : State) : Bool := !s.resetHeld && s.port.phase == .receiving

/-- A command is taken when its check byte is good: its block's effect and its response, and the
phase becomes RESPONDING (R166). Outside RECEIVING the bytes are ignored (R164; log 8). -/
def State.takeCommand (s : State) (k : HostCommand) (fields : List Byte)
    (effect : State → State × List Byte) : State :=
  if s.receiving then
    let r := effect s
    let received := fields ++ [checkByte (k.code :: fields)]
    { r.1 with port := r.1.port.answer .responding k.code received r.2 }
  else s

/-- CSN_FALL (R164): a fall opens a transaction in RECEIVING with no command in hand, unless
RESETN is held. CSN already low cannot fall (log 4). -/
def execCsnFall (s : State) : Host.Outcome State Fault Refusal :=
  .next
    (if s.port.csnLow then s
    else if s.resetHeld then { s with port := { s.port with csnLow := true } }
    else
      { s with port := { s.port with
          csnLow := true, phase := .receiving, command := none, response := none } })

/-- CSN_RISE (R168): closes the transaction; in RECEIVING, a command cut off before its check
byte, be it in hand already or among the bytes given, sets FRAME FAULT. -/
def execCsnRise (received : List Byte) (s : State) : Host.Outcome State Fault Refusal :=
  .next
    { s with port := { s.port with
        csnLow := false, phase := .idle, command := none, response := none, incoming := []
        frameFault :=
          s.port.frameFault ||
            (s.port.phase == .receiving && (s.port.command.isSome || frameCutOff received)) } }

/-- BAD_CHECK (R166): a whole frame whose bytes do not sum to 0 is not taken and is answered BAD
CHECK alone. -/
def execBadCheck (frame : List Byte) (s : State) : Host.Outcome State Fault Refusal :=
  .next
    (if s.receiving = true ∧ frameComplete frame = true ∧ byteSum frame ≠ 0#8 then
      let response := [Status.badCheck.code]
      { s with port := s.port.answer .responding (frame.headD 0#8) frame.tail response }
    else s)

/-- UNKNOWN_COMMAND (R167): a command byte that names no command is answered UNKNOWN and the rest of
the transaction is discarded. -/
def execUnknownCommand (code : Byte) (s : State) : Host.Outcome State Fault Refusal :=
  .next
    (if s.receiving = true ∧ HostCommand.ofCode code = none then
      { s with port := s.port.answer .discarding code [] [Status.unknown.code] }
    else s)

/-! ### START (R21, R171) -/

/-- The refusal of a START, by the first check that fails (R21). -/
def State.startRefusal (s : State) (hosted : Nat) : Option Status :=
  if stationLegal s.port.station = false then some .badStation
  else if Config.maxHosted < hosted then some .malformed
  else
    match s.loop.state with
    | .census => some .running
    | .build => some .running
    | .running => some .running
    | .excluded => some .excluded
    | .offline => none
    | .broken => none

/-- The hosted count that a START frame carries, bits 5 to 0 (R179). -/
def hostedField (b : Byte) : Byte := b &&& 0x3F#8

/-- START's effect and response (R21, R171). -/
def startEffect (hostedCount restore : Byte) (s : State) : State × List Byte :=
  match s.startRefusal (hostedField hostedCount).toNat with
  | some status => (s, [status.code, s.loop.state.code, 0#8, 0#8])
  | none =>
    let s' := s.enterCensus (hostedField hostedCount) (restore != 0#8)
    (s', [Status.accepted.code, s'.loop.state.code, s.loop.state.code,
      boolByte (s.loop.holdTimer == .running)])

/-- START (R21). -/
def execStart (hostedCount restore : Byte) (s : State) : Host.Outcome State Fault Refusal :=
  .next (s.takeCommand .start [hostedCount, restore] (startEffect hostedCount restore))

/-! ### SUBMIT (R58, R66 to R70, R172) -/

/-- The request that a frame asks for; none when the kind code names no kind (R58, R67, R179). -/
def submitRequest (f : SubmitFrame) : Option Request :=
  if f.kind = 1#8 then some (.read f.address)
  else if f.kind = 2#8 then some (.header f.address)
  else if f.kind = 3#8 then some (.peek (wordOfBytes f.targetHigh f.targetLow))
  else if f.kind = 4#8 then
    some (.write f.address f.first f.words
      (if f.expectedPresent = 0#8 then none else some f.expectedGeneration))
  else if f.kind = 5#8 then some (.verify f.address f.first f.words)
  else if f.kind = 6#8 then some (.claim f.address)
  else if f.kind = 7#8 then some (.release f.address)
  else none

/-- Whether a field of the request lies outside its range (R67). -/
def submitBadFields (f : SubmitFrame) : Request → Bool
  | .read a => a.outOfRange
  | .header a => a.outOfRange
  | .peek _ => false
  | .write a _ _ _ => a.outOfRange || f.badRange
  | .verify a _ _ => a.outOfRange || f.badRange
  | .claim a => a.outOfRange
  | .release a => a.outOfRange

/-- The target position of a request on a roster, if it has one (R59, R68). -/
def Request.targetPosition (roster : List RosterEntry) : Request → Option Nat
  | .read a => positionOf roster a
  | .header a => positionOf roster a
  | .peek p => if 1 ≤ p.toNat ∧ p.toNat ≤ rosterTotal roster then some p.toNat else none
  | .write a _ _ _ => positionOf roster a
  | .verify a _ _ => positionOf roster a
  | .claim a => positionOf roster a
  | .release a => positionOf roster a

/-- The table holds an ownership request for the same address as this ownership request (R63). -/
def ownershipBusy (table : List Entry) (q : Request) : Bool :=
  match q.ownershipTarget with
  | none => false
  | some a => table.any fun e => e.request.ownershipTarget == some a

/-- The outcome of the checks of R66: a refusal, or the request with its target position. -/
inductive Submission
  | refused (status : Status)
  | admitted (request : Request) (position : Nat)
  deriving DecidableEq, Repr

/-- The seven checks of R66 in order. -/
def State.judgeSubmit (s : State) (f : SubmitFrame) : Submission :=
  if s.loop.state ≠ .running then .refused .notRunning
  else if s.engine.sweep.active = true then .refused .sweeping
  else
    match submitRequest f with
    | none => .refused .malformed
    | some q =>
      if f.limit = 0 ∨ submitBadFields f q = true then .refused .malformed
      else if s.engine.table.any (fun e => e.tag == f.tag) = true then .refused .tagInUse
      else
        match q.targetPosition s.loop.roster with
        | none => .refused .noCell
        | some p =>
          if ownershipBusy s.engine.table q = true then .refused .ownershipBusy
          else if Config.tableCapacity ≤ s.engine.table.length
              ∨ Config.maxCommitment ≤ s.commitment then
            .refused .full
          else .admitted q p

/-- The entry that an accepted SUBMIT adds (R70). -/
def State.newEntry (s : State) (f : SubmitFrame) (q : Request) (p : Nat) : Entry :=
  { tag := f.tag, request := q, position := p, passLimit := f.limit
    acceptance := s.engine.acceptance, marks := 0, state := .pending }

/-- Adds an entry at the end of the table and raises the acceptance counter (R61, R70). -/
def State.addEntry (s : State) (e : Entry) : State :=
  { s with engine := { s.engine with
      table := s.engine.table ++ [e], acceptance := s.engine.acceptance + 1#16 } }

/-- The counts that every SUBMIT response carries (R172). -/
def State.submitCounts (s : State) : List Byte :=
  [natByte s.engine.table.length, natByte s.commitment]

/-- SUBMIT's effect and response (R66, R70, R172). -/
def submitEffect (f : SubmitFrame) (s : State) : State × List Byte :=
  match s.judgeSubmit f with
  | .refused status => (s, status.code :: (s.submitCounts ++ [0#8, 0#8, 0#8, 0#8]))
  | .admitted q p =>
    let s' := s.addEntry (s.newEntry f q p)
    (s', Status.accepted.code ::
      (s'.submitCounts ++ wordBytes s.engine.acceptance ++ natBytes p))

/-- SUBMIT (R66). A frame with another number of words than its fields call for is no whole frame
and is not taken (R165; log 11). -/
def execSubmit (f : SubmitFrame) (s : State) : Host.Outcome State Fault Refusal :=
  .next (if f.framed then s.takeCommand .submit f.fields (submitEffect f) else s)

/-! ### ABORT (R76, R172) -/

/-- ABORT's effect and response (R76, R172). -/
def abortEffect (tag : Byte) (s : State) : State × List Byte :=
  match s.engine.table.find? fun e => e.tag == tag with
  | none => (s, [Status.notFound.code, 0#8, 0#8, 0#8])
  | some e =>
    match e.state with
    | .pending =>
      ((s.withTable (s.engine.table.eraseP fun e => e.tag == tag)).pushRecords
        [e.completion s.tracker.revolution .aborted .none],
        Status.aborted.code :: (wordBytes e.acceptance ++ [0#8]))
    | .reserved =>
      (s.withTable (s.engine.table.map fun e' =>
        if e'.tag = tag then { e' with state := .withdrawing .aborted } else e'),
        Status.withdrawing.code :: (wordBytes e.acceptance ++ [0#8]))
    | .withdrawing ending =>
      (s, Status.alreadyEnding.code :: (wordBytes e.acceptance ++ [ending.code]))

/-- ABORT (R76). -/
def execAbort (tag : Byte) (s : State) : Host.Outcome State Fault Refusal :=
  .next (s.takeCommand .abort [tag] (abortEffect tag))

/-! ### TAKE and NOTE (R147, R151) -/

/-- TAKE's response; nothing changes at the taking (R147). With EMPTY it is of full length without a
record: the records in the queue, 0 (R179; log 16). -/
def takeEffect (s : State) : State × List Byte :=
  match s.queues.completions with
  | [] => (s, [Status.empty.code, natByte s.queues.completions.length])
  | c :: _ =>
    (s, Status.record.code :: natByte s.queues.completions.length :: c.bytes)

/-- TAKE (R147). -/
def execTake (s : State) : Host.Outcome State Fault Refusal :=
  .next (s.takeCommand .take [] takeEffect)

/-- NOTE's response; nothing changes at the taking (R151). -/
def noteEffect (s : State) : State × List Byte :=
  match s.queues.notices with
  | [] => (s, Status.empty.code :: natBytes s.queues.lost)
  | n :: _ =>
    (s, Status.record.code :: natByte s.queues.notices.length ::
      (natBytes s.queues.lost ++ n.bytes))

/-- NOTE (R151). -/
def execNote (s : State) : Host.Outcome State Fault Refusal :=
  .next (s.takeCommand .note [] noteEffect)

/-! ### WATCH SET and WATCH CLEAR (R122, R123) -/

/-- The entry number of a watch frame, bits 3 to 0 (R179). -/
def watchNumber (b : Byte) : Nat := b.toNat % 16

/-- The trigger that a code names (R122, R179). -/
def triggerOf (b : Byte) : Option Trigger :=
  if b = 1#8 then some .change
  else if b = 2#8 then some .owner
  else if b = 3#8 then some .both
  else none

/-- The entry that a WATCH SET writes: value bits that are not cared for are stored as zero
(R122). -/
def storedWatch (f : WatchSetFrame) (trigger : Trigger) : WatchEntry :=
  { enabled := true
    value :=
      ⟨field5 f.valueStation &&& field5 f.stationCare, field5 f.valueIndex &&& field5 f.indexCare⟩
    stationCare := field5 f.stationCare
    indexCare := field5 f.indexCare
    trigger
    capture := f.capture != 0#8 }

/-- Replaces watch entry `n`. -/
def State.withWatchEntry (s : State) (n : Nat) (w : WatchEntry) : State :=
  { s with watch := { s.watch with entries := s.watch.entries.setIfInBounds n w } }

/-- A watch entry as stored, in the order of the fields of R121 (R122). That enabled comes first,
and that enabled yes and capture yes are sent as 01h, are the model's choices (log 14): R179 codes
the capture of the frame alone, 00h no and any other byte yes. -/
def WatchEntry.bytes (w : WatchEntry) : List Byte :=
  [boolByte w.enabled, codeByte w.value.station, codeByte w.value.index, codeByte w.stationCare,
    codeByte w.indexCare, w.trigger.code, boolByte w.capture]

/-- WATCH SET's effect and response (R122). -/
def watchSetEffect (f : WatchSetFrame) (s : State) : State × List Byte :=
  match triggerOf f.trigger with
  | none => (s, Status.malformed.code :: List.replicate 7 0#8)
  | some trigger =>
    if 7 < watchNumber f.entry then (s, Status.malformed.code :: List.replicate 7 0#8)
    else
      (s.withWatchEntry (watchNumber f.entry) (storedWatch f trigger),
        Status.accepted.code :: (storedWatch f trigger).bytes)

/-- WATCH SET (R122). -/
def execWatchSet (f : WatchSetFrame) (s : State) : Host.Outcome State Fault Refusal :=
  .next (s.takeCommand .watchSet f.fields (watchSetEffect f))

/-- Watch entry `n`. -/
def State.watchEntry (s : State) (n : Nat) : WatchEntry :=
  s.watch.entries.toList.getD n WatchEntry.reset

/-- WATCH CLEAR's effect and response (R123). -/
def watchClearEffect (entry : Byte) (s : State) : State × List Byte :=
  let n := watchNumber entry
  if 7 < n then (s, [Status.malformed.code, 0#8])
  else
    (s.withWatchEntry n { s.watchEntry n with enabled := false },
      [Status.accepted.code, boolByte (s.watchEntry n).enabled])

/-- WATCH CLEAR (R123). -/
def execWatchClear (entry : Byte) (s : State) : Host.Outcome State Fault Refusal :=
  .next (s.takeCommand .watchClear [entry] (watchClearEffect entry))

/-! ### HOME LOAD and HOME READ (R137, R139) -/

/-- The index of a home frame, bits 5 to 0 (R179). -/
def homeIndex (b : Byte) : Nat := b.toNat % 64

/-- The refusal of a HOME LOAD, by the first check that fails (R137). -/
def State.homeLoadRefusal (s : State) (i : Nat) : Option Status :=
  if 31 < i then some .malformed
  else
    match s.loop.state with
    | .census => some .wrongState
    | .build => some .wrongState
    | .running => some .wrongState
    | .offline => none
    | .broken => none
    | .excluded => none

/-- HOME LOAD's effect and response (R137). -/
def homeLoadEffect (index generation : Byte) (words : Payload) (s : State) : State × List Byte :=
  let i := homeIndex index
  match s.homeLoadRefusal i with
  | some status => (s, [status.code, 0#8, 0#8])
  | none =>
    (s.withHomeEntry i { payload := words, generation, source := .loaded },
      [Status.accepted.code, natByte i, (s.homeEntry i).source.code])

/-- HOME LOAD (R137). -/
def execHomeLoad (index generation : Byte) (words : Payload) (s : State) :
    Host.Outcome State Fault Refusal :=
  .next (s.takeCommand .homeLoad (index :: generation :: payloadBytes words)
    (homeLoadEffect index generation words))

/-- HOME READ's response; it changes nothing (R139). -/
def homeReadEffect (index : Byte) (s : State) : State × List Byte :=
  let i := homeIndex index
  if 31 < i then (s, Status.malformed.code :: List.replicate 67 0#8)
  else
    let e := s.homeEntry i
    (s, Status.accepted.code :: natByte i :: e.source.code :: e.generation :: payloadBytes e.payload)

/-- HOME READ (R139). -/
def execHomeRead (index : Byte) (s : State) : Host.Outcome State Fault Refusal :=
  .next (s.takeCommand .homeRead [index] (homeReadEffect index))

/-! ### STATUS and ROSTER (R173, R174) -/

/-- The items of a last position fault: cause, position and revolution count, zero for none. -/
def faultBytes : Option PositionFault → List Byte
  | none => [0#8, 0#8, 0#8, 0#8, 0#8]
  | some f => f.cause.code :: (natBytes f.position ++ wordBytes f.revolution)

/-- The items of R173 in the order of its table. -/
def State.statusItems (s : State) : List Byte :=
  [codeByte s.port.station, boolByte (stationLegal s.port.station), boolByte s.port.frameFault] ++
  [s.loop.state.code, s.loop.role.code, natByte s.loop.attempt, boolByte s.loop.yielded,
    reasonCode s.loop.lastReason, s.loop.formation, s.loop.latestFormation, s.loop.hosted,
    boolByte s.loop.restore, boolByte (s.loop.holdTimer == .running)] ++
  [s.line.mode.code, boolByte s.line.fillFollowing, s.line.signal.code, s.line.fill.code] ++
  (s.tracker.activity.code :: (wordBytes s.tracker.revolution ++
    natByte s.tracker.damage :: faultBytes s.tracker.lastFault)) ++
  ([natByte s.engine.table.length, natByte s.commitment] ++ wordBytes s.engine.acceptance ++
    boolByte s.engine.sweep.active :: natBytes s.engine.sweep.released) ++
  [bitsByte (s.watch.entries.toList.map WatchEntry.enabled)] ++
  (natByte s.queues.completions.length :: natByte s.queues.notices.length ::
    natBytes s.queues.lost)

/-- STATUS's response; it changes nothing at its taking (R173). -/
def statusEffect (s : State) : State × List Byte := (s, Status.accepted.code :: s.statusItems)

/-- STATUS (R173). -/
def execStatus (s : State) : Host.Outcome State Fault Refusal :=
  .next (s.takeCommand .status [] statusEffect)

/-- The bytes of a roster: its entries in loop order, then zero entries up to 30 (R174). -/
def rosterBytes (roster : List RosterEntry) : List Byte :=
  (roster.flatMap fun e => [e.station, e.hosted]) ++
    List.replicate (2 * (Config.maxEntries - roster.length)) 0#8

/-- ROSTER's response; it changes nothing (R174, R179). -/
def rosterEffect (s : State) : State × List Byte :=
  (s, Status.accepted.code :: s.loop.formation :: natByte s.loop.roster.length ::
    (natBytes s.total ++ rosterBytes s.loop.roster))

/-- ROSTER (R174). -/
def execRoster (s : State) : Host.Outcome State Fault Refusal :=
  .next (s.takeCommand .roster [] rosterEffect)

/-! ### RESET (R79, R80, R112, R175) -/

/-- What every host RESET empties: the table, both queues, the lost count and the enabled
indications (R79, R120). -/
def State.hostReset (s : State) : State :=
  { s with
    engine := { s.engine with table := [] }
    queues := Queues.reset
    watch := { s.watch with
      entries := Vector.ofFn fun i : Fin 8 => { s.watch.entries[i] with enabled := false } } }

/-- The sweep state after a host RESET: an active sweep ends; the option starts one in RUNNING
(R80, R112). -/
def sweepAfterReset (s : State) (option : Bool) : Sweep :=
  if option then
    if s.loop.state = .running then { active := true, released := 0, marks := 0 }
    else { s.engine.sweep with active := false }
  else { s.engine.sweep with active := false }

/-- The status of a RESET response (R175). -/
def State.resetStatus (s : State) (option : Bool) : Status :=
  if option then if s.loop.state = .running then .sweepStarted else .optionIgnored else .accepted

/-- RESET's effect and response (R79, R80, R112, R175). -/
def resetEffect (option : Byte) (s : State) : State × List Byte :=
  let s1 := s.hostReset
  ({ s1 with engine := { s1.engine with sweep := sweepAfterReset s (option != 0#8) } },
    (s.resetStatus (option != 0#8)).code :: natByte s.engine.table.length ::
      natByte s.queues.completions.length :: natByte s.queues.notices.length ::
      (natBytes s.queues.lost ++ [boolByte s.engine.sweep.active]))

/-- RESET (R175). -/
def execReset (option : Byte) (s : State) : Host.Outcome State Fault Refusal :=
  .next (s.takeCommand .reset [option] (resetEffect option))

/-! ### The final bytes of responses (R147, R151, R152, R169, R173) -/

/-- The command in hand is the given one. -/
def Port.holds (p : Port) (k : HostCommand) : Bool :=
  (p.command.map CommandInHand.code) == some k.code

/-- The status byte of the response in hand. -/
def Port.responseStatus (p : Port) : Option Byte := p.response.bind fun r => r.bytes.head?

/-- A response to the given command is being shifted out (R169). -/
def State.responding (s : State) (k : HostCommand) : Bool :=
  !s.resetHeld && s.port.phase == .responding && s.port.holds k

/-- The last byte of the response has been shifted out: the port is SPENT (R164). -/
def Port.spent (p : Port) : Port :=
  { p with
    phase := .spent
    response := p.response.map fun r => { r with next := r.bytes.length } }

/-- TAKE_FINAL_BYTE (R147): the record that the response returned leaves the front of the queue. A
response without a record removes nothing (R166). -/
def execTakeFinalByte (s : State) : Host.Outcome State Fault Refusal :=
  .next
    (if s.responding .take then
      { s with
        port := s.port.spent
        queues :=
          if s.port.responseStatus = some Status.record.code then
            { s.queues with completions := s.queues.completions.tail }
          else s.queues }
    else s)

/-- A notice is a LOST record. -/
def Notice.isLost (n : Notice) : Bool :=
  match n.body with
  | .lost _ => true
  | .damageFound _ _ _ _ => false
  | .watch _ => false
  | .orphanReturned _ _ _ _ => false
  | .staleReservation _ _ _ _ => false
  | .sweepDone _ _ => false
  | .loopState _ _ _ _ _ => false

/-- A NOTE removes the front record; a nonzero lost count then enters a LOST record unless one still
stands (R151, R152). -/
def Queues.removeNotice (q : Queues) (revolution : Word) : Queues :=
  let rest := q.notices.tail
  if q.lost ≠ 0 ∧ rest.any Notice.isLost = false then
    { q with notices := rest ++ [⟨.lost q.lost, revolution⟩], lost := 0 }
  else { q with notices := rest }

/-- NOTE_FINAL_BYTE (R151, R152). -/
def execNoteFinalByte (s : State) : Host.Outcome State Fault Refusal :=
  .next
    (if s.responding .note then
      { s with
        port := s.port.spent
        queues :=
          if s.port.responseStatus = some Status.record.code then
            s.queues.removeNotice s.tracker.revolution
          else s.queues }
    else s)

/-- STATUS_FINAL_BYTE (R173): FRAME FAULT is cleared, but not by a BAD CHECK response (R166). -/
def execStatusFinalByte (s : State) : Host.Outcome State Fault Refusal :=
  .next
    (if s.responding .status then
      { s with port :=
        if s.port.responseStatus = some Status.accepted.code then
          { s.port.spent with frameFault := false }
        else s.port.spent }
    else s)

end Sys2Proof.Machine
end

