-- ==== Sys2Proof/Machine/Intervals.lean ====
section
/-! DEFINITION. The meanings of station reset, its release, and the expiries of loop control's five
timers. The expiry of a stopped timer is not an event (R18). -/

namespace Sys2Proof.Machine

/-- STATION_RESET (R41): every block returns to its reset values, whatever the loop state. The level
of CSN is the host's, and the queue of commands is the model's own. -/
def execStationReset (s : State) : Host.Outcome State Fault Refusal :=
  .next
    { State.reset with
      port := { Port.reset with csnLow := s.port.csnLow }
      pending := s.pending }

/-- STATION_RESET_RELEASE (R170): the straps are sampled once, and the signal-loss interval starts
(R11). -/
def execStationResetRelease (straps : Code5) (s : State) : Host.Outcome State Fault Refusal :=
  .next
    (if s.resetHeld then
      { s with
        resetHeld := false
        line := { s.line with interval := .running }
        port := { s.port with station := straps } }
    else s)

/-- LISTEN_TIMER_EXPIRY (R22): a station that has not yielded originates its first census. -/
def execListenTimerExpiry (s : State) : Host.Outcome State Fault Refusal :=
  .next
    (if s.loop.listenTimer = .running ∧ s.loop.state = .census then
      let s1 := { s with loop := { s.loop with listenTimer := .stopped } }
      if s.loop.yielded then s1 else s1.originate
    else s)

/-- CENSUS_TIMER_EXPIRY (R23): the station originates again below attempt 16, otherwise it breaks
with FORM TIMEOUT. -/
def execCensusTimerExpiry (s : State) : Host.Outcome State Fault Refusal :=
  .next
    (if s.loop.censusTimer = .running ∧ s.loop.state = .census ∧ s.loop.yielded = false then
      if s.loop.attempt < Config.maxAttempt then s.originate else s.enterBroken .formTimeout
    else s)

/-- YIELD_WAIT_EXPIRY (R29): BROKEN with FORM TIMEOUT. -/
def execYieldWaitExpiry (s : State) : Host.Outcome State Fault Refusal :=
  .next
    (if s.loop.yieldTimer = .running ∧ s.loop.state = .census then s.enterBroken .formTimeout
    else s)

/-- BUILD_LIMIT_EXPIRY (R37): BROKEN with BUILD TIMEOUT. -/
def execBuildLimitExpiry (s : State) : Host.Outcome State Fault Refusal :=
  .next
    (if s.loop.buildTimer = .running ∧ s.loop.state = .build then s.enterBroken .buildTimeout
    else s)

/-- BREAK_HOLD_EXPIRY (R156): the mode becomes CENSUS ONLY in BROKEN, or REPEAT with fill following
off in CENSUS. The expiry never finds another loop state (log 18). -/
def execBreakHoldExpiry (s : State) : Host.Outcome State Fault Refusal :=
  .next
    (if s.loop.holdTimer = .running then
      { s with
        loop := { s.loop with holdTimer := .stopped }
        line :=
          match s.loop.state with
          | .broken => { s.line with mode := .censusOnly }
          | .census => s.line.repeatPlain
          | .offline => s.line
          | .build => s.line
          | .running => s.line
          | .excluded => s.line }
    else s)

end Sys2Proof.Machine
end

