-- ==== Sys2Proof/Machine/LineInterface.lean ====
section
/-! DEFINITION. The line interface: the receiver, the fill indication and signal loss (spec 01, R9
to R12), and the meanings of the commands that come over the line. -/

namespace Sys2Proof.Machine

/-- What the line interface reports to loop control after a symbol (R9, R10). -/
inductive LineReport
  | none
  | breakFill
  | cell (reception : Reception)
  deriving DecidableEq, Repr

/-- A valid symbol returns the signal state to PRESENT and restarts the interval (R11). -/
def Line.validSymbol (l : Line) : Line := { l with signal := .present, interval := .running }

/-- A valid symbol other than a break symbol clears the break count and sets the indication to IDLE
(R10). -/
def Line.plainSymbol (l : Line) : Line :=
  { l.validSymbol with breakCount := 0, fill := .idle }

/-- A break symbol received while hunting: the count goes up, and reaching 16 sets the indication to
BREAK (R10). -/
def Line.breakSymbol (l : Line) : Line :=
  { l.validSymbol with
    breakCount := l.breakCount + 1
    fill := if l.breakCount + 1 = Config.breakRun then Fill.breakFill else l.fill }

/-- A symbol received while hunting (R9, R10). -/
def Line.hunt (l : Line) (x : Symbol) : Line × LineReport :=
  match x with
  | .startDelimiter kind => ({ l.plainSymbol with receiver := .inCell kind [] false false }, .none)
  | .data _ => (l.plainSymbol, .none)
  | .endDelimiter => (l.plainSymbol, .none)
  | .idle => (l.plainSymbol, .none)
  | .breakFill =>
    (l.breakSymbol, if l.breakCount + 1 = Config.breakRun then LineReport.breakFill else .none)
  | .invalid => (l, .none)

/-- The receiver gives up the cell it is inside: it returns to hunting without a report (R9). -/
def Line.dropCell (l : Line) : Line := { l with receiver := .hunting }

/-- Header bytes come first: whether the next byte of a cell is one of them (R9). -/
def nextIsHeader (bytes : List Byte) : Bool := decide (bytes.length < 8)

/-- A symbol received inside a cell (R9). Before byte 74 a data symbol is the next byte, an invalid
symbol a zero byte with a symbol error, and a control symbol truncates the cell; after it, an end
delimiter completes the cell and any other symbol is a framing error. -/
def Line.inside (l : Line) (kind : CellKind) (bytes : List Byte) (headerError payloadError : Bool)
    (x : Symbol) : Line × LineReport :=
  if bytes.length < Config.cellBytes then
    match x with
    | .data b =>
      ({ l.plainSymbol with receiver := .inCell kind (bytes ++ [b]) headerError payloadError },
        .none)
    | .invalid =>
      ({ l with
          receiver := .inCell kind (bytes ++ [0#8]) (headerError || nextIsHeader bytes)
            (payloadError || !nextIsHeader bytes) }, .none)
    | .startDelimiter _ => l.dropCell.hunt x
    | .endDelimiter => l.dropCell.hunt x
    | .idle => l.dropCell.hunt x
    | .breakFill => l.dropCell.hunt x
  else
    match x with
    | .endDelimiter =>
      (l.dropCell.plainSymbol, .cell ⟨Cell.ofBytes kind bytes, headerError, payloadError⟩)
    | .data _ => l.dropCell.hunt x
    | .startDelimiter _ => l.dropCell.hunt x
    | .idle => l.dropCell.hunt x
    | .breakFill => l.dropCell.hunt x
    | .invalid => l.dropCell.hunt x

/-- One symbol received on LIN (R9 to R11). -/
def Line.receive (l : Line) (x : Symbol) : Line × LineReport :=
  match l.receiver with
  | .hunting => l.hunt x
  | .inCell kind bytes headerError payloadError => l.inside kind bytes headerError payloadError x

/-- Loop control takes the report of a symbol (R10, R13). -/
def State.takeReport (s : State) : LineReport → State
  | .none => s
  | .breakFill => s.breakReport .breakReceived
  | .cell r => s.arrive r

/-- One symbol received on LIN, with the report it makes. -/
def State.receiveSymbol (s : State) (x : Symbol) : State :=
  let r := s.line.receive x
  { s with line := r.1 }.takeReport r.2

/-- The line interface at the end of a signal-loss interval: LOST, indication BREAK, count 0, and
the cell being received discarded (R9 to R11). -/
def Line.lose (l : Line) : Line :=
  { l.dropCell with signal := .lost, interval := .stopped, breakCount := 0, fill := .breakFill }

/-- The line interface after the end delimiter that completes a cell (R9 to R11). -/
def Line.completed (l : Line) : Line := l.dropCell.plainSymbol

/-- The line interface at the sixteenth break symbol of a run (R9 to R11). -/
def Line.breakRunComplete (l : Line) : Line :=
  { l.dropCell.validSymbol with breakCount := Config.breakRun, fill := .breakFill }

/-! ### The commands of the line -/

/-- SYMBOL_RECEIVED (R9): nothing is received while RESETN is held (log 3). -/
def execSymbolReceived (x : Symbol) (s : State) : Host.Outcome State Fault Refusal :=
  .next (if s.resetHeld then s else s.receiveSymbol x)

/-- CELL_ARRIVAL (R13): the cell given is complete, so its end delimiter, a valid symbol other
than a break symbol, has been received (log 6). -/
def execCellArrival (r : Reception) (s : State) : Host.Outcome State Fault Refusal :=
  .next (if s.resetHeld then s else { s with line := s.line.completed }.arrive r)

/-- BREAK_FILL_RECEIVED (R10): the run reaches 16; a run already reported raises no further
report. -/
def execBreakFillReceived (s : State) : Host.Outcome State Fault Refusal :=
  .next
    (if s.resetHeld = true ∨ Config.breakRun ≤ s.line.breakCount then s
    else { s with line := s.line.breakRunComplete }.breakReport .breakReceived)

/-- SIGNAL_LOSS (R11): the interval runs out while the state is PRESENT; while it is LOST there is
no further report. -/
def execSignalLoss (s : State) : Host.Outcome State Fault Refusal :=
  .next
    (if s.resetHeld = true ∨ s.line.signal = .lost then s
    else { s with line := s.line.lose }.breakReport .signalLost)

/-- SIGNAL_RETURN (R11): the first valid symbol received while LOST, which is then decoded. -/
def execSignalReturn (x : Symbol) (s : State) : Host.Outcome State Fault Refusal :=
  .next
    (if s.resetHeld = false ∧ s.line.signal = .lost ∧ x.valid = true then s.receiveSymbol x else s)

/-- The oldest stored cell has gone out: it leaves the store and is owed the least number of fill
symbols (R12). An empty store has no cell that could have gone (log 24). -/
def Line.sent (l : Line) : Line :=
  match l.store with
  | [] => l
  | _ :: rest => { l with store := rest, gap := Config.minGap }

/-- CELL_TRANSMITTED (R12): the oldest cell leaves the forwarding store, unless the mode allows no
cell to be sent (R16). -/
def execCellTransmitted (s : State) : Host.Outcome State Fault Refusal :=
  .next
    (if s.resetHeld = true ∨ s.line.mode = .breakHold then s
    else { s with line := s.line.sent })

end Sys2Proof.Machine
end

