-- ==== Sys2Proof/Machine/Dispatch.lean ====
section
/-! DEFINITION. The dispatch of every command to its meaning. -/

namespace Sys2Proof.Machine

/-- The effect of a command on everything but the queue. -/
def exec (i : Instr) (s : State) : Host.Outcome State Fault Refusal :=
  match i with
  | .stationReset => Sys2Proof.Machine.execStationReset s
  | .stationResetRelease straps => Sys2Proof.Machine.execStationResetRelease straps s
  | .cellArrival reception => Sys2Proof.Machine.execCellArrival reception s
  | .breakFillReceived => Sys2Proof.Machine.execBreakFillReceived s
  | .signalLoss => Sys2Proof.Machine.execSignalLoss s
  | .signalReturn symbol => Sys2Proof.Machine.execSignalReturn symbol s
  | .cellTransmitted => Sys2Proof.Machine.execCellTransmitted s
  | .listenTimerExpiry => Sys2Proof.Machine.execListenTimerExpiry s
  | .censusTimerExpiry => Sys2Proof.Machine.execCensusTimerExpiry s
  | .yieldWaitExpiry => Sys2Proof.Machine.execYieldWaitExpiry s
  | .buildLimitExpiry => Sys2Proof.Machine.execBuildLimitExpiry s
  | .breakHoldExpiry => Sys2Proof.Machine.execBreakHoldExpiry s
  | .csnFall => Sys2Proof.Machine.execCsnFall s
  | .csnRise received => Sys2Proof.Machine.execCsnRise received s
  | .start hostedCount restore => Sys2Proof.Machine.execStart hostedCount restore s
  | .submit frame => Sys2Proof.Machine.execSubmit frame s
  | .abort tag => Sys2Proof.Machine.execAbort tag s
  | .take => Sys2Proof.Machine.execTake s
  | .note => Sys2Proof.Machine.execNote s
  | .watchSet frame => Sys2Proof.Machine.execWatchSet frame s
  | .watchClear entry => Sys2Proof.Machine.execWatchClear entry s
  | .homeLoad index generation words => Sys2Proof.Machine.execHomeLoad index generation words s
  | .homeRead index => Sys2Proof.Machine.execHomeRead index s
  | .status => Sys2Proof.Machine.execStatus s
  | .roster => Sys2Proof.Machine.execRoster s
  | .reset option => Sys2Proof.Machine.execReset option s
  | .badCheck frame => Sys2Proof.Machine.execBadCheck frame s
  | .unknownCommand code => Sys2Proof.Machine.execUnknownCommand code s
  | .takeFinalByte => Sys2Proof.Machine.execTakeFinalByte s
  | .noteFinalByte => Sys2Proof.Machine.execNoteFinalByte s
  | .statusFinalByte => Sys2Proof.Machine.execStatusFinalByte s
  | .symbolReceived symbol => Sys2Proof.Machine.execSymbolReceived symbol s

end Sys2Proof.Machine
end

