-- ==== Sys2Proof/Machine/Tick.lean ====
section
/-! DEFINITION. What happens whatever is commanded: a step that finds no command waiting is one
quiet period, in which LOUT sends one fill symbol that a cell is owed and the host clocks one byte
through the port (R12, R164, R165, R169; log 5). -/

namespace Sys2Proof.Machine

/-- One fill symbol has gone out after a transmitted cell (R12). -/
def Line.fillSent (l : Line) : Line := { l with gap := l.gap - 1 }

/-- The command in hand once a byte that is not a check byte has come in: a command byte that
names a command, or the next field byte of the command in hand. None for a check byte and for a
command byte that names no command, whose arrivals are rows of the table (R165 to R167). -/
def CommandInHand.extended (b : Byte) : Option CommandInHand → Option CommandInHand
  | none => if HostCommand.ofCode b = none then none else some ⟨b, []⟩
  | some c =>
    match HostCommand.ofCode c.code with
    | none => none
    | some k =>
      if c.received.length < k.fieldCount c.received then some ⟨c.code, c.received ++ [b]⟩ else none

/-- One byte period in RECEIVING: the next byte on SI joins the command in hand (R164, R165). -/
def Port.gather (p : Port) : Port :=
  match p.incoming with
  | [] => p
  | b :: rest =>
    match CommandInHand.extended b p.command with
    | none => p
    | some c => { p with command := some c, incoming := rest }

/-- The end of the response in hand is a row of the table: TAKE and NOTE with a record, and STATUS
(R169). -/
def Port.endIsCommand (p : Port) : Bool :=
  (p.holds .take && p.responseStatus == some Status.record.code)
    || (p.holds .note && p.responseStatus == some Status.record.code)
    || (p.holds .status && p.responseStatus == some Status.accepted.code)

/-- One byte period in RESPONDING: the next byte of the response is shifted out, and after the
last the port is SPENT (R164, R169). The last byte waits for its command where its end is one. -/
def Port.shiftOut (p : Port) : Port :=
  match p.response with
  | none => p
  | some r =>
    if r.next + 1 < r.bytes.length then { p with response := some ⟨r.bytes, r.next + 1⟩ }
    else if p.endIsCommand then p
    else p.spent

/-- One byte period in DISCARDING: the status UNKNOWN is shifted out, and the phase stays (R167). -/
def Port.shiftUnknown (p : Port) : Port :=
  { p with response := p.response.map fun r => ⟨r.bytes, min (r.next + 1) r.bytes.length⟩ }

/-- One byte period of the host port, by its phase (R164). -/
def Port.bytePeriod (p : Port) : Port :=
  match p.phase with
  | .idle => p
  | .receiving => p.gather
  | .discarding => p.shiftUnknown
  | .responding => p.shiftOut
  | .spent => p

/-- One quiet period: nothing moves while RESETN is held (R8, R164). -/
def State.tick (s : State) : State :=
  if s.resetHeld then s
  else { s with line := s.line.fillSent, port := s.port.bytePeriod }

end Sys2Proof.Machine
end

