-- ==== Sys2Proof/Safety.lean ====
section
/-! DEFINITION. What the statements say of states: the invariants that every step keeps, each from
the rules it cites, and the short names in which the statements give a result. -/

namespace Sys2Proof

/-- The commands that stand for a frame, or for a command byte, received by the host port (R165 to
R167). -/
def Instr.isFrame : Instr → Bool
  | .start _ _ | .submit _ | .abort _ | .take | .note | .watchSet _ | .watchClear _ => true
  | .homeLoad _ _ _ | .homeRead _ | .status | .roster | .reset _ => true
  | .badCheck _ | .unknownCommand _ => true
  | .stationReset | .stationResetRelease _ | .cellArrival _ | .breakFillReceived => false
  | .signalLoss | .signalReturn _ | .cellTransmitted | .symbolReceived _ => false
  | .listenTimerExpiry | .censusTimerExpiry | .yieldWaitExpiry | .buildLimitExpiry => false
  | .breakHoldExpiry | .csnFall | .csnRise _ => false
  | .takeFinalByte | .noteFinalByte | .statusFinalByte => false

end Sys2Proof

namespace Sys2Proof.Machine

/-! ### Names for the situations and results of the statements -/

/-- RESETN is high, the mode is REPEAT and the loop state is `st`, so that an arriving cell is
reported to loop control in that state (R13, R14). -/
abbrev State.reporting (s : State) (st : LoopState) : Prop :=
  s.resetHeld = false ∧ s.line.mode = .repeating ∧ s.loop.state = st

/-- The state once the receiver has completed a cell, before loop control decides its fate: the end
delimiter, a valid symbol other than a break symbol, has been received (R9 to R11). -/
def State.delivered (s : State) : State :=
  { s with line := { s.line with
      receiver := .hunting, signal := .present, interval := .running, breakCount := 0
      fill := .idle } }

/-- The state in which a command has been taken and answered: its code, fields and check byte in
hand, the response to be shifted out from its first byte, the phase RESPONDING (R164, R166). -/
def State.answered (s : State) (k : HostCommand) (fields response : List Byte) : State :=
  { s with port := { s.port with
      phase := .responding
      command := some ⟨k.code, fields ++ [checkByte (k.code :: fields)]⟩
      response := some ⟨response, 0⟩ } }

/-- The state with a notice posted, stamped with the revolution count (R149, R150). -/
def State.noticed (s : State) (b : NoticeBody) : State :=
  { s with queues := s.queues.post ⟨b, s.tracker.revolution⟩ }

/-- The state with cells entered at the end of the forwarding store, in the order given (R12,
R13). -/
def State.entered (s : State) (cells : List Cell) : State :=
  { s with line := { s.line with store := cells.foldl storeEnter s.line.store } }

/-- The latest formation number once a MARK of formation number `n` has been heard (R27). -/
def heard (latest n : Byte) : Byte :=
  if 1 ≤ (n - latest).toNat ∧ (n - latest).toNat ≤ 127 then n else latest

/-- The station once a finding at the next position has been posted and counted (R52, R55). -/
def State.withFinding (s : State) (r : Reception) (finding : Finding) : State :=
  { s with
    queues := s.queues.post
      ⟨.damageFound finding (s.tracker.position + 1) r.payloadGood (s.tracker.damage + 1),
        s.tracker.revolution⟩
    tracker := { s.tracker with damage := s.tracker.damage + 1 } }

/-- What the examination of a DATA cell at the next position makes: the station once the finding,
if any, has been posted and counted, the repaired indication, and the arriving cell, as received,
repaired or marked (R49 to R53). -/
def State.examined (s : State) (r : Reception) : State × Repaired × Cell :=
  let x := expectedAddress s.loop.roster (s.tracker.position + 1)
  match examine r x with
  | .passed => (s, .none, r.cell)
  | .repair cause =>
    (s.withFinding r (.header x r.cell.header.address cause), .header, repairedCell r.cell x)
  | .marking => (s.withFinding r (.payload x r.cell.header.address), .payload, markedCell r.cell)

/-- In RUNNING a DATA cell arrives where a data position remains, and the tracker hands the
arriving cell `c` on with its repaired indication from the station `u` that its examination
leaves: it finds nothing, or its finding is not the eighth of the revolution (R45, R49 to R53,
R55). The position taken is the position counter plus one. -/
abbrev State.accepts (s : State) (r : Reception) (u : State) (repaired : Repaired) (c : Cell) :
    Prop :=
  s.reporting .running ∧ r.cell.kind = .data ∧ s.tracker.position < s.total
    ∧ stationLegal s.port.station = true
    ∧ (examine r (expectedAddress s.loop.roster (s.tracker.position + 1)) = .passed
      ∨ s.tracker.damage < 7)
    ∧ s.examined r = (u, repaired, c)

/-- The state with the tracker at the next position. -/
def State.advanced (s : State) : State :=
  { s with tracker := { s.tracker with position := s.tracker.position + 1 } }

/-- A passage at which `e`, between `before` and `after` in the list, is the one matching entry
and no sweep is active (R87, R112). -/
abbrev State.servesAlone (s : State) (r : Reception) (u : State) (repaired : Repaired) (c : Cell)
    (before : List Entry) (e : Entry) (after : List Entry) : Prop :=
  s.accepts r u repaired c ∧ s.engine.sweep.active = false
    ∧ s.engine.table = before ++ e :: after ∧ e.position = s.tracker.position + 1
    ∧ (∀ x ∈ before ++ after, x.position ≠ s.tracker.position + 1)

/-- A passage at which `e` and, later in the list, `f` are the two matching entries and no sweep is
active (R87, R90, R112). -/
abbrev State.servesTwo (s : State) (r : Reception) (u : State) (repaired : Repaired) (c : Cell)
    (before : List Entry) (e : Entry) (between : List Entry) (f : Entry) (after : List Entry) :
    Prop :=
  s.accepts r u repaired c ∧ s.engine.sweep.active = false
    ∧ s.engine.table = before ++ e :: (between ++ f :: after)
    ∧ e.position = s.tracker.position + 1 ∧ f.position = s.tracker.position + 1
    ∧ (∀ x ∈ before ++ between ++ after, x.position ≠ s.tracker.position + 1)

/-- The watch notice when the cell `c` arrives at the next position: none without a record of the
passage before, nor when no enabled entry that matches the address fires on it (R121, R127, R128).
-/
def State.watchNotice (s : State) (c : Cell) : Option NoticeBody :=
  (seenAt s.watch.seen (s.tracker.position + 1)).bind fun old =>
    let h := c.header
    let g : Bool := h.generation != old.generation
    let o : Bool := h.owner != old.owner
    let fires (w : WatchEntry) : Bool :=
      w.enabled && (h.address.station &&& w.stationCare) == (w.value.station &&& w.stationCare)
        && (h.address.index &&& w.indexCare) == (w.value.index &&& w.indexCare)
        && match w.trigger with
          | .change => g
          | .owner => o
          | .both => g || o
    let entries := s.watch.entries.toList
    if entries.any fires = true then
      some (.watch
        { changed := g && entries.any (fun w => fires w && w.trigger != .owner)
          address := h.address, position := s.tracker.position + 1, firing := entries.map fires
          generationDiffered := g, ownerDiffered := o
          oldGeneration := old.generation, oldOwner := old.owner
          newGeneration := h.generation, newOwner := h.owner, damaged := h.damaged
          payload :=
            if entries.any (fun w => fires w && w.capture) = true then some c.payload else none })
    else none

/-- The queues once notices have been posted in the order given (R148, R150). -/
def State.posting (s : State) (notices : List NoticeBody) : Queues :=
  notices.foldl (fun q b => q.post ⟨b, s.tracker.revolution⟩) s.queues

/-- What a passage hands on and keeps, from the station `s` once the findings have been posted, for
the arriving cell `c` and the departing cell `d`: `d` at the end of the store, in the seen entry of
its position and, with DAMAGED clear, in the home image entry of this station's cell; what it leaves
of the engine; the records pushed; the watch notice of `c` and then the notices of the stages; and
the position reached (R65, R86, R125, R129, R133). -/
abbrev State.handsOn (s t : State) (c d : Cell) (engine : Engine) (records : List Completion)
    (notices : List NoticeBody) : Prop :=
  t.line = { s.delivered.line with store := storeEnter s.line.store d }
    ∧ t.engine = engine
    ∧ t.queues =
      { s.posting ((s.watchNotice c).toList ++ notices) with
        completions := s.queues.completions ++ records }
    ∧ t.tracker = { s.tracker with position := s.tracker.position + 1 }
    ∧ seenAt t.watch.seen (s.tracker.position + 1)
      = some ⟨d.header.generation, d.header.owner⟩
    ∧ (∀ q, q ≠ s.tracker.position + 1 → seenAt t.watch.seen q = seenAt s.watch.seen q)
    ∧ t.watch.entries = s.watch.entries
    ∧ (d.header.address.station = s.port.station → d.header.damaged = false →
      t.home = s.home.set d.header.address.index.toNat
        { payload := d.payload, generation := d.header.generation, source := .refreshed }
        d.header.address.index.isLt)
    ∧ (d.header.address.station ≠ s.port.station ∨ d.header.damaged = true → t.home = s.home)
    ∧ t.loop = s.loop ∧ t.port = s.port ∧ t.resetHeld = s.resetHeld ∧ t.pending = s.pending

/-- A cell in hand as stale reservation clearing at station `me` leaves it where no RESERVED CLAIM
stands for its position (R85, R110). -/
def clearedCell (me : Code5) (c : Cell) : Cell :=
  if c.header.reserver = me then
    { c with header := (c.header.withReserver noStation).sealed }
  else c

/-- The notice that this clearing posts at the next position, if any (R110). -/
def State.staleNotices (s : State) (c : Cell) : List NoticeBody :=
  if c.header.reserver = s.port.station then
    [.staleReservation c.header.address (s.tracker.position + 1) c.header.owner
      c.header.generation]
  else []

/-- The turns of entries taken up in list order at station `me`: each entry with the verdict of its
turn on the cell in hand as the turn before left it, and the cell in hand after the last (R88,
R90). -/
def serveTurns (me : Code5) (a : Arrival) : List Entry → Hand → List (Entry × Verdict) × Hand
  | [], h => ([], h)
  | e :: es, h =>
    let turn := serveEntry me a e h
    let rest := serveTurns me a es turn.1
    ((e, turn.2) :: rest.1, rest.2)

/-- The record of an entry that its turn completes (R88, R144). -/
def turnRecord (revolution : Word) (turn : Entry × Verdict) : Option Completion :=
  match turn.2 with
  | .ends result data how => some { turn.1.completion revolution result data with how }
  | .stays _ => none

/-- The entry that its turn leaves in the table, in the state that the turn gives it (R88). -/
def turnKept (turn : Entry × Verdict) : Option Entry :=
  match turn.2 with
  | .ends _ _ _ => none
  | .stays state => some { turn.1 with state }

/-- A number as two bytes, high byte first (12, opening sentence). -/
def highFirst (n : Nat) : List Byte := [BitVec.ofNat 8 (n / 256), BitVec.ofNat 8 n]

/-- An address as two bytes, station then index. -/
def stationIndex (a : Address) : List Byte := [a.station.setWidth 8, a.index.setWidth 8]

/-- The words of a payload in index order, each high byte first. -/
def wordsHighFirst (p : Payload) : List Byte := p.toList.flatMap fun w => highFirst w.toNat

/-- An indication in bit `i` of a byte. -/
def bitAt (i : Nat) (b : Bool) : Byte := if b then BitVec.twoPow 8 i else 0#8

/-- The four formation timers are stopped and the break hold timer too. -/
abbrev Loop.allStopped (l : Loop) : Prop :=
  l.listenTimer = .stopped ∧ l.censusTimer = .stopped ∧ l.yieldTimer = .stopped
    ∧ l.buildTimer = .stopped ∧ l.holdTimer = .stopped

/-! ### Invariants -/

/-- No store or queue holds more than its room: 1,024 cells, 16 entries, a commitment of 24, 16
notices, a lost count of 65,535; no more than two fill symbols are owed (R12, R62, R148, R150). -/
abbrev State.bounded (s : State) : Prop :=
  s.line.store.length ≤ 1024 ∧ s.line.gap ≤ 2 ∧ s.engine.table.length ≤ 16 ∧ s.commitment ≤ 24
    ∧ s.queues.notices.length ≤ 16 ∧ s.queues.lost ≤ 65535

/-- Outside RUNNING the table is empty, no sweep is active and no seen entry is valid; during a
sweep the table is empty; a sweep ends at its second MARK passage (R64, R80, R114, R126). -/
abbrev State.quiet (s : State) : Prop :=
  (s.loop.state ≠ .running →
      s.engine.table = [] ∧ s.engine.sweep.active = false ∧ s.watch.seen = [])
    ∧ (s.engine.sweep.active = true → s.engine.table = [] ∧ s.engine.sweep.marks ≤ 1)
    ∧ s.engine.sweep.marks ≤ 2

/-- The transmit mode and fill following are those that R17 gives for the loop state and the break
hold, and the hold runs only in BROKEN and CENSUS (R17, R156). -/
abbrev State.modeAgrees (s : State) : Prop :=
  (s.loop.state = .offline →
      s.line.mode = .repeating ∧ s.line.fillFollowing = true ∧ s.loop.holdTimer = .stopped)
    ∧ (s.loop.state = .build ∨ s.loop.state = .running ∨ s.loop.state = .excluded →
      s.line.mode = .repeating ∧ s.line.fillFollowing = false ∧ s.loop.holdTimer = .stopped)
    ∧ (s.loop.state = .census →
      s.line.fillFollowing = false
        ∧ s.line.mode = if s.loop.holdTimer = .running then .breakHold else .repeating)
    ∧ (s.loop.state = .broken →
      s.line.fillFollowing = false
        ∧ s.line.mode = if s.loop.holdTimer = .running then .breakHold else .censusOnly)

/-- Each formation timer runs only in its own state, and a station that is forming a loop always
has one running: the yield wait once it has yielded, the listen or the census timer before that,
the build limit in BUILD (R18, R21, R23, R25, R29, R32). -/
abbrev State.timersAgree (s : State) : Prop :=
  (s.loop.listenTimer = .running → s.loop.state = .census)
    ∧ (s.loop.censusTimer = .running → s.loop.state = .census ∧ s.loop.yielded = false)
    ∧ (s.loop.yieldTimer = .running → s.loop.state = .census ∧ s.loop.yielded = true)
    ∧ (s.loop.buildTimer = .running ↔ s.loop.state = .build)
    ∧ (s.loop.state = .census → s.loop.yielded = true → s.loop.yieldTimer = .running)
    ∧ (s.loop.state = .census → s.loop.yielded = false →
      s.loop.listenTimer = .running ∨ s.loop.censusTimer = .running)

/-- The formation state stays in the ranges of R18, and the roster is one that a well-formed MARK or
CENSUS carries (R5, R6, R18, R22, R36). -/
abbrev State.loopSound (s : State) : Prop :=
  s.loop.hosted.toNat ≤ 32 ∧ s.loop.attempt ≤ 16
    ∧ (s.loop.listenTimer = .running → s.loop.attempt = 0 ∧ s.loop.censusTimer = .stopped)
    ∧ s.loop.buildMarks ≤ 2 ∧ (s.loop.state = .build → s.loop.buildMarks ≤ 1)
    ∧ s.loop.roster.length ≤ 30
    ∧ s.loop.roster.all RosterEntry.inRange = true
    ∧ distinctStations s.loop.roster = true

/-- The tracker is ACTIVE exactly in RUNNING; there the position counter never passes T and the
damage count stays below 8, and elsewhere both are 0 (R42, R45, R55, R56). -/
abbrev State.trackerAgrees (s : State) : Prop :=
  (s.tracker.activity = .active ↔ s.loop.state = .running)
    ∧ (s.loop.state = .running → s.tracker.position ≤ s.total ∧ s.tracker.damage < 8)
    ∧ (s.loop.state ≠ .running → s.tracker.position = 0 ∧ s.tracker.damage = 0)

/-- The seen table lists positions 1 to T only, strictly rising (R125, R126). -/
abbrev State.seenSound (s : State) : Prop :=
  s.watch.seen.Pairwise (fun a b => a.1 < b.1)
    ∧ ∀ e ∈ s.watch.seen, 1 ≤ e.1 ∧ e.1 ≤ s.total

/-- A table entry holds the position of its target on the roster and a pass limit of 1 to 15; it
counts MARKs no further than its limit allows; only a CLAIM leaves PENDING (R59, R60, R72 to R75).
-/
abbrev Entry.sound (roster : List RosterEntry) (e : Entry) : Prop :=
  e.request.targetPosition roster = some e.position
    ∧ 1 ≤ e.passLimit ∧ e.passLimit ≤ 15
    ∧ e.marks ≤ e.passLimit + 1
    ∧ (e.state = .pending ∨ e.state = .reserved → e.marks ≤ e.passLimit)
    ∧ (e.state ≠ .pending → e.request.kind = .claim)

/-- Every table entry is sound, no two carry the same tag, and no two are ownership requests for the
same address (R63). -/
abbrev State.tableSound (s : State) : Prop :=
  (∀ e ∈ s.engine.table, e.sound s.loop.roster)
    ∧ s.engine.table.Pairwise (fun a b => a.tag ≠ b.tag)
    ∧ s.engine.table.Pairwise (fun a b =>
      a.request.ownershipTarget = none ∨ a.request.ownershipTarget ≠ b.request.ownershipTarget)

/-- A nonzero lost count is accompanied by a record in the notice queue, which holds at most one
LOST record (R152, R153). -/
abbrev State.lostStands (s : State) : Prop :=
  (s.queues.lost ≠ 0 → s.queues.notices ≠ [])
    ∧ (s.queues.notices.filter Notice.isLost).length ≤ 1

/-- While RESETN is held every field but the level of CSN and the queue of commands has its reset
value; a station that has left OFFLINE has a legal number (R41, R164, R170). -/
abbrev State.stationSound (s : State) : Prop :=
  (s.resetHeld = true →
      { s with port := { s.port with csnLow := false }, pending := [] } = State.reset)
    ∧ (s.loop.state ≠ .offline → stationLegal s.port.station = true)

/-- Every DATA cell waiting to be transmitted keeps the ownership conditions of R4. -/
abbrev State.storeSound (s : State) : Prop :=
  ∀ c ∈ s.line.store, c.kind = .data → c.header.ownershipGood = true

end Sys2Proof.Machine
end

