-- ==== Sys2Proof/Certificates/Slice0/Obligations.lean ====
section
/-! DEFINITION. The statements about the Arbigo 3140 for the provers. Every statement of a result
is an equation `exec i s = .next t` with `t` written as `s` with the fields that change, so what
it does not name is unchanged. -/

open Sys2Proof Sys2Proof.Machine

/-! ### One step -/

/-- A step takes the command at the front of the queue and is its `exec` on the state with the
queue's rest (00, Events). -/
def Obligations.StepRunsTheFrontCommand : Prop :=
  ∀ (c : Instr) (rest : List Instr) (s : State),
    step { s with pending := c :: rest } = exec c { s with pending := rest }

/-- No command stops the block, and none touches the queue; that STATION_RESET too leaves it is
the model's choice (log 30). With no command waiting a step changes the fill symbols owed and the
host port's transaction alone, which is the model's choice too (log 5). -/
def Obligations.EveryCommandAnswersAndKeepsTheQueue : Prop :=
  (∀ (i : Instr) (s : State), ∃ t, exec i s = .next t ∧ t.pending = s.pending)
    ∧ ∀ s : State, s.pending = [] → ∃ t, step s = .next t
      ∧ t = { s with
          line := { s.line with gap := t.line.gap }
          port := { s.port with
            phase := t.port.phase, command := t.port.command, response := t.port.response
            incoming := t.port.incoming } }

/-! ### Reset (R17, R18, R41, R42, R82, R112, R120, R132, R142, R148, R164, R170) -/

/-- STATION_RESET gives every block its reset values in any state, and the machine right after
reset is a station in reset: LOUT carries no valid symbol and ATTN is deasserted. That the machine
right after reset is the one with RESETN held, that the station number reads 0 until the release,
that inserted is clear, that no byte waits on SI, that no fill symbol is owed, and that CSN and the
queue are kept are the model's choices (log 1, log 2, log 9, log 26, log 30, log 33). -/
def Obligations.StationResetGivesTheResetValues : Prop :=
  (∀ s : State, exec .stationReset s = .next
      { resetHeld := true
        line :=
          { receiver := .hunting, fill := .idle, breakCount := 0, signal := .present
            interval := .stopped, store := [], gap := 0, mode := .repeating
            fillFollowing := true }
        loop :=
          { state := .offline, hosted := 0#8, restore := false, attempt := 0, yielded := false
            lastAnswered := none, role := .none, buildMarks := 0, inserted := false, roster := []
            formation := 0#8, latestFormation := 0#8, lastReason := none
            listenTimer := .stopped, censusTimer := .stopped, yieldTimer := .stopped
            buildTimer := .stopped, holdTimer := .stopped }
        tracker :=
          { activity := .inactive, position := 0, damage := 0, revolution := 0#16, rev := false
            lastFault := none }
        engine :=
          { table := [], acceptance := 0#16, sweep := { active := false, released := 0, marks := 0 } }
        watch :=
          { entries := Vector.replicate 8
              { enabled := false, value := ⟨0#5, 0#5⟩, stationCare := 0#5, indexCare := 0#5
                trigger := .change, capture := false }
            seen := [] }
        home := Vector.replicate 32
          { payload := Vector.replicate 32 0#16, generation := 0#8, source := .zero }
        queues := { completions := [], notices := [], lost := 0 }
        port :=
          { phase := .idle, command := none, response := none, frameFault := false, station := 0#5
            csnLow := s.port.csnLow, incoming := [] }
        pending := s.pending })
  ∧ exec .stationReset State.reset = .next State.reset
      ∧ State.reset.lout = .silent ∧ State.reset.attn = false ∧ State.reset.pending = []

/-- STATION_RESET_RELEASE samples the straps and starts the signal-loss interval. Until then, with
the timers at their reset values, every command but the reset, its release and the edges of CSN
leaves the state as it is, and LOUT carries no valid symbol. That an unheld station ignores a
release, and a held one every event on LIN, are the model's readings (log 7, log 3). -/
def Obligations.OnlyTheReleaseEndsAReset : Prop :=
  (∀ (straps : Code5) (s : State),
      (s.resetHeld = true →
        exec (.stationResetRelease straps) s = .next
          { s with
            resetHeld := false
            line := { s.line with interval := .running }
            port := { s.port with station := straps } })
      ∧ (s.resetHeld = false → exec (.stationResetRelease straps) s = .next s))
  ∧ ∀ (i : Instr) (s : State), s.resetHeld = true → s.loop.allStopped →
      i ≠ .stationReset → (∀ x, i ≠ .stationResetRelease x) →
      i ≠ .csnFall → (∀ x, i ≠ .csnRise x) →
      exec i s = .next s ∧ s.lout = .silent

/-! ### Symbols on the line (R9 to R11) -/

/-- A symbol received while hunting. That the sixteenth break symbol of a run is exactly the command
BREAK_FILL_RECEIVED is the model's reading (log 6). -/
def Obligations.SymbolWhileHunting : Prop :=
  ∀ s : State, s.resetHeld = false → s.line.receiver = .hunting →
    let plain : Line :=
      { s.line with signal := .present, interval := .running, breakCount := 0, fill := .idle }
    (∀ kind, exec (.symbolReceived (.startDelimiter kind)) s =
      .next { s with line := { plain with receiver := .inCell kind [] false false } })
    ∧ (∀ b, exec (.symbolReceived (.data b)) s = .next { s with line := plain })
    ∧ exec (.symbolReceived .endDelimiter) s = .next { s with line := plain }
    ∧ exec (.symbolReceived .idle) s = .next { s with line := plain }
    ∧ exec (.symbolReceived .invalid) s = .next s
    ∧ (s.line.breakCount + 1 ≠ 16 → exec (.symbolReceived .breakFill) s = .next
        { s with line := { s.line with
            signal := .present, interval := .running, breakCount := s.line.breakCount + 1 } })
    ∧ (s.line.breakCount + 1 = 16 →
        exec (.symbolReceived .breakFill) s = exec .breakFillReceived s)

/-- A symbol received inside a cell: a byte, a symbol error in the header or in the payload, a
truncation, the completion of the cell, or a framing error. After a truncation or a framing error
the symbol is handled as when hunting. That the end delimiter after byte 74 is exactly the command
CELL_ARRIVAL is the model's reading (log 6). -/
def Obligations.SymbolInsideACell : Prop :=
  ∀ (s : State) (kind : CellKind) (bytes : List Byte) (headerError payloadError : Bool),
    s.resetHeld = false → s.line.receiver = .inCell kind bytes headerError payloadError →
    let hunting : State := { s with line := { s.line with receiver := .hunting } }
    (bytes.length < 74 →
      (∀ b, exec (.symbolReceived (.data b)) s = .next
        { s with line := { s.line with
            signal := .present, interval := .running, breakCount := 0, fill := .idle
            receiver := .inCell kind (bytes ++ [b]) headerError payloadError } })
      ∧ (bytes.length < 8 → exec (.symbolReceived .invalid) s = .next
        { s with line := { s.line with
            receiver := .inCell kind (bytes ++ [0#8]) true payloadError } })
      ∧ (8 ≤ bytes.length → exec (.symbolReceived .invalid) s = .next
        { s with line := { s.line with
            receiver := .inCell kind (bytes ++ [0#8]) headerError true } })
      ∧ (∀ k, exec (.symbolReceived (.startDelimiter k)) s =
          exec (.symbolReceived (.startDelimiter k)) hunting)
      ∧ exec (.symbolReceived .endDelimiter) s = exec (.symbolReceived .endDelimiter) hunting
      ∧ exec (.symbolReceived .idle) s = exec (.symbolReceived .idle) hunting
      ∧ exec (.symbolReceived .breakFill) s = exec (.symbolReceived .breakFill) hunting)
    ∧ (bytes.length = 74 →
      exec (.symbolReceived .endDelimiter) s =
        exec (.cellArrival ⟨Cell.ofBytes kind bytes, headerError, payloadError⟩) s
      ∧ ∀ x, x ≠ .endDelimiter →
          exec (.symbolReceived x) s = exec (.symbolReceived x) hunting)

/-- A cell sent symbol by symbol to a hunting receiver is one CELL_ARRIVAL of that very cell: no
byte of it is lost, reordered or taken for another. The break symbols that bring a hunting
receiver's count to 16 are one BREAK_FILL_RECEIVED. That each pair of rows names one event is the
model's reading (log 6). -/
def Obligations.SymbolSequencesAreTheirEvents : Prop :=
  (∀ (c : Cell) (rest : List Instr) (s : State),
      s.resetHeld = false → s.line.receiver = .hunting →
      Host.Core.run core 76
        ({ s with pending :=
            Instr.symbolReceived (.startDelimiter c.kind) ::
              (c.bytes.map (fun b => Instr.symbolReceived (.data b)) ++
                Instr.symbolReceived .endDelimiter :: rest) } : State)
        = exec (.cellArrival ⟨c, false, false⟩) { s with pending := rest })
  ∧ ∀ (n : Nat) (rest : List Instr) (s : State),
      s.resetHeld = false → s.line.receiver = .hunting →
      s.line.breakCount + n = 16 → 0 < n →
      Host.Core.run core n
        ({ s with pending :=
            List.replicate n (Instr.symbolReceived .breakFill) ++ rest } : State)
        = exec .breakFillReceived { s with pending := rest }

/-- BREAK_FILL_RECEIVED and SIGNAL_LOSS set the fill indication to BREAK and are reported: they
break a RUNNING, BUILD or EXCLUDED station and change no other station's loop state; a run already
reported and a loss already reported raise no further report (R10, R11, R20, R31, R37, R39, R154,
R157). That the event leaves the receiver hunting with the signal PRESENT is read from R9 to R11
(log 6). -/
def Obligations.BreakFillAndSignalLossAreReportedOnce : Prop :=
  ∀ s : State, s.resetHeld = false →
    let fillSeen : State := { s with line := { s.line with
      receiver := .hunting, signal := .present, interval := .running, breakCount := 16
      fill := .breakFill } }
    let silent : State := { s with line := { s.line with
      receiver := .hunting, signal := .lost, interval := .stopped, breakCount := 0
      fill := .breakFill } }
    (s.line.breakCount < 16 →
      (s.loop.state = .running ∨ s.loop.state = .build ∨ s.loop.state = .excluded →
        exec .breakFillReceived s = .next (fillSeen.enterBroken .breakReceived))
      ∧ (s.loop.state = .offline ∨ s.loop.state = .census ∨ s.loop.state = .broken →
        exec .breakFillReceived s = .next fillSeen))
    ∧ (16 ≤ s.line.breakCount → exec .breakFillReceived s = .next s)
    ∧ (s.line.signal = .present →
      (s.loop.state = .running ∨ s.loop.state = .build ∨ s.loop.state = .excluded →
        exec .signalLoss s = .next (silent.enterBroken .signalLost))
      ∧ (s.loop.state = .offline ∨ s.loop.state = .census ∨ s.loop.state = .broken →
        exec .signalLoss s = .next silent))
    ∧ (s.line.signal = .lost → exec .signalLoss s = .next s)

/-- SIGNAL_RETURN with a valid symbol while LOST returns the signal state to PRESENT, restarts the
interval and decodes the symbol as R9 and R10 state; otherwise it is no event, which is the model's
reading (log 7). -/
def Obligations.SignalReturnsWithAValidSymbol : Prop :=
  ∀ (x : Symbol) (s : State), s.resetHeld = false →
    (s.line.signal = .lost → x ≠ .invalid →
      exec (.signalReturn x) s = exec (.symbolReceived x) s
      ∧ ∃ t, exec (.signalReturn x) s = .next t ∧ t.line.signal = .present
          ∧ t.line.interval = .running)
    ∧ (s.line.signal = .present → exec (.signalReturn x) s = .next s)
    ∧ exec (.signalReturn .invalid) s = .next s

/-! ### Transmission (R8, R12, R14 to R16) -/

/-- CELL_TRANSMITTED removes the oldest stored cell, after which two fill symbols are owed before
the next cell; in BREAK HOLD no cell is transmitted, and an empty store has none (log 24). LOUT
carries nothing valid in reset, break symbols alone in BREAK HOLD, else the oldest stored cell,
and while fill is owed or the store is empty idle symbols, or break symbols in REPEAT with fill
following while the fill indication is BREAK. -/
def Obligations.TransmissionFollowsTheMode : Prop :=
  (∀ s : State, s.resetHeld = false →
      (∀ c rest, s.line.mode ≠ .breakHold → s.line.store = c :: rest →
        exec .cellTransmitted s = .next
          { s with line := { s.line with store := rest, gap := 2 } })
      ∧ (s.line.store = [] → exec .cellTransmitted s = .next s)
      ∧ (s.line.mode = .breakHold → exec .cellTransmitted s = .next s))
  ∧ ∀ s : State,
      (s.resetHeld = true → s.lout = .silent)
      ∧ (s.resetHeld = false → s.line.mode = .breakHold → s.lout = .breakSymbols)
      ∧ (s.resetHeld = false → s.line.mode ≠ .breakHold →
        (∀ c rest, s.line.gap = 0 → s.line.store = c :: rest → s.lout = .cell c)
        ∧ (0 < s.line.gap ∨ s.line.store = [] → s.line.mode = .censusOnly →
          s.lout = .idleSymbols)
        ∧ (0 < s.line.gap ∨ s.line.store = [] → s.line.mode = .repeating →
          (s.line.fillFollowing = true ∧ s.line.fill = .breakFill → s.lout = .breakSymbols)
          ∧ (s.line.fillFollowing = false ∨ s.line.fill = .idle → s.lout = .idleSymbols)))

/-! ### Loop break (R19, R23, R29, R37, R81, R115, R149, R155, R156) -/

/-- Every entry into BROKEN takes the six actions of R155 and leaves the rest of its list as it
was, here for each of the causes that an interval or the line interface brings. That BREAK HOLD
leaves fill following as it was is the model's reading (log 25). -/
def Obligations.EntryIntoBrokenTakesTheSixActions : Prop :=
  ∀ (i : Instr) (reason : Reason) (s : State), s.resetHeld = false →
    (i = .censusTimerExpiry ∧ reason = .formTimeout ∧ s.loop.censusTimer = .running
        ∧ s.loop.state = .census ∧ s.loop.yielded = false ∧ s.loop.attempt = 16)
      ∨ (i = .yieldWaitExpiry ∧ reason = .formTimeout ∧ s.loop.yieldTimer = .running
        ∧ s.loop.state = .census)
      ∨ (i = .buildLimitExpiry ∧ reason = .buildTimeout ∧ s.loop.buildTimer = .running
        ∧ s.loop.state = .build)
      ∨ (i = .signalLoss ∧ reason = .signalLost ∧ s.line.signal = .present
        ∧ (s.loop.state = .running ∨ s.loop.state = .build ∨ s.loop.state = .excluded))
      ∨ (i = .breakFillReceived ∧ reason = .breakReceived ∧ s.line.breakCount < 16
        ∧ (s.loop.state = .running ∨ s.loop.state = .build ∨ s.loop.state = .excluded)) →
    ∃ t, exec i s = .next t
      ∧ t.loop = { s.loop with
          state := .broken, lastReason := some reason, role := .none, buildMarks := 0
          listenTimer := .stopped, censusTimer := .stopped, yieldTimer := .stopped
          buildTimer := .stopped, holdTimer := .running }
      ∧ t.line.mode = .breakHold ∧ t.line.store = []
      ∧ t.line.fillFollowing = s.line.fillFollowing
      ∧ t.queues.completions = s.queues.completions ++ s.engine.table.map (fun e =>
          { tag := e.tag, request := e.request, position := e.position
            acceptance := e.acceptance, result := .loopBroken, returned := false, how := none
            revolution := s.tracker.revolution, data := .none })
      ∧ (let one := s.queues.post
            ⟨.loopState .broken s.loop.state (some reason) none .none, s.tracker.revolution⟩
         let two := if s.engine.sweep.active = true then
            one.post ⟨.sweepDone s.engine.sweep.released false, s.tracker.revolution⟩ else one
         t.queues.notices = two.notices ∧ t.queues.lost = two.lost)
      ∧ t.engine = { s.engine with
          table := [], sweep := { s.engine.sweep with active := false } }
      ∧ t.watch = { s.watch with seen := [] }
      ∧ t.tracker = { s.tracker with activity := .inactive, position := 0, damage := 0 }
      ∧ t.home = s.home ∧ t.port = s.port ∧ t.resetHeld = s.resetHeld ∧ t.pending = s.pending
      ∧ t.attn = true

/-! ### The timers of loop control (R18, R22, R23, R29, R37, R156) -/

/-- The listen and census timers: a station that has not yielded originates with the next attempt
number and starts the census timer; at attempt 16 the census interval breaks it; a station that
has yielded does nothing at the end of its listen interval. The yield wait breaks a station in
CENSUS with FORM TIMEOUT, the build limit one in BUILD with BUILD TIMEOUT. A stopped timer's
expiry is not an event. -/
def Obligations.FormationTimersOriginateOrBreak : Prop :=
  (∀ s : State, s.loop.state = .census →
      let next := s.loop.attempt + 1
      let store := storeEnter s.line.store (builtCensus s.port.station next s.loop.hosted)
      (s.loop.listenTimer = .running → s.loop.yielded = false →
        exec .listenTimerExpiry s = .next
          { s with
            loop := { s.loop with
              attempt := next, censusTimer := .running, listenTimer := .stopped }
            line := { s.line with store } })
      ∧ (s.loop.listenTimer = .running → s.loop.yielded = true →
        exec .listenTimerExpiry s = .next
          { s with loop := { s.loop with listenTimer := .stopped } })
      ∧ (s.loop.listenTimer = .stopped → exec .listenTimerExpiry s = .next s)
      ∧ (s.loop.censusTimer = .running → s.loop.yielded = false → s.loop.attempt < 16 →
        exec .censusTimerExpiry s = .next
          { s with
            loop := { s.loop with attempt := next, censusTimer := .running }
            line := { s.line with store } })
      ∧ (s.loop.censusTimer = .running → s.loop.yielded = false → s.loop.attempt = 16 →
        exec .censusTimerExpiry s = .next (s.enterBroken .formTimeout))
      ∧ (s.loop.censusTimer = .stopped → exec .censusTimerExpiry s = .next s))
  ∧ ∀ s : State,
      (s.loop.state = .census → s.loop.yieldTimer = .running →
        exec .yieldWaitExpiry s = .next (s.enterBroken .formTimeout))
      ∧ (s.loop.yieldTimer = .stopped → exec .yieldWaitExpiry s = .next s)
      ∧ (s.loop.state = .build → s.loop.buildTimer = .running →
        exec .buildLimitExpiry s = .next (s.enterBroken .buildTimeout))
      ∧ (s.loop.buildTimer = .stopped → exec .buildLimitExpiry s = .next s)

/-- The end of the break hold turns BROKEN to CENSUS ONLY and CENSUS to REPEAT with fill following
off, keeping the cells gathered in the store. That CENSUS ONLY leaves fill following as it is rests
on the model's reading (log 25). -/
def Obligations.BreakHoldEndsInTheStateReached : Prop :=
  ∀ s : State,
    (s.loop.holdTimer = .running → s.loop.state = .broken →
      exec .breakHoldExpiry s = .next
        { s with
          loop := { s.loop with holdTimer := .stopped }
          line := { s.line with mode := .censusOnly } })
    ∧ (s.loop.holdTimer = .running → s.loop.state = .census →
      exec .breakHoldExpiry s = .next
        { s with
          loop := { s.loop with holdTimer := .stopped }
          line := { s.line with mode := .repeating, fillFollowing := false } })
    ∧ (s.loop.holdTimer = .stopped → exec .breakHoldExpiry s = .next s)

/-! ### Cells that a station builds (R3, R5, R6, R25, R33, R177) -/

/-- A census as originated, and one as answered, is well formed with good checks; it names its
originator and attempt, and its entries are the ones appended so far. A MARK built from a
formation number and a roster is well formed with good checks and carries both. A TAIL built from
an originator and a formation number is well formed with good checks; header byte 2 is the
originator, byte 3 the formation number, bytes 4 to 7 are 0, and the payload is 32 zero words. -/
def Obligations.CensusAndMarkBuiltAreWellFormed : Prop :=
  ((∀ (me : Code5) (attempt : Nat) (hosted : Byte),
      stationLegal me = true → 1 ≤ attempt → attempt ≤ 16 → hosted.toNat ≤ 32 →
      let c := builtCensus me attempt hosted
      c.kind = .census ∧ c.censusWellFormed = true ∧ (⟨c, false, false⟩ : Reception).good = true
        ∧ c.header.originator = me ∧ c.header.attemptNumber.toNat = attempt
        ∧ c.censusEntries = [⟨codeByte me, hosted⟩])
    ∧ ∀ (c : Cell) (e : RosterEntry),
      c.kind = .census → c.header.kindCode = CellKind.code .census → c.censusWellFormed = true →
      c.header.entryCount.toNat < 30 → e.inRange = true →
      (∀ f ∈ c.censusEntries, f.station ≠ e.station) →
      let d := answeredCensus c e
      d.kind = .census ∧ d.censusWellFormed = true ∧ (⟨d, false, false⟩ : Reception).good = true
        ∧ d.header.originator = c.header.originator
        ∧ d.header.attemptNumber = c.header.attemptNumber
        ∧ d.censusEntries = c.censusEntries ++ [e])
  ∧ (∀ (formation : Byte) (roster : List RosterEntry),
      1 ≤ roster.length → roster.length ≤ 30 → roster.all RosterEntry.inRange = true →
      distinctStations roster = true →
      let c := builtMark formation roster
      c.kind = .mark ∧ c.markWellFormed = true ∧ (⟨c, false, false⟩ : Reception).good = true
        ∧ c.header.markFormation = formation ∧ c.roster = roster)
  ∧ ∀ (me : Code5) (formation : Byte), stationLegal me = true →
      let c := builtTail me formation
      c.kind = .tail ∧ c.tailWellFormed = true ∧ (⟨c, false, false⟩ : Reception).good = true
        ∧ c.header.originator = me ∧ c.header.tailFormation = formation
        ∧ c.header.checkedBytes =
          [0x04#8, me.setWidth 8, formation, 0#8, 0#8, 0#8, 0#8]
        ∧ c.payload = Vector.replicate 32 0#16

/-- A hosted cell as built for insertion has good checks, the station's number and the index as
address, no owner, no reserver, HANDOFF and DAMAGED clear; with restore on it carries the home
image entry and RESTORED, with restore off zero words and generation 0. -/
def Obligations.HostedCellsAreBuiltAsTheOptionSays : Prop :=
  ∀ (s : State) (i : Nat), i < 32 →
    let c := s.hostedCell i
    c.kind = .data ∧ (⟨c, false, false⟩ : Reception).good = true
      ∧ c.header.address = ⟨s.port.station, BitVec.ofNat 5 i⟩
      ∧ c.header.owner = noStation ∧ c.header.reserver = noStation
      ∧ c.header.handoff = false ∧ c.header.damaged = false
      ∧ (s.loop.restore = true → c.payload = (s.homeEntry i).payload
        ∧ c.header.generation = (s.homeEntry i).generation ∧ c.header.restored = true)
      ∧ (s.loop.restore = false → c.payload = Vector.replicate 32 0#16
        ∧ c.header.generation = 0#8 ∧ c.header.restored = false)

/-! ### Transactions of the host port (R164 to R169) -/

/-- A fall of CSN opens a transaction in RECEIVING with nothing in hand. While RESETN is held it
opens none; that CSN already low cannot fall is the model's choice (log 4). -/
def Obligations.CsnFallOpensATransaction : Prop :=
  ∀ s : State,
    (s.resetHeld = false → s.port.csnLow = false →
      exec .csnFall s = .next
        { s with port := { s.port with
            csnLow := true, phase := .receiving, command := none, response := none } })
    ∧ (s.resetHeld = true →
      exec .csnFall s = .next { s with port := { s.port with csnLow := true } })
    ∧ (s.port.csnLow = true → exec .csnFall s = .next s)

/-- A rise of CSN closes the transaction in every phase; only in RECEIVING, and only when a
command byte naming a command has been received without its check byte, be that byte in hand or
among those given, does it set FRAME FAULT: bytes given that begin with an unknown command byte or
that hold a whole frame leave it as it is. FRAME FAULT is cleared by a STATUS response shifted
out to its final byte and by station reset, and by nothing else. That the rise brings the bytes of
a frame it cuts off, that bytes which are no such frame have no effect, and that the level of CSN is
a field are the model's choices (log 9, log 11, log 4). -/
def Obligations.CsnRiseClosesTheTransaction : Prop :=
  ∀ (received : List Byte) (s : State),
    (∃ t, exec (.csnRise received) s = .next t
      ∧ t = { s with port := { s.port with
          csnLow := false, phase := .idle, command := none, response := none
          frameFault := t.port.frameFault, incoming := t.port.incoming } }
      ∧ (s.port.phase ≠ .receiving → t.port.frameFault = s.port.frameFault)
      ∧ (s.port.command = none → received = [] → t.port.frameFault = s.port.frameFault)
      ∧ (s.port.phase = .receiving → s.port.command ≠ none → t.port.frameFault = true)
      ∧ (∀ (k : HostCommand) (rest : List Byte), s.port.phase = .receiving →
          received = k.code :: rest → rest.length < k.fieldCount rest + 1 →
          t.port.frameFault = true)
      ∧ (∀ (code : Byte) (rest : List Byte), s.port.command = none → received = code :: rest →
          (∀ k : HostCommand, k.code ≠ code) → t.port.frameFault = s.port.frameFault)
      ∧ (∀ (k : HostCommand) (rest : List Byte), s.port.command = none →
          received = k.code :: rest → k.fieldCount rest + 1 ≤ rest.length →
          t.port.frameFault = s.port.frameFault)
      ∧ t.attn = s.attn)
    ∧ (s.resetHeld = false → s.port.phase = .responding →
        s.port.command.map CommandInHand.code = some (0x19#8) →
        (s.port.response.bind fun r => r.bytes.head?) = some (0x00#8) →
        ∃ t, exec .statusFinalByte s = .next t ∧ t.port.frameFault = false)
    ∧ (∃ t, exec .stationReset s = .next t ∧ t.port.frameFault = false)
    ∧ ∀ (i : Instr) (t : State), s.port.frameFault = true → i ≠ .statusFinalByte →
        i ≠ .stationReset → exec i s = .next t → t.port.frameFault = true

/-- A whole frame whose bytes do not sum to 0 is answered BAD CHECK alone and has no other effect;
a frame's own check byte makes the sum 0. Outside RECEIVING the bytes of a command have no effect
(that a command is then no event is the model's reading, log 8). -/
def Obligations.FramesNotTakenHaveNoEffect : Prop :=
  ((∀ (k : HostCommand) (rest : List Byte) (s : State), s.receiving = true →
      rest.length = k.fieldCount rest + 1 → byteSum (k.code :: rest) ≠ 0#8 →
      exec (.badCheck (k.code :: rest)) s = .next
        { s with port := { s.port with
            phase := .responding, command := some ⟨k.code, rest⟩
            response := some ⟨[0x03#8], 0⟩ } })
    ∧ ∀ bytes : List Byte, byteSum (bytes ++ [checkByte bytes]) = 0#8)
  ∧ ∀ (i : Instr) (s : State), i.isFrame = true → s.receiving = false → exec i s = .next s

/-- A command byte that names no command is answered UNKNOWN, then fill; the rest of the
transaction is discarded, and the rise that ends it does not set FRAME FAULT. That the byte is the
command in hand until CSN rises is the model's choice (log 10). -/
def Obligations.UnknownCommandDiscardsTheTransaction : Prop :=
  ∀ (code : Byte) (s : State), s.receiving = true → (∀ k : HostCommand, k.code ≠ code) →
    ∃ t, exec (.unknownCommand code) s = .next t
      ∧ t = { s with port := { s.port with
          phase := .discarding, command := some ⟨code, []⟩
          response := some ⟨[0x04#8], 0⟩ } }
      ∧ t.so 0 = 0x04#8 ∧ (∀ n, 0 < n → t.so n = 0xFF#8)
      ∧ (∀ i : Instr, i.isFrame = true → exec i t = .next t)
      ∧ ∀ received, ∃ u, exec (.csnRise received) t = .next u
          ∧ u.port.phase = .idle ∧ u.port.frameFault = s.port.frameFault

/-! ### START (R21, R171) -/

/-- START is judged by four checks in order; accepted, it records its fields, enters CENSUS,
starts the listen timer, selects the mode that R17 gives and posts its LOOP STATE notice; refused,
it changes no state but the port's transaction. -/
def Obligations.StartEntersCensusOrIsRefused : Prop :=
  ∀ (hostedCount restore : Byte) (s : State), s.receiving = true →
    let h : Byte := hostedCount &&& 0x3F#8
    let legal : Prop := 1 ≤ s.port.station.toNat ∧ s.port.station.toNat ≤ 30
    (legal → h.toNat ≤ 32 → s.loop.state = .offline ∨ s.loop.state = .broken →
      exec (.start hostedCount restore) s = .next
        (({ s with
            line := if s.loop.holdTimer = .running then s.line
              else { s.line with mode := .repeating, fillFollowing := false }
            loop := { s.loop with
              state := .census, hosted := h, restore := restore != 0#8, attempt := 0
              yielded := false, lastAnswered := none, role := .none, buildMarks := 0
              listenTimer := .running, censusTimer := .stopped, yieldTimer := .stopped
              buildTimer := .stopped }
            : State }.noticed (.loopState .census s.loop.state none none .none)).answered .start
          [hostedCount, restore]
          [0x00#8, 0x01#8, s.loop.state.code,
            if s.loop.holdTimer = .running then 1#8 else 0#8]))
    ∧ (¬legal → exec (.start hostedCount restore) s = .next
        (s.answered .start [hostedCount, restore] [0x10#8, s.loop.state.code, 0#8, 0#8]))
    ∧ (legal → 32 < h.toNat → exec (.start hostedCount restore) s = .next
        (s.answered .start [hostedCount, restore] [0x11#8, s.loop.state.code, 0#8, 0#8]))
    ∧ (legal → h.toNat ≤ 32 →
        s.loop.state = .census ∨ s.loop.state = .build ∨ s.loop.state = .running →
        exec (.start hostedCount restore) s = .next
          (s.answered .start [hostedCount, restore] [0x12#8, s.loop.state.code, 0#8, 0#8]))
    ∧ (legal → h.toNat ≤ 32 → s.loop.state = .excluded →
        exec (.start hostedCount restore) s = .next
          (s.answered .start [hostedCount, restore] [0x13#8, 0x05#8, 0#8, 0#8]))

/-! ### Requests (R44, R58, R59, R66 to R70, R76, R172) -/

/-- The expected address of a position and the position of an address are inverse on the positions
1 to T of a roster without repeated stations. T is the sum of the hosted counts, and the position of
an address is 1 plus its index plus the hosted counts of the entries before that of its station; an
address has none when no entry names its station or its index is not below the hosted count. -/
def Obligations.PositionsAndAddressesAreInverse : Prop :=
  (∀ roster : List RosterEntry, roster.all RosterEntry.inRange = true →
    distinctStations roster = true →
    (∀ p, 1 ≤ p → p ≤ rosterTotal roster →
      positionOf roster (expectedAddress roster p) = some p)
    ∧ (∀ a p, positionOf roster a = some p →
      1 ≤ p ∧ p ≤ rosterTotal roster ∧ expectedAddress roster p = a))
  ∧ ∀ (roster : List RosterEntry) (a : Address),
    let covered (es : List RosterEntry) : Nat := (es.map fun e => e.hosted.toNat).sum
    rosterTotal roster = covered roster
    ∧ (∀ before e after, roster = before ++ e :: after → e.station = a.station.setWidth 8 →
      (∀ x ∈ before, x.station ≠ a.station.setWidth 8) →
      (a.index.toNat < e.hosted.toNat →
        positionOf roster a = some (1 + a.index.toNat + covered before))
      ∧ (e.hosted.toNat ≤ a.index.toNat → positionOf roster a = none))
    ∧ ((∀ e ∈ roster, e.station ≠ a.station.setWidth 8) → positionOf roster a = none)

/-- A SUBMIT that passes the seven checks adds its entry at the end of the table with the acceptance
counter's value, marks seen 0 and state PENDING, raises the counter, and is answered ACCEPTED. -/
def Obligations.SubmitAcceptedAddsItsEntry : Prop :=
  ∀ (f : SubmitFrame) (q : Request) (p : Nat) (s : State),
    s.receiving = true → f.framed = true →
    s.loop.state = .running → s.engine.sweep.active = false →
    submitRequest f = some q → f.passLimit.toNat % 16 ≠ 0 → submitBadFields f q = false →
    (∀ e ∈ s.engine.table, e.tag ≠ f.tag) →
    q.targetPosition s.loop.roster = some p →
    (∀ e ∈ s.engine.table, q.ownershipTarget ≠ none →
      e.request.ownershipTarget ≠ q.ownershipTarget) →
    s.engine.table.length < 16 → s.engine.table.length + s.queues.completions.length < 24 →
    exec (.submit f) s = .next
      ({ s with engine := { s.engine with
          table := s.engine.table ++
            [{ tag := f.tag, request := q, position := p, passLimit := f.passLimit.toNat % 16
               acceptance := s.engine.acceptance, marks := 0, state := .pending }]
          acceptance := s.engine.acceptance + 1#16 } : State }.answered .submit f.fields
        ([0x00#8, natByte (s.engine.table.length + 1),
          natByte (s.engine.table.length + 1 + s.queues.completions.length)]
          ++ wordBytes s.engine.acceptance ++ natBytes p))

/-- A refused SUBMIT changes nothing but the port's transaction; the first check of R66 that fails
gives the refusal, and the response carries the table entries and the commitment. The target
position that check 5 asks for is the position of the address for every kind but PEEK, and for a
PEEK the position given, when it is 1 to T: a PEEK of position 0 or of one above T is NO CELL. -/
def Obligations.SubmitRefusedByTheFirstFailingCheck : Prop :=
  (∀ (f : SubmitFrame) (s : State), s.receiving = true → f.framed = true →
    let refused (status : Byte) : Prop :=
      exec (.submit f) s = .next (s.answered .submit f.fields
        [status, natByte s.engine.table.length,
          natByte (s.engine.table.length + s.queues.completions.length), 0#8, 0#8, 0#8, 0#8])
    (s.loop.state ≠ .running → refused 0x20#8)
    ∧ (s.loop.state = .running →
      (s.engine.sweep.active = true → refused 0x21#8)
      ∧ (s.engine.sweep.active = false →
        (submitRequest f = none → refused 0x11#8)
        ∧ ∀ q, submitRequest f = some q →
          (f.passLimit.toNat % 16 = 0 ∨ submitBadFields f q = true → refused 0x11#8)
          ∧ (f.passLimit.toNat % 16 ≠ 0 → submitBadFields f q = false →
            ((∃ e ∈ s.engine.table, e.tag = f.tag) → refused 0x22#8)
            ∧ ((∀ e ∈ s.engine.table, e.tag ≠ f.tag) →
              (q.targetPosition s.loop.roster = none → refused 0x23#8)
              ∧ ∀ p, q.targetPosition s.loop.roster = some p →
                ((∃ e ∈ s.engine.table, ∃ a, q.ownershipTarget = some a ∧
                    e.request.ownershipTarget = some a) → refused 0x24#8)
                ∧ ((∀ e ∈ s.engine.table, ∀ a, q.ownershipTarget = some a →
                    e.request.ownershipTarget ≠ some a) →
                  16 ≤ s.engine.table.length ∨
                    24 ≤ s.engine.table.length + s.queues.completions.length →
                  refused 0x25#8))))))
  ∧ ∀ roster : List RosterEntry,
    (∀ (a : Address) (q : Request),
      q = .read a ∨ q = .header a ∨ q = .claim a ∨ q = .release a
        ∨ (∃ first words expected, q = .write a first words expected)
        ∨ (∃ first words, q = .verify a first words) →
      q.targetPosition roster = positionOf roster a)
    ∧ ∀ p : Word,
      (1 ≤ p.toNat → p.toNat ≤ rosterTotal roster →
        (Request.peek p).targetPosition roster = some p.toNat)
      ∧ (p.toNat = 0 ∨ rosterTotal roster < p.toNat →
        (Request.peek p).targetPosition roster = none)

/-- The kind codes of a SUBMIT frame, the fields that each kind takes from it, and the ranges that
check 3 refuses: station 0 or 31, and a word range that is empty, over 32 words or past word 31.
-/
def Obligations.SubmitFrameFieldsAndRanges : Prop :=
  ∀ f : SubmitFrame,
    let a : Address := ⟨f.targetHigh.setWidth 5, f.targetLow.setWidth 5⟩
    let first := f.firstWord.toNat % 32
    let count := f.wordCount.toNat % 64
    let badAddress : Prop := a.station = 0#5 ∨ a.station = 31#5
    let badRange : Prop := count = 0 ∨ 32 < count ∨ 32 < first + count
    (f.kind = 1#8 → submitRequest f = some (.read a)
      ∧ (submitBadFields f (.read a) = true ↔ badAddress))
    ∧ (f.kind = 2#8 → submitRequest f = some (.header a)
      ∧ (submitBadFields f (.header a) = true ↔ badAddress))
    ∧ (f.kind = 3#8 → submitRequest f = some (.peek (f.targetHigh ++ f.targetLow))
      ∧ submitBadFields f (.peek (f.targetHigh ++ f.targetLow)) = false)
    ∧ (f.kind = 4#8 →
      (f.expectedPresent = 0#8 → submitRequest f = some (.write a first f.words none))
      ∧ (f.expectedPresent ≠ 0#8 →
        submitRequest f = some (.write a first f.words (some f.expectedGeneration)))
      ∧ ∀ g, (submitBadFields f (.write a first f.words g) = true ↔ badAddress ∨ badRange))
    ∧ (f.kind = 5#8 → submitRequest f = some (.verify a first f.words)
      ∧ (submitBadFields f (.verify a first f.words) = true ↔ badAddress ∨ badRange))
    ∧ (f.kind = 6#8 → submitRequest f = some (.claim a)
      ∧ (submitBadFields f (.claim a) = true ↔ badAddress))
    ∧ (f.kind = 7#8 → submitRequest f = some (.release a)
      ∧ (submitBadFields f (.release a) = true ↔ badAddress))
    ∧ (f.kind = 0#8 ∨ 8 ≤ f.kind.toNat → submitRequest f = none)
    ∧ (f.framed = true ↔ f.words.length =
        if (f.kind = 4#8 ∨ f.kind = 5#8) ∧ 1 ≤ count ∧ count ≤ 32 then count else 0)

/-- ABORT acts by the state of the entry that carries its tag, and answers NOT FOUND when none
does, as in every state but RUNNING, where the table is empty. -/
def Obligations.AbortActsByTheEntryState : Prop :=
  ∀ (tag : Byte) (s : State), s.receiving = true →
    ((∀ e ∈ s.engine.table, e.tag ≠ tag) →
      exec (.abort tag) s = .next (s.answered .abort [tag] [0x33#8, 0#8, 0#8, 0#8]))
    ∧ (s.quiet → s.loop.state ≠ .running →
      exec (.abort tag) s = .next (s.answered .abort [tag] [0x33#8, 0#8, 0#8, 0#8]))
    ∧ ∀ (before after : List Entry) (e : Entry), s.engine.table = before ++ e :: after →
      e.tag = tag → (∀ x ∈ before ++ after, x.tag ≠ tag) →
      (e.state = .pending → exec (.abort tag) s = .next
        ({ s with
            engine := { s.engine with table := before ++ after }
            queues := { s.queues with completions := s.queues.completions ++
              [{ tag := e.tag, request := e.request, position := e.position
                 acceptance := e.acceptance, result := .aborted, returned := false, how := none
                 revolution := s.tracker.revolution, data := .none }] }
            : State }.answered .abort [tag] ([0x30#8] ++ wordBytes e.acceptance ++ [0#8])))
      ∧ (e.state = .reserved → exec (.abort tag) s = .next
        ({ s with engine := { s.engine with
            table := before ++ { e with state := .withdrawing .aborted } :: after }
            : State }.answered .abort [tag] ([0x31#8] ++ wordBytes e.acceptance ++ [0#8])))
      ∧ (e.state = .withdrawing .timeout → exec (.abort tag) s = .next
        (s.answered .abort [tag] ([0x32#8] ++ wordBytes e.acceptance ++ [7#8])))
      ∧ (e.state = .withdrawing .aborted → exec (.abort tag) s = .next
        (s.answered .abort [tag] ([0x32#8] ++ wordBytes e.acceptance ++ [8#8])))

/-! ### Queues (R147, R150 to R153) -/

/-- TAKE returns the oldest completion record, which leaves the queue only at the final byte; the
commitment then falls by one. An empty queue answers EMPTY and nothing changes. That the records
in queue, 0, follow EMPTY, that the response in hand stands at its end once the port is SPENT, and
that a response without a record only ends, are the model's readings (log 16, log 10, log 23). A
record is the length of its data part, the tag, the kind, the target, the target position, the
acceptance number, the result, the detail, the revolution count and the data part, with the codes of
R179 and, for each kind of data, the items of R145 and R146 in order and the length of R179. The
kind and target codes, which are those of SUBMIT, and the byte of the HANDOFF item of RELEASE NOT
OWNER are the model's (log 34, log 32). -/
def Obligations.TakeReturnsTheOldestCompletion : Prop :=
  (∀ s : State,
    (s.receiving = true →
      (∀ c rest, s.queues.completions = c :: rest →
        exec .take s = .next (s.answered .take []
          ([0x01#8, natByte (rest.length + 1)] ++ c.bytes)))
      ∧ (s.queues.completions = [] → exec .take s = .next
          (s.answered .take [] [0x02#8, 0x00#8])))
    ∧ (∀ r, s.resetHeld = false → s.port.phase = .responding →
      s.port.command.map CommandInHand.code = some 0x13#8 → s.port.response = some r →
      (∀ c rest, s.queues.completions = c :: rest → r.bytes.head? = some 0x01#8 →
        ∃ t, exec .takeFinalByte s = .next t
          ∧ t = { s with
              port := { s.port with phase := .spent, response := some ⟨r.bytes, r.bytes.length⟩ }
              queues := { s.queues with completions := rest } }
          ∧ t.commitment + 1 = s.commitment)
      ∧ (r.bytes.head? ≠ some 0x01#8 → exec .takeFinalByte s = .next
          { s with port := { s.port with
              phase := .spent, response := some ⟨r.bytes, r.bytes.length⟩ } }))
    ∧ ∀ received, ∃ t, exec (.csnRise received) s = .next t ∧ t.queues = s.queues)
  ∧ (∀ c : Completion,
    let how : Byte := match c.how with
      | none => 0#8
      | some .takenFree => 2#8
      | some .alreadyOwner => 4#8
      | some .handedOver => 6#8
    c.bytes =
      [BitVec.ofNat 8 c.data.bytes.length, c.tag, c.request.kind.code] ++ c.request.targetBytes
        ++ highFirst c.position ++ highFirst c.acceptance.toNat
        ++ [c.result.code, bitAt 0 c.returned + how] ++ highFirst c.revolution.toNat
        ++ c.data.bytes)
  ∧ ([Result.done, .damaged, .mismatch, .owned, .notOwner, .stale, .timeout, .aborted,
      .loopBroken].map Result.code = [1#8, 2#8, 3#8, 4#8, 5#8, 6#8, 7#8, 8#8, 9#8])
  ∧ (let asked (q : Request) (kind : Byte) (target : List Byte) : Prop :=
      q.kind.code = kind ∧ q.targetBytes = target
    (∀ p : Word, asked (.peek p) 3#8 (highFirst p.toNat))
    ∧ ∀ a : Address,
      asked (.read a) 1#8 (stationIndex a) ∧ asked (.header a) 2#8 (stationIndex a)
      ∧ (∀ first words expected, asked (.write a first words expected) 4#8 (stationIndex a))
      ∧ (∀ first words, asked (.verify a first words) 5#8 (stationIndex a))
      ∧ asked (.claim a) 6#8 (stationIndex a) ∧ asked (.release a) 7#8 (stationIndex a))
  ∧ (let part (d : CompletionData) (length : Nat) (bytes : List Byte) : Prop :=
      d.bytes = bytes ∧ bytes.length = length
    let code (c : Code5) : Byte := c.setWidth 8
    let summary (h : HeaderSummary) : List Byte :=
      stationIndex h.address ++ [h.generation, code h.owner, code h.reserver,
        bitAt 0 h.handoff + bitAt 1 h.damaged + bitAt 2 h.restored]
    let repairedBits : Repaired → Byte
      | .none => 0#8
      | .header => 4#8
      | .payload => 8#8
    part .none 0 []
    ∧ (∀ h words, part (.cell h words) 70 (summary h ++ wordsHighFirst words))
    ∧ (∀ h, part (.header h) 6 (summary h))
    ∧ (∀ (h : Header) words headerGood payloadGood repaired,
      part (.raw h words headerGood payloadGood repaired) 73
        ([h.kindCode, h.byte2, h.byte3, h.byte4, h.byte5, h.byte6, h.byte7, h.check]
          ++ wordsHighFirst words
          ++ [bitAt 0 headerGood + bitAt 1 payloadGood + repairedBits repaired]))
    ∧ (∀ g, part (.generation g) 1 [g])
    ∧ (∀ owner g, part (.owned owner g) 2 [code owner, g])
    ∧ (∀ (i : Nat) (w : Word) g, part (.mismatch i w g) 4
      ([BitVec.ofNat 8 i] ++ highFirst w.toNat ++ [g]))
    ∧ (∀ g reserver, part (.claimed g reserver) 2 [g, code reserver])
    ∧ (∀ station g, part (.returned station g) 2 [code station, g])
    ∧ (∀ station g, part (.released station g) 2 [code station, g])
    ∧ ∀ owner handoff, part (.notOwner owner handoff) 2 [code owner, bitAt 0 handoff])

/-- NOTE returns the oldest notice, which leaves the queue only at the final byte; a nonzero lost
count then enters a LOST record and becomes 0, unless a LOST record still stands. What the port
holds after the final byte, and that a response without a record only ends, are the model's
readings (log 10, log 23). A record is the length of its content, the kind, the revolution count and
the content, which holds the items of R179 in order for each kind; that a formation number not
carried is sent as 0 is the model's reading (log 35). -/
def Obligations.NoteReturnsTheOldestNotice : Prop :=
  (∀ s : State,
    (s.receiving = true →
      (∀ n rest, s.queues.notices = n :: rest →
        exec .note s = .next (s.answered .note []
          ([0x01#8, natByte (rest.length + 1)] ++ natBytes s.queues.lost ++ n.bytes)))
      ∧ (s.queues.notices = [] → exec .note s = .next
          (s.answered .note [] ([0x02#8] ++ natBytes s.queues.lost))))
    ∧ (∀ r, s.resetHeld = false → s.port.phase = .responding →
      s.port.command.map CommandInHand.code = some 0x14#8 → s.port.response = some r →
      let shifted : Port :=
        { s.port with phase := .spent, response := some ⟨r.bytes, r.bytes.length⟩ }
      (∀ n rest, s.queues.notices = n :: rest → r.bytes.head? = some 0x01#8 →
        (s.queues.lost = 0 → exec .noteFinalByte s = .next
          { s with port := shifted, queues := { s.queues with notices := rest } })
        ∧ ((∃ x ∈ rest, x.isLost = true) → exec .noteFinalByte s = .next
          { s with port := shifted, queues := { s.queues with notices := rest } })
        ∧ (s.queues.lost ≠ 0 → (∀ x ∈ rest, x.isLost = false) → exec .noteFinalByte s = .next
          { s with
            port := shifted
            queues := { s.queues with
              notices := rest ++ [⟨.lost s.queues.lost, s.tracker.revolution⟩], lost := 0 } }))
      ∧ (r.bytes.head? ≠ some 0x01#8 → exec .noteFinalByte s = .next
          { s with port := shifted }))
    ∧ ∀ received, ∃ t, exec (.csnRise received) s = .next t ∧ t.queues = s.queues)
  ∧ (∀ n : Notice, n.bytes =
    [BitVec.ofNat 8 n.body.bytes.length, n.body.kindCode] ++ highFirst n.revolution.toNat
      ++ n.body.bytes)
  ∧ ([RepairCause.check, .address, .ownership].map RepairCause.code = [1#8, 2#8, 3#8])
  ∧ (let content (b : NoticeBody) (kind : Byte) (bytes : List Byte) : Prop :=
      b.kindCode = kind ∧ b.bytes = bytes
    let code (c : Code5) : Byte := c.setWidth 8
    (∀ expected received cause p good count,
      content (.damageFound (.header expected received cause) p good count) 1#8
        ([1#8] ++ highFirst p ++ stationIndex expected ++ stationIndex received
          ++ [cause.code, bitAt 0 good, BitVec.ofNat 8 count]))
    ∧ (∀ expected received p good count,
      content (.damageFound (.payload expected received) p good count) 1#8
        ([2#8] ++ highFirst p ++ stationIndex expected ++ stationIndex received
          ++ [0#8, bitAt 0 good, BitVec.ofNat 8 count]))
    ∧ (∀ p good count, content (.damageFound .mark p good count) 1#8
      ([3#8] ++ highFirst p ++ [0#8, 0#8, 0#8, 0#8]
        ++ [0#8, bitAt 0 good, BitVec.ofNat 8 count]))
    ∧ (∀ w : WatchReport, ∃ firing : Byte,
      (∀ n, n < 8 → firing.getLsbD n = w.firing.getD n false)
      ∧ content (.watch w) (if w.changed = true then 2#8 else 3#8)
        (stationIndex w.address ++ highFirst w.position
          ++ [firing, bitAt 0 w.generationDiffered + bitAt 1 w.ownerDiffered + bitAt 2 w.damaged
                + bitAt 3 w.payload.isSome,
            w.oldGeneration, code w.oldOwner, w.newGeneration, code w.newOwner]
          ++ match w.payload with
            | none => []
            | some words => wordsHighFirst words))
    ∧ (∀ a p station g, content (.orphanReturned a p station g) 4#8
      (stationIndex a ++ highFirst p ++ [code station, g]))
    ∧ (∀ a p owner g, content (.staleReservation a p owner g) 5#8
      (stationIndex a ++ highFirst p ++ [code owner, g]))
    ∧ (∀ released complete, content (.sweepDone released complete) 6#8
      (highFirst released ++ [bitAt 0 complete]))
    ∧ (∀ new former reason formation role,
      content (.loopState new former reason formation role) 7#8
        [new.code, former.code, reasonCode reason, formation.getD 0#8, role.code])
    ∧ ∀ count, content (.lost count) 8#8 (highFirst count))

/-- A notice posted while the queue holds fewer than 16 records joins at the end; otherwise it is
dropped, and the lost count goes up by one and stays at 65,535. Shown on the notice of an accepted
START, whose other effects do not depend on the room. -/
def Obligations.NoticesBeyondSixteenAreCounted : Prop :=
  ∀ (hostedCount restore : Byte) (s : State), s.receiving = true →
    stationLegal s.port.station = true → (hostedCount &&& 0x3F#8).toNat ≤ 32 →
    s.loop.state = .offline ∨ s.loop.state = .broken →
    ∃ t, exec (.start hostedCount restore) s = .next t
      ∧ t.loop.state = .census
      ∧ t.queues.completions = s.queues.completions
      ∧ (s.queues.notices.length < 16 →
        t.queues.notices = s.queues.notices ++
          [⟨.loopState .census s.loop.state none none .none, s.tracker.revolution⟩]
        ∧ t.queues.lost = s.queues.lost)
      ∧ (16 ≤ s.queues.notices.length → t.queues.notices = s.queues.notices
        ∧ (s.queues.lost < 65535 → t.queues.lost = s.queues.lost + 1)
        ∧ (s.queues.lost = 65535 → t.queues.lost = 65535))
      ∧ t.attn = true

/-! ### Watch table, home image, STATUS, ROSTER, RESET -/

/-- WATCH SET writes its entry whole, with the value bits not cared for cleared, and WATCH CLEAR
disables its entry and keeps the other fields; both are refused MALFORMED for an entry number
above 7, WATCH SET also for a trigger code of none of the three. That the response gives the
enabled indication first, that enabled yes and capture yes are sent as 01h, and that a value byte
gives its low five bits, are the model's choices (log 14, log 15). -/
def Obligations.WatchSetAndClearWriteTheirEntry : Prop :=
  (∀ (f : WatchSetFrame) (s : State), s.receiving = true →
    let n := f.entry.toNat % 16
    let sc : Code5 := f.stationCare.setWidth 5
    let ic : Code5 := f.indexCare.setWidth 5
    (∀ trigger : Trigger, n ≤ 7 → f.trigger = trigger.code →
      let w : WatchEntry :=
        { enabled := true
          value := ⟨f.valueStation.setWidth 5 &&& sc, f.valueIndex.setWidth 5 &&& ic⟩
          stationCare := sc, indexCare := ic, trigger, capture := f.capture != 0#8 }
      exec (.watchSet f) s = .next
        ({ s with watch := { s.watch with entries := s.watch.entries.setIfInBounds n w } :
            State }.answered .watchSet f.fields
          [0x00#8, 1#8, w.value.station.setWidth 8, w.value.index.setWidth 8, sc.setWidth 8,
            ic.setWidth 8, f.trigger, if f.capture = 0#8 then 0#8 else 1#8]))
    ∧ (7 < n ∨ (∀ trigger : Trigger, f.trigger ≠ trigger.code) →
      exec (.watchSet f) s = .next
        (s.answered .watchSet f.fields [0x11#8, 0#8, 0#8, 0#8, 0#8, 0#8, 0#8, 0#8])))
  ∧ ([Trigger.change, .owner, .both].map Trigger.code = [1#8, 2#8, 3#8])
  ∧ ∀ (entry : Byte) (s : State), s.receiving = true →
    let n := entry.toNat % 16
    (∀ (h : n < 8), exec (.watchClear entry) s = .next
      ({ s with watch := { s.watch with
          entries := s.watch.entries.set n { s.watch.entries[n] with enabled := false } } :
          State }.answered .watchClear [entry]
        [0x00#8, if s.watch.entries[n].enabled = true then 1#8 else 0#8]))
    ∧ (7 < n → exec (.watchClear entry) s = .next
        (s.answered .watchClear [entry] [0x11#8, 0#8]))

/-- HOME LOAD replaces its entry whole in OFFLINE, BROKEN and EXCLUDED and is refused MALFORMED
above index 31, then WRONG STATE; HOME READ returns its entry in every state and changes nothing.
-/
def Obligations.HomeLoadAndReadUseTheirEntry : Prop :=
  ([Source.zero, .loaded, .refreshed].map Source.code = [0#8, 1#8, 2#8])
  ∧ (∀ p : Payload, payloadBytes p = wordsHighFirst p)
  ∧ ∀ (index : Byte) (s : State), s.receiving = true →
    let i := index.toNat % 64
    (∀ (generation : Byte) (words : Payload),
      let fields := index :: generation :: payloadBytes words
      (∀ (h : i < 32),
        s.loop.state = .offline ∨ s.loop.state = .broken ∨ s.loop.state = .excluded →
        exec (.homeLoad index generation words) s = .next
          ({ s with home := s.home.set i { payload := words, generation, source := .loaded } :
              State }.answered .homeLoad fields
            [0x00#8, natByte i, s.home[i].source.code]))
      ∧ (31 < i → exec (.homeLoad index generation words) s = .next
          (s.answered .homeLoad fields [0x11#8, 0#8, 0#8]))
      ∧ (i < 32 →
        s.loop.state = .census ∨ s.loop.state = .build ∨ s.loop.state = .running →
        exec (.homeLoad index generation words) s = .next
          (s.answered .homeLoad fields [0x14#8, 0#8, 0#8])))
    ∧ (∀ (h : i < 32), exec (.homeRead index) s = .next
        (s.answered .homeRead [index]
          ([0x00#8, natByte i, s.home[i].source.code, s.home[i].generation]
            ++ payloadBytes s.home[i].payload)))
    ∧ (31 < i → exec (.homeRead index) s = .next
        (s.answered .homeRead [index] (0x11#8 :: List.replicate 67 0#8)))

/-- STATUS changes nothing at its taking, and its 39 bytes carry the items of R173 in order; at
its final byte FRAME FAULT is cleared. ROSTER changes nothing and its 65 bytes carry the formation
number, the roster count, T and the roster with zero entries up to 30. The codes of their items are
those of R179, numbers of two bytes go high byte first, and the watch entry n is bit n of its byte.
What the port holds after the final byte of a STATUS is the model's reading (log 10, log 23). -/
def Obligations.StatusAndRosterReportTheState : Prop :=
  (∀ s : State, s.receiving = true → ∃ response : List Byte,
    exec .status s = .next (s.answered .status [] response)
    ∧ response.length = 39
    ∧ response = [0x00#8] ++
      [codeByte s.port.station, boolByte (stationLegal s.port.station),
        boolByte s.port.frameFault] ++
      [s.loop.state.code, s.loop.role.code, natByte s.loop.attempt, boolByte s.loop.yielded,
        reasonCode s.loop.lastReason, s.loop.formation, s.loop.latestFormation, s.loop.hosted,
        boolByte s.loop.restore, boolByte (s.loop.holdTimer == .running)] ++
      [s.line.mode.code, boolByte s.line.fillFollowing, s.line.signal.code, s.line.fill.code] ++
      [s.tracker.activity.code] ++ wordBytes s.tracker.revolution ++
      [natByte s.tracker.damage] ++
      (match s.tracker.lastFault with
        | none => [0#8, 0#8, 0#8, 0#8, 0#8]
        | some x => [x.cause.code] ++ natBytes x.position ++ wordBytes x.revolution) ++
      [natByte s.engine.table.length,
        natByte (s.engine.table.length + s.queues.completions.length)] ++
      wordBytes s.engine.acceptance ++ [boolByte s.engine.sweep.active] ++
      natBytes s.engine.sweep.released ++
      [bitsByte (s.watch.entries.toList.map WatchEntry.enabled)] ++
      [natByte s.queues.completions.length, natByte s.queues.notices.length] ++
      natBytes s.queues.lost)
  ∧ (∀ (s : State) (r : ResponseInHand), s.resetHeld = false → s.port.phase = .responding →
    s.port.command.map CommandInHand.code = some 0x19#8 → s.port.response = some r →
    (r.bytes.head? = some 0x00#8 → exec .statusFinalByte s = .next
      { s with port := { s.port with
          phase := .spent, response := some ⟨r.bytes, r.bytes.length⟩, frameFault := false } })
    ∧ (r.bytes.head? ≠ some 0x00#8 → exec .statusFinalByte s = .next
      { s with port := { s.port with
          phase := .spent, response := some ⟨r.bytes, r.bytes.length⟩ } }))
  ∧ (∀ s : State, s.receiving = true → s.loop.roster.length ≤ 30 →
    ∃ response : List Byte,
      exec .roster s = .next (s.answered .roster [] response)
      ∧ response.length = 65
      ∧ response = [0x00#8, s.loop.formation, natByte s.loop.roster.length] ++
          natBytes (rosterTotal s.loop.roster) ++
          (s.loop.roster.flatMap fun e => [e.station, e.hosted]) ++
          List.replicate (2 * (30 - s.loop.roster.length)) 0#8)
  ∧ ([LoopState.offline, .census, .build, .running, .broken, .excluded].map LoopState.code
      = [0#8, 1#8, 2#8, 3#8, 4#8, 5#8])
  ∧ ([none, some Reason.formTimeout, some .duplicateStation, some .buildTimeout, some .signalLost,
      some .breakReceived, some .positionFault, some .damageBurst, some .notInRoster].map reasonCode
      = [0#8, 1#8, 2#8, 3#8, 4#8, 5#8, 6#8, 7#8, 8#8])
  ∧ ([Role.none, .originator, .nonOriginator].map Role.code = [0#8, 1#8, 2#8])
  ∧ ([TransmitMode.repeating, .censusOnly, .breakHold].map TransmitMode.code = [0#8, 1#8, 2#8])
  ∧ ([Signal.present, .lost].map Signal.code = [0#8, 1#8])
  ∧ ([Fill.idle, .breakFill].map Fill.code = [0#8, 1#8])
  ∧ ([Activity.inactive, .active].map Activity.code = [0#8, 1#8])
  ∧ ([FaultCause.markOutOfPlace, .markMissing, .foreignMark, .formationCell].map FaultCause.code
      = [1#8, 2#8, 3#8, 4#8])
  ∧ ([false, true].map boolByte = [0#8, 1#8])
  ∧ (∀ (l : List Bool) (n : Nat), n < 8 → (bitsByte l).getLsbD n = l.getD n false)
  ∧ (∀ c : Code5, codeByte c = c.setWidth 8) ∧ (∀ n : Nat, natByte n = BitVec.ofNat 8 n)
  ∧ (∀ n : Nat, natBytes n = highFirst n)
  ∧ ∀ w : Word, wordBytes w = highFirst w.toNat

/-- RESET empties the table, both queues and the lost count and disables the watch entries; with
the release option it starts a sweep in RUNNING and is told OPTION IGNORED elsewhere; an active
sweep ends without a notice. Everything else keeps its value. -/
def Obligations.HostResetEmptiesAndMaySweep : Prop :=
  ∀ (option : Byte) (s : State), s.receiving = true →
    let emptied (sweep : Sweep) : State :=
      { s with
        engine := { s.engine with table := [], sweep }
        queues := { completions := [], notices := [], lost := 0 }
        watch := { s.watch with
          entries := Vector.ofFn fun i : Fin 8 => { s.watch.entries[i] with enabled := false } } }
    let discarded : List Byte :=
      [natByte s.engine.table.length, natByte s.queues.completions.length,
        natByte s.queues.notices.length] ++ natBytes s.queues.lost ++
        [boolByte s.engine.sweep.active]
    let ended : Sweep := { s.engine.sweep with active := false }
    (option = 0#8 → exec (.reset option) s = .next
      ((emptied ended).answered .reset [option] (0x00#8 :: discarded)))
    ∧ (option ≠ 0#8 → s.loop.state = .running → exec (.reset option) s = .next
      ((emptied { active := true, released := 0, marks := 0 }).answered .reset [option]
        (0x40#8 :: discarded)))
    ∧ (option ≠ 0#8 → s.loop.state ≠ .running → exec (.reset option) s = .next
      ((emptied ended).answered .reset [option] (0x41#8 :: discarded)))
    ∧ ∃ t, exec (.reset option) s = .next t ∧ t.attn = false ∧ t.commitment = 0

/-! ### Arriving cells outside RUNNING (R4, R15, R16, R20, R24 to R28, R30 to R36, R38, R39, R157)
-/

/-- OFFLINE and EXCLUDED forward what arrives, but for DATA cells that break the conditions of R4,
and read well-formed MARKs with good checks. A station in CENSUS ONLY or BREAK HOLD enters CENSUS
cells unaltered and discards the others. -/
def Obligations.RepeatersAndCarriersForward : Prop :=
  ∀ (r : Reception) (s : State), s.resetHeld = false →
    let forwarded := s.delivered.entered [r.cell]
    (s.line.mode = .repeating → s.loop.state = .offline ∨ s.loop.state = .excluded →
      (r.cell.kind = .census ∨ r.cell.kind = .tail →
        exec (.cellArrival r) s = .next forwarded)
      ∧ (r.cell.kind = .data →
        (r.cell.header.ownershipGood = true → exec (.cellArrival r) s = .next forwarded)
        ∧ (r.cell.header.ownershipGood = false → exec (.cellArrival r) s = .next s.delivered))
      ∧ (r.cell.kind = .mark →
        (r.good = true ∧ r.cell.markWellFormed = true → exec (.cellArrival r) s = .next
          { forwarded with loop := { s.loop with
              latestFormation := heard s.loop.latestFormation r.cell.header.markFormation } })
        ∧ (r.good = false ∨ r.cell.markWellFormed = false →
          exec (.cellArrival r) s = .next forwarded)))
    ∧ (s.line.mode = .censusOnly ∨ s.line.mode = .breakHold →
      (r.cell.kind = .census → exec (.cellArrival r) s = .next forwarded)
      ∧ (r.cell.kind ≠ .census → exec (.cellArrival r) s = .next s.delivered))

/-- A well-formed MARK with good checks replaces the latest formation number when its own is later
modulo 256, in OFFLINE, CENSUS, BUILD and EXCLUDED alike and whatever its fate; it does not in
RUNNING or where no cell is reported. A station that becomes originator takes its new number as
the latest. -/
def Obligations.LaterFormationNumbersAreKept : Prop :=
  ∀ (r : Reception) (s : State), s.resetHeld = false →
    let n := r.cell.header.markFormation
    let latest := s.loop.latestFormation
    (r.cell.kind = .mark → r.good = true → r.cell.markWellFormed = true →
      (s.line.mode = .repeating →
        s.loop.state = .offline ∨ s.loop.state = .census ∨ s.loop.state = .build
          ∨ s.loop.state = .excluded →
        ∃ t, exec (.cellArrival r) s = .next t
          ∧ (1 ≤ (n.toNat + 256 - latest.toNat) % 256 ∧ (n.toNat + 256 - latest.toNat) % 256 ≤ 127 →
            t.loop.latestFormation = n)
          ∧ ((n.toNat + 256 - latest.toNat) % 256 = 0
              ∨ 128 ≤ (n.toNat + 256 - latest.toNat) % 256 →
            t.loop.latestFormation = latest))
      ∧ (s.line.mode ≠ .repeating ∨ s.loop.state = .running ∨ s.loop.state = .broken →
        ∃ t, exec (.cellArrival r) s = .next t ∧ t.loop.latestFormation = latest))
    ∧ (s.reporting .census → r.cell.kind = .census → r.good = true →
      r.cell.censusWellFormed = true → r.cell.header.originator = s.port.station →
      s.loop.yielded = false → r.cell.header.attemptNumber.toNat = s.loop.attempt →
      ∃ t, exec (.cellArrival r) s = .next t ∧ t.loop.latestFormation = latest + 1#8
        ∧ t.loop.formation = latest + 1#8)

/-- What a station in CENSUS does with DATA, TAIL and CENSUS cells: it discards the first two and
every census it may not act on; it answers a lower-numbered census once, breaks on one that
already names it, and otherwise yields with its yield wait started afresh. -/
def Obligations.CensusCellsAreJudgedInCensus : Prop :=
  ∀ (r : Reception) (s : State), s.reporting .census →
    let c := r.cell
    let me := s.port.station
    let o := c.header.originator
    let a := c.header.attemptNumber
    (c.kind = .data ∨ c.kind = .tail → exec (.cellArrival r) s = .next s.delivered)
    ∧ (c.kind = .census → r.good = false ∨ c.censusWellFormed = false →
      exec (.cellArrival r) s = .next s.delivered)
    ∧ (c.kind = .census → r.good = true → c.censusWellFormed = true →
      (me.toNat < o.toNat → exec (.cellArrival r) s = .next s.delivered)
      ∧ (o = me → s.loop.yielded = true ∨ a.toNat ≠ s.loop.attempt →
        exec (.cellArrival r) s = .next s.delivered)
      ∧ (o.toNat < me.toNat →
        (s.loop.lastAnswered = some (o, a) → exec (.cellArrival r) s = .next s.delivered)
        ∧ (s.loop.lastAnswered ≠ some (o, a) →
          ((∃ e ∈ c.censusEntries, e.station = codeByte me) →
            exec (.cellArrival r) s = .next (s.delivered.enterBroken .duplicateStation))
          ∧ ((∀ e ∈ c.censusEntries, e.station ≠ codeByte me) →
            exec (.cellArrival r) s = .next
              ({ s.delivered with loop := { s.loop with
                  lastAnswered := some (o, a), yielded := true, censusTimer := .stopped
                  yieldTimer := .running } : State }.entered
                [answeredCensus c ⟨codeByte me, s.loop.hosted⟩])))))

/-- The station's own current census returning makes it the originator: it takes the entries as
roster and the next formation number, enters BUILD, forgets the seen table, and enters its MARK,
its hosted cells and the TAIL into the store in this order. -/
def Obligations.OwnCensusCompletesIntoBuild : Prop :=
  ∀ (r : Reception) (s : State), s.reporting .census → r.cell.kind = .census →
    r.good = true → r.cell.censusWellFormed = true →
    r.cell.header.originator = s.port.station → s.loop.yielded = false →
    r.cell.header.attemptNumber.toNat = s.loop.attempt →
    let roster := r.cell.censusEntries
    let formation := s.loop.latestFormation + 1#8
    exec (.cellArrival r) s = .next
      (({ s.delivered with
          line := { s.delivered.line with mode := .repeating, fillFollowing := false }
          loop := { s.loop with
            state := .build, role := .originator, buildMarks := 0, inserted := false, roster
            formation, latestFormation := formation, listenTimer := .stopped
            censusTimer := .stopped, yieldTimer := .stopped, buildTimer := .running }
          watch := { s.watch with seen := [] } : State }.noticed
        (.loopState .build .census none (some formation) .originator)).entered
          (builtMark formation roster ::
            ((List.range s.loop.hosted.toNat).map s.hostedCell
              ++ [builtTail s.port.station formation])))

/-- A MARK heard in CENSUS is forwarded in every case. A sound one that names the station with its
hosted count takes it to BUILD as a non-originator with the MARK's roster and number; any other
sound one takes it to EXCLUDED; a bad or ill-formed one changes no state. -/
def Obligations.MarkHeardInCensusJoinsOrExcludes : Prop :=
  ∀ (r : Reception) (s : State), s.reporting .census → r.cell.kind = .mark →
    let c := r.cell
    let n := c.header.markFormation
    let line : Line :=
      { s.delivered.line with
        store := storeEnter s.line.store c, mode := .repeating, fillFollowing := false }
    (r.good = false ∨ c.markWellFormed = false →
      exec (.cellArrival r) s = .next (s.delivered.entered [c]))
    ∧ (r.good = true → c.markWellFormed = true →
      (⟨codeByte s.port.station, s.loop.hosted⟩ ∈ c.roster →
        exec (.cellArrival r) s = .next
          ({ s with
              line
              loop := { s.loop with
                state := .build, role := .nonOriginator, buildMarks := 0, inserted := false
                roster := c.roster, formation := n
                latestFormation := heard s.loop.latestFormation n, listenTimer := .stopped
                censusTimer := .stopped, yieldTimer := .stopped, buildTimer := .running }
              watch := { s.watch with seen := [] } : State }.noticed
            (.loopState .build .census none (some n) .nonOriginator)))
      ∧ (⟨codeByte s.port.station, s.loop.hosted⟩ ∉ c.roster →
        exec (.cellArrival r) s = .next
          ({ s with
              line
              loop := { s.loop with
                state := .excluded, lastReason := some .notInRoster
                latestFormation := heard s.loop.latestFormation n, listenTimer := .stopped
                censusTimer := .stopped, yieldTimer := .stopped, buildTimer := .stopped }
              : State }.noticed
            (.loopState .excluded .census (some .notInRoster) none .none))))

/-- An originator in BUILD forwards its own MARK, rewrites a damaged one, discards a foreign MARK
or TAIL and every CENSUS cell, forwards DATA cells that keep R4, and on its returning TAIL, sound
or damaged, enters RUNNING with the tracker ACTIVE at position T. -/
def Obligations.OriginatorRunsOnItsReturningTail : Prop :=
  ∀ (r : Reception) (s : State), s.reporting .build → s.loop.role = .originator →
    let c := r.cell
    let listened : State :=
      { s.delivered with loop := { s.loop with
          latestFormation := heard s.loop.latestFormation c.header.markFormation } }
    let running : State :=
      { s.delivered with
        line := { s.delivered.line with mode := .repeating, fillFollowing := false }
        loop := { s.loop with
          state := .running, role := .none, listenTimer := .stopped, censusTimer := .stopped
          yieldTimer := .stopped, buildTimer := .stopped }
        queues := s.queues.post
          ⟨.loopState .running .build none (some s.loop.formation) .none, s.tracker.revolution⟩
        tracker := { s.tracker with
          activity := .active, damage := 0, position := rosterTotal s.loop.roster } }
    (c.kind = .census → exec (.cellArrival r) s = .next s.delivered)
    ∧ (c.kind = .data →
      (c.header.ownershipGood = true →
        exec (.cellArrival r) s = .next (s.delivered.entered [c]))
      ∧ (c.header.ownershipGood = false → exec (.cellArrival r) s = .next s.delivered))
    ∧ (c.kind = .mark →
      (r.good = false ∨ c.markWellFormed = false → exec (.cellArrival r) s = .next
        (s.delivered.entered [builtMark s.loop.formation s.loop.roster]))
      ∧ (r.good = true → c.markWellFormed = true →
        (c.header.markFormation = s.loop.formation ∧ c.roster = s.loop.roster →
          exec (.cellArrival r) s = .next (listened.entered [c]))
        ∧ (c.header.markFormation ≠ s.loop.formation ∨ c.roster ≠ s.loop.roster →
          exec (.cellArrival r) s = .next listened)))
    ∧ (c.kind = .tail →
      (r.good = true →
          c.header.originator ≠ s.port.station ∨ c.header.tailFormation ≠ s.loop.formation →
        exec (.cellArrival r) s = .next s.delivered)
      ∧ (r.good = false ∨
          (c.header.originator = s.port.station ∧ c.header.tailFormation = s.loop.formation) →
        exec (.cellArrival r) s = .next running))

/-- A non-originator in BUILD inserts its hosted cells ahead of the loop's TAIL, once, and
rebuilds a damaged TAIL; it forwards and counts its own MARK, rewriting a damaged one, and at the
second enters RUNNING with that MARK as the first passage of the tracker. That the RUNNING notice
carries the revolution count before that passage is the model's reading (log 17). -/
def Obligations.NonOriginatorInsertsAndRunsOnTheSecondMark : Prop :=
  ∀ (r : Reception) (first : RosterEntry) (others : List RosterEntry) (s : State),
    s.reporting .build → s.loop.role = .nonOriginator → s.loop.roster = first :: others →
    let c := r.cell
    let o : Code5 := first.station.setWidth 5
    let hosted := (List.range s.loop.hosted.toNat).map s.hostedCell
    let own : Prop := c.header.originator = o ∧ c.header.tailFormation = s.loop.formation
    let ahead (tail : Cell) : Prop :=
      (s.loop.inserted = false → exec (.cellArrival r) s = .next
        ({ s.delivered with loop := { s.loop with inserted := true } : State }.entered
          (hosted ++ [tail])))
      ∧ (s.loop.inserted = true →
        exec (.cellArrival r) s = .next (s.delivered.entered [tail]))
    let counted (latest : Byte) (mark : Cell) : Prop :=
      (s.loop.buildMarks = 0 → exec (.cellArrival r) s = .next
        ({ s.delivered with loop := { s.loop with latestFormation := latest, buildMarks := 1 } :
            State }.entered [mark]))
      ∧ (s.loop.buildMarks = 1 → s.engine.table = [] → s.engine.sweep.active = false →
        exec (.cellArrival r) s = .next
          ({ s.delivered with
              line := { s.delivered.line with mode := .repeating, fillFollowing := false }
              loop := { s.loop with
                state := .running, role := .none, buildMarks := 2, latestFormation := latest
                listenTimer := .stopped, censusTimer := .stopped, yieldTimer := .stopped
                buildTimer := .stopped }
              queues := s.queues.post
                ⟨.loopState .running .build none (some s.loop.formation) .none,
                  s.tracker.revolution⟩
              tracker := { s.tracker with
                activity := .active, position := 0, damage := 0
                revolution := s.tracker.revolution + 1#16, rev := !s.tracker.rev }
              : State }.entered [mark]))
    (c.kind = .census → exec (.cellArrival r) s = .next s.delivered)
    ∧ (c.kind = .data →
      (c.header.ownershipGood = true →
        exec (.cellArrival r) s = .next (s.delivered.entered [c]))
      ∧ (c.header.ownershipGood = false → exec (.cellArrival r) s = .next s.delivered))
    ∧ (c.kind = .tail →
      (r.good = true → own → c.tailWellFormed = true → ahead c)
      ∧ (r.good = true → own → c.tailWellFormed = false →
        ahead (builtTail o s.loop.formation))
      ∧ (r.good = false → ahead (builtTail o s.loop.formation))
      ∧ (r.good = true → ¬own → exec (.cellArrival r) s = .next s.delivered))
    ∧ (c.kind = .mark →
      (r.good = false ∨ c.markWellFormed = false →
        counted s.loop.latestFormation (builtMark s.loop.formation s.loop.roster))
      ∧ (r.good = true → c.markWellFormed = true →
        (c.header.markFormation = s.loop.formation ∧ c.roster = s.loop.roster →
          counted (heard s.loop.latestFormation c.header.markFormation) c)
        ∧ (c.header.markFormation ≠ s.loop.formation ∨ c.roster ≠ s.loop.roster →
          exec (.cellArrival r) s = .next
            { s.delivered with loop := { s.loop with
                latestFormation :=
                  heard s.loop.latestFormation c.header.markFormation } })))

/-! ### Positions, the MARK and the repair of cells (R45 to R56, R73 to R75, R114) -/

/-- The four position faults record their cause, position and revolution count and break the
station with POSITION FAULT; the arrival is not handed on. That MARK MISSING and FOREIGN MARK
record position 0 is the model's reading (log 13). -/
def Obligations.PositionFaultsBreakTheLoop : Prop :=
  ∀ (r : Reception) (s : State), s.reporting .running →
    let p := s.tracker.position
    let total := rosterTotal s.loop.roster
    let faulted (cause : FaultCause) (position : Nat) : State :=
      { s.delivered with tracker := { s.tracker with
          lastFault := some ⟨cause, position, s.tracker.revolution⟩ } : State }.enterBroken
        .positionFault
    (r.cell.kind = .mark → p < total →
      exec (.cellArrival r) s = .next (faulted .markOutOfPlace (p + 1)))
    ∧ (r.cell.kind = .data → p = total →
      exec (.cellArrival r) s = .next (faulted .markMissing 0))
    ∧ (r.cell.kind = .mark → p = total → r.good = true →
      r.cell.markWellFormed = false ∨ r.cell.header.markFormation ≠ s.loop.formation
        ∨ r.cell.roster ≠ s.loop.roster →
      exec (.cellArrival r) s = .next (faulted .foreignMark 0))
    ∧ (r.cell.kind = .tail ∨ r.cell.kind = .census →
      (p < total → exec (.cellArrival r) s = .next (faulted .formationCell (p + 1)))
      ∧ (p = total → exec (.cellArrival r) s = .next (faulted .formationCell 0)))

/-- A MARK passage restarts the counters, raises the revolution count, turns REV, reports a
rewritten MARK as the first finding of the new revolution, counts the MARK against every PENDING
and RESERVED entry, times out or withdraws those at their limit, counts it against an active sweep
and ends the sweep at the second, and enters the MARK, as accepted or rewritten, into the store.
-/
def Obligations.MarkPassageTakesItsActions : Prop :=
  ∀ (r : Reception) (s : State), s.reporting .running → r.cell.kind = .mark →
    s.tracker.position = rosterTotal s.loop.roster →
    let revolution := s.tracker.revolution + 1#16
    let out (e : Entry) : Bool := e.state == .pending && e.marks == e.passLimit
    let seen (e : Entry) : Entry :=
      match e.state with
      | .pending => { e with marks := e.marks + 1 }
      | .reserved =>
        if e.marks = e.passLimit then
          { e with marks := e.marks + 1, state := .withdrawing .timeout }
        else { e with marks := e.marks + 1 }
      | .withdrawing _ => e
    let sweep := s.engine.sweep
    let passed (mark : Cell) (damage : Nat) (reported : Queues) : Prop :=
      ∃ t, exec (.cellArrival r) s = .next t
        ∧ t.tracker = { s.tracker with
            position := 0, damage, revolution, rev := !s.tracker.rev }
        ∧ t.engine.table = (s.engine.table.filter fun e => !out e).map seen
        ∧ t.queues.completions = s.queues.completions ++
            (s.engine.table.filter out).map (fun e => e.completion revolution .timeout .none)
        ∧ (sweep.active = false → t.engine.sweep = sweep
          ∧ t.queues.notices = reported.notices ∧ t.queues.lost = reported.lost)
        ∧ (sweep.active = true → sweep.marks = 0 →
          t.engine.sweep = { sweep with marks := 1 }
          ∧ t.queues.notices = reported.notices ∧ t.queues.lost = reported.lost)
        ∧ (sweep.active = true → sweep.marks = 1 →
          t.engine.sweep = { sweep with active := false, marks := 2 }
          ∧ t.queues.notices =
            (reported.post ⟨.sweepDone sweep.released true, revolution⟩).notices
          ∧ t.queues.lost = (reported.post ⟨.sweepDone sweep.released true, revolution⟩).lost)
        ∧ t.line = { s.delivered.line with store := storeEnter s.line.store mark }
        ∧ t.engine.acceptance = s.engine.acceptance ∧ t.loop = s.loop ∧ t.watch = s.watch
        ∧ t.home = s.home ∧ t.port = s.port
    (r.good = true → r.cell.markWellFormed = true →
      r.cell.header.markFormation = s.loop.formation → r.cell.roster = s.loop.roster →
      passed r.cell 0 s.queues)
    ∧ (r.good = false → passed (builtMark s.loop.formation s.loop.roster) 1
      (s.queues.post ⟨.damageFound .mark 0 r.payloadGood 1, revolution⟩))

/-- A DATA cell in RUNNING is examined in the order of R49. A finding is posted and counted, and
the repaired or marked cell is handed on, unless the finding is the eighth of the revolution,
which breaks the station with DAMAGE BURST. -/
def Obligations.DataCellsAreExaminedInOrder : Prop :=
  ∀ (r : Reception) (s : State), s.reporting .running → r.cell.kind = .data →
    s.tracker.position < rosterTotal s.loop.roster →
    let p := s.tracker.position + 1
    let x := expectedAddress s.loop.roster p
    let h := r.cell.header
    let placed : State := { s.delivered with tracker := { s.tracker with position := p } }
    let counted (finding : Finding) : State :=
      { placed with
        queues := s.queues.post
          ⟨.damageFound finding p r.payloadGood (s.tracker.damage + 1), s.tracker.revolution⟩
        tracker := { s.tracker with position := p, damage := s.tracker.damage + 1 } }
    let finds (finding : Finding) (repaired : Repaired) (c : Cell) : Prop :=
      (s.tracker.damage < 7 →
        exec (.cellArrival r) s = .next ((counted finding).passage ⟨p, r, repaired, c⟩))
      ∧ (s.tracker.damage = 7 →
        exec (.cellArrival r) s = .next ((counted finding).enterBroken .damageBurst))
    (r.headerGood = false →
      finds (.header x h.address .check) .header (repairedCell r.cell x))
    ∧ (r.headerGood = true → h.address ≠ x →
      finds (.header x h.address .address) .header (repairedCell r.cell x))
    ∧ (r.headerGood = true → h.address = x → h.ownershipGood = false →
      finds (.header x h.address .ownership) .header (repairedCell r.cell x))
    ∧ (r.headerGood = true → h.address = x → h.ownershipGood = true →
      (r.payloadGood = false → h.damaged = false →
        finds (.payload x h.address) .payload (markedCell r.cell))
      ∧ (r.payloadGood = true ∨ h.damaged = true →
        exec (.cellArrival r) s = .next (placed.passage ⟨p, r, .none, r.cell⟩)))

/-- Header repair writes the whole header, keeps the payload and its check as received, and leaves
a header that a running station passes; payload marking sets DAMAGED and keeps every other field.
Writing one field of a data header changes that field alone: the others, and the unused bits, stay
as received. -/
def Obligations.HeaderWritesAreExact : Prop :=
  (∀ (h : Header) (c : Code5) (b : Bool),
      (h.withOwner c).owner = c ∧ (h.withReserver c).reserver = c
      ∧ (h.withHandoff b).handoff = b ∧ (h.withDamaged b).damaged = b
      ∧ (h.withRestored b).restored = b
      ∧ h.withOwner c = { h with byte5 := (h.byte5 &&& 0xE0#8) ||| c.setWidth 8 }
      ∧ h.withReserver c = { h with byte6 := (h.byte6 &&& 0xE0#8) ||| c.setWidth 8 }
      ∧ h.withHandoff true = { h with byte7 := h.byte7 ||| 0x01#8 }
      ∧ h.withHandoff false = { h with byte7 := h.byte7 &&& 0xFE#8 }
      ∧ h.withDamaged true = { h with byte7 := h.byte7 ||| 0x02#8 }
      ∧ h.withDamaged false = { h with byte7 := h.byte7 &&& 0xFD#8 }
      ∧ h.withRestored true = { h with byte7 := h.byte7 ||| 0x04#8 }
      ∧ h.withRestored false = { h with byte7 := h.byte7 &&& 0xFB#8 })
  ∧ (∀ (c : Cell) (x : Address), stationLegal x.station = true →
      let d := repairedCell c x
      d.header.checkedBytes =
        [0x01#8, x.station.setWidth 8, x.index.setWidth 8, 0#8, 0#8, 0#8, 0x02#8]
      ∧ d.header.check = crc8 d.header.checkedBytes
      ∧ d.kind = c.kind ∧ d.payload = c.payload ∧ d.payloadCheck = c.payloadCheck
      ∧ d.header.address = x ∧ d.header.generation = 0#8 ∧ d.header.owner = noStation
      ∧ d.header.reserver = noStation ∧ d.header.handoff = false ∧ d.header.damaged = true
      ∧ d.header.restored = false ∧ d.header.ownershipGood = true)
    ∧ ∀ c : Cell,
      let d := markedCell c
      d.header.checkedBytes =
        [c.header.kindCode, c.header.byte2, c.header.byte3, c.header.byte4, c.header.byte5,
          c.header.byte6, c.header.byte7 ||| 0x02#8]
      ∧ d.header.check = crc8 d.header.checkedBytes
      ∧ d.kind = c.kind ∧ d.payload = c.payload ∧ d.payloadCheck = c.payloadCheck
      ∧ d.header.damaged = true ∧ d.header.handoff = c.header.handoff
      ∧ d.header.restored = c.header.restored

/-! ### The passage (R84 to R90, R125, R127, R128, R133) -/

/-- A passage with no handoff to this station, no matching entry, no sweep and no reservation of
this station's hands the arriving cell on unchanged, be it as received, repaired or marked. The
seen entry of its position takes its generation and owner, a hosted cell with DAMAGED clear
refreshes its home image entry and a DAMAGED one leaves it, and after the DAMAGE FOUND notice of a
finding the one notice is that of the watch entries that fire on the record of the passage before.
-/
def Obligations.UntouchedPassageRecordsRefreshesAndWatches : Prop :=
  ∀ (r : Reception) (s u : State) (repaired : Repaired) (c : Cell), s.accepts r u repaired c →
    let p := s.tracker.position + 1
    let h := c.header
    ¬(h.owner = s.port.station ∧ h.handoff = true) →
    (∀ e ∈ s.engine.table, e.position ≠ p) → s.engine.sweep.active = false →
    h.reserver ≠ s.port.station →
    ∃ t, exec (.cellArrival r) s = .next t
      ∧ u.handsOn t c c s.engine [] [] ∧ t.engine = s.engine
      ∧ seenAt t.watch.seen p = some ⟨h.generation, h.owner⟩
      ∧ (∀ q, q ≠ p → seenAt t.watch.seen q = seenAt s.watch.seen q)
      ∧ (h.address.station = s.port.station → h.damaged = false →
        t.home = s.home.set h.address.index.toNat
          { payload := c.payload, generation := h.generation, source := .refreshed }
          h.address.index.isLt)
      ∧ (h.address.station ≠ s.port.station ∨ h.damaged = true → t.home = s.home)
      ∧ (seenAt s.watch.seen p = none → t.queues = u.queues)
      ∧ ∀ old : Seen, seenAt s.watch.seen p = some old →
        let g : Bool := h.generation != old.generation
        let o : Bool := h.owner != old.owner
        let matching (w : WatchEntry) : Bool :=
          w.enabled && (h.address.station &&& w.stationCare) == (w.value.station &&& w.stationCare)
            && (h.address.index &&& w.indexCare) == (w.value.index &&& w.indexCare)
        let fires (w : WatchEntry) : Bool :=
          matching w && match w.trigger with
            | .change => g
            | .owner => o
            | .both => g || o
        let entries := s.watch.entries.toList
        (entries.any fires = false → t.queues = u.queues)
        ∧ (entries.any fires = true → t.queues = u.queues.post
          ⟨.watch
            { changed := g && entries.any (fun w => fires w && w.trigger != .owner)
              address := h.address, position := p, firing := entries.map fires
              generationDiffered := g, ownerDiffered := o
              oldGeneration := old.generation, oldOwner := old.owner
              newGeneration := h.generation, newOwner := h.owner, damaged := h.damaged
              payload :=
                if entries.any (fun w => fires w && w.capture) = true then some c.payload
                else none },
            s.tracker.revolution⟩)

/-- A passage completes at most four entries, moves each completion from the table to the queue, and
leaves every entry of another position as it is. With no handoff to this station it takes up the
first four matching entries alone, in list order, each on the cell in hand as the turn before left
it: the turn of an entry completes it with the record that the turn gives, or leaves it in the table
in the state that the turn gives. The fifth and later are not taken up and stay equal, but for
RESERVED to PENDING when the cell in hand after the last turn does not have this station as
reserver. -/
def Obligations.PassageServesAtMostFour : Prop :=
  ∀ (r : Reception) (s u : State) (repaired : Repaired) (c : Cell), s.accepts r u repaired c →
    let p := s.tracker.position + 1
    let me := s.port.station
    let here (es : List Entry) : List Entry := es.filter fun e => e.position == p
    let elsewhere (es : List Entry) : List Entry := es.filter fun e => e.position != p
    let first := (here s.engine.table).take 4
    let later := (here s.engine.table).drop 4
    let turns := serveTurns me ⟨p, r, repaired, c⟩ first ⟨c, false⟩
    let settled (e : Entry) : Entry :=
      if e.state = .reserved ∧ turns.2.header.reserver ≠ me then { e with state := .pending }
      else e
    ∃ t records, exec (.cellArrival r) s = .next t
      ∧ t.queues.completions = s.queues.completions ++ records
      ∧ records.length ≤ 4
      ∧ t.engine.table.length + records.length = s.engine.table.length
      ∧ elsewhere t.engine.table = elsewhere s.engine.table
      ∧ (t.engine.table.map Entry.tag).Sublist (s.engine.table.map Entry.tag)
      ∧ (¬(c.header.owner = me ∧ c.header.handoff = true) →
        records = turns.1.filterMap (turnRecord s.tracker.revolution)
        ∧ here t.engine.table = turns.1.filterMap turnKept ++ later.map settled)

/-! ### Service of one entry (R91 to R97) -/

/-- READ, HEADER, PEEK and VERIFY complete at their passage with the data of the cell and leave it
unchanged: READ with DAMAGED on a DAMAGED cell, VERIFY with the lowest-numbered word that differs,
PEEK with the cell as received, its two check indications and the repaired indication, also where
the tracker repaired or marked the cell. A reservation of this station's that the cell carries is
stale: it is removed from the departing cell and reported after the watch notice. -/
def Obligations.ReadingRequestsLeaveTheCellUnchanged : Prop :=
  ∀ (r : Reception) (s u : State) (repaired : Repaired) (c : Cell) (before after : List Entry)
    (e : Entry), s.servesAlone r u repaired c before e after → e.state = .pending →
    let h := c.header
    ¬(h.owner = s.port.station ∧ h.handoff = true) →
    let summary : HeaderSummary :=
      { address := h.address, generation := h.generation, owner := h.owner
        reserver := h.reserver, handoff := h.handoff, damaged := h.damaged
        restored := h.restored }
    let completes (result : Result) (data : CompletionData) : Prop :=
      ∃ t, exec (.cellArrival r) s = .next t
        ∧ u.handsOn t c (clearedCell s.port.station c) { s.engine with table := before ++ after }
          [e.completion s.tracker.revolution result data] (s.staleNotices c)
    (∀ a, e.request = .read a →
      (h.damaged = false → completes .done (.cell summary c.payload))
      ∧ (h.damaged = true → completes .damaged (.cell summary c.payload)))
    ∧ (∀ a, e.request = .header a → completes .done (.header summary))
    ∧ (∀ a, e.request = .peek a →
      completes .done
        (.raw r.cell.header r.cell.payload r.headerGood r.payloadGood repaired))
    ∧ ∀ a first words, e.request = .verify a first words → first + words.length ≤ 32 →
      (h.damaged = true → completes .damaged (.generation h.generation))
      ∧ (h.damaged = false →
        ((∀ i, i < words.length →
            payloadWord c.payload (first + i) = words.getD i 0#16) →
          completes .done (.generation h.generation))
        ∧ ∀ i, i < words.length →
            payloadWord c.payload (first + i) ≠ words.getD i 0#16 →
            (∀ j, j < i → payloadWord c.payload (first + j) = words.getD j 0#16) →
            completes .mismatch
              (.mismatch (first + i) (payloadWord c.payload (first + i)) h.generation))

/-- WRITE by the first condition of R94 that holds: OWNED by another station, STALE, DAMAGED, or
DONE. Only DONE writes: the words of the range, the generation plus one, DAMAGED and RESTORED
cleared, owner, reserver and HANDOFF kept, both checks computed afresh. The departing cell, so
written, is the one that the seen table and the home image record. A WRITE that writes nothing
leaves a stale reservation of this station's to be removed and reported. A second entry of the
window sees the cell as the first left it: a READ after a WRITE returns the written words and the
new generation, a WRITE that expects the generation that a first WRITE raised is STALE, and a
WRITE after a RELEASE to another station is OWNED. -/
def Obligations.WriteIsJudgedThenApplied : Prop :=
  (∀ (r : Reception) (s u : State) (repaired : Repaired) (c : Cell) (before after : List Entry)
    (e : Entry) (a : Address) (first : Nat) (words : List Word) (expected : Option Byte),
    s.servesAlone r u repaired c before e after → e.state = .pending →
    e.request = .write a first words expected →
    let h := c.header
    let me := s.port.station
    ¬(h.owner = me ∧ h.handoff = true) →
    let unwritten (result : Result) (data : CompletionData) : Prop :=
      ∃ t, exec (.cellArrival r) s = .next t
        ∧ u.handsOn t c (clearedCell me c) { s.engine with table := before ++ after }
          [e.completion s.tracker.revolution result data] (s.staleNotices c)
    let others : Prop := h.owner ≠ noStation ∧ h.owner ≠ me
    let stale : Prop := ∃ g, expected = some g ∧ g ≠ h.generation
    let torn : Prop := h.damaged = true ∧ ¬(first = 0 ∧ words.length = 32)
    (others → unwritten .owned (.owned h.owner h.generation))
    ∧ (¬others → stale → unwritten .stale (.generation h.generation))
    ∧ (¬others → ¬stale → torn → unwritten .damaged (.generation h.generation))
    ∧ (¬others → ¬stale → ¬torn → ∃ t d, exec (.cellArrival r) s = .next t
      ∧ u.handsOn t c d { s.engine with table := before ++ after }
          [e.completion s.tracker.revolution .done (.generation (h.generation + 1#8))] []
      ∧ d.kind = c.kind
      ∧ d.header.generation = h.generation + 1#8 ∧ d.header.damaged = false
      ∧ d.header.restored = false ∧ d.header.owner = h.owner
      ∧ d.header.reserver = h.reserver ∧ d.header.handoff = h.handoff
      ∧ d.header.address = h.address
      ∧ (∀ i : Fin 32, d.payload[i] =
          if first ≤ i.val ∧ i.val < first + words.length then words.getD (i.val - first) 0#16
          else c.payload[i])
      ∧ d.header.check = crc8 d.header.checkedBytes
      ∧ d.payloadCheck = crc16 (payloadBytes d.payload)))
  ∧ ∀ (r : Reception) (s u : State) (repaired : Repaired) (c : Cell)
    (before between after : List Entry) (e f : Entry),
    s.servesTwo r u repaired c before e between f after →
    e.state = .pending → f.state = .pending →
    let h := c.header
    let me := s.port.station
    ¬(h.owner = me ∧ h.handoff = true) →
    let both (d : Cell) (one two : CompletionData) (result : Result) : Prop :=
      ∃ t, exec (.cellArrival r) s = .next t
        ∧ u.handsOn t c d { s.engine with table := before ++ (between ++ after) }
          [e.completion s.tracker.revolution .done one,
            f.completion s.tracker.revolution result two] []
    (∀ a first words expected, e.request = .write a first words expected →
      h.owner = noStation ∨ h.owner = me →
      expected = none ∨ expected = some h.generation →
      h.damaged = false ∨ (first = 0 ∧ words.length = 32) →
      let g := h.generation + 1#8
      let written : Cell :=
        Cell.sealed { c with
          header := ((h.withGeneration g).withDamaged false).withRestored false
          payload := writeWords c.payload first words }
      (∀ b, f.request = .read b → both written (.generation g)
        (.cell
          { address := h.address, generation := g, owner := h.owner, reserver := h.reserver
            handoff := h.handoff, damaged := false, restored := false } written.payload) .done)
      ∧ (∀ b from_ others, f.request = .write b from_ others (some h.generation) →
        both written (.generation g) (.generation g) .stale))
    ∧ (∀ a, e.request = .release a → h.owner = me → h.reserver ≠ noStation →
      ∀ b from_ others expected, f.request = .write b from_ others expected →
        both
          { c with header :=
              (((h.withOwner h.reserver).withReserver noStation).withHandoff true).sealed }
          (.released h.reserver h.generation) (.owned h.reserver h.generation) .owned)

/-! ### Ownership (R99, R102, R104 to R108, R110, R113) -/

/-- CLAIM, RELEASE and withdrawal of the one matching entry, on a cell not handed over to this
station: the rows of R99 and R102 and the two cases of R108. The departing cell, with its new owner
and reserver, is the one that the seen table and the home image record. A RELEASE that is NOT OWNER
leaves a stale reservation of this station's to be removed and reported. -/
def Obligations.OwnershipRequestsFollowTheirTables : Prop :=
  ∀ (r : Reception) (s u : State) (repaired : Repaired) (c : Cell) (before after : List Entry)
    (e : Entry), s.servesAlone r u repaired c before e after →
    let h := c.header
    let me := s.port.station
    ¬(h.owner = me ∧ h.handoff = true) →
    let record := e.completion s.tracker.revolution
    let departs (header : Header) : Cell := { c with header := header.sealed }
    let goes (d : Cell) (table : List Entry) (records : List Completion) : Prop :=
      ∃ t, exec (.cellArrival r) s = .next t
        ∧ u.handsOn t c d { s.engine with table } records []
    (∀ a, e.request = .claim a → e.state = .pending ∨ e.state = .reserved →
      (h.owner = noStation → goes (departs (h.withOwner me)) (before ++ after)
        [{ record .done (.claimed h.generation noStation) with how := some .takenFree }])
      ∧ (h.owner = me → goes c (before ++ after)
        [{ record .done (.claimed h.generation h.reserver) with how := some .alreadyOwner }])
      ∧ (h.owner ≠ noStation → h.owner ≠ me →
        (h.reserver = noStation → goes (departs (h.withReserver me))
          (before ++ { e with state := .reserved } :: after) [])
        ∧ (h.reserver = me → goes c (before ++ { e with state := .reserved } :: after) [])
        ∧ (h.reserver ≠ noStation → h.reserver ≠ me →
          goes c (before ++ { e with state := .pending } :: after) [])))
    ∧ (∀ a ending, e.request = .claim a → e.state = .withdrawing ending →
      (h.reserver = me → goes (departs (h.withReserver noStation)) (before ++ after)
        [record ending.result .none])
      ∧ (h.reserver ≠ me → goes c (before ++ after) [record ending.result .none]))
    ∧ ∀ a, e.request = .release a →
      (h.owner = me →
        (h.reserver ≠ noStation → goes
          (departs (((h.withOwner h.reserver).withReserver noStation).withHandoff true))
          (before ++ after) [record .done (.released h.reserver h.generation)])
        ∧ (h.reserver = noStation → goes (departs ((h.withOwner noStation).withHandoff false))
          (before ++ after) [record .done (.released noStation h.generation)]))
      ∧ (h.owner ≠ me → ∃ t, exec (.cellArrival r) s = .next t
        ∧ u.handsOn t c (clearedCell me c) { s.engine with table := before ++ after }
          [record .notOwner (.notOwner h.owner h.handoff)] (s.staleNotices c))

/-- A cell that arrives owned by this station with HANDOFF set completes the waiting CLAIM with
HANDED OVER, is returned for a WITHDRAWING one, and is returned as an orphan when no CLAIM waits,
during a sweep too, which does not count it; a return passes it to its reserver with HANDOFF set,
or to none. A RELEASE entry is no claim: the cell is returned as an orphan, and the RELEASE
completes NOT OWNER. The ORPHAN RETURNED notice comes after the watch notice of the arriving cell,
and the seen table and the home image record the cell as returned. -/
def Obligations.HandoffCompletesReturnsOrReportsAnOrphan : Prop :=
  ∀ (r : Reception) (s u : State) (repaired : Repaired) (c : Cell), s.accepts r u repaired c →
    let h := c.header
    let p := s.tracker.position + 1
    h.owner = s.port.station → h.handoff = true →
    let departs (header : Header) : Cell := { c with header := header.sealed }
    let returned : Header :=
      if h.reserver = noStation then (h.withOwner noStation).withHandoff false
      else ((h.withOwner h.reserver).withReserver noStation).withHandoff true
    let orphan : NoticeBody := .orphanReturned h.address p h.reserver h.generation
    (∀ before e after a, s.engine.sweep.active = false →
      s.engine.table = before ++ e :: after → e.position = p →
      (∀ x ∈ before ++ after, x.position ≠ p) → e.request = .claim a →
      let record := e.completion s.tracker.revolution
      (e.state = .pending ∨ e.state = .reserved → ∃ t, exec (.cellArrival r) s = .next t
        ∧ u.handsOn t c (departs (h.withHandoff false))
          { s.engine with table := before ++ after }
          [{ record .done (.claimed h.generation h.reserver) with how := some .handedOver }] [])
      ∧ ∀ ending, e.state = .withdrawing ending → ∃ t, exec (.cellArrival r) s = .next t
        ∧ u.handsOn t c (departs returned) { s.engine with table := before ++ after }
          [{ record ending.result (.returned h.reserver h.generation) with returned := true }] [])
    ∧ ((∀ e ∈ s.engine.table, e.position ≠ p) →
      ∃ t, exec (.cellArrival r) s = .next t
        ∧ u.handsOn t c (departs returned) s.engine [] [orphan])
    ∧ ∀ before e after a, s.engine.table = before ++ e :: after → e.position = p →
      (∀ x ∈ before ++ after, x.position ≠ p) → e.request = .release a →
      ∃ t, exec (.cellArrival r) s = .next t
        ∧ u.handsOn t c (departs returned) { s.engine with table := before ++ after }
          [e.completion s.tracker.revolution .notOwner
            (.notOwner h.reserver (h.reserver != noStation))] [orphan]

/-- During a sweep a cell owned by this station is passed on and counted; a reservation of this
station's that no RESERVED CLAIM holds is removed and reported after the watch notice, also on a
cell in transit to another station, with no entry at the position and also beside a PENDING or
WITHDRAWING CLAIM that four reading requests ahead of it defer, which stays as it is. -/
def Obligations.SweepAndStaleClearingFreeCells : Prop :=
  ∀ (r : Reception) (s u : State) (repaired : Repaired) (c : Cell), s.accepts r u repaired c →
    let h := c.header
    let p := s.tracker.position + 1
    let me := s.port.station
    let departs (header : Header) : Cell := { c with header := header.sealed }
    let stale : NoticeBody := .staleReservation h.address p h.owner h.generation
    (s.engine.sweep.active = true → s.engine.table = [] → h.owner = me → h.handoff = false →
      ∃ t, exec (.cellArrival r) s = .next t
        ∧ u.handsOn t c
          (departs (if h.reserver = noStation then (h.withOwner noStation).withHandoff false
            else ((h.withOwner h.reserver).withReserver noStation).withHandoff true))
          { s.engine with
            sweep := { s.engine.sweep with released := s.engine.sweep.released + 1 } } [] [])
    ∧ (h.reserver = me →
      ((∀ e ∈ s.engine.table, e.position ≠ p) →
        ∃ t, exec (.cellArrival r) s = .next t
          ∧ u.handsOn t c (departs (h.withReserver noStation)) s.engine [] [stale])
      ∧ ∀ before e after, s.engine.table = before ++ e :: after →
        e.position = p → e.request.kind = .claim →
        e.state = .pending ∨ (∃ ending, e.state = .withdrawing ending) →
        (before.filter fun x => x.position == p).length = 4 →
        (∀ x ∈ before, x.position = p →
          x.request.kind = .read ∨ x.request.kind = .header ∨ x.request.kind = .peek) →
        (∀ x ∈ after, x.position ≠ p) →
        ∃ t records, exec (.cellArrival r) s = .next t ∧ records.length = 4
          ∧ u.handsOn t c (departs (h.withReserver noStation))
            { s.engine with
              table := before.filter (fun x => x.position != p) ++ e :: after }
            records [stale])

/-- After every passage the departing cell carries this station's reservation exactly when the table
holds a RESERVED CLAIM for its position, whatever entries the window reached or deferred. -/
def Obligations.ReservedEntriesHoldTheReservation : Prop :=
  ∀ (r : Reception) (s u : State) (repaired : Repaired) (c : Cell), s.accepts r u repaired c →
    s.quiet → s.tableSound → distinctStations s.loop.roster = true →
    let p := s.tracker.position + 1
    let d := u.delivered.advanced.departing ⟨p, r, repaired, c⟩
    ∃ t, exec (.cellArrival r) s = .next t ∧ t.line.store = storeEnter s.line.store d
      ∧ (d.header.reserver = s.port.station ↔
        ∃ e ∈ t.engine.table, e.position = p ∧ e.state = .reserved)

/-! ### Invariants -/

/-- Only SUBMIT, the final byte of TAKE, host RESET and station reset change the commitment: a
completion moves one unit of it from the table to the queue. -/
def Obligations.CompletionsKeepTheCommitment : Prop :=
  ∀ (i : Instr) (s t : State), exec i s = .next t →
    (∀ f, i ≠ .submit f) → i ≠ .takeFinalByte → (∀ o, i ≠ .reset o) → i ≠ .stationReset →
    t.commitment = s.commitment

/-- Every step keeps the store, the fill symbols owed, the table, the commitment, the notice queue
and the lost count within their room, and keeps a nonzero lost count accompanied by a notice and
at most one LOST record. -/
def Obligations.StepKeepsTheQueuesBounded : Prop :=
  (∀ s t : State, s.bounded → step s = .next t → t.bounded)
    ∧ ∀ s t : State, s.lostStands → step s = .next t → t.lostStands

/-- Every step keeps the transmit mode that R17 gives for the loop state and the break hold; it
keeps a held station at its reset values and a station outside OFFLINE with a legal number. That
fill following is off in BREAK HOLD and CENSUS ONLY, that the station number of a held station
reads 0, and that a held station ignores the line, are the model's choices (log 25, log 2, log 3).
-/
def Obligations.StepKeepsTheModeAndTheStation : Prop :=
  (∀ s t : State, s.modeAgrees → step s = .next t → t.modeAgrees)
  ∧ ∀ s t : State, s.stationSound → step s = .next t → t.stationSound

/-- Every step keeps each timer in its own state, and a station that is forming a loop with a timer
running, the formation state in its ranges, and the roster well formed. -/
def Obligations.StepKeepsTheFormationStateSound : Prop :=
  (∀ s t : State, s.timersAgree → step s = .next t → t.timersAgree)
    ∧ ∀ s t : State, s.loopSound → step s = .next t → t.loopSound

/-- Every step keeps the tracker ACTIVE exactly in RUNNING with its counters in range, and the
seen table within the positions of the roster. That the seen table is a list of positions that
rise strictly is the model's choice of form (log 20). -/
def Obligations.StepKeepsTheTrackerWithTheLoop : Prop :=
  (∀ s t : State, s.trackerAgrees → step s = .next t → t.trackerAgrees)
    ∧ ∀ s t : State, s.seenSound → step s = .next t → t.seenSound

/-- Every step keeps the table, the sweep and the seen table quiet outside RUNNING, and with that
keeps the table sound: positions of the roster, limits, unique tags, one ownership request for an
address, only CLAIMs out of PENDING. -/
def Obligations.StepKeepsTheEngineSound : Prop :=
  (∀ s t : State, s.quiet → step s = .next t → t.quiet)
  ∧ ∀ s t : State, s.quiet → s.tableSound → step s = .next t → t.tableSound

/-- Every step keeps the ownership conditions of R4 in every DATA cell that waits to be
transmitted. -/
def Obligations.StepKeepsTheOwnershipConditionsInTheStore : Prop :=
  ∀ s t : State, s.stationSound → s.storeSound → step s = .next t → t.storeSound

/-- The machine right after reset meets every invariant. -/
def Obligations.ResetMeetsEveryInvariant : Prop :=
  State.reset.bounded ∧ State.reset.lostStands ∧ State.reset.quiet ∧ State.reset.modeAgrees
    ∧ State.reset.timersAgree ∧ State.reset.loopSound ∧ State.reset.trackerAgrees
    ∧ State.reset.seenSound ∧ State.reset.tableSound ∧ State.reset.stationSound
    ∧ State.reset.storeSound

/-! ### The quiet period (R12, R164, R165, R167, R169) -/

/-- What a quiet period does: one fill symbol that a transmitted cell is owed goes out, and the
host port passes one byte period by its phase. In RECEIVING the next byte on SI joins the command
in hand, but for an unknown command byte and a check byte, whose arrivals are commands; in
RESPONDING the index of the response goes up, and after the last byte the port is SPENT, but for
the final bytes of TAKE and NOTE with a record and of STATUS, which are commands; in DISCARDING
the phase stays. SO carries the response from its index on, then the fill byte. A rise of CSN
leaves no byte waiting. The model's choices and readings are these: a step on an empty queue is this
period (log 5), and the bytes on SI wait in the state (log 9); SO carries fill while CSN is low in
IDLE (log 31); the index stays at the length in SPENT and DISCARDING, and the final bytes that are
commands are not passed here (log 10); a response without a record ends here too (log 23). -/
def Obligations.QuietPeriodMovesTheGapAndThePort : Prop :=
  (∀ s : State, s.pending = [] →
    let quiet (p : Port) : State :=
      { s with line := { s.line with gap := s.line.gap - 1 }, port := p }
    (s.resetHeld = true → step s = .next s)
    ∧ (s.resetHeld = false →
      (s.port.phase = .idle ∨ s.port.phase = .spent → step s = .next (quiet s.port))
      ∧ (s.port.phase = .receiving →
        (s.port.incoming = [] → step s = .next (quiet s.port))
        ∧ ∀ b rest, s.port.incoming = b :: rest →
          (s.port.command = none →
            ((∃ k : HostCommand, k.code = b) → step s = .next
              (quiet { s.port with command := some ⟨b, []⟩, incoming := rest }))
            ∧ ((∀ k : HostCommand, k.code ≠ b) → step s = .next (quiet s.port)))
          ∧ ∀ (k : HostCommand) (received : List Byte),
            s.port.command = some ⟨k.code, received⟩ →
            (received.length < k.fieldCount received → step s = .next
              (quiet { s.port with
                command := some ⟨k.code, received ++ [b]⟩, incoming := rest }))
            ∧ (k.fieldCount received ≤ received.length → step s = .next (quiet s.port)))
      ∧ ∀ x, s.port.response = some x →
        let code := s.port.command.map CommandInHand.code
        let endIsCommand : Prop :=
          (code = some 0x13#8 ∨ code = some 0x14#8) ∧ x.bytes.head? = some 0x01#8
            ∨ code = some 0x19#8 ∧ x.bytes.head? = some 0x00#8
        (s.port.phase = .responding →
          (x.next + 1 < x.bytes.length → step s = .next
            (quiet { s.port with response := some ⟨x.bytes, x.next + 1⟩ }))
          ∧ (x.bytes.length ≤ x.next + 1 →
            (endIsCommand → step s = .next (quiet s.port))
            ∧ (¬endIsCommand → step s = .next
              (quiet { s.port with
                phase := .spent, response := some ⟨x.bytes, x.bytes.length⟩ }))))
        ∧ (s.port.phase = .discarding → step s = .next
          (quiet { s.port with
            response := some ⟨x.bytes, min (x.next + 1) x.bytes.length⟩ }))))
  ∧ (∀ (s : State) (k : Nat),
      (s.port.response = none → s.so k = 0xFF#8)
      ∧ ∀ x, s.port.response = some x →
        (∀ h : x.next + k < x.bytes.length, s.so k = x.bytes[x.next + k])
        ∧ (x.bytes.length ≤ x.next + k → s.so k = 0xFF#8))
  ∧ ∀ (received : List Byte) (s : State),
      ∃ t, exec (.csnRise received) s = .next t ∧ t.port.incoming = []
end

