-- ==== Sys2Proof/Laws/Cells.lean ====
section
/-! SUPPORT. Reading back what was written: five-bit fields, words and payloads, cells as bytes,
entry lists, the fields of a data header, the checks of a sealed cell, and the conditions of R4
under each change of the ownership fields. -/

namespace Sys2Proof

/-! ### Five-bit fields, flag bits and words -/

/-- A code written as a byte reads back. -/
@[simp] theorem field5_codeByte : ∀ c : Code5, field5 (codeByte c) = c := by decide +kernel

/-- A code written into a byte reads back. -/
@[simp] theorem field5_withField5 : ∀ (b : Byte) (c : Code5), field5 (withField5 b c) = c := by
  decide +kernel

/-- A station number of a roster is the byte of its code. -/
theorem codeByte_field5 : ∀ b : Byte, b.toNat ≤ 30 → codeByte (field5 b) = b := by decide +kernel

/-- The byte of a legal code lies in 1 to 30. -/
theorem codeByte_range :
    ∀ c : Code5, stationLegal c = true → 1 ≤ (codeByte c).toNat ∧ (codeByte c).toNat ≤ 30 := by
  decide +kernel

/-- Writing HANDOFF, DAMAGED or RESTORED sets that bit and keeps the other two. -/
theorem withBit_bits : ∀ (b : Byte) (v : Bool),
    (withBit b 0 v).getLsbD 0 = v ∧ (withBit b 0 v).getLsbD 1 = b.getLsbD 1
      ∧ (withBit b 0 v).getLsbD 2 = b.getLsbD 2
      ∧ (withBit b 1 v).getLsbD 0 = b.getLsbD 0 ∧ (withBit b 1 v).getLsbD 1 = v
      ∧ (withBit b 1 v).getLsbD 2 = b.getLsbD 2
      ∧ (withBit b 2 v).getLsbD 0 = b.getLsbD 0 ∧ (withBit b 2 v).getLsbD 1 = b.getLsbD 1
      ∧ (withBit b 2 v).getLsbD 2 = v := by
  decide +kernel

/-- The high byte of a word of two bytes. -/
@[simp] theorem high_wordOfBytes (a b : Byte) : (wordOfBytes a b).extractLsb' 8 8 = a := by
  apply BitVec.eq_of_getLsbD_eq
  intro j hj
  simp only [wordOfBytes, BitVec.getLsbD_extractLsb', BitVec.getLsbD_append]
  simp [hj]

/-- The low byte of a word of two bytes. -/
@[simp] theorem low_wordOfBytes (a b : Byte) : (wordOfBytes a b).extractLsb' 0 8 = b := by
  apply BitVec.eq_of_getLsbD_eq
  intro j hj
  simp only [wordOfBytes, BitVec.getLsbD_extractLsb', BitVec.getLsbD_append]
  simp [hj]

/-- A word is the word of its two bytes. -/
theorem wordOfBytes_parts (w : Word) :
    wordOfBytes (w.extractLsb' 8 8) (w.extractLsb' 0 8) = w := by
  simp only [wordOfBytes]
  apply BitVec.eq_of_getLsbD_eq
  intro i hi
  rw [BitVec.getLsbD_append]
  by_cases h : i < 8
  · simp [h]
  · simp [h]
    rw [show 8 + (i - 8) = i by omega, decide_eq_true (show i - 8 < 8 by omega), Bool.true_and]

/-- A small number written as a byte reads back. -/
theorem toNat_natByte (n : Nat) (h : n < 256) : (natByte n).toNat = n := by
  simp [natByte]
  omega

/-! ### Payloads and cells as bytes -/

/-- Two bytes for each word. -/
theorem length_flatMap_wordBytes (l : List Word) : (l.flatMap wordBytes).length = 2 * l.length := by
  induction l with
  | nil => rfl
  | cons w l ih =>
    simp only [List.flatMap_cons, List.length_append, ih]
    simp [wordBytes]
    omega

/-- A payload has 64 bytes. -/
@[simp] theorem length_payloadBytes (p : Payload) : (payloadBytes p).length = 64 := by
  rw [payloadBytes, length_flatMap_wordBytes]
  simp

/-- A cell has 74 bytes between its delimiters. -/
@[simp] theorem length_cellBytes (c : Cell) : c.bytes.length = 74 := by
  simp [Cell.bytes, Header.bytes, Header.checkedBytes, wordBytes]

/-- The two bytes of word `i` of a list of words. -/
theorem getD_flatMap_wordBytes (l : List Word) (i : Nat) :
    (l.flatMap wordBytes).getD (2 * i) 0#8 = (l.getD i 0#16).extractLsb' 8 8
      ∧ (l.flatMap wordBytes).getD (2 * i + 1) 0#8 = (l.getD i 0#16).extractLsb' 0 8 := by
  induction l generalizing i with
  | nil => simp
  | cons w l ih =>
    cases i with
    | zero => simp [wordBytes]
    | succ i =>
      have := ih i
      simp only [List.flatMap_cons, wordBytes, List.cons_append, List.nil_append]
      refine ⟨?_, ?_⟩
      · rw [show 2 * (i + 1) = 2 * i + 1 + 1 by ring]
        simpa using this.1
      · rw [show 2 * (i + 1) + 1 = (2 * i + 1) + 1 + 1 by ring]
        simpa using this.2

/-- A payload reads back from its bytes. -/
theorem payloadOfBytes_payloadBytes (p : Payload) : payloadOfBytes (payloadBytes p) = p := by
  apply Vector.ext
  intro i hi
  simp only [payloadOfBytes, Vector.getElem_ofFn, payloadBytes]
  rw [(getD_flatMap_wordBytes _ i).1, (getD_flatMap_wordBytes _ i).2, wordOfBytes_parts]
  simp [hi]

/-- A cell reads back from its bytes. -/
theorem Cell.ofBytes_bytes (c : Cell) : Cell.ofBytes c.kind c.bytes = c := by
  obtain ⟨k, ⟨a, b, d, e, f, g, h, i⟩, p, w⟩ := c
  have hp := length_payloadBytes p
  have e1 : ∀ n, (([a, b, d, e, f, g, h] ++ [i]) ++ payloadBytes p ++ wordBytes w).getD (8 + n) 0#8
      = (payloadBytes p ++ wordBytes w).getD n 0#8 := by
    intro n
    rw [List.append_assoc, Nat.add_comm]
    rfl
  have e2 : (([a, b, d, e, f, g, h] ++ [i]) ++ payloadBytes p ++ wordBytes w).drop 8
      = payloadBytes p ++ wordBytes w := by simp
  have e3 : payloadOfBytes (payloadBytes p ++ wordBytes w) = payloadOfBytes (payloadBytes p) := by
    apply Vector.ext
    intro j hj
    simp only [payloadOfBytes, Vector.getElem_ofFn]
    have g1 : ∀ n, n < 64 →
        (payloadBytes p ++ wordBytes w).getD n 0#8 = (payloadBytes p).getD n 0#8 := by
      intro n hn
      simp [List.getD_eq_getElem?_getD, List.getElem?_append, hp, hn]
    rw [g1 _ (by omega), g1 _ (by omega)]
  simp only [Cell.ofBytes, Cell.bytes, Header.bytes, Header.checkedBytes]
  rw [e2, e3, payloadOfBytes_payloadBytes]
  congr 1
  rw [show (72 : Nat) = 8 + 64 by rfl, show (73 : Nat) = 8 + 65 by rfl, e1, e1]
  simp [List.getD_eq_getElem?_getD, hp, wordBytes, wordOfBytes_parts]

/-! ### Entry lists and word ranges -/

/-- Word `i` of a payload. -/
theorem payloadWord_eq (p : Payload) (i : Nat) (h : i < 32) : payloadWord p i = p[i] := by
  rw [payloadWord, List.getD_eq_getElem?_getD]
  simp [h]

/-- Word `i` after a range of words has been written. -/
theorem payloadWord_writeWords (p : Payload) (first : Nat) (ws : List Word) (i : Nat) (h : i < 32) :
    payloadWord (writeWords p first ws) i =
      if first ≤ i ∧ i < first + ws.length then ws.getD (i - first) 0#16 else payloadWord p i := by
  rw [payloadWord_eq _ _ h, payloadWord_eq _ _ h]
  exact Vector.getElem_ofFn ..

/-- Word `i` of an entry list payload. -/
theorem payloadWord_payloadOfEntries (es : List RosterEntry) (i : Nat) (h : i < 32) :
    payloadWord (payloadOfEntries es) i = (es[i]?.map entryWord).getD 0#16 := by
  simp [payloadWord, payloadOfEntries, h, List.getD_eq_getElem?_getD]

/-- Entry `i` reads back from an entry list payload. -/
theorem entryAt_payloadOfEntries (es : List RosterEntry) (i : Nat) (hi : i < es.length)
    (h : i < 32) : entryAt (payloadOfEntries es) i = es[i] := by
  have : payloadWord (payloadOfEntries es) i = entryWord es[i] := by
    rw [payloadWord_payloadOfEntries _ _ h]
    simp [hi]
  rw [entryAt, this, entryWord, high_wordOfBytes, low_wordOfBytes]

/-- An entry list reads back from its payload. -/
theorem entriesOf_payloadOfEntries (es : List RosterEntry) (h : es.length ≤ 32) :
    entriesOf (payloadOfEntries es) es.length = es := by
  apply List.ext_getElem
  · simp [entriesOf]
  · intro i h1 h2
    simp only [entriesOf, List.getElem_map, List.getElem_range]
    exact entryAt_payloadOfEntries es i h2 (by omega)

/-- The room after an entry list is zero. -/
theorem zeroBeyond_payloadOfEntries (es : List RosterEntry) :
    zeroBeyond (payloadOfEntries es) es.length = true := by
  simp only [zeroBeyond, List.all_eq_true, List.mem_range, Bool.or_eq_true, decide_eq_true_eq,
    Config.maxEntries]
  intro i hi
  by_cases h : i < es.length
  · exact Or.inl h
  · right
    rw [payloadWord_payloadOfEntries _ _ (by omega), List.getElem?_eq_none (by omega)]
    rfl

/-- What a well-formed entry list says of its entries. -/
theorem listWellFormed_entries (p : Payload) (count : Nat) (h : listWellFormed p count = true) :
    1 ≤ (entriesOf p count).length ∧ (entriesOf p count).length ≤ 30
      ∧ (entriesOf p count).all RosterEntry.inRange = true
      ∧ distinctStations (entriesOf p count) = true := by
  simp only [listWellFormed, Bool.and_eq_true, decide_eq_true_eq, Config.maxEntries] at h
  obtain ⟨⟨⟨⟨h1, h2⟩, h3⟩, h4⟩, -⟩ := h
  have : (entriesOf p count).length = count := by simp [entriesOf]
  exact ⟨by omega, by omega, h3, h4⟩

/-! ### Sealed cells -/

/-- A sealed cell with the right kind code has good checks. -/
theorem good_sealed (c : Cell) (h : c.header.kindCode = c.kind.code) :
    (⟨c.sealed, false, false⟩ : Reception).good = true := by
  simp [Reception.good, Reception.headerGood, Reception.payloadGood, Cell.sealed, Header.sealed,
    Header.computedCheck, Header.checkedBytes, h]

namespace Header

@[simp] theorem address_sealed (h : Header) : h.sealed.address = h.address := rfl
@[simp] theorem generation_sealed (h : Header) : h.sealed.generation = h.generation := rfl
@[simp] theorem owner_sealed (h : Header) : h.sealed.owner = h.owner := rfl
@[simp] theorem reserver_sealed (h : Header) : h.sealed.reserver = h.reserver := rfl
@[simp] theorem handoff_sealed (h : Header) : h.sealed.handoff = h.handoff := rfl
@[simp] theorem damaged_sealed (h : Header) : h.sealed.damaged = h.damaged := rfl
@[simp] theorem restored_sealed (h : Header) : h.sealed.restored = h.restored := rfl
@[simp] theorem ownershipGood_sealed (h : Header) : h.sealed.ownershipGood = h.ownershipGood := rfl

/-! ### The fields of a data header after one of them is written -/

@[simp] theorem owner_withOwner (h : Header) (c : Code5) : (h.withOwner c).owner = c :=
  field5_withField5 _ _
@[simp] theorem reserver_withOwner (h : Header) (c : Code5) :
    (h.withOwner c).reserver = h.reserver := rfl
@[simp] theorem handoff_withOwner (h : Header) (c : Code5) : (h.withOwner c).handoff = h.handoff := rfl
@[simp] theorem damaged_withOwner (h : Header) (c : Code5) : (h.withOwner c).damaged = h.damaged := rfl
@[simp] theorem address_withOwner (h : Header) (c : Code5) : (h.withOwner c).address = h.address := rfl
@[simp] theorem generation_withOwner (h : Header) (c : Code5) :
    (h.withOwner c).generation = h.generation := rfl
@[simp] theorem owner_withReserver (h : Header) (c : Code5) : (h.withReserver c).owner = h.owner := rfl
@[simp] theorem reserver_withReserver (h : Header) (c : Code5) : (h.withReserver c).reserver = c :=
  field5_withField5 _ _
@[simp] theorem handoff_withReserver (h : Header) (c : Code5) :
    (h.withReserver c).handoff = h.handoff := rfl
@[simp] theorem damaged_withReserver (h : Header) (c : Code5) :
    (h.withReserver c).damaged = h.damaged := rfl
@[simp] theorem address_withReserver (h : Header) (c : Code5) :
    (h.withReserver c).address = h.address := rfl
@[simp] theorem generation_withReserver (h : Header) (c : Code5) :
    (h.withReserver c).generation = h.generation := rfl
@[simp] theorem owner_withHandoff (h : Header) (v : Bool) : (h.withHandoff v).owner = h.owner := rfl
@[simp] theorem reserver_withHandoff (h : Header) (v : Bool) :
    (h.withHandoff v).reserver = h.reserver := rfl
@[simp] theorem handoff_withHandoff (h : Header) (v : Bool) : (h.withHandoff v).handoff = v :=
  (withBit_bits _ _).1
@[simp] theorem damaged_withHandoff (h : Header) (v : Bool) :
    (h.withHandoff v).damaged = h.damaged := (withBit_bits _ _).2.1
@[simp] theorem address_withHandoff (h : Header) (v : Bool) :
    (h.withHandoff v).address = h.address := rfl
@[simp] theorem generation_withHandoff (h : Header) (v : Bool) :
    (h.withHandoff v).generation = h.generation := rfl
@[simp] theorem owner_withDamaged (h : Header) (v : Bool) : (h.withDamaged v).owner = h.owner := rfl
@[simp] theorem reserver_withDamaged (h : Header) (v : Bool) :
    (h.withDamaged v).reserver = h.reserver := rfl
@[simp] theorem handoff_withDamaged (h : Header) (v : Bool) :
    (h.withDamaged v).handoff = h.handoff := (withBit_bits _ _).2.2.2.1
@[simp] theorem damaged_withDamaged (h : Header) (v : Bool) : (h.withDamaged v).damaged = v :=
  (withBit_bits _ _).2.2.2.2.1
@[simp] theorem address_withDamaged (h : Header) (v : Bool) :
    (h.withDamaged v).address = h.address := rfl
@[simp] theorem owner_withRestored (h : Header) (v : Bool) : (h.withRestored v).owner = h.owner := rfl
@[simp] theorem reserver_withRestored (h : Header) (v : Bool) :
    (h.withRestored v).reserver = h.reserver := rfl
@[simp] theorem handoff_withRestored (h : Header) (v : Bool) :
    (h.withRestored v).handoff = h.handoff := (withBit_bits _ _).2.2.2.2.2.2.1
@[simp] theorem damaged_withRestored (h : Header) (v : Bool) :
    (h.withRestored v).damaged = h.damaged := (withBit_bits _ _).2.2.2.2.2.2.2.1
@[simp] theorem address_withRestored (h : Header) (v : Bool) :
    (h.withRestored v).address = h.address := rfl
@[simp] theorem owner_withGeneration (h : Header) (g : Byte) :
    (h.withGeneration g).owner = h.owner := rfl
@[simp] theorem reserver_withGeneration (h : Header) (g : Byte) :
    (h.withGeneration g).reserver = h.reserver := rfl
@[simp] theorem handoff_withGeneration (h : Header) (g : Byte) :
    (h.withGeneration g).handoff = h.handoff := rfl
@[simp] theorem address_withGeneration (h : Header) (g : Byte) :
    (h.withGeneration g).address = h.address := rfl

/-! ### The conditions of R4 -/

/-- The conditions of R4, one by one. -/
theorem ownershipGood_iff (h : Header) :
    h.ownershipGood = true ↔
      (h.owner = noStation → h.reserver = noStation ∧ h.handoff = false)
        ∧ (h.reserver ≠ noStation → h.reserver ≠ h.owner)
        ∧ h.owner ≠ badStation ∧ h.reserver ≠ badStation := by
  unfold ownershipGood
  by_cases h1 : h.owner = noStation <;> by_cases h2 : h.reserver = noStation <;> simp_all [and_assoc]

/-- Passing a cell on leaves no reserver, and keeps the conditions of R4. -/
theorem passedOn_spec (h : Header) :
    h.passedOn.reserver = noStation ∧ h.passedOn.owner = h.reserver
      ∧ h.passedOn.address = h.address
      ∧ (h.passedOn.handoff = true ↔ h.reserver ≠ noStation)
      ∧ (h.ownershipGood = true → h.passedOn.ownershipGood = true) := by
  unfold passedOn
  split
  · rename_i hr
    refine ⟨hr, by simp [hr], rfl, by simp [hr], fun _ => ?_⟩
    rw [ownershipGood_iff]
    simp [hr]
    decide
  · rename_i hr
    refine ⟨by simp, by simp, rfl, by simp [hr], fun hg => ?_⟩
    rw [ownershipGood_iff] at hg ⊢
    simp [hr, hg.2.2.2]
    decide

end Header

end Sys2Proof
end

