-- ==== Sys2Proof/Laws/State.lean ====
section
/-! SUPPORT. One lemma for each field of State under each named update, so that no proof unfolds a
record update. -/

namespace Sys2Proof.Machine

/-! ### `State.enterCell` -/

@[simp] theorem State.resetHeld_enterCell (s : State) (c : Cell) :
    (s.enterCell c).resetHeld = s.resetHeld := rfl
@[simp] theorem State.line_enterCell (s : State) (c : Cell) :
    (s.enterCell c).line = { s.line with store := storeEnter s.line.store c } := rfl
@[simp] theorem State.loop_enterCell (s : State) (c : Cell) :
    (s.enterCell c).loop = s.loop := rfl
@[simp] theorem State.tracker_enterCell (s : State) (c : Cell) :
    (s.enterCell c).tracker = s.tracker := rfl
@[simp] theorem State.engine_enterCell (s : State) (c : Cell) :
    (s.enterCell c).engine = s.engine := rfl
@[simp] theorem State.watch_enterCell (s : State) (c : Cell) :
    (s.enterCell c).watch = s.watch := rfl
@[simp] theorem State.home_enterCell (s : State) (c : Cell) :
    (s.enterCell c).home = s.home := rfl
@[simp] theorem State.queues_enterCell (s : State) (c : Cell) :
    (s.enterCell c).queues = s.queues := rfl
@[simp] theorem State.port_enterCell (s : State) (c : Cell) :
    (s.enterCell c).port = s.port := rfl
@[simp] theorem State.pending_enterCell (s : State) (c : Cell) :
    (s.enterCell c).pending = s.pending := rfl

/-! ### `State.post` -/

@[simp] theorem State.resetHeld_post (s : State) (b : NoticeBody) :
    (s.post b).resetHeld = s.resetHeld := rfl
@[simp] theorem State.line_post (s : State) (b : NoticeBody) :
    (s.post b).line = s.line := rfl
@[simp] theorem State.loop_post (s : State) (b : NoticeBody) :
    (s.post b).loop = s.loop := rfl
@[simp] theorem State.tracker_post (s : State) (b : NoticeBody) :
    (s.post b).tracker = s.tracker := rfl
@[simp] theorem State.engine_post (s : State) (b : NoticeBody) :
    (s.post b).engine = s.engine := rfl
@[simp] theorem State.watch_post (s : State) (b : NoticeBody) :
    (s.post b).watch = s.watch := rfl
@[simp] theorem State.home_post (s : State) (b : NoticeBody) :
    (s.post b).home = s.home := rfl
@[simp] theorem State.queues_post (s : State) (b : NoticeBody) :
    (s.post b).queues = s.queues.post ⟨b, s.tracker.revolution⟩ := rfl
@[simp] theorem State.port_post (s : State) (b : NoticeBody) :
    (s.post b).port = s.port := rfl
@[simp] theorem State.pending_post (s : State) (b : NoticeBody) :
    (s.post b).pending = s.pending := rfl

/-! ### `State.pushRecords` -/

@[simp] theorem State.resetHeld_pushRecords (s : State) (rs : List Completion) :
    (s.pushRecords rs).resetHeld = s.resetHeld := rfl
@[simp] theorem State.line_pushRecords (s : State) (rs : List Completion) :
    (s.pushRecords rs).line = s.line := rfl
@[simp] theorem State.loop_pushRecords (s : State) (rs : List Completion) :
    (s.pushRecords rs).loop = s.loop := rfl
@[simp] theorem State.tracker_pushRecords (s : State) (rs : List Completion) :
    (s.pushRecords rs).tracker = s.tracker := rfl
@[simp] theorem State.engine_pushRecords (s : State) (rs : List Completion) :
    (s.pushRecords rs).engine = s.engine := rfl
@[simp] theorem State.watch_pushRecords (s : State) (rs : List Completion) :
    (s.pushRecords rs).watch = s.watch := rfl
@[simp] theorem State.home_pushRecords (s : State) (rs : List Completion) :
    (s.pushRecords rs).home = s.home := rfl
@[simp] theorem State.queues_pushRecords (s : State) (rs : List Completion) :
    (s.pushRecords rs).queues = { s.queues with completions := s.queues.completions ++ rs } := rfl
@[simp] theorem State.port_pushRecords (s : State) (rs : List Completion) :
    (s.pushRecords rs).port = s.port := rfl
@[simp] theorem State.pending_pushRecords (s : State) (rs : List Completion) :
    (s.pushRecords rs).pending = s.pending := rfl

/-! ### `State.withTable` -/

@[simp] theorem State.resetHeld_withTable (s : State) (es : List Entry) :
    (s.withTable es).resetHeld = s.resetHeld := rfl
@[simp] theorem State.line_withTable (s : State) (es : List Entry) :
    (s.withTable es).line = s.line := rfl
@[simp] theorem State.loop_withTable (s : State) (es : List Entry) :
    (s.withTable es).loop = s.loop := rfl
@[simp] theorem State.tracker_withTable (s : State) (es : List Entry) :
    (s.withTable es).tracker = s.tracker := rfl
@[simp] theorem State.engine_withTable (s : State) (es : List Entry) :
    (s.withTable es).engine = { s.engine with table := es } := rfl
@[simp] theorem State.watch_withTable (s : State) (es : List Entry) :
    (s.withTable es).watch = s.watch := rfl
@[simp] theorem State.home_withTable (s : State) (es : List Entry) :
    (s.withTable es).home = s.home := rfl
@[simp] theorem State.queues_withTable (s : State) (es : List Entry) :
    (s.withTable es).queues = s.queues := rfl
@[simp] theorem State.port_withTable (s : State) (es : List Entry) :
    (s.withTable es).port = s.port := rfl
@[simp] theorem State.pending_withTable (s : State) (es : List Entry) :
    (s.withTable es).pending = s.pending := rfl

/-! ### `State.changeLoop` -/

@[simp] theorem State.resetHeld_changeLoop (s : State) (l : Loop) :
    (s.changeLoop l).resetHeld = s.resetHeld := rfl
@[simp] theorem State.line_changeLoop (s : State) (l : Loop) :
    (s.changeLoop l).line = s.line := rfl
@[simp] theorem State.loop_changeLoop (s : State) (l : Loop) :
    (s.changeLoop l).loop = l := rfl
@[simp] theorem State.tracker_changeLoop (s : State) (l : Loop) :
    (s.changeLoop l).tracker = s.tracker := rfl
@[simp] theorem State.engine_changeLoop (s : State) (l : Loop) :
    (s.changeLoop l).engine = s.engine := rfl
@[simp] theorem State.watch_changeLoop (s : State) (l : Loop) :
    (s.changeLoop l).watch = s.watch := rfl
@[simp] theorem State.home_changeLoop (s : State) (l : Loop) :
    (s.changeLoop l).home = s.home := rfl
@[simp] theorem State.queues_changeLoop (s : State) (l : Loop) :
    (s.changeLoop l).queues = s.queues.post ⟨l.notice s.loop.state, s.tracker.revolution⟩ := rfl
@[simp] theorem State.port_changeLoop (s : State) (l : Loop) :
    (s.changeLoop l).port = s.port := rfl
@[simp] theorem State.pending_changeLoop (s : State) (l : Loop) :
    (s.changeLoop l).pending = s.pending := rfl

/-! ### `State.forgetSeen` -/

@[simp] theorem State.resetHeld_forgetSeen (s : State) :
    (s.forgetSeen).resetHeld = s.resetHeld := rfl
@[simp] theorem State.line_forgetSeen (s : State) :
    (s.forgetSeen).line = s.line := rfl
@[simp] theorem State.loop_forgetSeen (s : State) :
    (s.forgetSeen).loop = s.loop := rfl
@[simp] theorem State.tracker_forgetSeen (s : State) :
    (s.forgetSeen).tracker = s.tracker := rfl
@[simp] theorem State.engine_forgetSeen (s : State) :
    (s.forgetSeen).engine = s.engine := rfl
@[simp] theorem State.watch_forgetSeen (s : State) :
    (s.forgetSeen).watch = { s.watch with seen := [] } := rfl
@[simp] theorem State.home_forgetSeen (s : State) :
    (s.forgetSeen).home = s.home := rfl
@[simp] theorem State.queues_forgetSeen (s : State) :
    (s.forgetSeen).queues = s.queues := rfl
@[simp] theorem State.port_forgetSeen (s : State) :
    (s.forgetSeen).port = s.port := rfl
@[simp] theorem State.pending_forgetSeen (s : State) :
    (s.forgetSeen).pending = s.pending := rfl

/-! ### `State.recordDeparture` -/

@[simp] theorem State.resetHeld_recordDeparture (s : State) (p : Nat) (c : Cell) :
    (s.recordDeparture p c).resetHeld = s.resetHeld := rfl
@[simp] theorem State.line_recordDeparture (s : State) (p : Nat) (c : Cell) :
    (s.recordDeparture p c).line = s.line := rfl
@[simp] theorem State.loop_recordDeparture (s : State) (p : Nat) (c : Cell) :
    (s.recordDeparture p c).loop = s.loop := rfl
@[simp] theorem State.tracker_recordDeparture (s : State) (p : Nat) (c : Cell) :
    (s.recordDeparture p c).tracker = s.tracker := rfl
@[simp] theorem State.engine_recordDeparture (s : State) (p : Nat) (c : Cell) :
    (s.recordDeparture p c).engine = s.engine := rfl
@[simp] theorem State.watch_recordDeparture (s : State) (p : Nat) (c : Cell) :
    (s.recordDeparture p c).watch = { s.watch with
      seen := recordSeen p ⟨c.header.generation, c.header.owner⟩ s.watch.seen } := rfl
@[simp] theorem State.home_recordDeparture (s : State) (p : Nat) (c : Cell) :
    (s.recordDeparture p c).home = s.home := rfl
@[simp] theorem State.queues_recordDeparture (s : State) (p : Nat) (c : Cell) :
    (s.recordDeparture p c).queues = s.queues := rfl
@[simp] theorem State.port_recordDeparture (s : State) (p : Nat) (c : Cell) :
    (s.recordDeparture p c).port = s.port := rfl
@[simp] theorem State.pending_recordDeparture (s : State) (p : Nat) (c : Cell) :
    (s.recordDeparture p c).pending = s.pending := rfl

/-! ### `State.withHomeEntry` -/

@[simp] theorem State.resetHeld_withHomeEntry (s : State) (i : Nat) (e : HomeEntry) :
    (s.withHomeEntry i e).resetHeld = s.resetHeld := rfl
@[simp] theorem State.line_withHomeEntry (s : State) (i : Nat) (e : HomeEntry) :
    (s.withHomeEntry i e).line = s.line := rfl
@[simp] theorem State.loop_withHomeEntry (s : State) (i : Nat) (e : HomeEntry) :
    (s.withHomeEntry i e).loop = s.loop := rfl
@[simp] theorem State.tracker_withHomeEntry (s : State) (i : Nat) (e : HomeEntry) :
    (s.withHomeEntry i e).tracker = s.tracker := rfl
@[simp] theorem State.engine_withHomeEntry (s : State) (i : Nat) (e : HomeEntry) :
    (s.withHomeEntry i e).engine = s.engine := rfl
@[simp] theorem State.watch_withHomeEntry (s : State) (i : Nat) (e : HomeEntry) :
    (s.withHomeEntry i e).watch = s.watch := rfl
@[simp] theorem State.home_withHomeEntry (s : State) (i : Nat) (e : HomeEntry) :
    (s.withHomeEntry i e).home = s.home.setIfInBounds i e := rfl
@[simp] theorem State.queues_withHomeEntry (s : State) (i : Nat) (e : HomeEntry) :
    (s.withHomeEntry i e).queues = s.queues := rfl
@[simp] theorem State.port_withHomeEntry (s : State) (i : Nat) (e : HomeEntry) :
    (s.withHomeEntry i e).port = s.port := rfl
@[simp] theorem State.pending_withHomeEntry (s : State) (i : Nat) (e : HomeEntry) :
    (s.withHomeEntry i e).pending = s.pending := rfl

/-! ### `State.withWatchEntry` -/

@[simp] theorem State.resetHeld_withWatchEntry (s : State) (n : Nat) (w : WatchEntry) :
    (s.withWatchEntry n w).resetHeld = s.resetHeld := rfl
@[simp] theorem State.line_withWatchEntry (s : State) (n : Nat) (w : WatchEntry) :
    (s.withWatchEntry n w).line = s.line := rfl
@[simp] theorem State.loop_withWatchEntry (s : State) (n : Nat) (w : WatchEntry) :
    (s.withWatchEntry n w).loop = s.loop := rfl
@[simp] theorem State.tracker_withWatchEntry (s : State) (n : Nat) (w : WatchEntry) :
    (s.withWatchEntry n w).tracker = s.tracker := rfl
@[simp] theorem State.engine_withWatchEntry (s : State) (n : Nat) (w : WatchEntry) :
    (s.withWatchEntry n w).engine = s.engine := rfl
@[simp] theorem State.watch_withWatchEntry (s : State) (n : Nat) (w : WatchEntry) :
    (s.withWatchEntry n w).watch = { s.watch with
      entries := s.watch.entries.setIfInBounds n w } := rfl
@[simp] theorem State.home_withWatchEntry (s : State) (n : Nat) (w : WatchEntry) :
    (s.withWatchEntry n w).home = s.home := rfl
@[simp] theorem State.queues_withWatchEntry (s : State) (n : Nat) (w : WatchEntry) :
    (s.withWatchEntry n w).queues = s.queues := rfl
@[simp] theorem State.port_withWatchEntry (s : State) (n : Nat) (w : WatchEntry) :
    (s.withWatchEntry n w).port = s.port := rfl
@[simp] theorem State.pending_withWatchEntry (s : State) (n : Nat) (w : WatchEntry) :
    (s.withWatchEntry n w).pending = s.pending := rfl

/-! ### `State.addEntry` -/

@[simp] theorem State.resetHeld_addEntry (s : State) (e : Entry) :
    (s.addEntry e).resetHeld = s.resetHeld := rfl
@[simp] theorem State.line_addEntry (s : State) (e : Entry) :
    (s.addEntry e).line = s.line := rfl
@[simp] theorem State.loop_addEntry (s : State) (e : Entry) :
    (s.addEntry e).loop = s.loop := rfl
@[simp] theorem State.tracker_addEntry (s : State) (e : Entry) :
    (s.addEntry e).tracker = s.tracker := rfl
@[simp] theorem State.engine_addEntry (s : State) (e : Entry) :
    (s.addEntry e).engine = { s.engine with
      table := s.engine.table ++ [e], acceptance := s.engine.acceptance + 1#16 } := rfl
@[simp] theorem State.watch_addEntry (s : State) (e : Entry) :
    (s.addEntry e).watch = s.watch := rfl
@[simp] theorem State.home_addEntry (s : State) (e : Entry) :
    (s.addEntry e).home = s.home := rfl
@[simp] theorem State.queues_addEntry (s : State) (e : Entry) :
    (s.addEntry e).queues = s.queues := rfl
@[simp] theorem State.port_addEntry (s : State) (e : Entry) :
    (s.addEntry e).port = s.port := rfl
@[simp] theorem State.pending_addEntry (s : State) (e : Entry) :
    (s.addEntry e).pending = s.pending := rfl

/-! ### `State.delivered` -/

@[simp] theorem State.resetHeld_delivered (s : State) :
    (s.delivered).resetHeld = s.resetHeld := rfl
@[simp] theorem State.line_delivered (s : State) :
    (s.delivered).line = s.line.completed := rfl
@[simp] theorem State.loop_delivered (s : State) :
    (s.delivered).loop = s.loop := rfl
@[simp] theorem State.tracker_delivered (s : State) :
    (s.delivered).tracker = s.tracker := rfl
@[simp] theorem State.engine_delivered (s : State) :
    (s.delivered).engine = s.engine := rfl
@[simp] theorem State.watch_delivered (s : State) :
    (s.delivered).watch = s.watch := rfl
@[simp] theorem State.home_delivered (s : State) :
    (s.delivered).home = s.home := rfl
@[simp] theorem State.queues_delivered (s : State) :
    (s.delivered).queues = s.queues := rfl
@[simp] theorem State.port_delivered (s : State) :
    (s.delivered).port = s.port := rfl
@[simp] theorem State.pending_delivered (s : State) :
    (s.delivered).pending = s.pending := rfl

/-! ### `State.answered` -/

@[simp] theorem State.resetHeld_answered (s : State) (k : HostCommand) (fields response : List Byte) :
    (s.answered k fields response).resetHeld = s.resetHeld := rfl
@[simp] theorem State.line_answered (s : State) (k : HostCommand) (fields response : List Byte) :
    (s.answered k fields response).line = s.line := rfl
@[simp] theorem State.loop_answered (s : State) (k : HostCommand) (fields response : List Byte) :
    (s.answered k fields response).loop = s.loop := rfl
@[simp] theorem State.tracker_answered (s : State) (k : HostCommand) (fields response : List Byte) :
    (s.answered k fields response).tracker = s.tracker := rfl
@[simp] theorem State.engine_answered (s : State) (k : HostCommand) (fields response : List Byte) :
    (s.answered k fields response).engine = s.engine := rfl
@[simp] theorem State.watch_answered (s : State) (k : HostCommand) (fields response : List Byte) :
    (s.answered k fields response).watch = s.watch := rfl
@[simp] theorem State.home_answered (s : State) (k : HostCommand) (fields response : List Byte) :
    (s.answered k fields response).home = s.home := rfl
@[simp] theorem State.queues_answered (s : State) (k : HostCommand) (fields response : List Byte) :
    (s.answered k fields response).queues = s.queues := rfl
@[simp] theorem State.port_answered (s : State) (k : HostCommand) (fields response : List Byte) :
    (s.answered k fields response).port = s.port.answer .responding k.code
      (fields ++ [checkByte (k.code :: fields)]) response := rfl
@[simp] theorem State.pending_answered (s : State) (k : HostCommand) (fields response : List Byte) :
    (s.answered k fields response).pending = s.pending := rfl

/-! ### `State.withFinding` -/

@[simp] theorem State.resetHeld_withFinding (s : State) (r : Reception) (f : Finding) :
    (s.withFinding r f).resetHeld = s.resetHeld := rfl
@[simp] theorem State.line_withFinding (s : State) (r : Reception) (f : Finding) :
    (s.withFinding r f).line = s.line := rfl
@[simp] theorem State.loop_withFinding (s : State) (r : Reception) (f : Finding) :
    (s.withFinding r f).loop = s.loop := rfl
@[simp] theorem State.tracker_withFinding (s : State) (r : Reception) (f : Finding) :
    (s.withFinding r f).tracker = { s.tracker with damage := s.tracker.damage + 1 } := rfl
@[simp] theorem State.engine_withFinding (s : State) (r : Reception) (f : Finding) :
    (s.withFinding r f).engine = s.engine := rfl
@[simp] theorem State.watch_withFinding (s : State) (r : Reception) (f : Finding) :
    (s.withFinding r f).watch = s.watch := rfl
@[simp] theorem State.home_withFinding (s : State) (r : Reception) (f : Finding) :
    (s.withFinding r f).home = s.home := rfl
@[simp] theorem State.queues_withFinding (s : State) (r : Reception) (f : Finding) :
    (s.withFinding r f).queues = s.queues.post
      ⟨.damageFound f (s.tracker.position + 1) r.payloadGood (s.tracker.damage + 1),
        s.tracker.revolution⟩ := rfl
@[simp] theorem State.port_withFinding (s : State) (r : Reception) (f : Finding) :
    (s.withFinding r f).port = s.port := rfl
@[simp] theorem State.pending_withFinding (s : State) (r : Reception) (f : Finding) :
    (s.withFinding r f).pending = s.pending := rfl

/-! ### `Line.sent` and `Line.fillSent` -/

@[simp] theorem Line.store_sent (l : Line) : l.sent.store = l.store.tail := by
  cases h : l.store <;> simp [Line.sent, h]
@[simp] theorem Line.receiver_sent (l : Line) : l.sent.receiver = l.receiver := by
  cases h : l.store <;> simp [Line.sent, h]
@[simp] theorem Line.fill_sent (l : Line) : l.sent.fill = l.fill := by
  cases h : l.store <;> simp [Line.sent, h]
@[simp] theorem Line.breakCount_sent (l : Line) : l.sent.breakCount = l.breakCount := by
  cases h : l.store <;> simp [Line.sent, h]
@[simp] theorem Line.signal_sent (l : Line) : l.sent.signal = l.signal := by
  cases h : l.store <;> simp [Line.sent, h]
@[simp] theorem Line.interval_sent (l : Line) : l.sent.interval = l.interval := by
  cases h : l.store <;> simp [Line.sent, h]
@[simp] theorem Line.mode_sent (l : Line) : l.sent.mode = l.mode := by
  cases h : l.store <;> simp [Line.sent, h]
@[simp] theorem Line.fillFollowing_sent (l : Line) : l.sent.fillFollowing = l.fillFollowing := by
  cases h : l.store <;> simp [Line.sent, h]
@[simp] theorem Line.fillSent_eq (l : Line) : l.fillSent = { l with gap := l.gap - 1 } := rfl

/-! ### `State.noticed` -/

@[simp] theorem State.resetHeld_noticed (s : State) (b : NoticeBody) :
    (s.noticed b).resetHeld = s.resetHeld := rfl
@[simp] theorem State.line_noticed (s : State) (b : NoticeBody) :
    (s.noticed b).line = s.line := rfl
@[simp] theorem State.loop_noticed (s : State) (b : NoticeBody) :
    (s.noticed b).loop = s.loop := rfl
@[simp] theorem State.tracker_noticed (s : State) (b : NoticeBody) :
    (s.noticed b).tracker = s.tracker := rfl
@[simp] theorem State.engine_noticed (s : State) (b : NoticeBody) :
    (s.noticed b).engine = s.engine := rfl
@[simp] theorem State.watch_noticed (s : State) (b : NoticeBody) :
    (s.noticed b).watch = s.watch := rfl
@[simp] theorem State.home_noticed (s : State) (b : NoticeBody) :
    (s.noticed b).home = s.home := rfl
@[simp] theorem State.queues_noticed (s : State) (b : NoticeBody) :
    (s.noticed b).queues = s.queues.post ⟨b, s.tracker.revolution⟩ := rfl
@[simp] theorem State.port_noticed (s : State) (b : NoticeBody) :
    (s.noticed b).port = s.port := rfl
@[simp] theorem State.pending_noticed (s : State) (b : NoticeBody) :
    (s.noticed b).pending = s.pending := rfl

/-! ### `State.entered` -/

@[simp] theorem State.resetHeld_entered (s : State) (cs : List Cell) :
    (s.entered cs).resetHeld = s.resetHeld := rfl
@[simp] theorem State.line_entered (s : State) (cs : List Cell) :
    (s.entered cs).line = { s.line with store := cs.foldl storeEnter s.line.store } := rfl
@[simp] theorem State.loop_entered (s : State) (cs : List Cell) :
    (s.entered cs).loop = s.loop := rfl
@[simp] theorem State.tracker_entered (s : State) (cs : List Cell) :
    (s.entered cs).tracker = s.tracker := rfl
@[simp] theorem State.engine_entered (s : State) (cs : List Cell) :
    (s.entered cs).engine = s.engine := rfl
@[simp] theorem State.watch_entered (s : State) (cs : List Cell) :
    (s.entered cs).watch = s.watch := rfl
@[simp] theorem State.home_entered (s : State) (cs : List Cell) :
    (s.entered cs).home = s.home := rfl
@[simp] theorem State.queues_entered (s : State) (cs : List Cell) :
    (s.entered cs).queues = s.queues := rfl
@[simp] theorem State.port_entered (s : State) (cs : List Cell) :
    (s.entered cs).port = s.port := rfl
@[simp] theorem State.pending_entered (s : State) (cs : List Cell) :
    (s.entered cs).pending = s.pending := rfl

end Sys2Proof.Machine
end

