-- ==== Sys2Proof/Laws/Ops.lean ====
section
/-! SUPPORT. One lemma for each shared operation of Machine/Ops.lean that says what it can do: the
forwarding store, the notice queue, and the entry into BROKEN. -/

namespace Sys2Proof.Machine

/-! ### The forwarding store -/

/-- Entering a cell keeps the store within its room. -/
theorem storeEnter_length_le (store : List Cell) (c : Cell)
    (h : store.length ≤ Config.storeCapacity) :
    (storeEnter store c).length ≤ Config.storeCapacity := by
  unfold storeEnter
  split
  · rename_i hl
    rw [List.length_append, List.length_singleton]
    exact hl
  · exact h

/-- A cell of the store after an entry was there before or is the one entered. -/
theorem mem_storeEnter (store : List Cell) (c d : Cell) (h : d ∈ storeEnter store c) :
    d ∈ store ∨ d = c := by
  unfold storeEnter at h
  split at h
  · simpa using h
  · exact Or.inl h

/-- Entering several cells keeps the store within its room. -/
theorem storeEnter_foldl_length_le (cs store : List Cell)
    (h : store.length ≤ Config.storeCapacity) :
    (cs.foldl storeEnter store).length ≤ Config.storeCapacity := by
  induction cs generalizing store with
  | nil => exact h
  | cons c cs ih => exact ih _ (storeEnter_length_le store c h)

/-- A cell of the store after several entries was there before or is one of those entered. -/
theorem mem_storeEnter_foldl (cs store : List Cell) (d : Cell)
    (h : d ∈ cs.foldl storeEnter store) : d ∈ store ∨ d ∈ cs := by
  induction cs generalizing store with
  | nil => exact Or.inl h
  | cons c cs ih =>
    rcases ih _ h with h | h
    · rcases mem_storeEnter store c d h with h | h
      · exact Or.inl h
      · exact Or.inr (h ▸ List.mem_cons_self)
    · exact Or.inr (List.mem_cons_of_mem _ h)

/-- Entering several cells one after another changes the store alone. -/
theorem State.enterCells_eq (s : State) (cs : List Cell) : s.enterCells cs = s.entered cs := by
  induction cs generalizing s with
  | nil => rfl
  | cons c cs ih => exact ih (s.enterCell c)

/-! ### The notice queue -/

/-- Posting touches no completion record. -/
@[simp] theorem Queues.completions_post (q : Queues) (n : Notice) :
    (q.post n).completions = q.completions := by
  unfold Queues.post
  split <;> rfl

/-- Posting and replacing the completion records commute. -/
theorem Queues.post_with_completions (q : Queues) (cs : List Completion) (n : Notice) :
    { q with completions := cs }.post n = { q.post n with completions := cs } := by
  unfold Queues.post
  dsimp only
  split <;> rfl

/-- After a posting the notice queue is not empty. -/
theorem Queues.notices_post_ne_nil (q : Queues) (n : Notice) : (q.post n).notices ≠ [] := by
  unfold Queues.post
  split
  · simp
  · rename_i h
    intro hn
    apply h
    simp only at hn
    rw [hn]
    decide

/-- Posting keeps the notice queue and the lost count within their room. -/
theorem Queues.post_bounded (q : Queues) (n : Notice)
    (h : q.notices.length ≤ Config.noticeCapacity ∧ q.lost ≤ Config.maxLost) :
    (q.post n).notices.length ≤ Config.noticeCapacity ∧ (q.post n).lost ≤ Config.maxLost := by
  unfold Queues.post
  split
  · rename_i hl
    refine ⟨?_, h.2⟩
    rw [List.length_append, List.length_singleton]
    exact hl
  · exact ⟨h.1, Nat.min_le_right _ _⟩

/-- Posting a notice that is no LOST record keeps the number of LOST records. -/
theorem Queues.post_lost_records (q : Queues) (n : Notice) (h : n.isLost = false) :
    (q.post n).notices.filter Notice.isLost = q.notices.filter Notice.isLost := by
  unfold Queues.post
  split
  · simp [h]
  · rfl

/-- `q'` has the notices and the lost count of `q` after some postings, none of them of a LOST
record. -/
def Queues.Posted (q q' : Queues) : Prop :=
  ∃ ns : List Notice, (∀ n ∈ ns, n.isLost = false)
    ∧ q'.notices = (ns.foldl Queues.post q).notices ∧ q'.lost = (ns.foldl Queues.post q).lost

/-- Queues with the same notices and lost count. -/
theorem Queues.Posted.same {q q' : Queues} (h1 : q'.notices = q.notices) (h2 : q'.lost = q.lost) :
    q.Posted q' := ⟨[], by simp, h1, h2⟩

/-- Posting depends on the notices and the lost count alone. -/
theorem Queues.post_congr {q q' : Queues} (h1 : q'.notices = q.notices) (h2 : q'.lost = q.lost)
    (n : Notice) :
    (q'.post n).notices = (q.post n).notices ∧ (q'.post n).lost = (q.post n).lost := by
  unfold Queues.post
  rw [h1]
  split
  · exact ⟨rfl, h2⟩
  · exact ⟨rfl, by simp [h2]⟩

/-- One more posting. -/
theorem Queues.Posted.post {q q' q'' : Queues} (h : q.Posted q') (n : Notice)
    (hn : n.isLost = false) (h1 : q''.notices = (q'.post n).notices)
    (h2 : q''.lost = (q'.post n).lost) : q.Posted q'' := by
  obtain ⟨ns, hns, e1, e2⟩ := h
  have := Queues.post_congr e1 e2 n
  refine ⟨ns ++ [n], ?_, ?_, ?_⟩
  · simp only [List.mem_append, List.mem_singleton]
    rintro m (hm | rfl)
    · exact hns m hm
    · exact hn
  · rw [List.foldl_append, h1]
    exact this.1
  · rw [List.foldl_append, h2]
    exact this.2

/-- Postings one after another. -/
theorem Queues.Posted.trans {q q' q'' : Queues} (h : q.Posted q') (h' : q'.Posted q'') :
    q.Posted q'' := by
  obtain ⟨ns, hns, e1, e2⟩ := h'
  have key : ∀ (ms : List Notice) (p : Queues), (∀ n ∈ ms, n.isLost = false) → q.Posted p →
      q.Posted (ms.foldl Queues.post p) := by
    intro ms
    induction ms with
    | nil => intro p _ hp; exact hp
    | cons m ms ih =>
      intro p hm hp
      exact ih _ (fun n hn => hm n (List.mem_cons_of_mem _ hn))
        (hp.post m (hm m List.mem_cons_self) rfl rfl)
  obtain ⟨ms, hms, f1, f2⟩ := key ns q' hns h
  exact ⟨ms, hms, e1.trans f1, e2.trans f2⟩

/-- What postings keep: the room of the queue and of the lost count, the LOST records, and that a
nonempty queue stays so; a lost count that has become nonzero finds a notice. -/
theorem Queues.Posted.spec {q q' : Queues} (h : q.Posted q') :
    (q.notices.length ≤ Config.noticeCapacity ∧ q.lost ≤ Config.maxLost →
      q'.notices.length ≤ Config.noticeCapacity ∧ q'.lost ≤ Config.maxLost)
    ∧ q'.notices.filter Notice.isLost = q.notices.filter Notice.isLost
    ∧ ((q.lost ≠ 0 → q.notices ≠ []) → q'.lost ≠ 0 → q'.notices ≠ []) := by
  obtain ⟨ns, hns, e1, e2⟩ := h
  rw [e1, e2]
  clear e1 e2
  induction ns generalizing q with
  | nil => exact ⟨id, rfl, id⟩
  | cons n ns ih =>
    have hn := hns n List.mem_cons_self
    obtain ⟨i1, i2, i3⟩ := ih (q := q.post n) fun m hm => hns m (List.mem_cons_of_mem _ hm)
    exact ⟨fun hb => i1 (Queues.post_bounded q n hb),
      i2.trans (Queues.post_lost_records q n hn),
      fun _ => i3 fun _ => Queues.notices_post_ne_nil q n⟩

/-! ### The entry into BROKEN -/

/-- The queues after an entry into BROKEN: the LOOP STATE notice, the SWEEP DONE notice of an active
sweep, and a LOOP BROKEN completion for each table entry (R155). -/
def State.queuesBroken (s : State) (reason : Reason) : Queues :=
  let q := s.queues.post
    ⟨.loopState .broken s.loop.state (some reason) none .none, s.tracker.revolution⟩
  let r := if s.engine.sweep.active then
    q.post ⟨.sweepDone s.engine.sweep.released false, s.tracker.revolution⟩ else q
  { r with completions := s.queues.completions ++
      s.engine.table.map fun e => e.completion s.tracker.revolution .loopBroken .none }

/-- The queues after an entry into BROKEN: one LOOP BROKEN completion for each entry, and
postings. -/
theorem State.queuesBroken_spec (s : State) (reason : Reason) :
    (s.queuesBroken reason).completions = s.queues.completions
        ++ s.engine.table.map (fun e => e.completion s.tracker.revolution .loopBroken .none)
      ∧ s.queues.Posted (s.queuesBroken reason) := by
  refine ⟨rfl, ?_⟩
  have one : s.queues.Posted (s.queues.post
      ⟨.loopState .broken s.loop.state (some reason) none .none, s.tracker.revolution⟩) :=
    (Queues.Posted.same rfl rfl).post _ rfl rfl rfl
  unfold State.queuesBroken
  dsimp only
  split
  · exact one.post _ rfl rfl rfl
  · exact one.trans (Queues.Posted.same rfl rfl)

/-- Everything that an entry into BROKEN does. -/
theorem State.enterBroken_eq (s : State) (reason : Reason) :
    s.enterBroken reason =
      { s with
        line := s.line.held
        loop := s.loop.broken reason
        tracker := s.tracker.stopped
        engine := { s.engine with table := [], sweep := { s.engine.sweep with active := false } }
        watch := { s.watch with seen := [] }
        queues := s.queuesBroken reason } := by
  obtain ⟨rh, ln, lp, tr, ⟨tb, ac, ⟨act, rel, mk⟩⟩, wa, ho, qu, po, pe⟩ := s
  cases act with
  | false =>
    simp [State.enterBroken, State.endSweepBroken, State.completeBroken, State.changeLoop,
      State.post, State.withTable, State.pushRecords, State.forgetSeen, State.queuesBroken,
      Loop.notice, Loop.broken]
  | true =>
    simp [State.enterBroken, State.endSweepBroken, State.completeBroken, State.changeLoop,
      State.post, State.withTable, State.pushRecords, State.forgetSeen, State.queuesBroken,
      Loop.notice, Loop.broken, Queues.post_with_completions]

/-- A report of a break enters BROKEN from RUNNING, BUILD and EXCLUDED, and changes nothing in the
other loop states. -/
theorem State.breakReport_cases (s : State) (reason : Reason) :
    (s.breakReport reason = s.enterBroken reason
        ∧ (s.loop.state = .running ∨ s.loop.state = .build ∨ s.loop.state = .excluded))
      ∨ (s.breakReport reason = s
        ∧ (s.loop.state = .offline ∨ s.loop.state = .census ∨ s.loop.state = .broken)) := by
  unfold State.breakReport
  cases h : s.loop.state <;> simp

end Sys2Proof.Machine
end

