-- ==== Sys2Proof/Laws/Engine.lean ====
section
/-! SUPPORT. One lemma for each shared operation of Machine/Engine.lean and
Machine/WatchUnit.lean: the seen table, one turn of the serve window, the window as a whole, the
stages of a passage, and the passage. -/

namespace Sys2Proof.Machine

/-! ### The seen table -/

/-- An entry of the seen table after a record was there before or is the one recorded. -/
theorem mem_recordSeen (p : Nat) (v : Seen) (l : List (Nat × Seen)) (e : Nat × Seen)
    (h : e ∈ recordSeen p v l) : e ∈ l ∨ e = (p, v) := by
  induction l with
  | nil => exact Or.inr (by simpa [recordSeen] using h)
  | cons x xs ih =>
    simp only [recordSeen] at h
    split at h
    · simp only [List.mem_cons] at h ⊢
      tauto
    · split at h
      · simp only [List.mem_cons] at h ⊢
        tauto
      · simp only [List.mem_cons] at h ⊢
        rcases h with h | h
        · exact Or.inl (Or.inl h)
        · rcases ih h with h | h
          · exact Or.inl (Or.inr h)
          · exact Or.inr h

/-- A record keeps the positions of the seen table strictly rising. -/
theorem pairwise_recordSeen (p : Nat) (v : Seen) (l : List (Nat × Seen))
    (h : l.Pairwise fun a b => a.1 < b.1) : (recordSeen p v l).Pairwise fun a b => a.1 < b.1 := by
  induction l with
  | nil => simp [recordSeen]
  | cons x xs ih =>
    rw [List.pairwise_cons] at h
    simp only [recordSeen]
    split
    · rename_i hp
      simp only [List.pairwise_cons, List.mem_cons, forall_eq_or_imp]
      exact ⟨⟨hp, fun b hb => lt_trans hp (h.1 b hb)⟩, h.1, h.2⟩
    · split
      · rename_i hp
        simp only [List.pairwise_cons]
        exact ⟨fun b hb => hp ▸ h.1 b hb, h.2⟩
      · simp only [List.pairwise_cons]
        refine ⟨fun b hb => ?_, ih h.2⟩
        rcases mem_recordSeen _ _ _ _ hb with hb | rfl
        · exact h.1 b hb
        · simp only
          omega

/-- The record of a position is the one just made; the records of the others stand. -/
theorem seenAt_recordSeen (p q : Nat) (v : Seen) (l : List (Nat × Seen)) :
    seenAt (recordSeen p v l) q = if q = p then some v
      else seenAt l q := by
  induction l with
  | nil =>
    by_cases h : q = p
    · simp [recordSeen, seenAt, h]
    · have : ¬p = q := fun e => h e.symm
      simp [recordSeen, seenAt, h, this]
  | cons x xs ih =>
    simp only [seenAt] at ih ⊢
    simp only [recordSeen]
    split
    · by_cases h : q = p
      · simp [h]
      · have : ¬p = q := fun e => h e.symm
        simp [h, this, List.find?_cons]
    · split
      · rename_i hx
        by_cases h : q = p
        · simp [h]
        · have : ¬p = q := fun e => h e.symm
          have hx' : ¬x.1 = q := fun e => this (hx.trans e)
          simp [h, this, hx']
      · rename_i hx
        by_cases hq : x.1 = q
        · have : ¬q = p := fun e => hx (e.symm.trans hq.symm)
          simp [hq, this]
        · simp only [List.find?_cons]
          simp only [show (x.1 == q) = false from by simpa using hq]
          exact ih

/-! ### One turn of the serve window -/

/-- A turn keeps the kind and the address of the cell in hand, and the conditions of R4. -/
theorem serveEntry_hand (me : Code5) (a : Arrival) (e : Entry) (h : Hand)
    (hm : stationLegal me = true) :
    (serveEntry me a e h).1.cell.kind = h.cell.kind
      ∧ (serveEntry me a e h).1.header.address = h.header.address
      ∧ (h.header.ownershipGood = true → (serveEntry me a e h).1.header.ownershipGood = true) := by
  have hm' : me ≠ noStation ∧ me ≠ badStation := by simpa [stationLegal] using hm
  unfold serveEntry
  split
  · exact ⟨rfl, rfl, id⟩
  · exact ⟨rfl, rfl, id⟩
  · exact ⟨rfl, rfl, id⟩
  · unfold serveWrite
    split
    · exact ⟨rfl, rfl, id⟩
    · split
      · exact ⟨rfl, rfl, id⟩
      · split
        · exact ⟨rfl, rfl, id⟩
        · refine ⟨rfl, rfl, fun hg => ?_⟩
          simp only [Hand.header, Hand.written] at hg ⊢
          rw [Header.ownershipGood_iff] at hg ⊢
          simpa using hg
  · unfold serveVerify
    split
    · exact ⟨rfl, rfl, id⟩
    · split <;> exact ⟨rfl, rfl, id⟩
  · have claim : (serveClaim me h).1.cell.kind = h.cell.kind
        ∧ (serveClaim me h).1.header.address = h.header.address
        ∧ (h.header.ownershipGood = true → (serveClaim me h).1.header.ownershipGood = true) := by
      unfold serveClaim
      split
      · rename_i ho
        refine ⟨rfl, rfl, fun hg => ?_⟩
        simp only [Hand.header, Hand.withHeader] at ho hg ⊢
        rw [Header.ownershipGood_iff] at hg ⊢
        have hr := (hg.1 ho).1
        simp [hr, hm'.1, hm'.2]
        decide
      · split
        · exact ⟨rfl, rfl, id⟩
        · split
          · rename_i ho hn hr
            refine ⟨rfl, rfl, fun hg => ?_⟩
            simp only [Hand.header, Hand.withHeader] at ho hn hr hg ⊢
            rw [Header.ownershipGood_iff] at hg ⊢
            simp only [Header.owner_withReserver, Header.reserver_withReserver,
              Header.handoff_withReserver]
            exact ⟨fun h0 => absurd h0 ho, fun _ => fun h0 => hn h0.symm, hg.2.2.1, hm'.2⟩
          · split <;> exact ⟨rfl, rfl, id⟩
    split
    · exact claim
    · exact claim
    · unfold serveWithdrawal
      split
      · refine ⟨rfl, rfl, fun hg => ?_⟩
        simp only [Hand.header, Hand.withHeader] at hg ⊢
        rw [Header.ownershipGood_iff] at hg ⊢
        rw [Header.owner_withReserver, Header.reserver_withReserver, Header.handoff_withReserver]
        exact ⟨fun h0 => ⟨rfl, (hg.1 h0).2⟩, fun h0 => absurd rfl h0, hg.2.2.1, by decide⟩
      · exact ⟨rfl, rfl, id⟩
  · unfold serveRelease
    split
    · have := Header.passedOn_spec h.header
      exact ⟨rfl, this.2.2.1, this.2.2.2.2⟩
    · exact ⟨rfl, rfl, id⟩

/-- A turn that leaves its entry in the table is that of a CLAIM that is PENDING or RESERVED; the
entry is RESERVED afterwards exactly when the cell in hand then carries this station's
reservation. -/
theorem serveEntry_stays (me : Code5) (a : Arrival) (e : Entry) (h : Hand) (st : EntryState)
    (hm : stationLegal me = true) (hs : (serveEntry me a e h).2 = .stays st) :
    e.request.kind = .claim ∧ (e.state = .pending ∨ e.state = .reserved)
      ∧ (st = .pending ∨ st = .reserved)
      ∧ (st = .reserved ↔ (serveEntry me a e h).1.header.reserver = me) := by
  have hm' : me ≠ noStation ∧ me ≠ badStation := by simpa [stationLegal] using hm
  unfold serveEntry at hs ⊢
  split at hs
  · simp [serveRead] at hs
  · simp [serveHeader] at hs
  · simp [servePeek] at hs
  · unfold serveWrite at hs
    split at hs
    · simp at hs
    · split at hs
      · simp at hs
      · split at hs <;> simp at hs
  · unfold serveVerify at hs
    split at hs
    · simp at hs
    · split at hs <;> simp at hs
  · rename_i hq
    simp only [hq]
    have claim : (serveClaim me h).2 = .stays st → (st = .pending ∨ st = .reserved)
        ∧ (st = .reserved ↔ (serveClaim me h).1.header.reserver = me) := by
      intro hs
      unfold serveClaim at hs ⊢
      split at hs
      · simp at hs
      · split at hs
        · simp at hs
        · rename_i ho hn
          simp only [ho, hn, if_false]
          split at hs
          · rename_i hr
            simp only [Verdict.stays.injEq] at hs
            subst hs
            rw [if_pos hr]
            simp [Hand.header, Hand.withHeader]
          · rename_i hr
            split at hs
            · rename_i hr'
              simp only [Verdict.stays.injEq] at hs
              subst hs
              rw [if_neg hr, if_pos hr']
              simp [hr']
            · rename_i hr'
              simp only [Verdict.stays.injEq] at hs
              subst hs
              rw [if_neg hr, if_neg hr']
              simp [hr']
    split at hs
    · rename_i he
      exact ⟨rfl, Or.inl he, claim hs⟩
    · rename_i he
      exact ⟨rfl, Or.inr he, claim hs⟩
    · simp [serveWithdrawal] at hs
  · unfold serveRelease at hs
    split at hs <;> simp at hs

/-- A turn of a request other than an ownership request keeps the ownership fields. -/
theorem serveEntry_ownership_kept (me : Code5) (a : Arrival) (e : Entry) (h : Hand)
    (hq : e.request.ownershipTarget = none) :
    (serveEntry me a e h).1.header.owner = h.header.owner
      ∧ (serveEntry me a e h).1.header.reserver = h.header.reserver
      ∧ (serveEntry me a e h).1.header.handoff = h.header.handoff := by
  unfold serveEntry
  split
  · exact ⟨rfl, rfl, rfl⟩
  · exact ⟨rfl, rfl, rfl⟩
  · exact ⟨rfl, rfl, rfl⟩
  · unfold serveWrite
    split
    · exact ⟨rfl, rfl, rfl⟩
    · split
      · exact ⟨rfl, rfl, rfl⟩
      · split
        · exact ⟨rfl, rfl, rfl⟩
        · simp [Hand.header, Hand.written]
  · unfold serveVerify
    split
    · exact ⟨rfl, rfl, rfl⟩
    · split <;> exact ⟨rfl, rfl, rfl⟩
  · rename_i he
    simp [he, Request.ownershipTarget] at hq
  · rename_i he
    simp [he, Request.ownershipTarget] at hq

/-! ### The serve window -/

/-- An entry with its state taken away: what no turn changes. -/
def Entry.fixed (e : Entry) : Entry := { e with state := .pending }

/-- The window completes at most as many entries as it has places; every entry is kept or completed;
those kept stay in their order with everything but their state; the cell in hand keeps its kind, its
address and the conditions of R4. -/
theorem serveEntries_spec (me : Code5) (a : Arrival) (rev : Word) (hm : stationLegal me = true)
    (es : List Entry) : ∀ (n : Nat) (h : Hand),
    let r := serveEntries me a rev n es h
    r.records.length ≤ n ∧ r.kept.length + r.records.length = es.length
      ∧ (r.kept.map fun x => x.1.fixed).Sublist (es.map Entry.fixed)
      ∧ r.hand.cell.kind = h.cell.kind ∧ r.hand.header.address = h.header.address
      ∧ (h.header.ownershipGood = true → r.hand.header.ownershipGood = true) := by
  induction es with
  | nil => intro n h; simp [serveEntries]
  | cons e es ih =>
    intro n h
    simp only [serveEntries]
    split
    · cases n with
      | zero =>
        have := ih 0 h
        simp only at this ⊢
        refine ⟨this.1, ?_, ?_, this.2.2.2⟩
        · simp only [List.length_cons]
          omega
        · simp only [List.map_cons]
          exact this.2.2.1.cons_cons _
      | succ n =>
        have hh := serveEntry_hand me a e h hm
        have := ih n (serveEntry me a e h).1
        simp only at this ⊢
        split
        · refine ⟨by dsimp only; omega, ?_, ?_, this.2.2.2.1.trans hh.1, this.2.2.2.2.1.trans hh.2.1,
            fun hg => this.2.2.2.2.2 (hh.2.2 hg)⟩
          · simp only [List.length_cons]
            omega
          · simp only [List.map_cons, Entry.fixed] at this ⊢
            exact this.2.2.1.cons_cons _
        · refine ⟨?_, ?_, ?_, this.2.2.2.1.trans hh.1, this.2.2.2.2.1.trans hh.2.1,
            fun hg => this.2.2.2.2.2 (hh.2.2 hg)⟩
          · simp only [List.length_cons]
            omega
          · simp only [List.length_cons]
            omega
          · simp only [List.map_cons]
            exact this.2.2.1.cons _
    · have := ih n h
      simp only at this ⊢
      refine ⟨this.1, ?_, ?_, this.2.2.2⟩
      · simp only [List.length_cons]
        omega
      · simp only [List.map_cons]
        exact this.2.2.1.cons_cons _

/-- What a passage at position `p` can make of the state of an entry left in the table: what it
was, or for a PENDING or RESERVED entry of that position PENDING, or RESERVED if it is a CLAIM. -/
abbrev Entry.turned (p : Nat) (e : Entry) (st : EntryState) : Prop :=
  st = e.state ∨ (e.position = p ∧ (e.state = .pending ∨ e.state = .reserved)
    ∧ (st = .pending ∨ (st = .reserved ∧ e.request.kind = .claim)))

/-- What a kept entry is: one of the list, its state turned, and unchanged if it was deferred. -/
abbrev KeptFrom (p : Nat) (es : List Entry) (x : Entry × Bool) : Prop :=
  ∃ e ∈ es, x.1 = { e with state := x.1.state } ∧ (x.2 = true → x.1 = e ∧ e.position = p)
    ∧ e.turned p x.1.state

/-- Every entry that the window keeps comes from its list. -/
theorem serveEntries_kept (me : Code5) (a : Arrival) (rev : Word) (hm : stationLegal me = true)
    (es : List Entry) : ∀ (n : Nat) (h : Hand), ∀ x ∈ (serveEntries me a rev n es h).kept,
    KeptFrom a.position es x := by
  induction es with
  | nil => intro n h x hx; simp [serveEntries] at hx
  | cons e es ih =>
    intro n h x hx
    have lift : KeptFrom a.position es x → KeptFrom a.position (e :: es) x :=
      fun ⟨y, hy, h1⟩ => ⟨y, List.mem_cons_of_mem _ hy, h1⟩
    simp only [serveEntries] at hx
    split at hx
    · rename_i hp
      cases n with
      | zero =>
        simp only [List.mem_cons] at hx
        rcases hx with rfl | hx
        · exact ⟨e, List.mem_cons_self, rfl, fun _ => ⟨rfl, hp⟩, Or.inl rfl⟩
        · exact lift (ih _ _ x hx)
      | succ n =>
        simp only at hx
        split at hx
        · rename_i st hs
          simp only [List.mem_cons] at hx
          rcases hx with rfl | hx
          · have := serveEntry_stays me a e h st hm hs
            exact ⟨e, List.mem_cons_self, rfl, by simp, Or.inr ⟨hp, this.2.1,
              this.2.2.1.imp id fun h => ⟨h, this.1⟩⟩⟩
          · exact lift (ih _ _ x hx)
        · exact lift (ih _ _ x hx)
    · simp only [List.mem_cons] at hx
      rcases hx with rfl | hx
      · exact ⟨e, List.mem_cons_self, rfl, by simp, Or.inl rfl⟩
      · exact lift (ih _ _ x hx)

/-- Without a matching entry the window does nothing. -/
theorem serveEntries_none (me : Code5) (a : Arrival) (rev : Word) (n : Nat) (es : List Entry)
    (h : Hand) (hes : ∀ e ∈ es, e.position ≠ a.position) :
    serveEntries me a rev n es h = ⟨h, es.map fun e => (e, false), []⟩ := by
  induction es with
  | nil => rfl
  | cons e es ih =>
    simp only [serveEntries]
    rw [if_neg (hes e List.mem_cons_self), ih fun x hx => hes x (List.mem_cons_of_mem _ hx)]
    rfl

/-- With one matching entry and a place for it the window is that entry's turn. -/
theorem serveEntries_one (me : Code5) (a : Arrival) (rev : Word) (n : Nat)
    (before after : List Entry) (e : Entry) (h : Hand) (he : e.position = a.position)
    (ho : ∀ x ∈ before ++ after, x.position ≠ a.position) :
    serveEntries me a rev (n + 1) (before ++ e :: after) h =
      ⟨(serveEntry me a e h).1,
        before.map (fun x => (x, false)) ++
          ((match (serveEntry me a e h).2 with
            | .stays st => [({ e with state := st }, false)]
            | .ends _ _ _ => []) ++ after.map fun x => (x, false)),
        match (serveEntry me a e h).2 with
          | .stays _ => []
          | .ends result data how => [{ e.completion rev result data with how }]⟩ := by
  induction before with
  | nil =>
    simp only [List.nil_append, serveEntries, List.map_nil]
    rw [if_pos he, serveEntries_none _ _ _ _ after _ fun x hx => ho x (by simp [hx])]
    cases (serveEntry me a e h).2 <;> rfl
  | cons x xs ih =>
    have hx : x.position ≠ a.position := ho x (by simp)
    simp only [List.cons_append, serveEntries]
    rw [if_neg hx, ih fun y hy => ho y (by
      simp only [List.mem_append, List.cons_append, List.mem_cons] at hy ⊢
      tauto)]
    rfl

/-! ### The stages and the passage -/

/-- The watch comparison changes the notices alone. -/
theorem State.watchCompare_eq (s : State) (p : Nat) (c : Cell) :
    ∃ q, s.watchCompare p c = { s with queues := q } ∧ q.completions = s.queues.completions := by
  unfold State.watchCompare
  split
  · exact ⟨s.queues, rfl, rfl⟩
  · split
    · exact ⟨s.queues, rfl, rfl⟩
    · exact ⟨_, rfl, Queues.completions_post _ _⟩

/-- The handoff step changes the table and the queues alone. -/
theorem State.handoffStep_eq (s : State) (a : Arrival) (h : Hand) :
    ∃ tb q, (s.handoffStep a h).1 =
      { s with engine := { s.engine with table := tb }, queues := q } := by
  unfold State.handoffStep
  split
  · dsimp only
    split
    · exact ⟨s.engine.table, _, rfl⟩
    · split <;> exact ⟨_, _, rfl⟩
  · exact ⟨s.engine.table, s.queues, rfl⟩

/-- The service stage changes the table and the completions alone. -/
theorem State.serviceStage_eq (s : State) (a : Arrival) (n : Nat) (h : Hand) :
    ∃ tb q, (s.serviceStage a n h).1 =
      { s with engine := { s.engine with table := tb }, queues := q } :=
  ⟨_, _, rfl⟩

/-- The sweep stage changes the released count alone. -/
theorem State.sweepStage_eq (s : State) (h : Hand) :
    ∃ k, (s.sweepStage h).1 =
      { s with engine := { s.engine with sweep := { s.engine.sweep with released := k } } } := by
  unfold State.sweepStage
  split
  · exact ⟨_, rfl⟩
  · exact ⟨s.engine.sweep.released, rfl⟩

/-- Stale reservation clearing changes the notices alone. -/
theorem State.staleStage_eq (s : State) (a : Arrival) (h : Hand) :
    ∃ q, (s.staleStage a h).1 = { s with queues := q } ∧ q.completions = s.queues.completions := by
  unfold State.staleStage
  split
  · exact ⟨_, rfl, Queues.completions_post _ _⟩
  · exact ⟨s.queues, rfl, rfl⟩

/-- What the watch comparison and the four stages leave as it is. -/
theorem State.stages_eq (s : State) (a : Arrival) :
    ∃ tb k q, (s.stages a).1 =
      { s with
        engine := { s.engine with table := tb, sweep := { s.engine.sweep with released := k } }
        queues := q } := by
  obtain ⟨q1, e1, -⟩ := s.watchCompare_eq a.position a.cell
  obtain ⟨t2, q2, e2⟩ := (s.watchCompare a.position a.cell).handoffStep_eq a ⟨a.cell, false⟩
  simp only [State.stages]
  generalize (s.watchCompare a.position a.cell).handoffStep a ⟨a.cell, false⟩ = r at e2 ⊢
  obtain ⟨t3, q3, e3⟩ := r.1.serviceStage_eq a r.2.2 r.2.1
  generalize r.1.serviceStage a r.2.2 r.2.1 = u at e3 ⊢
  obtain ⟨k, e4⟩ := u.1.sweepStage_eq u.2
  generalize u.1.sweepStage u.2 = v at e4 ⊢
  obtain ⟨q5, e5, -⟩ := v.1.staleStage_eq a v.2
  rw [e5, e4, e3, e2, e1]
  exact ⟨_, _, _, rfl⟩

/-- What a passage does outside the engine's table, its sweep count and the queues: the departing
cell is recorded in the seen table, may refresh the home image, and enters the store. -/
theorem State.passage_eq (s : State) (a : Arrival) :
    ∃ tb k q hm, s.passage a =
      { s with
        line := { s.line with store := storeEnter s.line.store (s.departing a) }
        engine := { s.engine with table := tb, sweep := { s.engine.sweep with released := k } }
        watch := { s.watch with
          seen := recordSeen a.position
            ⟨(s.departing a).header.generation, (s.departing a).header.owner⟩ s.watch.seen }
        home := hm
        queues := q } := by
  obtain ⟨tb, k, q, e⟩ := s.stages_eq a
  simp only [State.passage, State.refreshHome, State.recordDeparture, State.enterCell,
    State.withHomeEntry, e]
  split <;> exact ⟨tb, k, q, _, rfl⟩

/-- The stages and the passage leave the table and the queues alike. -/
theorem State.passage_engine_queues (s : State) (a : Arrival) :
    (s.passage a).engine = (s.stages a).1.engine ∧ (s.passage a).queues = (s.stages a).1.queues := by
  simp only [State.passage, State.refreshHome]
  split <;> exact ⟨rfl, rfl⟩

/-- The departing cell is the cell in hand with its checks: same kind, payload and header fields. -/
theorem State.departing_spec (s : State) (a : Arrival) :
    (s.departing a).kind = (s.stages a).2.cell.kind
      ∧ (s.departing a).payload = (s.stages a).2.cell.payload
      ∧ ((s.departing a).header = (s.stages a).2.cell.header
        ∨ (s.departing a).header = (s.stages a).2.cell.header.sealed) := by
  simp only [State.departing, Hand.departing]
  split
  · exact ⟨rfl, rfl, Or.inr rfl⟩
  · split
    · exact ⟨rfl, rfl, Or.inl rfl⟩
    · exact ⟨rfl, rfl, Or.inr rfl⟩

/-- The sweep stage passes a cell on or leaves it: its kind, its address and the conditions of R4
stand. -/
theorem State.sweepStage_hand (s : State) (h : Hand) :
    (s.sweepStage h).2.cell.kind = h.cell.kind
      ∧ (s.sweepStage h).2.header.address = h.header.address
      ∧ (h.header.ownershipGood = true → (s.sweepStage h).2.header.ownershipGood = true) := by
  unfold State.sweepStage
  split
  · have := Header.passedOn_spec h.header
    exact ⟨rfl, this.2.2.1, this.2.2.2.2⟩
  · exact ⟨rfl, rfl, id⟩

/-- Stale reservation clearing takes a reservation away or leaves the cell: its kind, its address
and the conditions of R4 stand. -/
theorem State.staleStage_hand (s : State) (a : Arrival) (h : Hand) :
    (s.staleStage a h).2.cell.kind = h.cell.kind
      ∧ (s.staleStage a h).2.header.address = h.header.address
      ∧ (h.header.ownershipGood = true → (s.staleStage a h).2.header.ownershipGood = true) := by
  unfold State.staleStage
  split
  · refine ⟨rfl, rfl, fun hg => ?_⟩
    simp only [Hand.header, Hand.withHeader] at hg ⊢
    rw [Header.ownershipGood_iff] at hg ⊢
    rw [Header.owner_withReserver, Header.reserver_withReserver, Header.handoff_withReserver]
    exact ⟨fun h0 => ⟨rfl, (hg.1 h0).2⟩, fun h0 => absurd rfl h0, hg.2.2.1, by decide⟩
  · exact ⟨rfl, rfl, id⟩

/-- The handoff step completes, returns or leaves: the kind of the cell, its address and the
conditions of R4 stand. -/
theorem State.handoffStep_hand (s : State) (a : Arrival) (h : Hand)
    (hm : stationLegal s.port.station = true) :
    (s.handoffStep a h).2.1.cell.kind = h.cell.kind
      ∧ (s.handoffStep a h).2.1.header.address = h.header.address
      ∧ (h.header.ownershipGood = true →
        (s.handoffStep a h).2.1.header.ownershipGood = true) := by
  have hp := Header.passedOn_spec h.header
  have hm' : s.port.station ≠ noStation := by
    simp only [stationLegal, Bool.and_eq_true, bne_iff_ne] at hm
    exact hm.1
  unfold State.handoffStep
  split
  · rename_i hc
    have clear : h.header.ownershipGood = true →
        (h.header.withHandoff false).ownershipGood = true := by
      intro hg
      rw [Header.ownershipGood_iff] at hg ⊢
      simp only [Header.owner_withHandoff, Header.reserver_withHandoff, Header.handoff_withHandoff]
      exact ⟨fun h0 => absurd (hc.1.symm.trans h0) hm', hg.2.1, hg.2.2⟩
    dsimp only
    split
    · exact ⟨rfl, hp.2.2.1, hp.2.2.2.2⟩
    · split
      · exact ⟨rfl, hp.2.2.1, hp.2.2.2.2⟩
      · exact ⟨rfl, rfl, clear⟩
      · exact ⟨rfl, rfl, clear⟩
  · exact ⟨rfl, rfl, id⟩

/-- The departing cell of a passage has the kind and the address of the cell handed on, and keeps
the conditions of R4. -/
theorem State.departing_hand (s : State) (a : Arrival)
    (hm : stationLegal s.port.station = true) :
    (s.departing a).kind = a.cell.kind
      ∧ (s.departing a).header.address = a.cell.header.address
      ∧ (a.cell.header.ownershipGood = true →
        (s.departing a).header.ownershipGood = true) := by
  have hd := s.departing_spec a
  have key : (s.stages a).2.cell.kind = a.cell.kind
      ∧ (s.stages a).2.header.address = a.cell.header.address
      ∧ (a.cell.header.ownershipGood = true → (s.stages a).2.header.ownershipGood = true) := by
    obtain ⟨q1, e1, -⟩ := s.watchCompare_eq a.position a.cell
    have h1 := (s.watchCompare a.position a.cell).handoffStep_hand a ⟨a.cell, false⟩
      (by rw [e1]; exact hm)
    obtain ⟨t2, q2, e2⟩ := (s.watchCompare a.position a.cell).handoffStep_eq a ⟨a.cell, false⟩
    simp only [State.stages]
    generalize (s.watchCompare a.position a.cell).handoffStep a ⟨a.cell, false⟩ = r at e2 h1 ⊢
    have h2 := serveEntries_spec r.1.port.station a r.1.tracker.revolution
      (by rw [e2, e1]; exact hm) r.1.engine.table r.2.2 r.2.1
    have h3 := (r.1.serviceStage a r.2.2 r.2.1).1.sweepStage_hand
      (r.1.serviceStage a r.2.2 r.2.1).2
    have h4 := ((r.1.serviceStage a r.2.2 r.2.1).1.sweepStage
      (r.1.serviceStage a r.2.2 r.2.1).2).1.staleStage_hand a
      ((r.1.serviceStage a r.2.2 r.2.1).1.sweepStage (r.1.serviceStage a r.2.2 r.2.1).2).2
    exact ⟨h4.1.trans (h3.1.trans (h2.2.2.2.1.trans h1.1)),
      h4.2.1.trans (h3.2.1.trans (h2.2.2.2.2.1.trans h1.2.1)),
      fun hg => h4.2.2 (h3.2.2 (h2.2.2.2.2.2 (h1.2.2 hg)))⟩
  refine ⟨hd.1.trans key.1, ?_, fun hg => ?_⟩
  · rcases hd.2.2 with h | h <;> rw [h] <;> exact key.2.1
  · rcases hd.2.2 with h | h <;> rw [h] <;> exact key.2.2 hg

/-! ### The table and the queues at a passage -/

/-- What a passage does to the table and the queues, stage by stage and as a whole: records leave
the table for the end of the completion queue, the entries left keep everything but their state, a
state changes only between PENDING and RESERVED in a CLAIM of this position, and notices are
posted. -/
structure Passed (p : Nat) (tb tb' : List Entry) (q q' : Queues) (n : Nat) : Prop where
  records : ∃ recs, q'.completions = q.completions ++ recs ∧ tb'.length + recs.length = tb.length
    ∧ recs.length ≤ n
  fixed : (tb'.map Entry.fixed).Sublist (tb.map Entry.fixed)
  states : ∀ e' ∈ tb', ∃ e ∈ tb, e' = { e with state := e'.state } ∧ e.turned p e'.state
  posted : q.Posted q'

/-- Nothing changes in the table, and notices alone in the queues. -/
theorem Passed.same (p : Nat) (tb : List Entry) (q q' : Queues)
    (h1 : q'.completions = q.completions) (h2 : q.Posted q') : Passed p tb tb q q' 0 :=
  { records := ⟨[], by simp [h1]⟩
    fixed := List.Sublist.refl _
    states := fun e he => ⟨e, he, rfl, Or.inl rfl⟩
    posted := h2 }

/-- One stage after another. -/
theorem Passed.trans {p : Nat} {tb tb' tb'' : List Entry} {q q' q'' : Queues} {n m : Nat}
    (h : Passed p tb tb' q q' n) (h' : Passed p tb' tb'' q' q'' m) :
    Passed p tb tb'' q q'' (n + m) := by
  refine ⟨?_, h'.fixed.trans h.fixed, ?_, h.posted.trans h'.posted⟩
  · obtain ⟨r, e1, e2, e3⟩ := h.records
    obtain ⟨r', f1, f2, f3⟩ := h'.records
    refine ⟨r ++ r', by rw [f1, e1, List.append_assoc], ?_, ?_⟩ <;> rw [List.length_append] <;> omega
  · intro e' he'
    obtain ⟨f, hf, e1, e2⟩ := h'.states e' he'
    obtain ⟨g, hg, f1, f2⟩ := h.states f hf
    refine ⟨g, hg, ?_, ?_⟩
    · rw [e1, f1]
    · have hr : f.request = g.request := by rw [f1]
      have hp : f.position = g.position := by rw [f1]
      rcases e2 with e2 | ⟨a1, a2, a3⟩
      · rw [e2]
        exact f2
      · rw [hr] at a3
        rw [hp] at a1
        refine Or.inr ⟨a1, ?_, a3⟩
        rcases f2 with f2 | f2
        · rw [← f2]
          exact a2
        · exact f2.2.1

/-- A kept entry, settled, comes from the list with its state turned. -/
theorem settleDeferred_spec (me : Code5) (h : Hand) (p : Nat) (es : List Entry) (x : Entry × Bool)
    (hx : KeptFrom p es x) : ∃ e ∈ es,
    settleDeferred me h x = { e with state := (settleDeferred me h x).state }
      ∧ e.turned p (settleDeferred me h x).state := by
  obtain ⟨e, he, h1, h2, h3⟩ := hx
  refine ⟨e, he, ?_⟩
  unfold settleDeferred
  split
  · rename_i hc
    have hd := h2 hc.1
    refine ⟨by rw [hd.1], Or.inr ⟨hd.2, Or.inr (hd.1 ▸ hc.2.1), Or.inl rfl⟩⟩
  · exact ⟨h1, h3⟩

/-- The watch comparison at the table and the queues. -/
theorem State.watchCompare_passed (s : State) (p : Nat) (c : Cell) :
    Passed p s.engine.table (s.watchCompare p c).engine.table s.queues
      (s.watchCompare p c).queues 0 := by
  unfold State.watchCompare
  split
  · exact Passed.same _ _ _ _ rfl (Queues.Posted.same rfl rfl)
  · split
    · exact Passed.same _ _ _ _ rfl (Queues.Posted.same rfl rfl)
    · exact Passed.same _ _ _ _ (Queues.completions_post _ _)
        ((Queues.Posted.same rfl rfl).post _ rfl rfl rfl)

/-- The handoff step at the table and the queues: the entry it completes gives up one place. -/
theorem State.handoffStep_passed (s : State) (a : Arrival) (h : Hand) :
    ∃ n, n + (s.handoffStep a h).2.2 = Config.servePlaces
      ∧ Passed a.position s.engine.table (s.handoffStep a h).1.engine.table s.queues
        (s.handoffStep a h).1.queues n := by
  have erased : ∀ (e : Entry) (record : Completion),
      s.engine.table.find? (Entry.claimsAt a.position) = some e →
      Passed a.position s.engine.table (s.engine.table.eraseP (Entry.claimsAt a.position)) s.queues
        { s.queues with completions := s.queues.completions ++ [record] } 1 := by
    intro e record he
    have hm : e ∈ s.engine.table := List.mem_of_find?_eq_some he
    have hc : Entry.claimsAt a.position e = true := List.find?_some he
    refine ⟨⟨[record], rfl, ?_, by simp⟩, ?_, ?_, Queues.Posted.same rfl rfl⟩
    · rw [List.length_eraseP_of_mem hm hc]
      have : 0 < s.engine.table.length := List.length_pos_of_mem hm
      simp only [List.length_singleton]
      omega
    · exact List.Sublist.map _ (List.eraseP_sublist)
    · intro e' he'
      exact ⟨e', List.mem_of_mem_eraseP he', rfl, Or.inl rfl⟩
  unfold State.handoffStep
  split
  · dsimp only
    split
    · exact ⟨0, rfl, Passed.same _ _ _ _ (Queues.completions_post _ _)
        ((Queues.Posted.same rfl rfl).post _ rfl rfl rfl)⟩
    · rename_i e he
      split
      · exact ⟨1, rfl, erased e _ he⟩
      · exact ⟨1, rfl, erased e _ he⟩
      · exact ⟨1, rfl, erased e _ he⟩
  · exact ⟨0, rfl, Passed.same _ _ _ _ rfl (Queues.Posted.same rfl rfl)⟩

/-- The service stage at the table and the queues. -/
theorem State.serviceStage_passed (s : State) (a : Arrival) (n : Nat) (h : Hand)
    (hm : stationLegal s.port.station = true) :
    Passed a.position s.engine.table (s.serviceStage a n h).1.engine.table s.queues
      (s.serviceStage a n h).1.queues n := by
  have spec := serveEntries_spec s.port.station a s.tracker.revolution hm s.engine.table n h
  have kept := serveEntries_kept s.port.station a s.tracker.revolution hm s.engine.table n h
  simp only at spec
  refine ⟨⟨_, rfl, ?_, spec.1⟩, ?_, ?_, Queues.Posted.same rfl rfl⟩
  · simp only [State.serviceStage, State.withTable, State.pushRecords, List.length_map]
    exact spec.2.1
  · simp only [State.serviceStage, State.withTable, State.pushRecords, List.map_map]
    have : (Entry.fixed ∘ settleDeferred s.port.station
        (serveEntries s.port.station a s.tracker.revolution n s.engine.table h).hand)
        = fun x => x.1.fixed := by
      funext x
      simp only [Function.comp, settleDeferred]
      split <;> rfl
    rw [this]
    exact spec.2.2.1
  · intro e' he'
    simp only [State.serviceStage, State.withTable, State.pushRecords, List.mem_map] at he'
    obtain ⟨x, hx, rfl⟩ := he'
    exact settleDeferred_spec _ _ _ _ x (kept x hx)

/-- Stale reservation clearing at the table and the queues. -/
theorem State.staleStage_passed (s : State) (a : Arrival) (h : Hand) :
    Passed a.position s.engine.table (s.staleStage a h).1.engine.table s.queues
      (s.staleStage a h).1.queues 0 := by
  unfold State.staleStage
  split
  · exact Passed.same _ _ _ _ (Queues.completions_post _ _)
      ((Queues.Posted.same rfl rfl).post _ rfl rfl rfl)
  · exact Passed.same _ _ _ _ rfl (Queues.Posted.same rfl rfl)

/-- A whole passage at the table and the queues: at most four records. -/
theorem State.passage_passed (s : State) (a : Arrival)
    (hm : stationLegal s.port.station = true) :
    Passed a.position s.engine.table (s.passage a).engine.table s.queues (s.passage a).queues 4 := by
  have ew := s.watchCompare_eq a.position a.cell
  have p1 := s.watchCompare_passed a.position a.cell
  have eh := (s.watchCompare a.position a.cell).handoffStep_eq a ⟨a.cell, false⟩
  have p2 := (s.watchCompare a.position a.cell).handoffStep_passed a ⟨a.cell, false⟩
  rw [(s.passage_engine_queues a).1, (s.passage_engine_queues a).2]
  simp only [State.stages]
  generalize s.watchCompare a.position a.cell = w at ew p1 eh p2 ⊢
  generalize w.handoffStep a ⟨a.cell, false⟩ = r at eh p2 ⊢
  have hr : stationLegal r.1.port.station = true := by
    obtain ⟨q, e, -⟩ := ew
    obtain ⟨tb, q', e'⟩ := eh
    rw [e', e]
    exact hm
  have p3 := r.1.serviceStage_passed a r.2.2 r.2.1 hr
  generalize r.1.serviceStage a r.2.2 r.2.1 = u at p3 ⊢
  obtain ⟨k, e4⟩ := u.1.sweepStage_eq u.2
  generalize u.1.sweepStage u.2 = v at e4 ⊢
  have p5 := v.1.staleStage_passed a v.2
  have t4 : v.1.engine.table = u.1.engine.table := by rw [e4]
  have q4 : v.1.queues = u.1.queues := by rw [e4]
  rw [t4, q4] at p5
  obtain ⟨n, hn, p2⟩ := p2
  have := (((p1.trans p2).trans p3).trans p5)
  rw [show 0 + n + r.2.2 + 0 = 4 by simp only [Config.servePlaces] at hn; omega] at this
  exact this

end Sys2Proof.Machine
end

