-- ==== Sys2Proof/Laws/Formation.lean ====
section
/-! SUPPORT. One lemma for each shared operation of Machine/Formation.lean and
Machine/PositionTracker.lean: the entries into CENSUS, BUILD, RUNNING and EXCLUDED and the MARK
passage as one record update each, what an arrival in RUNNING can do, and what an arrival in any
loop state can do. -/

namespace Sys2Proof.Machine

/-! ### The entries into a loop state -/

/-- Everything that the entry into CENSUS does. -/
theorem State.enterCensus_eq (s : State) (hosted : Byte) (restore : Bool) :
    s.enterCensus hosted restore =
      { s with
        line := if s.loop.holdTimer = Timer.running then s.line else s.line.repeatPlain
        loop := { s.loop.timersStopped with
          state := .census, hosted, restore, attempt := 0, yielded := false, lastAnswered := none
          role := .none, buildMarks := 0, listenTimer := .running }
        queues := s.queues.post
          ⟨.loopState .census s.loop.state none none .none, s.tracker.revolution⟩ } := by
  simp [State.enterCensus, State.changeLoop, State.post, Loop.notice]

/-- Loop control's state on entry into BUILD. -/
def Loop.building (l : Loop) (roster : List RosterEntry) (formation : Byte) (role : Role) : Loop :=
  { l.timersStopped with
    state := .build, role, buildMarks := 0, inserted := false, roster, formation
    buildTimer := .running }

/-- The cells that a station enters into its store on entry into BUILD. -/
def State.buildCells (s : State) (roster : List RosterEntry) (formation : Byte) (role : Role) :
    List Cell :=
  match role with
  | .originator =>
    builtMark formation roster :: (s.hostedCells ++ [builtTail s.port.station formation])
  | .nonOriginator => []
  | .none => []

/-- Everything that the entry into BUILD does. -/
theorem State.enterBuild_eq (s : State) (roster : List RosterEntry) (formation : Byte) (role : Role) :
    s.enterBuild roster formation role =
      { s with
        line := { s.line.repeatPlain with
          store := (s.buildCells roster formation role).foldl storeEnter s.line.store }
        loop := s.loop.building roster formation role
        watch := { s.watch with seen := [] }
        queues := s.queues.post
          ⟨.loopState .build s.loop.state none (some formation) role, s.tracker.revolution⟩ } := by
  cases role <;>
    simp [State.enterBuild, State.changeLoop, State.post, Loop.notice, State.forgetSeen,
      State.enterCells_eq, State.entered, State.buildCells, Loop.building]
  all_goals rfl

/-- Everything that the entry into RUNNING does. -/
theorem State.enterRunning_eq (s : State) :
    s.enterRunning =
      { s with
        line := s.line.repeatPlain
        loop := { s.loop.timersStopped with state := .running, role := .none }
        tracker := { s.tracker with
          activity := .active, damage := 0
          position := if s.loop.role = .originator then s.total else s.tracker.position }
        queues := s.queues.post
          ⟨.loopState .running s.loop.state none (some s.loop.formation) .none,
            s.tracker.revolution⟩ } := by
  simp [State.enterRunning, State.changeLoop, State.post, Loop.notice, Loop.timersStopped]

/-- Everything that the entry into EXCLUDED does. -/
theorem State.enterExcluded_eq (s : State) :
    s.enterExcluded =
      { s with
        line := s.line.repeatPlain
        loop := { s.loop.timersStopped with state := .excluded, lastReason := some .notInRoster }
        queues := s.queues.post
          ⟨.loopState .excluded s.loop.state (some .notInRoster) none .none,
            s.tracker.revolution⟩ } := by
  simp [State.enterExcluded, State.changeLoop, State.post, Loop.notice, Loop.timersStopped]

/-! ### The MARK passage -/

/-- The table after a MARK passage. -/
def markedTable (table : List Entry) : List Entry :=
  ((table.map Entry.markSeen).filter fun e => !e.timesOut).map Entry.limitReached

/-- The records of the requests that a MARK passage times out. -/
def markRecords (table : List Entry) (revolution : Word) : List Completion :=
  ((table.map Entry.markSeen).filter Entry.timesOut).map fun e =>
    e.completion revolution .timeout .none

/-- What a MARK passage does outside the notices and the sweep. -/
theorem State.markPassage_eq (s : State) (mark : Cell) (rewritten : Option Bool) :
    ∃ q damage sweep, s.markPassage mark rewritten =
      { s with
        line := { s.line with store := storeEnter s.line.store mark }
        tracker := { s.tracker.newRevolution with damage }
        engine := { s.engine with table := markedTable s.engine.table, sweep }
        queues := q }
      ∧ q.completions = s.queues.completions
          ++ markRecords s.engine.table (s.tracker.revolution + 1#16)
      ∧ s.queues.Posted q
      ∧ damage ≤ 1
      ∧ (s.engine.sweep.active = false → sweep = s.engine.sweep)
      ∧ (s.engine.sweep.active = true →
        sweep.marks = s.engine.sweep.marks + 1
          ∧ (sweep.active = true ↔ s.engine.sweep.marks + 1 ≠ 2)) := by
  have sweeps : ∀ t : State, ∃ q sweep, t.markSweep =
        { t with engine := { t.engine with sweep }, queues := q }
      ∧ q.completions = t.queues.completions ∧ t.queues.Posted q
      ∧ (t.engine.sweep.active = false → sweep = t.engine.sweep)
      ∧ (t.engine.sweep.active = true →
        sweep.marks = t.engine.sweep.marks + 1
          ∧ (sweep.active = true ↔ t.engine.sweep.marks + 1 ≠ 2)) := by
    intro t
    unfold State.markSweep
    split
    · rename_i ha
      split
      · rename_i hm
        refine ⟨_, _, rfl, Queues.completions_post _ _, (Queues.Posted.same rfl rfl).post _ rfl rfl rfl,
          fun h => absurd (ha.symm.trans h) (by simp), fun _ => ⟨rfl, ?_⟩⟩
        simp [hm]
      · rename_i hm
        refine ⟨t.queues, _, rfl, rfl, Queues.Posted.same rfl rfl,
          fun h => absurd (ha.symm.trans h) (by simp), fun _ => ⟨rfl, ?_⟩⟩
        simp [hm, ha]
    · rename_i ha
      exact ⟨t.queues, t.engine.sweep, rfl, rfl, Queues.Posted.same rfl rfl, fun _ => rfl,
        fun h => absurd h ha⟩
  cases rewritten with
  | none =>
    obtain ⟨q, sweep, e, h1, h2, h3, h4⟩ :=
      sweeps { s with tracker := s.tracker.newRevolution : State }.markTimeouts
    refine ⟨q, 0, sweep, ?_, h1, ?_, by decide, h3, h4⟩
    · simp only [State.markPassage]
      rw [e]
      rfl
    · refine Queues.Posted.trans ?_ h2
      exact Queues.Posted.same rfl rfl
  | some b =>
    obtain ⟨q, sweep, e, h1, h2, h3, h4⟩ :=
      sweeps ({ s with tracker := s.tracker.newRevolution : State }.found .mark 0 b).markTimeouts
    refine ⟨q, 1, sweep, ?_, ?_, ?_, by decide, h3, h4⟩
    · simp only [State.markPassage]
      rw [e]
      rfl
    · rw [h1]
      simp only [State.markTimeouts, State.found, State.post, State.withTable, State.pushRecords,
        Queues.completions_post]
      rfl
    · refine Queues.Posted.trans ?_ h2
      exact (Queues.Posted.same (q' := s.queues) rfl rfl).post
        ⟨.damageFound .mark 0 b 1, s.tracker.revolution + 1#16⟩ rfl rfl rfl

/-! ### What an arrival in RUNNING can do -/

/-- What an examination that finds nothing says of the cell. -/
theorem examine_passed (r : Reception) (x : Address) (h : examine r x = .passed) :
    r.headerGood = true ∧ r.cell.header.address = x ∧ r.cell.header.ownershipGood = true
      ∧ (r.payloadGood = true ∨ r.cell.header.damaged = true) := by
  unfold examine at h
  split at h
  · simp at h
  · split at h
    · simp at h
    · split at h
      · simp at h
      · split at h
        · simp at h
        · simp_all
          cases hp : r.payloadGood <;> simp_all

/-- A cell marked or left by the examination keeps the conditions of R4. -/
theorem examine_marking (r : Reception) (x : Address) (h : examine r x = .marking) :
    r.cell.header.ownershipGood = true := by
  unfold examine at h
  split at h
  · simp at h
  · split at h
    · simp at h
    · split at h
      · simp at h
      · rename_i ho
        simpa using ho

/-- A repaired cell keeps the ownership conditions of R4. -/
theorem ownershipGood_repairedCell (c : Cell) (x : Address) :
    (repairedCell c x).header.ownershipGood = true := by
  simp only [repairedCell, Cell.headerSealed, Header.ownershipGood_sealed]
  rw [Header.ownershipGood_iff]
  have hb : field5 0#8 ≠ badStation := by decide
  have hh : (0x02#8).getLsbD 0 = false := by decide
  exact ⟨fun _ => ⟨rfl, hh⟩, fun h => absurd rfl h, hb, hb⟩

/-- Payload marking keeps the ownership conditions of R4. -/
theorem ownershipGood_markedCell (c : Cell) (h : c.header.ownershipGood = true) :
    (markedCell c).header.ownershipGood = true := by
  simp only [markedCell, Cell.headerSealed, Header.ownershipGood_sealed]
  rw [Header.ownershipGood_iff] at h ⊢
  simpa using h

/-- What an arrival in RUNNING does: a position fault, a MARK passage at position T, a passage of a
data cell that keeps R4, with or without a finding before it, or a damage burst. -/
theorem State.trackArrival_cases {P : State → Prop} (s : State) (r : Reception)
    (fault : ∀ cause position, P (s.positionFault cause position))
    (mark : ∀ c rewritten, ¬s.tracker.position < s.total → c.kind = .mark →
      P (s.markPassage c rewritten))
    (pass : ∀ a : Arrival, s.tracker.position < s.total → a.position = s.tracker.position + 1 →
      a.cell.kind = .data → a.cell.header.ownershipGood = true → P (s.advanced.passage a))
    (found : ∀ (a : Arrival) (f : Finding) (b : Bool), s.tracker.position < s.total →
      a.position = s.tracker.position + 1 → s.tracker.damage + 1 < 8 →
      a.cell.kind = .data → a.cell.header.ownershipGood = true →
      P ((s.advanced.found f (s.tracker.position + 1) b).passage a))
    (burst : ∀ (f : Finding) (b : Bool),
      P ((s.advanced.found f (s.tracker.position + 1) b).enterBroken .damageBurst)) :
    P (s.trackArrival r) := by
  unfold State.trackArrival
  split
  · rename_i hk
    split
    · rename_i hp
      have finds : ∀ (a : Arrival) (f : Finding), a.position = s.tracker.position + 1 →
          a.cell.kind = .data → a.cell.header.ownershipGood = true →
          P ((s.advanced.found f (s.tracker.position + 1) r.payloadGood).handOnFound a) := by
        intro a f ha hd ho
        unfold State.handOnFound
        split
        · exact burst f _
        · rename_i hb
          refine found a f _ hp ha ?_ hd ho
          simp only [State.found, State.post, State.advanced, Config.burstFindings] at hb
          omega
      unfold State.checkData
      dsimp only
      split
      · rename_i he
        exact pass _ hp rfl hk (examine_passed _ _ he).2.2.1
      · exact finds _ _ rfl hk (ownershipGood_repairedCell _ _)
      · rename_i he
        exact finds _ _ rfl hk (ownershipGood_markedCell _ (examine_marking _ _ he))
    · exact fault _ _
  · rename_i hk
    split
    · exact fault _ _
    · rename_i hp
      unfold State.checkMark
      split
      · split
        · exact mark _ _ hp hk
        · exact fault _ _
      · exact mark _ _ hp rfl
  · exact fault _ _
  · exact fault _ _

/-! ### What an arrival can do -/

/-- What a completed cell does, by the loop state: it is discarded or entered; a MARK may be
heard; a census may break, be answered or complete; a MARK may take a station from CENSUS to BUILD
or EXCLUDED; in BUILD a TAIL may be inserted ahead of, a MARK counted, and the TAIL bring RUNNING;
in RUNNING it goes to the tracker. -/
theorem State.arrive_cases {P : State → Prop} (s : State) (r : Reception)
    (keep : P s)
    (enter : ∀ c, (c.kind = .data → c.header.ownershipGood = true) → P (s.enterCell c))
    (hear : ∀ n, P { s with loop := s.loop.hear n })
    (hearEnter : ∀ n c, c.kind = .mark → P ({ s with loop := s.loop.hear n : State }.enterCell c))
    (duplicate : s.loop.state = .census → P (s.enterBroken .duplicateStation))
    (answer : ∀ c, s.loop.state = .census → c.kind = .census → P (s.answerCensus c))
    (complete : ∀ c, s.loop.state = .census → s.line.mode = .repeating →
      c.censusWellFormed = true → P (s.completeCensus c))
    (join : ∀ n c, s.loop.state = .census → s.line.mode = .repeating → c.kind = .mark →
      c.markWellFormed = true →
      P (({ s with loop := s.loop.hear n : State }.enterCell c).enterBuild c.roster n .nonOriginator))
    (exclude : ∀ n c, s.loop.state = .census → s.line.mode = .repeating → c.kind = .mark →
      P ({ s with loop := s.loop.hear n : State }.enterCell c).enterExcluded)
    (insert : ∀ tail, s.loop.state = .build → tail.kind = .tail → P (s.insertAhead tail))
    (count : ∀ l c, s.loop.state = .build → c.kind = .mark → (l = s.loop ∨ ∃ n, l = s.loop.hear n) →
      P ({ s with loop := l : State }.countMark c))
    (run : s.loop.state = .build → P s.enterRunning)
    (track : s.loop.state = .running → P (s.trackArrival r)) :
    P (s.arrive r) := by
  have data : P (s.forwardData r.cell) := by
    unfold State.forwardData
    split
    · rename_i h
      exact enter _ fun _ => h
    · exact keep
  have notData : ∀ c : Cell, c.kind ≠ .data → P (s.enterCell c) :=
    fun c h => enter c fun hd => absurd hd h
  have repeated : P (s.repeatArrival r) := by
    unfold State.repeatArrival
    split
    · exact data
    · rename_i hk
      unfold State.hearMark
      split
      · exact hearEnter _ _ hk
      · exact notData _ (by simp [hk])
    · rename_i hk
      exact notData _ (by simp [hk])
    · rename_i hk
      exact notData _ (by simp [hk])
  have carried : P (s.carryCensus r.cell) := by
    unfold State.carryCensus
    split
    · rename_i hk
      exact notData _ (by simp [hk])
    · exact keep
    · exact keep
    · exact keep
  have heard : P (s.hearMark r) := by
    unfold State.hearMark
    split
    · exact hear _
    · exact keep
  have heardEnter : ∀ c : Cell, c.kind = .mark → P ((s.hearMark r).enterCell c) := by
    intro c hk
    unfold State.hearMark
    split
    · exact hearEnter _ _ hk
    · exact notData _ (by simp [hk])
  have counted : ∀ c : Cell, s.loop.state = .build → c.kind = .mark →
      P ((s.hearMark r).countMark c) := by
    intro c hb hk
    unfold State.hearMark
    split
    · exact count _ _ hb hk (Or.inr ⟨_, rfl⟩)
    · exact count s.loop _ hb hk (Or.inl rfl)
  have nonOriginator : s.loop.state = .build → P (s.nonOriginatorArrival r) := by
    intro hb
    unfold State.nonOriginatorArrival
    split
    · exact data
    · rename_i hk
      dsimp only
      split
      · exact counted _ hb hk
      · exact counted _ hb rfl
      · exact heard
    · exact keep
    · rename_i hk
      split
      · exact insert _ hb hk
      · exact insert _ hb rfl
      · exact keep
  unfold State.arrive
  split
  · rename_i hm
    unfold State.loopArrival
    split
    · exact repeated
    · rename_i hs
      unfold State.censusArrival
      split
      · exact keep
      · rename_i hk
        unfold State.censusMark
        dsimp only
        split
        · rename_i hg
          have hw : r.cell.markWellFormed = true := (Bool.and_eq_true _ _ ▸ hg).2
          have hh : s.hearMark r = { s with loop := s.loop.hear r.cell.header.markFormation } := by
            unfold State.hearMark
            rw [if_pos hg]
          rw [hh]
          split
          · exact join _ _ hs hm hk hw
          · exact exclude _ _ hs hm hk
        · exact notData _ (by simp [hk])
      · rename_i hk
        unfold State.judgeCensus
        dsimp only
        split
        · exact keep
        · rename_i hg
          split
          · split
            · exact keep
            · split
              · exact duplicate hs
              · exact answer _ hs hk
          · split
            · exact keep
            · split
              · exact keep
              · exact complete _ hs hm (not_not.mp hg).2
      · exact keep
    · rename_i hs
      unfold State.buildArrival
      split
      · unfold State.originatorArrival
        split
        · exact data
        · rename_i hk
          dsimp only
          split
          · exact heardEnter _ hk
          · exact heardEnter _ rfl
          · exact heard
        · exact keep
        · split
          · exact run hs
          · exact run hs
          · exact keep
      · exact nonOriginator hs
      · exact nonOriginator hs
    · rename_i hs
      exact track hs
    · exact carried
    · exact repeated
  · exact carried
  · exact carried

end Sys2Proof.Machine
end

