-- ==== Sys2Proof/Laws/Step.lean ====
section
/-! SUPPORT. What a step can do, said once: the two outcomes of taking a host command, and the
rule by which a property is shown to be kept by every command. -/

namespace Sys2Proof.Machine

/-- Every command answers with a next state. -/
theorem exec_next (i : Instr) (s : State) : ∃ t, exec i s = .next t := by
  cases i <;> exact ⟨_, rfl⟩

/-- A step on a nonempty queue is the front command on the rest. -/
theorem step_cons (c : Instr) (rest : List Instr) (s : State) (h : s.pending = c :: rest) :
    step s = exec c { s with pending := rest } := by
  unfold step
  rw [h]

/-- A step on an empty queue is one quiet period. -/
theorem step_nil (s : State) (h : s.pending = []) : step s = .next s.tick := by
  unfold step
  rw [h]

/-- One byte period keeps every field of the port but its transaction and the bytes on SI. -/
theorem Port.bytePeriod_eq (p : Port) :
    ∃ phase command response incoming,
      p.bytePeriod = { p with phase, command, response, incoming } := by
  unfold Port.bytePeriod
  split
  · exact ⟨_, _, _, _, rfl⟩
  · unfold Port.gather
    split
    · exact ⟨_, _, _, _, rfl⟩
    · split
      · exact ⟨_, _, _, _, rfl⟩
      · exact ⟨p.phase, _, p.response, _, rfl⟩
  · exact ⟨p.phase, p.command, _, p.incoming, rfl⟩
  · unfold Port.shiftOut
    split
    · exact ⟨_, _, _, _, rfl⟩
    · split
      · exact ⟨p.phase, p.command, _, p.incoming, rfl⟩
      · split
        · exact ⟨_, _, _, _, rfl⟩
        · exact ⟨_, p.command, _, p.incoming, rfl⟩
  · exact ⟨_, _, _, _, rfl⟩

/-- A quiet period changes the fill symbols owed, which do not rise, and the port's transaction
alone; while RESETN is held it changes nothing. -/
theorem State.tick_eq (s : State) :
    (∃ gap phase command response incoming, gap ≤ s.line.gap ∧
      s.tick = { s with
        line := { s.line with gap }
        port := { s.port with phase, command, response, incoming } })
    ∧ (s.resetHeld = true → s.tick = s) := by
  unfold State.tick
  by_cases h : s.resetHeld = true
  · rw [if_pos h]
    exact ⟨⟨_, _, _, _, _, le_refl _, rfl⟩, fun _ => rfl⟩
  · rw [if_neg h]
    obtain ⟨phase, command, response, incoming, e⟩ := s.port.bytePeriod_eq
    refine ⟨⟨_, phase, command, response, incoming, Nat.sub_le _ 1, ?_⟩, fun e => absurd e h⟩
    rw [e]
    rfl

/-- A host command is taken in RECEIVING with its effect and its response, and ignored otherwise. -/
theorem State.takeCommand_cases (s : State) (k : HostCommand) (fields : List Byte)
    (effect : State → State × List Byte) :
    (s.receiving = true ∧ s.takeCommand k fields effect =
        { (effect s).1 with
          port := { (effect s).1.port with
            phase := .responding
            command := some ⟨k.code, fields ++ [checkByte (k.code :: fields)]⟩
            response := some ⟨(effect s).2, 0⟩ } })
      ∨ (s.receiving = false ∧ s.takeCommand k fields effect = s) := by
  unfold State.takeCommand
  cases h : s.receiving with
  | true => exact Or.inl ⟨rfl, rfl⟩
  | false => exact Or.inr ⟨rfl, rfl⟩

/-- An admitted SUBMIT has passed the seven checks. -/
theorem State.judgeSubmit_admitted (s : State) (f : SubmitFrame) (q : Request) (p : Nat)
    (h : s.judgeSubmit f = .admitted q p) :
    s.loop.state = .running ∧ s.engine.sweep.active = false ∧ submitRequest f = some q
      ∧ f.limit ≠ 0 ∧ submitBadFields f q = false
      ∧ (s.engine.table.any fun e => e.tag == f.tag) = false
      ∧ q.targetPosition s.loop.roster = some p ∧ ownershipBusy s.engine.table q = false
      ∧ s.engine.table.length < 16 ∧ s.commitment < 24 := by
  unfold State.judgeSubmit at h
  split at h
  · simp at h
  · rename_i h1
    split at h
    · simp at h
    · rename_i h2
      split at h
      · simp at h
      · rename_i q' h3
        split at h
        · simp at h
        · rename_i h4
          split at h
          · simp at h
          · rename_i h5
            split at h
            · simp at h
            · rename_i p' h6
              split at h
              · simp at h
              · rename_i h7
                split at h
                · simp at h
                · rename_i h8
                  simp only [Submission.admitted.injEq] at h
                  obtain ⟨rfl, rfl⟩ := h
                  simp only [Config.tableCapacity, Config.maxCommitment, not_or, not_le] at h4 h8
                  simp only [ne_eq, not_not] at h1
                  exact ⟨h1, by simpa using h2, h3, h4.1, by simpa using h4.2, by simpa using h5, h6,
                    by simpa using h7, h8.1, h8.2⟩

/-- An accepted START has passed the four checks. -/
theorem State.startRefusal_none (s : State) (n : Nat) (h : s.startRefusal n = none) :
    stationLegal s.port.station = true ∧ n ≤ 32
      ∧ (s.loop.state = .offline ∨ s.loop.state = .broken) := by
  unfold State.startRefusal at h
  split at h
  · simp at h
  · rename_i h1
    split at h
    · simp at h
    · rename_i h2
      simp only [Config.maxHosted, not_lt] at h2
      refine ⟨by simpa using h1, h2, ?_⟩
      split at h
      · simp at h
      · simp at h
      · simp at h
      · simp at h
      · rename_i hs
        exact Or.inl hs
      · rename_i hs
        exact Or.inr hs

/-- The arrival of a DATA cell that the tracker accepts is the passage of the cell handed on, from
the station with its finding posted and counted; that cell is a DATA cell that keeps R4, and the
finding changes the queues and the damage count alone. -/
theorem State.accepts_passage (s : State) (r : Reception) (u : State) (repaired : Repaired) (c : Cell)
    (h : s.accepts r u repaired c) :
    exec (.cellArrival r) s =
        .next (u.delivered.advanced.passage ⟨s.tracker.position + 1, r, repaired, c⟩)
      ∧ c.kind = .data ∧ c.header.ownershipGood = true
      ∧ u = { s with queues := u.queues, tracker := { s.tracker with damage := u.tracker.damage } }
      ∧ u.queues.completions = s.queues.completions := by
  obtain ⟨⟨hr, hm, hs⟩, hk, hp, -, hd, he⟩ := h
  have ha : exec (.cellArrival r) s = .next (s.delivered.checkData r) := by
    have hm' : s.delivered.line.mode = .repeating := hm
    have hs' : s.delivered.loop.state = .running := hs
    have hp' : s.delivered.tracker.position < s.delivered.total := hp
    show Host.Outcome.next (if s.resetHeld then s else s.delivered.arrive r) = _
    rw [hr]
    simp only [Bool.false_eq_true, if_false, State.arrive, hm', State.loopArrival, hs',
      State.trackArrival, hk, hp', if_true]
  rw [ha]
  have on : ∀ (f : Finding) (a : Arrival), s.tracker.damage < 7 →
      (s.delivered.advanced.found f (s.tracker.position + 1) r.payloadGood).handOnFound a
        = (s.withFinding r f).delivered.advanced.passage a := by
    intro f a hf
    have hb : ¬Config.burstFindings ≤
        (s.delivered.advanced.found f (s.tracker.position + 1) r.payloadGood).tracker.damage := by
      show ¬8 ≤ s.tracker.damage + 1
      omega
    rw [State.handOnFound, if_neg hb]
    rfl
  unfold State.examined at he
  unfold State.checkData
  dsimp only at he ⊢
  split at he
  · rename_i hex
    simp only [Prod.mk.injEq] at he
    obtain ⟨rfl, rfl, rfl⟩ := he
    refine ⟨congrArg _ ?_, hk, (examine_passed _ _ hex).2.2.1, rfl, rfl⟩
    have hex' : examine r (expectedAddress s.delivered.loop.roster
        (s.delivered.tracker.position + 1)) = .passed := hex
    rw [hex']
    rfl
  · rename_i cause hex
    simp only [hex, reduceCtorEq, false_or] at hd
    simp only [Prod.mk.injEq] at he
    obtain ⟨rfl, rfl, rfl⟩ := he
    refine ⟨congrArg _ ?_, hk, ownershipGood_repairedCell _ _, rfl, Queues.completions_post _ _⟩
    have hex' : examine r (expectedAddress s.delivered.loop.roster
        (s.delivered.tracker.position + 1)) = .repair cause := hex
    rw [hex']
    exact on _ _ hd
  · rename_i hex
    simp only [hex, reduceCtorEq, false_or] at hd
    simp only [Prod.mk.injEq] at he
    obtain ⟨rfl, rfl, rfl⟩ := he
    refine ⟨congrArg _ ?_, hk, ownershipGood_markedCell _ (examine_marking _ _ hex), rfl,
      Queues.completions_post _ _⟩
    have hex' : examine r (expectedAddress s.delivered.loop.roster
        (s.delivered.tracker.position + 1)) = .marking := hex
    rw [hex']
    exact on _ _ hd

/-- A property that does not look at the receiver, the signal, the host port's transaction or the
queue of commands is kept by every command if it is kept by an arrival, an entry into BROKEN, a
transmitted cell, the release, each timer's action and the effect of each command of the host, and
holds of the station in reset. -/
theorem exec_keeps {P : State → Prop}
    (line : ∀ (s : State) (l : Line), l.store = s.line.store → l.mode = s.line.mode →
      l.fillFollowing = s.line.fillFollowing → l.gap ≤ s.line.gap → P s → P { s with line := l })
    (port : ∀ (s : State) (p : Port), p.station = s.port.station → P s → P { s with port := p })
    (reset : ∀ (s : State) (b : Bool), P s →
      P { State.reset with port := { Port.reset with csnLow := b }, pending := s.pending })
    (release : ∀ (s : State) (x : Code5), P s → s.resetHeld = true →
      P { s with resetHeld := false, port := { s.port with station := x } })
    (arrive : ∀ (s : State) (r : Reception), P s → s.resetHeld = false → P (s.arrive r))
    (broken : ∀ (s : State) (reason : Reason), P s → s.loop.state ≠ .offline →
      P (s.enterBroken reason))
    (transmitted : ∀ s : State, P s → P { s with line := s.line.sent })
    (listened : ∀ s : State, P s → s.loop.listenTimer = .running → s.loop.state = .census →
      s.loop.yielded = true → P { s with loop := { s.loop with listenTimer := .stopped } })
    (originates : ∀ s : State, P s → s.loop.state = .census → s.loop.yielded = false →
      s.loop.listenTimer = .running →
      P { s with loop := { s.loop with listenTimer := .stopped } : State }.originate)
    (again : ∀ s : State, P s → s.loop.state = .census → s.loop.yielded = false →
      s.loop.censusTimer = .running → s.loop.attempt < 16 → P s.originate)
    (held : ∀ s : State, P s → s.loop.holdTimer = .running →
      P { s with
        loop := { s.loop with holdTimer := .stopped }
        line :=
          match s.loop.state with
          | .broken => { s.line with mode := .censusOnly }
          | .census => s.line.repeatPlain
          | .offline => s.line
          | .build => s.line
          | .running => s.line
          | .excluded => s.line })
    (start : ∀ (s : State) (h : Byte) (b : Bool), P s → h.toNat ≤ 32 →
      stationLegal s.port.station = true → s.loop.state = .offline ∨ s.loop.state = .broken →
      P (s.enterCensus h b))
    (submit : ∀ (s : State) (f : SubmitFrame) (q : Request) (p : Nat), P s →
      s.judgeSubmit f = .admitted q p → P (s.addEntry (s.newEntry f q p)))
    (abort : ∀ (s : State) (tag : Byte), P s → P (abortEffect tag s).1)
    (watch : ∀ (s : State) (n : Nat) (w : WatchEntry), P s → P (s.withWatchEntry n w))
    (load : ∀ (s : State) (n : Nat) (e : HomeEntry), P s → P (s.withHomeEntry n e))
    (hostReset : ∀ (s : State) (b : Byte), P s → P (resetEffect b s).1)
    (taken : ∀ s : State, P s →
      P { s with queues := { s.queues with completions := s.queues.completions.tail } })
    (noted : ∀ s : State, P s →
      P { s with queues := s.queues.removeNotice s.tracker.revolution })
    (i : Instr) (s : State) (h : P s) : ∀ t, exec i s = .next t → P t := by
  have got : ∀ {u t : State}, P u →
      (.next u : Host.Outcome State Fault Refusal) = .next t → P t := by
    intro u t hu e
    injection e with e
    exact e ▸ hu
  have take : ∀ (k : HostCommand) (fields : List Byte) (effect : State → State × List Byte),
      P (effect s).1 → ∀ t, (.next (s.takeCommand k fields effect) : Host.Outcome State Fault Refusal)
        = .next t → P t := by
    intro k fields effect he t ht
    refine got ?_ ht
    rcases s.takeCommand_cases k fields effect with ⟨-, e⟩ | ⟨-, e⟩
    · rw [e]
      exact port _ _ rfl he
    · rw [e]
      exact h
  have report : ∀ (u : State) (reason : Reason), P u → P (u.breakReport reason) := by
    intro u reason hu
    rcases u.breakReport_cases reason with ⟨e, hs⟩ | ⟨e, -⟩
    · rw [e]
      refine broken u reason hu ?_
      rcases hs with hs | hs | hs <;> simp [hs]
    · rw [e]
      exact hu
  have symbol : ∀ x : Symbol, s.resetHeld = false → P (s.receiveSymbol x) := by
    intro x hr
    have hunted : ∀ l : Line, l.store = s.line.store → l.mode = s.line.mode →
        l.fillFollowing = s.line.fillFollowing → l.gap ≤ s.line.gap →
        P ({ s with line := (l.hunt x).1 : State }.takeReport (l.hunt x).2) := by
      intro l h1 h2 h3 h4
      cases x with
      | breakFill =>
        simp only [Line.hunt]
        split
        · exact report _ _ (line s _ h1 h2 h3 h4 h)
        · exact line s _ h1 h2 h3 h4 h
      | data b => exact line s _ h1 h2 h3 h4 h
      | startDelimiter k => exact line s _ h1 h2 h3 h4 h
      | endDelimiter => exact line s _ h1 h2 h3 h4 h
      | idle => exact line s _ h1 h2 h3 h4 h
      | invalid => exact line s _ h1 h2 h3 h4 h
    unfold State.receiveSymbol Line.receive
    split
    · exact hunted s.line rfl rfl rfl (le_refl _)
    · unfold Line.inside
      split
      · split
        · exact line s _ rfl rfl rfl (le_refl _) h
        · exact line s _ rfl rfl rfl (le_refl _) h
        · exact hunted s.line.dropCell rfl rfl rfl (le_refl _)
        · exact hunted s.line.dropCell rfl rfl rfl (le_refl _)
        · exact hunted s.line.dropCell rfl rfl rfl (le_refl _)
        · exact hunted s.line.dropCell rfl rfl rfl (le_refl _)
      · split
        · exact arrive _ _ (line s _ rfl rfl rfl (le_refl _) h) hr
        · exact hunted s.line.dropCell rfl rfl rfl (le_refl _)
        · exact hunted s.line.dropCell rfl rfl rfl (le_refl _)
        · exact hunted s.line.dropCell rfl rfl rfl (le_refl _)
        · exact hunted s.line.dropCell rfl rfl rfl (le_refl _)
        · exact hunted s.line.dropCell rfl rfl rfl (le_refl _)
  have lineOnly : ∀ l : Line, l.store = s.line.store → l.mode = s.line.mode →
      l.fillFollowing = s.line.fillFollowing → l.gap ≤ s.line.gap → P { s with line := l } :=
    fun l h1 h2 h3 h4 => line s l h1 h2 h3 h4 h
  have portOnly : ∀ p : Port, p.station = s.port.station → P { s with port := p } :=
    fun p hp => port s p hp h
  intro t ht
  cases i with
  | start a b =>
    refine take _ _ _ ?_ t ht
    unfold startEffect
    split
    · exact h
    · rename_i hn
      have := s.startRefusal_none _ hn
      exact start s _ _ h this.2.1 this.1 this.2.2
  | submit f =>
    have ht' : (.next (if f.framed then s.takeCommand .submit f.fields (submitEffect f) else s) :
        Host.Outcome State Fault Refusal) = .next t := ht
    split at ht'
    · refine take _ _ _ ?_ t ht'
      unfold submitEffect
      split
      · exact h
      · rename_i hj
        exact submit s f _ _ h hj
    · exact got h ht'
  | abort tag => exact take _ _ _ (abort s tag h) t ht
  | take =>
    refine take _ _ _ ?_ t ht
    unfold takeEffect
    split <;> exact h
  | note =>
    refine take _ _ _ ?_ t ht
    unfold noteEffect
    split <;> exact h
  | watchSet f =>
    refine take _ _ _ ?_ t ht
    unfold watchSetEffect
    split
    · exact h
    · split
      · exact h
      · exact watch s _ _ h
  | watchClear n =>
    refine take _ _ _ ?_ t ht
    unfold watchClearEffect
    dsimp only
    split
    · exact h
    · exact watch s _ _ h
  | homeLoad a b c =>
    refine take _ _ _ ?_ t ht
    unfold homeLoadEffect
    dsimp only
    split
    · exact h
    · exact load s _ _ h
  | homeRead a =>
    refine take _ _ _ ?_ t ht
    unfold homeReadEffect
    dsimp only
    split <;> exact h
  | status => exact take _ _ _ h t ht
  | roster => exact take _ _ _ h t ht
  | reset b => exact take _ _ _ (hostReset s b h) t ht
  | stationReset => exact got (reset s _ h) ht
  | stationResetRelease x =>
    refine got (u := if s.resetHeld then _ else s) ?_ ht
    split
    · rename_i hr
      exact line { s with resetHeld := false, port := { s.port with station := x } }
        { s.line with interval := .running } rfl rfl rfl (le_refl _) (release s x h hr)
    · exact h
  | cellArrival r =>
    refine got (u := if s.resetHeld then s else _) ?_ ht
    split
    · exact h
    · rename_i hr
      exact arrive _ r (lineOnly _ rfl rfl rfl (le_refl _)) (by simpa using hr)
  | breakFillReceived =>
    refine got (u := if s.resetHeld = true ∨ Config.breakRun ≤ s.line.breakCount then s else _) ?_ ht
    split
    · exact h
    · exact report _ _ (lineOnly _ rfl rfl rfl (le_refl _))
  | signalLoss =>
    refine got (u := if s.resetHeld = true ∨ s.line.signal = .lost then s else _) ?_ ht
    split
    · exact h
    · exact report _ _ (lineOnly _ rfl rfl rfl (le_refl _))
  | signalReturn x =>
    refine got (u := if s.resetHeld = false ∧ s.line.signal = .lost ∧ x.valid = true then _ else s)
      ?_ ht
    split
    · rename_i hc
      exact symbol x hc.1
    · exact h
  | cellTransmitted =>
    refine got (u := if s.resetHeld = true ∨ s.line.mode = .breakHold then s else _) ?_ ht
    split
    · exact h
    · exact transmitted s h
  | listenTimerExpiry =>
    refine got (u := if s.loop.listenTimer = .running ∧ s.loop.state = .census then _ else s) ?_ ht
    split
    · rename_i hc
      dsimp only
      split
      · rename_i hy
        exact listened s h hc.1 hc.2 hy
      · rename_i hy
        exact originates s h hc.2 (by simpa using hy) hc.1
    · exact h
  | censusTimerExpiry =>
    refine got (u := if s.loop.censusTimer = .running ∧ s.loop.state = .census
      ∧ s.loop.yielded = false then _ else s) ?_ ht
    split
    · rename_i hc
      split
      · rename_i ha
        exact again s h hc.2.1 hc.2.2 hc.1 ha
      · exact broken s _ h (by simp [hc.2.1])
    · exact h
  | yieldWaitExpiry =>
    refine got (u := if s.loop.yieldTimer = .running ∧ s.loop.state = .census then _ else s) ?_ ht
    split
    · rename_i hc
      exact broken s _ h (by simp [hc.2])
    · exact h
  | buildLimitExpiry =>
    refine got (u := if s.loop.buildTimer = .running ∧ s.loop.state = .build then _ else s) ?_ ht
    split
    · rename_i hc
      exact broken s _ h (by simp [hc.2])
    · exact h
  | breakHoldExpiry =>
    refine got (u := if s.loop.holdTimer = .running then _ else s) ?_ ht
    split
    · rename_i hc
      exact held s h hc
    · exact h
  | csnFall =>
    refine got (u := if s.port.csnLow then s else if s.resetHeld then _ else _) ?_ ht
    split
    · exact h
    · split
      · exact portOnly _ rfl
      · exact portOnly _ rfl
  | csnRise bytes =>
    refine got ?_ ht
    refine portOnly _ ?_
    rfl
  | badCheck frame =>
    refine got (u := if s.receiving = true ∧ frameComplete frame = true ∧ byteSum frame ≠ 0#8 then _
      else s) ?_ ht
    split
    · exact portOnly _ rfl
    · exact h
  | unknownCommand code =>
    refine got (u := if s.receiving = true ∧ HostCommand.ofCode code = none then _ else s) ?_ ht
    split
    · exact portOnly _ rfl
    · exact h
  | takeFinalByte =>
    refine got (u := if s.responding .take then _ else s) ?_ ht
    split
    · split
      · refine port { s with queues := _ } s.port.spent ?_ (taken s h)
        rfl
      · exact portOnly _ rfl
    · exact h
  | noteFinalByte =>
    refine got (u := if s.responding .note then _ else s) ?_ ht
    split
    · split
      · refine port { s with queues := _ } s.port.spent ?_ (noted s h)
        rfl
      · exact portOnly _ rfl
    · exact h
  | statusFinalByte =>
    refine got (u := if s.responding .status then _ else s) ?_ ht
    split
    · split
      · exact portOnly _ rfl
      · exact portOnly _ rfl
    · exact h
  | symbolReceived x =>
    refine got (u := if s.resetHeld then s else _) ?_ ht
    split
    · exact h
    · rename_i hr
      exact symbol x (by simpa using hr)

/-- A property that no command breaks, and that looks neither at the queue of commands nor at what a
quiet period changes, is kept by every step. -/
theorem step_keeps {P : State → Prop}
    (queue : ∀ (s : State) (rest : List Instr), P s → P { s with pending := rest })
    (line : ∀ (s : State) (l : Line), l.store = s.line.store → l.mode = s.line.mode →
      l.fillFollowing = s.line.fillFollowing → l.gap ≤ s.line.gap → P s → P { s with line := l })
    (port : ∀ (s : State) (p : Port), p.station = s.port.station → P s → P { s with port := p })
    (command : ∀ (i : Instr) (s : State), P s → ∀ t, exec i s = .next t → P t)
    (s t : State) (h : P s) (e : step s = .next t) : P t := by
  cases hp : s.pending with
  | cons c rest =>
    rw [step_cons c rest s hp] at e
    exact command c _ (queue s rest h) t e
  | nil =>
    rw [step_nil s hp] at e
    injection e with e
    obtain ⟨⟨gap, phase, command, response, incoming, hg, ht⟩, -⟩ := s.tick_eq
    rw [← e, ht]
    exact port { s with line := { s.line with gap } } { s.port with phase, command, response, incoming }
      rfl (line s { s.line with gap } rfl rfl rfl hg h)

end Sys2Proof.Machine
end

