-- ==== Sys2Proof/Laws/Passage.lean ====
section
/-! SUPPORT. What a passage does, said once: what each stage leaves where it finds nothing to do,
the turns of the serve window, the watch notice, and what the passage hands on. -/

namespace Sys2Proof.Machine

/-! ### The cell in hand as it departs (R85) -/

/-- A cell in hand that nothing changed departs as it arrived. -/
theorem Hand.departing_unchanged (c : Cell) : (⟨c, false⟩ : Hand).departing c = c := by
  simp [Hand.departing]

/-- A cell in hand whose header alone was changed departs with its header check afresh. -/
theorem Hand.departing_changed (c : Cell) (h : Header) (hn : h ≠ c.header) :
    (⟨{ c with header := h }, false⟩ : Hand).departing c = { c with header := h.sealed } := by
  simp [Hand.departing, hn, Cell.headerSealed]

/-! ### The stages that find nothing to do (R84) -/

/-- The handoff step leaves a cell that is not handed over to this station. -/
theorem State.handoffStep_of_not (s : State) (a : Arrival) (h : Hand)
    (hn : ¬(h.header.owner = s.port.station ∧ h.header.handoff = true)) :
    s.handoffStep a h = (s, h, 4) := by
  simp only [State.handoffStep]
  rw [if_neg hn]

/-- An entry that was not deferred is kept as it is. -/
theorem settleDeferred_false (me : Code5) (h : Hand) (l : List Entry) :
    (l.map (·, false)).map (settleDeferred me h) = l := by
  rw [List.map_map]
  conv_rhs => rw [← List.map_id l]
  apply List.map_congr_left
  intro x _
  simp [settleDeferred]

/-- The service stage does nothing without a matching entry. -/
theorem State.serviceStage_of_none (s : State) (a : Arrival) (n : Nat) (h : Hand)
    (hs : ∀ e ∈ s.engine.table, e.position ≠ a.position) : s.serviceStage a n h = (s, h) := by
  simp only [State.serviceStage]
  rw [serveEntries_none _ _ _ _ _ _ hs]
  simp only [State.withTable, State.pushRecords, settleDeferred_false, List.append_nil]

/-- The sweep stage does nothing without a sweep, or on a cell of another owner. -/
theorem State.sweepStage_of_not (s : State) (h : Hand)
    (hn : s.engine.sweep.active = false ∨ h.header.owner ≠ s.port.station) :
    s.sweepStage h = (s, h) := by
  simp only [State.sweepStage]
  rw [if_neg]
  rintro ⟨h1, h2⟩
  rcases hn with hn | hn
  · rw [h1] at hn
    cases hn
  · exact hn h2

/-- Stale reservation clearing leaves a cell that carries no reservation of this station's, or one
that a RESERVED CLAIM holds. -/
theorem State.staleStage_of_not (s : State) (a : Arrival) (h : Hand)
    (hn : h.header.reserver ≠ s.port.station
      ∨ (s.engine.table.any fun e => e.claimsAt a.position && e.state == .reserved) = true) :
    s.staleStage a h = (s, h) := by
  simp only [State.staleStage]
  rw [if_neg]
  rintro ⟨h1, h2⟩
  rcases hn with hn | hn
  · exact hn h1
  · rw [hn] at h2
    cases h2

/-! ### The serve window by its turns (R88, R90) -/

/-- Entries of other positions are passed over. -/
theorem serveEntries_skip (me : Code5) (a : Arrival) (rev : Word) (n : Nat) (l l' : List Entry)
    (h : Hand) (hl : ∀ x ∈ l, x.position ≠ a.position) :
    serveEntries me a rev n (l ++ l') h =
      { serveEntries me a rev n l' h with
        kept := l.map (·, false) ++ (serveEntries me a rev n l' h).kept } := by
  induction l with
  | nil => rfl
  | cons x xs ih =>
    have h0 := hl x (by simp)
    have := ih (fun y hy => hl y (by simp [hy]))
    cases n <;> simp [serveEntries, h0, this]

/-- The window takes up the first matching entries by their turns, in list order, and defers the
later ones. -/
theorem serveEntries_turns (me : Code5) (a : Arrival) (rev : Word) (es : List Entry) (n : Nat)
    (h : Hand) :
    let here := es.filter fun e => e.position == a.position
    let turns := serveTurns me a (here.take n) h
    let r := serveEntries me a rev n es h
    r.hand = turns.2 ∧ r.records = turns.1.filterMap (turnRecord rev)
      ∧ r.kept.filter (fun x => x.1.position == a.position)
        = (turns.1.filterMap turnKept).map (·, false) ++ (here.drop n).map (·, true) := by
  induction es generalizing n h with
  | nil => simp [serveEntries, serveTurns]
  | cons e es ih =>
    dsimp only at ih ⊢
    by_cases hp : e.position = a.position
    · have hf : (e :: es).filter (fun e => e.position == a.position)
          = e :: es.filter (fun e => e.position == a.position) := by
        simp [hp]
      rw [hf]
      cases n with
      | zero =>
        obtain ⟨h1, h2, h3⟩ := ih 0 h
        simp only [List.take_zero, List.drop_zero, serveTurns, List.filterMap_nil, List.map_nil,
          List.nil_append] at h1 h2 h3 ⊢
        simp [serveEntries, hp, h1, h2, h3]
      | succ n =>
        obtain ⟨h1, h2, h3⟩ := ih n (serveEntry me a e h).1
        cases hv : (serveEntry me a e h).2 <;>
          simp [serveEntries, serveTurns, List.filterMap_cons, turnRecord, turnKept, hp, hv, h1, h2,
            h3]
    · have hf : (e :: es).filter (fun e => e.position == a.position)
          = es.filter (fun e => e.position == a.position) := by
        simp [hp]
      rw [hf]
      obtain ⟨h1, h2, h3⟩ := ih n h
      cases n <;> simp_all [serveEntries]

/-! ### The notices of a passage (R128, R129, R148) -/

/-- Posting one list of notices after another. -/
theorem State.posting_append (s : State) (l l' : List NoticeBody) :
    s.posting (l ++ l') =
      l'.foldl (fun q b => q.post ⟨b, s.tracker.revolution⟩) (s.posting l) := by
  simp [State.posting]

/-- Posting notices leaves the completion queue. -/
@[simp] theorem State.completions_posting (s : State) (l : List NoticeBody) :
    (s.posting l).completions = s.queues.completions := by
  unfold State.posting
  generalize s.queues = q
  induction l generalizing q with
  | nil => rfl
  | cons b l ih => simp [ih]

/-- Posting notices with no record pushed. -/
@[simp] theorem State.posting_no_records (s : State) (l : List NoticeBody) :
    ({ s.posting l with completions := s.queues.completions } : Queues) = s.posting l := by
  rw [← s.completions_posting l]

/-- Matching bit by bit is equality of the bits cared for. -/
theorem WatchEntry.covers_eq (w : WatchEntry) (a : Address) :
    w.covers a = (w.enabled
      && (a.station &&& w.stationCare) == (w.value.station &&& w.stationCare)
      && (a.index &&& w.indexCare) == (w.value.index &&& w.indexCare)) := by
  have h : ∀ x y m : Code5, ((x ^^^ y) &&& m == 0#5) = ((x &&& m) == (y &&& m)) := by
    decide +kernel
  simp [WatchEntry.covers, h]

/-- The comparison of an arriving cell posts its watch notice. -/
theorem State.watchCompare_notice (s : State) (c : Cell) :
    s.watchCompare (s.tracker.position + 1) c =
      { s with queues := s.posting (s.watchNotice c).toList } := by
  have hf : ∀ (w : WatchEntry) (g o : Bool),
      (w.covers c.header.address && w.trigger.firesOn g o)
        = (w.enabled
          && (c.header.address.station &&& w.stationCare) == (w.value.station &&& w.stationCare)
          && (c.header.address.index &&& w.indexCare) == (w.value.index &&& w.indexCare)
          && match w.trigger with
            | .change => g
            | .owner => o
            | .both => g || o) := by
    intro w g o
    rw [w.covers_eq]
    rfl
  have hg : ∀ t : Trigger, t.onGeneration = (t != .owner) := by
    intro t
    cases t <;> rfl
  cases ho : seenAt s.watch.seen (s.tracker.position + 1) with
  | none => simp [State.watchCompare, State.watchNotice, State.posting, ho]
  | some old =>
    simp only [State.watchCompare, State.watchNotice, ho, watchReport, hf, hg, Option.bind_some]
    split
    · rename_i hn
      split at hn
      · cases hn
      · rename_i hc
        erw [if_neg hc]
        rfl
    · rename_i hn
      split at hn
      · rename_i hc
        injection hn with hn
        subst hn
        erw [if_pos hc]
        rfl
      · cases hn

/-- The same at the position that the arrival takes. -/
theorem State.watchCompare_advanced (u : State) (c : Cell) :
    u.delivered.advanced.watchCompare (u.tracker.position + 1) c =
      { u.delivered.advanced with queues := u.posting (u.watchNotice c).toList } := by
  have h := congrArg State.queues (u.watchCompare_notice c)
  have hq : (u.delivered.advanced.watchCompare (u.tracker.position + 1) c).queues
      = (u.watchCompare (u.tracker.position + 1) c).queues := by
    have hw : u.delivered.advanced.watch = u.watch := rfl
    simp only [State.watchCompare, hw]
    split
    · rfl
    · split <;> rfl
  obtain ⟨q, e, -⟩ :=
    u.delivered.advanced.watchCompare_eq (u.tracker.position + 1) c
  rw [e] at hq
  have hq' : q = u.posting (u.watchNotice c).toList := hq.trans h
  rw [e, hq']

/-! ### What a passage hands on -/

/-- What a passage hands on and keeps, from what its stages leave: the state with another engine
and other queues, and the cell in hand. -/
theorem State.handsOn_passage (u : State) (a : Arrival) (engine : Engine) (q : Queues)
    (hand : Hand) (records : List Completion) (notices : List NoticeBody)
    (ha : a.position = u.tracker.position + 1)
    (hs : u.delivered.advanced.stages a
      = ({ u.delivered.advanced with engine, queues := q }, hand))
    (hq : q = { u.posting ((u.watchNotice a.cell).toList ++ notices) with
      completions := u.queues.completions ++ records }) :
    u.handsOn (u.delivered.advanced.passage a) a.cell (hand.departing a.cell) engine records
      notices := by
  have hd : u.delivered.advanced.departing a = hand.departing a.cell := by
    simp only [State.departing, hs]
  have hh : (u.delivered.advanced.passage a).home =
      if (hand.departing a.cell).header.address.station = u.port.station
          ∧ (hand.departing a.cell).header.damaged = false then
        u.home.setIfInBounds (hand.departing a.cell).header.address.index.toNat
          { payload := (hand.departing a.cell).payload
            generation := (hand.departing a.cell).header.generation, source := .refreshed }
      else u.home := by
    simp only [State.passage, hd, hs, State.refreshHome, State.recordDeparture, State.enterCell]
    split
    · rename_i hc
      exact (if_pos (show _ = u.port.station ∧ _ from hc)).symm
    · rename_i hc
      exact (if_neg (show ¬(_ = u.port.station ∧ _) from hc)).symm
  obtain ⟨h1, h2⟩ := u.delivered.advanced.passage_engine_queues a
  rw [hs] at h1 h2
  obtain ⟨tb, k, q', hm, hp⟩ := u.delivered.advanced.passage_eq a
  refine ⟨?_, h1, h2.trans hq, ?_, ?_, ?_, ?_, ?_, ?_, ?_, ?_, ?_, ?_⟩
  · rw [hp, hd]
    rfl
  · rw [hp]
    rfl
  · rw [hp, hd, ← ha]
    simp [seenAt_recordSeen]
  · intro x hx
    rw [← ha] at hx
    rw [hp, hd]
    simp only [seenAt_recordSeen, hx, if_false]
    rfl
  · rw [hp]
    rfl
  · intro e1 e2
    rw [hh, if_pos ⟨e1, e2⟩]
    apply Vector.ext
    intro i hi
    simp [Vector.getElem_set, Vector.getElem_setIfInBounds]
  · intro e1
    rw [hh, if_neg]
    rintro ⟨e2, e3⟩
    rcases e1 with e1 | e1
    · exact e1 e2
    · rw [e1] at e3
      cases e3
  all_goals rw [hp]; rfl

/-- The arrival of a cell that the tracker accepts hands on what the stages make of it after the
watch comparison. -/
theorem State.accepts_handsOn (s : State) (r : Reception) (u : State) (repaired : Repaired)
    (c : Cell) (engine : Engine) (hand : Hand) (records : List Completion)
    (notices : List NoticeBody) (h : s.accepts r u repaired c)
    (hs : u.delivered.advanced.stages ⟨s.tracker.position + 1, r, repaired, c⟩
      = ({ u.delivered.advanced with
          engine
          queues := { u.posting ((u.watchNotice c).toList ++ notices) with
            completions := u.queues.completions ++ records } }, hand)) :
    ∃ t, exec (.cellArrival r) s = .next t
      ∧ u.handsOn t c (hand.departing c) engine records notices := by
  obtain ⟨hex, -, -, hu, -⟩ := s.accepts_passage r u repaired c h
  have ha : s.tracker.position + 1 = u.tracker.position + 1 := by
    rw [hu]
  exact ⟨_, hex, u.handsOn_passage _ _ _ hand records notices ha hs rfl⟩

end Sys2Proof.Machine
end

