-- ==== Sys2Proof/Laws/Records.lean ====
section
/-! SUPPORT. What the byte layouts are made of, said once: numbers, words and payloads high byte
first, indications as bits, and the command byte of a frame. -/

namespace Sys2Proof.Machine

/-! ### Numbers, words and payloads -/

/-- A word is its number high byte first. -/
theorem wordBytes_highFirst (w : Word) : wordBytes w = highFirst w.toNat := by
  have h1 : w.extractLsb' 8 8 = BitVec.ofNat 8 (w.toNat / 256) := by
    apply BitVec.eq_of_toNat_eq
    simp [BitVec.extractLsb'_toNat, Nat.shiftRight_eq_div_pow]
  have h2 : w.extractLsb' 0 8 = BitVec.ofNat 8 w.toNat := by
    apply BitVec.eq_of_toNat_eq
    simp
  simp [wordBytes, highFirst, h1, h2]

/-- A number of two bytes goes high byte first. -/
theorem natBytes_highFirst (n : Nat) : natBytes n = highFirst n := by
  rw [natBytes, wordBytes_highFirst]
  simp only [highFirst, BitVec.toNat_ofNat]
  congr 1
  · apply BitVec.eq_of_toNat_eq
    simp
    omega
  · congr 1
    apply BitVec.eq_of_toNat_eq
    simp

/-- Payload words go in index order, each high byte first. -/
theorem payloadBytes_highFirst (p : Payload) : payloadBytes p = wordsHighFirst p := by
  simp only [payloadBytes, wordsHighFirst, funext wordBytes_highFirst]

/-- A payload takes 64 bytes. -/
@[simp] theorem length_wordsHighFirst (p : Payload) : (wordsHighFirst p).length = 64 := by
  rw [← payloadBytes_highFirst]
  simp [payloadBytes, wordBytes, List.length_flatMap]

/-- An address goes station first. -/
theorem addressBytes_stationIndex (a : Address) : addressBytes a = stationIndex a := rfl

/-! ### Indications -/

/-- A yes-or-no item is bit 0 of its byte. -/
theorem boolByte_bitAt (b : Bool) : boolByte b = bitAt 0 b := by
  cases b <;> rfl

/-- Bit `n` of the byte of indications is indication `n`. -/
theorem getLsbD_bitsByte (l : List Bool) (n : Nat) (h : n < 8) :
    (bitsByte l).getLsbD n = l.getD n false := by
  induction l generalizing n with
  | nil => simp [bitsByte]
  | cons b bs ih =>
    simp only [bitsByte, BitVec.shiftLeft_eq, BitVec.getLsbD_or, BitVec.getLsbD_shiftLeft, boolByte]
    cases n with
    | zero => cases b <;> simp
    | succ n =>
      rw [Nat.add_sub_cancel, ih n (by omega)]
      cases b <;> simp [h]

end Sys2Proof.Machine

namespace Sys2Proof

/-! ### The command byte of a frame (R165, R167) -/

/-- A command byte names its command. -/
@[simp] theorem HostCommand.ofCode_code (k : HostCommand) : HostCommand.ofCode k.code = some k := by
  cases k <;> rfl

/-- A byte that is the code of no command names none. -/
theorem HostCommand.ofCode_of_unknown (code : Byte) (h : ∀ k : HostCommand, k.code ≠ code) :
    HostCommand.ofCode code = none := by
  simp only [HostCommand.ofCode, List.find?_eq_none]
  intro k _
  simpa using h k

/-- A frame is cut off while bytes are missing after the byte of a command. -/
@[simp] theorem frameCutOff_command (k : HostCommand) (rest : List Byte) :
    frameCutOff (k.code :: rest) = decide (rest.length < k.fieldCount rest + 1) := by
  simp [frameCutOff, HostCommand.ofCode_code]

/-- Bytes after an unknown command byte are no frame cut off. -/
theorem frameCutOff_unknown (code : Byte) (rest : List Byte)
    (h : ∀ k : HostCommand, k.code ≠ code) : frameCutOff (code :: rest) = false := by
  simp [frameCutOff, HostCommand.ofCode_of_unknown code h]

end Sys2Proof
end

