-- ==== Sys2Proof/Tests/Slice0.lean ====
section
/-! SUPPORT. Tests: the check values of the two cyclic checks, ill-formed commands that the check
refuses, small tests of each command on one step, and for every statement a situation that meets its
hypotheses, clause by clause at the ends of the ranges. -/

namespace Sys2Proof.Tests

open Sys2Proof Sys2Proof.Machine

set_option Elab.async false

/-! ### Situations -/

/-- The state that a command leaves. -/
def after (i : Instr) (s : State) : State :=
  match exec i s with
  | .next t => t
  | .fault _ => s
  | .refused _ => s

/-- Station `n` released and OFFLINE. -/
def released (n : Code5) : State :=
  { State.reset with
    resetHeld := false
    line := { Line.reset with interval := .running }
    port := { Port.reset with station := n } }

/-- A transaction is open and no command has been taken in it. -/
def asking (s : State) : State :=
  { s with port := { s.port with csnLow := true, phase := .receiving } }

/-- Bytes that the host clocks in on SI. -/
def sending (bytes : List Byte) (s : State) : State :=
  { s with port := { s.port with incoming := bytes } }

/-- A response to a command is being shifted out. -/
def answering (s : State) (k : HostCommand) (bytes : List Byte) : State :=
  { s with port := { s.port with
      csnLow := true, phase := .responding, command := some ⟨k.code, []⟩
      response := some ⟨bytes, 0⟩ } }

/-- Station 5 in a loop state, in REPEAT with fill following off, hosting one cell. -/
def inState (st : LoopState) (l : Loop) : State :=
  { released 5 with
    line := { (released 5).line with fillFollowing := false }
    loop := { l with state := st, hosted := 1#8, latestFormation := 7#8 } }

/-- The loop of stations 3 and 5: cells 3.0, 3.1 and 5.0 at positions 1 to 3. -/
def twoStations : List RosterEntry := [⟨3#8, 2#8⟩, ⟨5#8, 1#8⟩]

/-- The same stations with station 5 as originator. -/
def fiveFirst : List RosterEntry := [⟨5#8, 1#8⟩, ⟨3#8, 2#8⟩]

/-- Station 5 listening in CENSUS. -/
def listening : State := inState .census { Loop.reset with listenTimer := .running }

/-- Station 5 in CENSUS having originated `n` censuses. -/
def originating (n : Nat) : State :=
  inState .census { Loop.reset with attempt := n, censusTimer := .running }

/-- Station 5 in CENSUS having yielded while it listens. -/
def yielded : State :=
  inState .census
    { Loop.reset with yielded := true, listenTimer := .running, yieldTimer := .running }

/-- Station 5 in BUILD of formation 7. -/
def building (role : Role) (marks : Nat) (roster : List RosterEntry) : State :=
  inState .build
    { Loop.reset with
      role, buildMarks := marks, roster, formation := 7#8, buildTimer := .running }

/-- Station 5 in BROKEN, in the break hold. -/
def broken : State :=
  let s := inState .broken { Loop.reset with holdTimer := .running }
  { s with line := { s.line with mode := .breakHold } }

/-- Station 5 in EXCLUDED. -/
def excluded : State := inState .excluded Loop.reset

/-- Station 5 in RUNNING on the loop of stations 3 and 5, with `p` cells accepted since the MARK. -/
def running (p : Nat) : State :=
  let s := inState .running { Loop.reset with roster := twoStations, formation := 7#8 }
  { s with tracker := { s.tracker with activity := .active, position := p } }

/-- The state with a request table. -/
def withEntries (s : State) (table : List Entry) : State :=
  { s with engine := { s.engine with table } }

/-- An entry with pass limit 2 for a request at a position. -/
def entry (tag : Byte) (q : Request) (p : Nat) (state : EntryState := .pending) : Entry :=
  { tag, request := q, position := p, passLimit := 2, acceptance := 0#16, marks := 0, state }

/-- A READ of cell 5.0 for each tag from 1 to `n`. -/
def reads (n : Nat) : List Entry :=
  (List.range n).map fun i => entry (natByte (i + 1)) (.read ⟨5, 0⟩) 3

/-- A completion record. -/
def record : Completion := (entry 9#8 (.read ⟨5, 0⟩) 3).completion 0#16 .timeout .none

/-- A notice record. -/
def noticeOf : Notice := ⟨.sweepDone 0 true, 0#16⟩

/-- A LOST record. -/
def lostNotice : Notice := ⟨.lost 1, 0#16⟩

/-- A DATA cell of zero words with good checks. -/
def dataCell (station index owner reserver : Code5) (flags generation : Byte) : Cell :=
  { kind := .data
    header :=
      { kindCode := 1#8, byte2 := codeByte station, byte3 := codeByte index, byte4 := generation
        byte5 := codeByte owner, byte6 := codeByte reserver, byte7 := flags, check := 0#8 }
    payload := zeroPayload, payloadCheck := 0#16 : Cell }.sealed

/-- A cell received without a symbol error. -/
def heardCell (c : Cell) : Reception := ⟨c, false, false⟩

/-- A cell received with a symbol error in its payload. -/
def torn (c : Cell) : Reception := ⟨c, false, true⟩

/-- A cell received with a symbol error in its header. -/
def headTorn (c : Cell) : Reception := ⟨c, true, false⟩

/-- The MARK of the loop of stations 3 and 5. -/
def loopMark : Cell := builtMark 7#8 twoStations

/-- A census of station `o`, attempt 1, with its own entry alone. -/
def censusOf (o : Code5) : Cell := builtCensus o 1 2#8

/-- Cell 3.0 without an owner, as it stands on the loop. -/
def cell30 : Cell := dataCell 3 0 0 0 0#8 0#8

/-- A SUBMIT frame without words. -/
def frame (kind tag limit high low : Byte) : SubmitFrame :=
  { kind, tag, passLimit := limit, targetHigh := high, targetLow := low, firstWord := 0#8
    wordCount := 0#8, expectedPresent := 0#8, expectedGeneration := 0#8, words := [] }

/-- A WATCH SET frame for cell 3.0. -/
def watchFrame (n trigger : Byte) : WatchSetFrame :=
  { entry := n, valueStation := 3#8, valueIndex := 0#8, stationCare := 0x1F#8, indexCare := 0x1F#8
    trigger, capture := 0#8 }

/-- A watch entry for cell 3.0. -/
def watch30 : WatchEntry :=
  { enabled := true, value := ⟨3, 0⟩, stationCare := 0x1F#5, indexCare := 0x1F#5
    trigger := .both, capture := false }

/-- The state with its first watch entry set for cell 3.0 and one seen entry for position 1. -/
def watching (s : State) : State :=
  { s with watch := { entries := s.watch.entries.set 0 watch30, seen := [(1, ⟨0#8, 0#5⟩)] } }

/-- A cell as received is handed on as it is at the passage that its arrival makes. -/
abbrev passes (s : State) (c : Cell) : Prop := s.accepts (heardCell c) s .none c

/-- An arrival is accepted with what its examination makes of it. -/
abbrev arrives (s : State) (r : Reception) : Prop :=
  s.accepts r (s.examined r).1 (s.examined r).2.1 (s.examined r).2.2

/-- Every command answers a next state. -/
theorem exec_after (i : Instr) (s : State) : exec i s = .next (after i s) := by
  cases i <;> rfl

/-! ### The two check computations (R178) -/

/-- The nine bytes 31h to 39h of the usual check-value test. -/
def nineDigits : List Byte :=
  [0x31#8, 0x32#8, 0x33#8, 0x34#8, 0x35#8, 0x36#8, 0x37#8, 0x38#8, 0x39#8]

theorem test_header_check_value : crc8 nineDigits = 0xFB#8 := by decide +kernel

theorem test_payload_check_value : crc16 nineDigits = 0x29B1#16 := by decide +kernel

/-! ### Ill-formed commands are refused by the check (R9, R11, R165 to R168) -/

theorem test_header_error_needs_a_zero_byte :
    (Instr.cellArrival ⟨dataCell 3 1 4 5 7#8 6#8, true, false⟩).wellFormed = false := by
  decide +kernel

theorem test_payload_error_needs_a_zero_byte :
    (Instr.cellArrival
      ⟨{ cell30 with payload := Vector.replicate 32 0x1111#16, payloadCheck := 0x1111#16 },
        false, true⟩).wellFormed = false := by
  decide +kernel

theorem test_invalid_symbol_returns_no_signal :
    (Instr.signalReturn .invalid).wellFormed = false := by decide

theorem test_whole_frame_is_not_cut_off :
    (Instr.csnRise [0x13#8, 0xED#8]).wellFormed = false := by decide

theorem test_submit_carries_the_words_it_counts :
    (Instr.submit { frame 4#8 1#8 1#8 3#8 0#8 with wordCount := 2#8, words := [7#16] }).wellFormed
      = false := by decide

theorem test_bad_check_has_a_bad_sum :
    (Instr.badCheck [0x13#8, 0xED#8]).wellFormed = false := by decide

theorem test_bad_check_is_a_whole_frame :
    (Instr.badCheck [0x12#8, 0x01#8]).wellFormed = false := by decide

theorem test_unknown_names_no_command :
    (Instr.unknownCommand 0x10#8).wellFormed = false := by decide

theorem test_sound_commands_are_well_formed :
    [Instr.cellArrival (torn cell30), .signalReturn .breakFill, .csnRise [], .csnRise [0x12#8, 1#8],
      .submit (frame 1#8 1#8 1#8 3#8 0#8), .badCheck [0x13#8, 0xEC#8],
      .unknownCommand 0x1C#8].map Instr.wellFormed = List.replicate 7 true := by decide +kernel

/-! ### Each command on one step -/

/-- The bytes of the response in hand after a command. -/
def responseTo (i : Instr) (s : State) : List Byte :=
  match (after i s).port.response with
  | none => []
  | some r => r.bytes

theorem test_station_reset : after .stationReset (running 2) = State.reset := by decide +kernel

theorem test_release_samples_the_straps :
    after (.stationResetRelease 5) State.reset = released 5 := by decide +kernel

theorem test_release_is_sampled_once :
    after (.stationResetRelease 9) (released 5) = released 5 := by decide +kernel

/-- R178: the header and the first payload bytes of the MARK of formation 7. -/
theorem test_mark_layout :
    loopMark.bytes.take 7 = [2#8, 7#8, 2#8, 0#8, 0#8, 0#8, 0#8]
      ∧ (loopMark.bytes.drop 8).take 6 = [3#8, 2#8, 5#8, 1#8, 0#8, 0#8] := by decide +kernel

/-- R178: the first payload bytes of a TAIL are 0, and its header names originator and formation. -/
theorem test_tail_layout :
    (builtTail 30 7#8).bytes.take 7 = [4#8, 30#8, 7#8, 0#8, 0#8, 0#8, 0#8]
      ∧ ((builtTail 30 7#8).bytes.drop 8).take 64 = List.replicate 64 0#8 := by decide +kernel

/-- R179: a completion record of a RELEASE and a LOOP STATE notice, byte by byte. -/
theorem test_record_layouts :
    ((entry 9#8 (.release ⟨3, 1⟩) 258).completion 0x0102#16 .notOwner (.notOwner 7 true)).bytes
        = [2#8, 9#8, 7#8, 3#8, 1#8, 1#8, 2#8, 0#8, 0#8, 5#8, 0#8, 1#8, 2#8, 7#8, 1#8]
      ∧ (⟨.loopState .build .census none (some 7#8) .originator, 0x0102#16⟩ : Notice).bytes
        = [5#8, 7#8, 1#8, 2#8, 2#8, 1#8, 0#8, 7#8, 1#8] := by decide +kernel

/-- R99: a CLAIM takes a free cell; the departing cell names station 5 as owner. -/
theorem test_arrival_serves_a_claim :
    (after (.cellArrival (heardCell cell30)) (withEntries (running 0)
        [entry 1#8 (.claim ⟨3, 0⟩) 1])).line.store
      = [dataCell 3 0 5 0 0#8 0#8] := by decide +kernel

/-- 3.9: a cell one place early is repaired to the address of its position. -/
theorem test_arrival_repairs_an_address :
    (after (.cellArrival (heardCell (dataCell 5 0 4 0 0#8 9#8))) (running 0)).line.store
      = [dataCell 3 0 0 0 2#8 0#8] := by decide +kernel

theorem test_break_fill_breaks_a_running_station :
    (after .breakFillReceived (running 1)).loop.lastReason = some .breakReceived
      ∧ (after .breakFillReceived (running 1)).lout = .breakSymbols := by decide +kernel

theorem test_signal_loss_leaves_offline :
    (after .signalLoss (released 5)).loop.state = .offline
      ∧ (after .signalLoss (released 5)).lout = .breakSymbols := by decide +kernel

theorem test_signal_return :
    (after (.signalReturn .idle) (after .signalLoss (released 5))).lout = .idleSymbols := by
  decide +kernel

theorem test_cell_transmitted :
    let s := after .cellTransmitted ((released 5).entered [cell30, loopMark])
    s.line.store = [loopMark] ∧ s.line.gap = 2 ∧ s.lout = .idleSymbols
      ∧ s.tick.lout = .idleSymbols ∧ s.tick.tick.lout = .cell loopMark := by
  decide +kernel

theorem test_listen_timer_originates :
    (after .listenTimerExpiry listening).line.store = [builtCensus 5 1 1#8] := by decide +kernel

theorem test_census_timer_breaks_at_sixteen :
    (after .censusTimerExpiry (originating 15)).loop.attempt = 16
      ∧ (after .censusTimerExpiry (originating 16)).loop.lastReason = some .formTimeout := by
  decide +kernel

theorem test_yield_wait_breaks :
    (after .yieldWaitExpiry yielded).loop.state = .broken := by decide +kernel

theorem test_build_limit_breaks :
    (after .buildLimitExpiry (building .originator 0 fiveFirst)).loop.lastReason
      = some .buildTimeout := by decide +kernel

theorem test_break_hold_ends_in_census_only :
    (after .breakHoldExpiry broken).line.mode = .censusOnly := by decide +kernel

theorem test_csn_fall_opens :
    (after .csnFall (released 5)).port.phase = .receiving := by decide +kernel

theorem test_csn_rise_records_a_cut_off_command :
    (after (.csnRise [0x12#8, 0x01#8]) (asking (released 5))).port.frameFault = true
      ∧ (after (.csnRise []) (asking (released 5))).port.frameFault = false
      ∧ (after (.csnRise [])
        (sending [0x12#8] (asking (released 5))).tick).port.frameFault = true := by
  decide +kernel

theorem test_take_of_nothing :
    responseTo .take (asking (running 0)) = [2#8, 0#8] := by decide +kernel

/-- R165: the bytes of a SUBMIT frame join the command in hand up to its check byte. -/
theorem test_fields_are_gathered :
    (sending [0x11#8, 1#8, 2#8] (asking (released 5))).tick.tick.tick.port.command
        = some ⟨0x11#8, [1#8, 2#8]⟩
      ∧ (sending [0x13#8, 0xED#8] (asking (released 5))).tick.tick.port.incoming = [0xED#8] := by
  decide +kernel

/-- R169: a response is SPENT after its last byte; the last byte of a TAKE with a record waits for
its command. -/
theorem test_a_response_is_spent :
    (answering (released 5) .abort [0x33#8, 0#8]).tick.tick.port.phase = .spent
      ∧ (answering (released 5) .take [1#8, 1#8]).tick.tick.port.phase = .responding := by
  decide +kernel

theorem test_start_is_accepted :
    responseTo (.start 0x41#8 0#8) (asking (released 5)) = [0#8, 1#8, 0#8, 0#8]
      ∧ (after (.start 0x41#8 0#8) (asking (released 5))).loop.hosted = 1#8 := by decide +kernel

theorem test_submit_is_accepted :
    responseTo (.submit (frame 1#8 9#8 2#8 5#8 0#8)) (asking (running 0))
      = [0#8, 1#8, 1#8, 0#8, 0#8, 0#8, 3#8] := by decide +kernel

theorem test_submit_needs_running :
    responseTo (.submit (frame 1#8 9#8 2#8 5#8 0#8)) (asking listening)
      = [0x20#8, 0#8, 0#8, 0#8, 0#8, 0#8, 0#8] := by decide +kernel

theorem test_abort :
    responseTo (.abort 1#8) (asking (withEntries (running 0)
      [entry 1#8 (.claim ⟨3, 0⟩) 1 .reserved])) = [0x31#8, 0#8, 0#8, 0#8] := by decide +kernel

theorem test_take :
    responseTo .take (asking { running 0 with
        queues := { Queues.reset with completions := [record] } })
      = [1#8, 1#8, 0#8, 9#8, 1#8, 5#8, 0#8, 0#8, 3#8, 0#8, 0#8, 7#8, 0#8, 0#8, 0#8] := by
  decide +kernel

theorem test_note :
    responseTo .note (asking { running 0 with
        queues := { Queues.reset with notices := [noticeOf], lost := 258 } })
      = [1#8, 1#8, 1#8, 2#8, 3#8, 6#8, 0#8, 0#8, 0#8, 0#8, 1#8] := by decide +kernel

theorem test_watch_set :
    responseTo (.watchSet { watchFrame 7#8 3#8 with valueStation := 0xFF#8, stationCare := 0x1E#8 })
        (asking (released 5))
      = [0#8, 1#8, 0x1E#8, 0#8, 0x1E#8, 0x1F#8, 3#8, 0#8] := by decide +kernel

theorem test_watch_clear :
    responseTo (.watchClear 0#8) (asking (watching (running 0))) = [0#8, 1#8] := by decide +kernel

theorem test_home_load :
    responseTo (.homeLoad 31#8 4#8 zeroPayload) (asking (released 5)) = [0#8, 31#8, 0#8] := by
  decide +kernel

theorem test_home_read :
    (responseTo (.homeRead 31#8) (after .csnFall (after (.csnRise [])
      (after (.homeLoad 31#8 4#8 zeroPayload) (asking (released 5)))))).take 4
      = [0#8, 31#8, 1#8, 4#8] := by decide +kernel

/-- R173: the 39 bytes of STATUS at station 5 after its release. -/
theorem test_status :
    responseTo .status (asking (released 5)) =
      [0#8, 5#8, 1#8] ++ List.replicate 12 0#8 ++ [1#8] ++ List.replicate 23 0#8 := by
  decide +kernel

theorem test_roster :
    responseTo .roster (asking (running 0)) =
      [0#8, 7#8, 2#8, 0#8, 3#8, 3#8, 2#8, 5#8, 1#8] ++ List.replicate 56 0#8 := by decide +kernel

theorem test_host_reset :
    responseTo (.reset 1#8) (asking (withEntries (running 0) (reads 2)))
      = [0x40#8, 2#8, 0#8, 0#8, 0#8, 0#8, 0#8] := by decide +kernel

theorem test_bad_check :
    responseTo (.badCheck [0x13#8, 0xEC#8]) (asking (released 5)) = [3#8] := by decide +kernel

theorem test_unknown_command :
    (after (.unknownCommand 0x1C#8) (asking (released 5))).so 0 = 4#8
      ∧ (after (.unknownCommand 0x1C#8) (asking (released 5))).so 1 = 0xFF#8 := by decide +kernel

theorem test_take_final_byte :
    (after .takeFinalByte (answering { running 0 with
        queues := { Queues.reset with completions := [record, record] } } .take
          [1#8])).queues.completions = [record] := by decide +kernel

theorem test_note_final_byte_enters_the_lost_record :
    (after .noteFinalByte (answering { running 0 with
        queues := { Queues.reset with notices := [noticeOf], lost := 3 } } .note
          [1#8])).queues = { completions := [], notices := [⟨.lost 3, 0#16⟩], lost := 0 } := by
  decide +kernel

theorem test_status_final_byte_clears_frame_fault :
    (after .statusFinalByte (answering (after (.csnRise [0x12#8]) (asking (released 5))) .status
      [0#8])).port.frameFault = false := by decide +kernel

theorem test_symbol_starts_a_cell :
    (after (.symbolReceived (.startDelimiter .tail)) (released 5)).line.receiver
      = .inCell .tail [] false false := by decide +kernel

theorem test_invalid_symbol_is_a_zero_byte :
    (after (.symbolReceived .invalid)
        (after (.symbolReceived (.startDelimiter .tail)) (released 5))).line.receiver
      = .inCell .tail [0#8] true false := by decide +kernel

/-! ### Situations that meet the hypotheses of the statements For each statement, its hypotheses
on a concrete state and operands, one group for each clause, at the ends of the ranges that the
clauses name. -/

theorem test_witness_EveryCommandAnswersAndKeepsTheQueue : State.reset.pending = [] := by decide

theorem test_witness_QuietPeriodMovesTheGapAndThePort :
    (∀ s ∈ [State.reset, released 5, asking (released 5)], s.pending = [])
      ∧ State.reset.resetHeld = true ∧ (released 5).resetHeld = false
      ∧ (released 5).port.phase = .idle
      ∧ (after .statusFinalByte (answering (released 5) .status [0#8])).port.phase = .spent
      ∧ (asking (released 5)).port.phase = .receiving ∧ (asking (released 5)).port.incoming = []
      ∧ (asking (released 5)).port.command = none
      ∧ (sending [0x10#8] (asking (released 5))).port.incoming = 0x10#8 :: []
      ∧ (∃ k : HostCommand, k.code = 0x10#8) ∧ (∀ k : HostCommand, k.code ≠ 0x1C#8)
      ∧ ([] : List Byte).length < HostCommand.abort.fieldCount []
      ∧ HostCommand.abort.fieldCount [1#8] ≤ [1#8].length := by
  refine ⟨by decide, by decide, by decide, by decide, by decide, by decide, by decide, by decide,
    by decide, ⟨.start, rfl⟩, ?_, by decide, by decide⟩
  intro k; cases k <;> decide

theorem test_witness_QuietPeriodOfAResponse :
    (∀ next ∈ [0, 1, 2],
      let s := answering (released 5) .take [1#8, 1#8]
      let t : State := { s with port := { s.port with response := some ⟨[1#8, 1#8], next⟩ } }
      t.pending = [] ∧ t.resetHeld = false ∧ t.port.phase = .responding
        ∧ t.port.command.map CommandInHand.code = some 0x13#8
        ∧ t.port.response = some ⟨[1#8, 1#8], next⟩)
      ∧ 0 + 1 < [1#8, 1#8].length ∧ [1#8, 1#8].length ≤ 1 + 1 ∧ [1#8, 1#8].length ≤ 2 + 1
      ∧ [1#8, 1#8].head? = some 0x01#8 ∧ [2#8, 0#8].head? ≠ some 0x01#8
      ∧ (answering (released 5) .status [0#8]).port.command.map CommandInHand.code = some 0x19#8
      ∧ (after (.unknownCommand 0x1C#8) (asking (released 5))).port.phase = .discarding
      ∧ (after (.unknownCommand 0x1C#8) (asking (released 5))).port.response = some ⟨[4#8], 0⟩ := by
  decide +kernel

theorem test_witness_OnlyTheReleaseEndsAReset :
    State.reset.resetHeld = true ∧ (released 5).resetHeld = false ∧ State.reset.loop.allStopped
      ∧ Instr.take ≠ .stationReset ∧ (∀ x, Instr.take ≠ .stationResetRelease x)
      ∧ Instr.take ≠ .csnFall ∧ (∀ x, Instr.take ≠ .csnRise x) := by
  refine ⟨by decide, by decide, by decide, by decide, ?_, by decide, ?_⟩ <;> intro x <;> simp

/-- A hunting station with a count of break symbols. -/
def counted (n : Nat) (s : State) : State := { s with line := { s.line with breakCount := n } }

/-- A station inside a cell with `n` bytes received. -/
def inside (n : Nat) : State :=
  { released 5 with line := { (released 5).line with
      receiver := .inCell .data (List.replicate n 1#8) false false } }

theorem test_witness_SymbolWhileHunting :
    (released 5).resetHeld = false ∧ (released 5).line.receiver = .hunting
      ∧ (counted 14 (released 5)).line.breakCount + 1 ≠ 16
      ∧ (counted 16 (released 5)).line.breakCount + 1 ≠ 16
      ∧ (counted 15 (released 5)).line.breakCount + 1 = 16 := by decide +kernel

theorem test_witness_SymbolInsideACell :
    (∀ n ∈ [0, 7, 8, 73, 74], (inside n).resetHeld = false
        ∧ (inside n).line.receiver = .inCell .data (List.replicate n 1#8) false false)
      ∧ (List.replicate 0 1#8).length < 74 ∧ (List.replicate 7 1#8).length < 8
      ∧ 8 ≤ (List.replicate 8 1#8).length ∧ (List.replicate 73 1#8).length < 74
      ∧ (List.replicate 74 1#8).length = 74 ∧ Symbol.invalid ≠ .endDelimiter := by decide +kernel

theorem test_witness_SymbolSequencesAreTheirEvents :
    (∀ n ∈ [0, 15], (counted n (released 5)).resetHeld = false
        ∧ (counted n (released 5)).line.receiver = .hunting
        ∧ (counted n (released 5)).line.breakCount + (16 - n) = 16 ∧ 0 < 16 - n) := by
  decide +kernel

/-- A station that has lost the signal. -/
def silentStation (s : State) : State :=
  { s with line := { s.line with signal := .lost, interval := .stopped, fill := .breakFill } }

theorem test_witness_BreakFillAndSignalLossAreReportedOnce :
    (∀ s ∈ [running 0, building .originator 0 fiveFirst, excluded, released 5, listening, broken],
        s.resetHeld = false ∧ (counted 15 s).line.breakCount < 16
          ∧ 16 ≤ (counted 16 s).line.breakCount ∧ s.line.signal = .present
          ∧ (silentStation s).line.signal = .lost)
      ∧ (running 0).loop.state = .running ∧ (released 5).loop.state = .offline
      ∧ (building .originator 0 fiveFirst).loop.state = .build ∧ excluded.loop.state = .excluded
      ∧ listening.loop.state = .census ∧ broken.loop.state = .broken := by decide +kernel

theorem test_witness_SignalReturnsWithAValidSymbol :
    (silentStation (released 5)).resetHeld = false
      ∧ (silentStation (released 5)).line.signal = .lost ∧ Symbol.breakFill ≠ .invalid
      ∧ (released 5).resetHeld = false ∧ (released 5).line.signal = .present := by decide +kernel

/-- A broken station after its break hold. -/
def carrying : State := after .breakHoldExpiry broken

theorem test_witness_TransmissionFollowsTheMode :
    (∀ s ∈ [running 0, broken, carrying], s.resetHeld = false ∧ s.line.store = [])
      ∧ State.reset.resetHeld = true
      ∧ (running 0).line.mode ≠ .breakHold
      ∧ ((running 0).entered [cell30, loopMark]).line.store = [cell30, loopMark]
      ∧ broken.line.mode = .breakHold ∧ carrying.line.mode = .censusOnly
      ∧ (running 0).line.mode = .repeating ∧ (running 0).line.fillFollowing = false
      ∧ (released 5).line.fillFollowing = true ∧ (released 5).line.fill = .idle
      ∧ (silentStation (released 5)).line.fill = .breakFill
      ∧ (silentStation (released 5)).line.mode = .repeating
      ∧ (silentStation (released 5)).line.store = []
      ∧ ((running 0).entered [cell30]).line.gap = 0
      ∧ (∀ s ∈ [running 0, carrying, silentStation (released 5)],
        let t := after .cellTransmitted (s.entered [cell30, cell30])
        0 < t.line.gap ∧ 0 < t.tick.line.gap ∧ t.tick.tick.line.gap = 0
          ∧ t.line.store = [cell30]) := by decide +kernel

theorem test_witness_EntryIntoBrokenTakesTheSixActions :
    (∀ s ∈ [originating 16, yielded, building .nonOriginator 0 twoStations, running 0, excluded],
        s.resetHeld = false ∧ s.line.signal = .present ∧ (counted 15 s).line.breakCount < 16)
      ∧ (originating 16).loop.censusTimer = .running ∧ (originating 16).loop.state = .census
      ∧ (originating 16).loop.yielded = false ∧ (originating 16).loop.attempt = 16
      ∧ yielded.loop.yieldTimer = .running ∧ yielded.loop.state = .census
      ∧ (building .nonOriginator 0 twoStations).loop.buildTimer = .running
      ∧ (building .nonOriginator 0 twoStations).loop.state = .build
      ∧ (running 0).loop.state = .running ∧ excluded.loop.state = .excluded := by decide +kernel

theorem test_witness_FormationTimersOriginateOrBreak :
    (listening.loop.state = .census ∧ listening.loop.listenTimer = .running
        ∧ listening.loop.yielded = false)
      ∧ (yielded.loop.state = .census ∧ yielded.loop.listenTimer = .running
        ∧ yielded.loop.yielded = true ∧ yielded.loop.censusTimer = .stopped
        ∧ yielded.loop.yieldTimer = .running)
      ∧ (∀ n ∈ [1, 15, 16], (originating n).loop.state = .census
        ∧ (originating n).loop.listenTimer = .stopped ∧ (originating n).loop.yielded = false
        ∧ (originating n).loop.censusTimer = .running)
      ∧ (originating 15).loop.attempt < 16 ∧ (originating 16).loop.attempt = 16
      ∧ (building .originator 0 fiveFirst).loop.state = .build
      ∧ (building .originator 0 fiveFirst).loop.buildTimer = .running
      ∧ (released 5).loop.yieldTimer = .stopped ∧ (released 5).loop.buildTimer = .stopped := by
  decide +kernel

/-- Station 5 started again inside its break hold. -/
def startedInHold : State := after (.start 1#8 0#8) (asking broken)

theorem test_witness_BreakHoldEndsInTheStateReached :
    broken.loop.holdTimer = .running ∧ broken.loop.state = .broken
      ∧ startedInHold.loop.holdTimer = .running ∧ startedInHold.loop.state = .census
      ∧ carrying.loop.holdTimer = .stopped := by decide +kernel

/-- The entries of stations 1 to `n`, each hosting 32 cells. -/
def manyStations (n : Nat) : List RosterEntry :=
  (List.range n).map fun i => ⟨natByte (i + 1), 32#8⟩

/-- A census of station 1 with the entries of stations 1 to `n`. -/
def crowdedCensus (n : Nat) : Cell :=
  builtCell .census 1#8 16#8 (natByte n) (payloadOfEntries (manyStations n))

theorem test_witness_CensusAndMarkBuiltAreWellFormed :
    (stationLegal 1 = true ∧ stationLegal 30 = true ∧ (32#8).toNat ≤ 32)
      ∧ (∀ n ∈ [1, 29],
        let c := crowdedCensus n
        let e : RosterEntry := ⟨30#8, 0#8⟩
        c.kind = .census ∧ c.header.kindCode = CellKind.code .census ∧ c.censusWellFormed = true
          ∧ c.header.entryCount.toNat < 30 ∧ e.inRange = true
          ∧ ∀ f ∈ c.censusEntries, f.station ≠ e.station)
      ∧ ∀ n ∈ [1, 30],
        1 ≤ (manyStations n).length ∧ (manyStations n).length ≤ 30
          ∧ (manyStations n).all RosterEntry.inRange = true
          ∧ distinctStations (manyStations n) = true := by decide +kernel

theorem test_witness_HostedCellsAreBuiltAsTheOptionSays :
    0 < 32 ∧ 31 < 32 ∧ (released 5).loop.restore = false
      ∧ (after (.start 1#8 1#8) (asking (released 5))).loop.restore = true := by decide +kernel

theorem test_witness_CsnFallOpensATransaction :
    (released 5).resetHeld = false ∧ (released 5).port.csnLow = false
      ∧ State.reset.resetHeld = true ∧ (asking (released 5)).port.csnLow = true := by decide +kernel

theorem test_witness_CsnRiseClosesTheTransaction :
    (released 5).port.phase ≠ .receiving ∧ (asking (released 5)).port.phase = .receiving
      ∧ (asking (released 5)).port.command = none
      ∧ (sending [0x12#8] (asking (released 5))).tick.port.phase = .receiving
      ∧ (sending [0x12#8] (asking (released 5))).tick.port.command ≠ none
      ∧ ([0x12#8, 1#8] = HostCommand.abort.code :: [1#8]
        ∧ [1#8].length < HostCommand.abort.fieldCount [1#8] + 1)
      ∧ ([0x13#8] = HostCommand.take.code :: []
        ∧ ([] : List Byte).length < HostCommand.take.fieldCount [] + 1)
      ∧ (let s := answering (released 5) .status [0#8]
        s.resetHeld = false ∧ s.port.phase = .responding
          ∧ s.port.command.map CommandInHand.code = some 0x19#8
          ∧ (s.port.response.bind fun r => r.bytes.head?) = some 0x00#8)
      ∧ (after (.csnRise [0x13#8]) (asking (released 5))).port.frameFault = true
      ∧ ([0x13#8, 0xED#8] = HostCommand.take.code :: [0xED#8]
        ∧ HostCommand.take.fieldCount [0xED#8] + 1 ≤ [0xED#8].length)
      ∧ (HostCommand.ofCode 0x1C#8 = none)
      ∧ Instr.take ≠ .statusFinalByte ∧ Instr.take ≠ .stationReset := by decide +kernel

/-- R167, R168: a rise after an unknown command byte or a whole frame records no fault. -/
theorem test_csn_rise_without_a_cut_off_command :
    ∀ bytes ∈ [[0x1C#8], [0x0F#8, 0x13#8], [0x13#8, 0xED#8], [0x12#8, 1#8, 0xED#8]],
      (after (.csnRise bytes) (asking (released 5))).port.frameFault = false := by decide +kernel

theorem test_witness_FramesNotTakenHaveNoEffect :
    (asking (released 5)).receiving = true ∧ (released 5).receiving = false
      ∧ [1#8, 1#8].length = HostCommand.abort.fieldCount [1#8, 1#8] + 1
      ∧ byteSum (HostCommand.abort.code :: [1#8, 1#8]) ≠ 0#8
      ∧ [1#8].length = HostCommand.take.fieldCount [1#8] + 1
      ∧ byteSum (HostCommand.take.code :: [1#8]) ≠ 0#8 ∧ Instr.take.isFrame = true := by
  decide +kernel

theorem test_witness_UnknownCommandDiscardsTheTransaction :
    (asking (released 5)).receiving = true ∧ (∀ k : HostCommand, k.code ≠ 0x0F#8)
      ∧ ∀ k : HostCommand, k.code ≠ 0x1C#8 := by
  refine ⟨by decide, ?_, ?_⟩ <;> intro k <;> cases k <;> decide

theorem test_witness_StartEntersCensusOrIsRefused :
    (∀ s ∈ [released 1, released 30, released 0, released 31, broken, carrying, listening,
        building .originator 0 fiveFirst, running 0, excluded], (asking s).receiving = true)
      ∧ (1 ≤ (released 1).port.station.toNat ∧ (released 30).port.station.toNat ≤ 30)
      ∧ ¬(1 ≤ (released 0).port.station.toNat) ∧ ¬((released 31).port.station.toNat ≤ 30)
      ∧ (0xE0#8 &&& 0x3F#8).toNat ≤ 32 ∧ 32 < (0x21#8 &&& 0x3F#8).toNat
      ∧ (released 1).loop.state = .offline ∧ broken.loop.state = .broken
      ∧ broken.loop.holdTimer = .running ∧ carrying.loop.holdTimer = .stopped
      ∧ carrying.loop.state = .broken ∧ listening.loop.state = .census
      ∧ (building .originator 0 fiveFirst).loop.state = .build
      ∧ (running 0).loop.state = .running ∧ excluded.loop.state = .excluded := by decide +kernel

theorem test_witness_PositionsAndAddressesAreInverse :
    (manyStations 30).all RosterEntry.inRange = true ∧ distinctStations (manyStations 30) = true
      ∧ 1 ≤ 960 ∧ 960 ≤ rosterTotal (manyStations 30)
      ∧ positionOf (manyStations 30) ⟨30, 31⟩ = some 960
      ∧ positionOf twoStations ⟨3, 0⟩ = some 1
      ∧ (twoStations = [⟨3#8, 2#8⟩] ++ ⟨5#8, 1#8⟩ :: []
        ∧ (5#8 : Byte) = (5#5 : Code5).setWidth 8 ∧ (0#5).toNat < (1#8).toNat
        ∧ (1#8).toNat ≤ (1#5).toNat ∧ positionOf twoStations ⟨5, 0⟩ = some 3)
      ∧ ∀ e ∈ twoStations, e.station ≠ (4#5 : Code5).setWidth 8 := by decide +kernel

/-- A RUNNING station with a full table but for one entry and 8 completion records: commitment 23.
-/
def nearlyFull : State :=
  { withEntries (running 0) (reads 15) with
    queues := { Queues.reset with completions := List.replicate 8 record } }

theorem test_witness_SubmitAcceptedAddsItsEntry :
    let f := frame 6#8 99#8 0x1F#8 5#8 0#8
    let q := Request.claim ⟨5, 0⟩
    let s := asking nearlyFull
    s.receiving = true ∧ f.framed = true ∧ s.loop.state = .running
      ∧ s.engine.sweep.active = false ∧ submitRequest f = some q ∧ f.passLimit.toNat % 16 ≠ 0
      ∧ submitBadFields f q = false ∧ (∀ e ∈ s.engine.table, e.tag ≠ f.tag)
      ∧ q.targetPosition s.loop.roster = some 3
      ∧ (∀ e ∈ s.engine.table, q.ownershipTarget ≠ none →
        e.request.ownershipTarget ≠ q.ownershipTarget)
      ∧ s.engine.table.length < 16
      ∧ s.engine.table.length + s.queues.completions.length < 24 := by decide +kernel

theorem test_witness_SubmitRefusedByTheFirstFailingCheck :
    let f := frame 6#8 1#8 1#8 5#8 0#8
    let fresh : SubmitFrame := { f with tag := 99#8 }
    let q := Request.claim ⟨5, 0⟩
    let away := frame 1#8 99#8 1#8 5#8 1#8
    let claimed := withEntries (running 0) [entry 1#8 q 3]
    let full := withEntries (running 0) (reads 16)
    let owing : State :=
      { withEntries (running 0) (reads 1) with
        queues := { Queues.reset with completions := List.replicate 23 record } }
    (asking listening).receiving = true ∧ f.framed = true ∧ fresh.framed = true
      ∧ away.framed = true ∧ (asking listening).loop.state ≠ .running
      ∧ (asking (running 0)).receiving = true ∧ (asking (running 0)).loop.state = .running
      ∧ (after (.reset 1#8) (asking (running 0))).engine.sweep.active = true
      ∧ (running 0).engine.sweep.active = false
      ∧ submitRequest { f with kind := 0#8 } = none ∧ submitRequest { f with kind := 8#8 } = none
      ∧ submitRequest f = some q ∧ submitRequest fresh = some q
      ∧ ({ f with passLimit := 0x10#8 } : SubmitFrame).passLimit.toNat % 16 = 0
      ∧ submitBadFields { f with targetHigh := 31#8 } (.claim ⟨31, 0⟩) = true
      ∧ f.passLimit.toNat % 16 ≠ 0 ∧ submitBadFields f q = false
      ∧ (∃ e ∈ claimed.engine.table, e.tag = f.tag)
      ∧ (∀ e ∈ claimed.engine.table, e.tag ≠ fresh.tag)
      ∧ (submitRequest away = some (.read ⟨5, 1⟩)
        ∧ (Request.read ⟨5, 1⟩).targetPosition (running 0).loop.roster = none)
      ∧ q.targetPosition claimed.loop.roster = some 3
      ∧ (∃ e ∈ claimed.engine.table, q.ownershipTarget = some ⟨5, 0⟩ ∧
        e.request.ownershipTarget = some ⟨5, 0⟩)
      ∧ (∀ e ∈ full.engine.table, e.request.ownershipTarget = none)
      ∧ (∀ e ∈ full.engine.table, e.tag ≠ fresh.tag) ∧ 16 ≤ full.engine.table.length
      ∧ (∀ e ∈ owing.engine.table, e.request.ownershipTarget = none)
      ∧ 24 ≤ owing.engine.table.length + owing.queues.completions.length
      ∧ rosterTotal twoStations = 3 ∧ (0#16).toNat = 0 ∧ 3 < (4#16).toNat := by decide +kernel

/-- R68: a PEEK of the MARK's position, or of one past the last cell, is NO CELL. -/
theorem test_peek_without_a_position :
    ∀ p ∈ [0#8, 4#8],
      (running 0).judgeSubmit (frame 3#8 1#8 1#8 0#8 p) = .refused .noCell := by decide +kernel

theorem test_witness_SubmitFrameFieldsAndRanges :
    (List.map (fun k => (frame k 1#8 1#8 3#8 0#8).kind) [0#8, 1#8, 2#8, 3#8, 4#8, 5#8, 6#8, 7#8, 8#8])
        = [0#8, 1#8, 2#8, 3#8, 4#8, 5#8, 6#8, 7#8, 8#8]
      ∧ (frame 4#8 1#8 1#8 3#8 0#8).expectedPresent = 0#8
      ∧ ({ frame 4#8 1#8 1#8 3#8 0#8 with expectedPresent := 1#8 } : SubmitFrame).expectedPresent
        ≠ 0#8 ∧ 8 ≤ (8#8).toNat := by decide +kernel

theorem test_witness_AbortActsByTheEntryState :
    let q := Request.claim ⟨3, 0⟩
    (asking (running 0)).receiving = true
      ∧ (∀ e ∈ (asking (running 0)).engine.table, e.tag ≠ 1#8)
      ∧ ((asking listening).receiving = true ∧ (asking listening).quiet
        ∧ (asking listening).loop.state ≠ .running)
      ∧ (∀ state ∈ [EntryState.pending, .reserved, .withdrawing .timeout, .withdrawing .aborted],
        let e := entry 1#8 q 1 state
        let other := entry 2#8 (.read ⟨5, 0⟩) 3
        let s := asking (withEntries (running 0) ([other] ++ e :: [other]))
        s.receiving = true ∧ s.engine.table = [other] ++ e :: [other] ∧ e.tag = 1#8
          ∧ (∀ x ∈ [other] ++ [other], x.tag ≠ 1#8) ∧ e.state = state) := by decide +kernel

/-- Both queues hold one record. -/
def waiting (s : State) (lost : Nat) (notices : List Notice) : State :=
  { s with queues := { completions := [record], notices, lost } }

theorem test_witness_TakeReturnsTheOldestCompletion :
    (asking (running 0)).receiving = true ∧ (running 0).queues.completions = []
      ∧ (asking (waiting (running 0) 0 [])).queues.completions = record :: []
      ∧ (∀ b ∈ [1#8, 2#8],
        let s := answering (waiting (running 0) 0 []) .take [b]
        s.resetHeld = false ∧ s.port.phase = .responding
          ∧ s.port.command.map CommandInHand.code = some 0x13#8
          ∧ s.port.response = some ⟨[b], 0⟩)
      ∧ [1#8].head? = some 0x01#8 ∧ [2#8].head? ≠ some 0x01#8 := by decide +kernel

theorem test_witness_NoteReturnsTheOldestNotice :
    (asking (running 0)).receiving = true ∧ (running 0).queues.notices = []
      ∧ (asking (waiting (running 0) 0 [noticeOf])).queues.notices = noticeOf :: []
      ∧ (∀ s ∈ [waiting (running 0) 0 [noticeOf], waiting (running 0) 1 [noticeOf, lostNotice],
            waiting (running 0) 65535 [noticeOf]],
        let s := answering s .note [1#8]
        s.resetHeld = false ∧ s.port.phase = .responding
          ∧ s.port.command.map CommandInHand.code = some 0x14#8
          ∧ s.port.response = some ⟨[1#8], 0⟩)
      ∧ (waiting (running 0) 0 [noticeOf]).queues.lost = 0
      ∧ (∃ x ∈ [lostNotice], x.isLost = true)
      ∧ (waiting (running 0) 65535 [noticeOf]).queues.lost ≠ 0
      ∧ (∀ x ∈ ([] : List Notice), x.isLost = false)
      ∧ [1#8].head? = some 0x01#8 ∧ [2#8].head? ≠ some 0x01#8 := by decide +kernel

theorem test_witness_NoticesBeyondSixteenAreCounted :
    (∀ n ∈ [15, 16], ∀ lost ∈ [0, 65534, 65535],
        let s := asking (waiting (released 5) lost (List.replicate n noticeOf))
        s.receiving = true ∧ stationLegal s.port.station = true ∧ s.loop.state = .offline)
      ∧ (0x20#8 &&& 0x3F#8 : Byte).toNat ≤ 32
      ∧ (waiting (released 5) 0 (List.replicate 15 noticeOf)).queues.notices.length < 16
      ∧ 16 ≤ (waiting (released 5) 0 (List.replicate 16 noticeOf)).queues.notices.length := by
  decide +kernel

theorem test_witness_WatchSetAndClearWriteTheirEntry :
    (asking (released 5)).receiving = true ∧ (7#8).toNat % 16 ≤ 7 ∧ 7 < (8#8).toNat % 16
      ∧ (7#8).toNat % 16 < 8 ∧ (watchFrame 7#8 3#8).trigger = Trigger.code .both
      ∧ (∀ t : Trigger, (watchFrame 7#8 0#8).trigger ≠ t.code)
      ∧ ∀ t : Trigger, (watchFrame 7#8 4#8).trigger ≠ t.code := by
  refine ⟨by decide, by decide, by decide, by decide, by decide, ?_, ?_⟩ <;> intro t <;>
    cases t <;> decide

theorem test_witness_HomeLoadAndReadUseTheirEntry :
    (∀ s ∈ [released 5, broken, excluded, listening, building .originator 0 fiveFirst, running 0],
        (asking s).receiving = true)
      ∧ (31#8).toNat % 64 < 32 ∧ 31 < (32#8).toNat % 64
      ∧ (released 5).loop.state = .offline ∧ broken.loop.state = .broken
      ∧ excluded.loop.state = .excluded ∧ listening.loop.state = .census
      ∧ (building .originator 0 fiveFirst).loop.state = .build
      ∧ (running 0).loop.state = .running := by decide +kernel

theorem test_witness_StatusAndRosterReportTheState :
    (asking (running 0)).receiving = true ∧ (asking (running 0)).loop.roster.length ≤ 30
      ∧ (∀ b ∈ [0#8, 3#8],
        let s := answering (running 0) .status [b]
        s.resetHeld = false ∧ s.port.phase = .responding
          ∧ s.port.command.map CommandInHand.code = some 0x19#8
          ∧ s.port.response = some ⟨[b], 0⟩)
      ∧ [0#8].head? = some 0x00#8 ∧ [3#8].head? ≠ some 0x00#8 := by decide +kernel

theorem test_witness_HostResetEmptiesAndMaySweep :
    (asking (running 0)).receiving = true ∧ (running 0).loop.state = .running
      ∧ (asking (released 5)).receiving = true ∧ (released 5).loop.state ≠ .running := by
  decide +kernel

theorem test_witness_RepeatersAndCarriersForward :
    (∀ s ∈ [released 5, excluded, carrying, broken], s.resetHeld = false)
      ∧ (released 5).line.mode = .repeating ∧ (released 5).loop.state = .offline
      ∧ excluded.line.mode = .repeating ∧ excluded.loop.state = .excluded
      ∧ (censusOf 3).kind = .census ∧ (builtTail 3 7#8).kind = .tail ∧ cell30.kind = .data
      ∧ loopMark.kind = .mark ∧ cell30.header.ownershipGood = true
      ∧ (dataCell 3 0 0 4 0#8 0#8).header.ownershipGood = false
      ∧ ((heardCell loopMark).good = true ∧ loopMark.markWellFormed = true)
      ∧ (torn loopMark).good = false ∧ (builtMark 7#8 []).markWellFormed = false
      ∧ carrying.line.mode = .censusOnly ∧ broken.line.mode = .breakHold := by decide +kernel

theorem test_witness_LaterFormationNumbersAreKept :
    (∀ s ∈ [released 5, listening, building .originator 0 fiveFirst, excluded, running 3, carrying],
        s.resetHeld = false)
      ∧ loopMark.kind = .mark ∧ (heardCell loopMark).good = true ∧ loopMark.markWellFormed = true
      ∧ (∀ s ∈ [released 5, listening, building .originator 0 fiveFirst, excluded],
        s.line.mode = .repeating)
      ∧ (released 5).loop.state = .offline ∧ listening.loop.state = .census
      ∧ (building .originator 0 fiveFirst).loop.state = .build ∧ excluded.loop.state = .excluded
      ∧ (running 3).loop.state = .running ∧ carrying.line.mode ≠ .repeating
      ∧ (∀ n ∈ [1, 127], 1 ≤ (n + 256 - 0) % 256 ∧ (n + 256 - 0) % 256 ≤ 127)
      ∧ (0 + 256 - 0) % 256 = 0 ∧ 128 ≤ (128 + 256 - 0) % 256
      ∧ ((originating 1).reporting .census ∧ (censusOf 5).kind = .census
        ∧ (heardCell (censusOf 5)).good = true ∧ (censusOf 5).censusWellFormed = true
        ∧ (censusOf 5).header.originator = (originating 1).port.station
        ∧ (originating 1).loop.yielded = false
        ∧ (censusOf 5).header.attemptNumber.toNat = (originating 1).loop.attempt) := by
  decide +kernel

/-- A census of station 3 that station 5 has answered or another station of its number has. -/
def answered35 : Cell := answeredCensus (censusOf 3) ⟨5#8, 1#8⟩

theorem test_witness_CensusCellsAreJudgedInCensus :
    listening.reporting .census ∧ yielded.reporting .census ∧ (originating 2).reporting .census
      ∧ cell30.kind = .data ∧ (builtTail 3 7#8).kind = .tail ∧ (censusOf 3).kind = .census
      ∧ (torn (censusOf 3)).good = false
      ∧ (builtCensus 3 17 2#8).censusWellFormed = false
      ∧ (∀ o ∈ [1, 4, 5, 6, 30], (heardCell (censusOf o)).good = true
        ∧ (censusOf o).censusWellFormed = true ∧ (censusOf o).header.originator = o)
      ∧ listening.port.station.toNat < (6#5).toNat ∧ (4#5).toNat < listening.port.station.toNat
      ∧ yielded.loop.yielded = true
      ∧ (censusOf 5).header.attemptNumber.toNat ≠ (originating 2).loop.attempt
      ∧ (after (.cellArrival (heardCell (censusOf 3))) listening).reporting .census
      ∧ (after (.cellArrival (heardCell (censusOf 3))) listening).loop.lastAnswered
        = some ((censusOf 3).header.originator, (censusOf 3).header.attemptNumber)
      ∧ listening.loop.lastAnswered = none
      ∧ (heardCell answered35).good = true ∧ answered35.censusWellFormed = true
      ∧ (∃ e ∈ answered35.censusEntries, e.station = codeByte listening.port.station)
      ∧ (∀ e ∈ (censusOf 3).censusEntries, e.station ≠ codeByte listening.port.station) := by
  decide +kernel

theorem test_witness_OwnCensusCompletesIntoBuild :
    (∀ n ∈ [1, 16],
      let c := builtCensus 5 n 1#8
      let s := originating n
      s.reporting .census ∧ c.kind = .census ∧ (heardCell c).good = true
        ∧ c.censusWellFormed = true ∧ c.header.originator = s.port.station
        ∧ s.loop.yielded = false ∧ c.header.attemptNumber.toNat = s.loop.attempt) := by
  decide +kernel

theorem test_witness_MarkHeardInCensusJoinsOrExcludes :
    yielded.reporting .census ∧ loopMark.kind = .mark ∧ (torn loopMark).good = false
      ∧ (builtMark 7#8 []).markWellFormed = false ∧ (heardCell loopMark).good = true
      ∧ loopMark.markWellFormed = true
      ∧ ⟨codeByte yielded.port.station, yielded.loop.hosted⟩ ∈ loopMark.roster
      ∧ (heardCell (builtMark 7#8 [⟨5#8, 2#8⟩])).good = true
      ∧ (builtMark 7#8 [⟨5#8, 2#8⟩]).markWellFormed = true
      ∧ ⟨codeByte yielded.port.station, yielded.loop.hosted⟩
        ∉ (builtMark 7#8 [⟨5#8, 2#8⟩]).roster := by decide +kernel

theorem test_witness_OriginatorRunsOnItsReturningTail :
    let s := building .originator 0 fiveFirst
    let own := builtMark 7#8 fiveFirst
    s.reporting .build ∧ s.loop.role = .originator ∧ (censusOf 3).kind = .census
      ∧ cell30.kind = .data ∧ cell30.header.ownershipGood = true
      ∧ (dataCell 3 0 0 4 0#8 0#8).header.ownershipGood = false
      ∧ own.kind = .mark ∧ (headTorn own).good = false ∧ (builtMark 7#8 []).markWellFormed = false
      ∧ ((heardCell own).good = true ∧ own.markWellFormed = true
        ∧ own.header.markFormation = s.loop.formation ∧ own.roster = s.loop.roster)
      ∧ ((heardCell loopMark).good = true ∧ loopMark.markWellFormed = true
        ∧ loopMark.roster ≠ s.loop.roster)
      ∧ (builtMark 8#8 fiveFirst).header.markFormation ≠ s.loop.formation
      ∧ (builtTail 5 7#8).kind = .tail ∧ (heardCell (builtTail 3 7#8)).good = true
      ∧ (builtTail 3 7#8).header.originator ≠ s.port.station
      ∧ (builtTail 5 8#8).header.tailFormation ≠ s.loop.formation
      ∧ (torn (builtTail 5 7#8)).good = false
      ∧ ((builtTail 5 7#8).header.originator = s.port.station
        ∧ (builtTail 5 7#8).header.tailFormation = s.loop.formation) := by decide +kernel

theorem test_witness_NonOriginatorInsertsAndRunsOnTheSecondMark :
    let s := building .nonOriginator 0 twoStations
    let done : State := { s with loop := { s.loop with inserted := true } }
    let once := building .nonOriginator 1 twoStations
    let tail := builtTail 3 7#8
    s.reporting .build ∧ done.reporting .build ∧ once.reporting .build
      ∧ s.loop.role = .nonOriginator ∧ s.loop.roster = ⟨3#8, 2#8⟩ :: [⟨5#8, 1#8⟩]
      ∧ (censusOf 3).kind = .census ∧ cell30.kind = .data ∧ cell30.header.ownershipGood = true
      ∧ (dataCell 3 0 0 4 0#8 0#8).header.ownershipGood = false
      ∧ tail.kind = .tail ∧ s.loop.inserted = false ∧ done.loop.inserted = true
      ∧ ((heardCell tail).good = true ∧ tail.header.originator = (3#8).setWidth 5
        ∧ tail.header.tailFormation = s.loop.formation ∧ tail.tailWellFormed = true)
      ∧ (builtCell .tail 3#8 7#8 0#8 (Vector.replicate 32 1#16)).tailWellFormed = false
      ∧ (heardCell (builtCell .tail 3#8 7#8 0#8 (Vector.replicate 32 1#16))).good = true
      ∧ (torn tail).good = false
      ∧ ((heardCell (builtTail 3 8#8)).good = true
        ∧ (builtTail 3 8#8).header.tailFormation ≠ s.loop.formation)
      ∧ loopMark.kind = .mark ∧ s.loop.buildMarks = 0
      ∧ (once.loop.buildMarks = 1 ∧ once.engine.table = [] ∧ once.engine.sweep.active = false)
      ∧ (headTorn loopMark).good = false
      ∧ ((heardCell loopMark).good = true ∧ loopMark.markWellFormed = true
        ∧ loopMark.header.markFormation = s.loop.formation ∧ loopMark.roster = s.loop.roster)
      ∧ ((heardCell (builtMark 8#8 twoStations)).good = true
        ∧ (builtMark 8#8 twoStations).markWellFormed = true
        ∧ (builtMark 8#8 twoStations).header.markFormation ≠ s.loop.formation) := by
  decide +kernel

theorem test_witness_PositionFaultsBreakTheLoop :
    (∀ p ∈ [0, 2, 3], (running p).reporting .running)
      ∧ loopMark.kind = .mark ∧ (running 0).tracker.position < rosterTotal (running 0).loop.roster
      ∧ (running 2).tracker.position < rosterTotal (running 2).loop.roster
      ∧ cell30.kind = .data ∧ (running 3).tracker.position = rosterTotal (running 3).loop.roster
      ∧ (∀ m ∈ [builtMark 7#8 [], builtMark 8#8 twoStations, builtMark 7#8 fiveFirst],
        m.kind = .mark ∧ (heardCell m).good = true)
      ∧ (builtMark 7#8 []).markWellFormed = false
      ∧ (builtMark 8#8 twoStations).header.markFormation ≠ (running 3).loop.formation
      ∧ (builtMark 7#8 fiveFirst).roster ≠ (running 3).loop.roster
      ∧ (builtTail 3 7#8).kind = .tail ∧ (censusOf 3).kind = .census := by decide +kernel

/-- A RUNNING station whose sweep has seen `n` MARKs. -/
def sweeping (p n : Nat) : State :=
  let s := running p
  { s with engine := { s.engine with sweep := { active := true, released := 0, marks := n } } }

theorem test_witness_MarkPassageTakesItsActions :
    (running 3).reporting .running ∧ (sweeping 3 0).reporting .running
      ∧ (sweeping 3 1).reporting .running ∧ loopMark.kind = .mark
      ∧ (running 3).tracker.position = rosterTotal (running 3).loop.roster
      ∧ (sweeping 3 0).tracker.position = rosterTotal (sweeping 3 0).loop.roster
      ∧ (running 3).engine.sweep.active = false
      ∧ ((sweeping 3 0).engine.sweep.active = true ∧ (sweeping 3 0).engine.sweep.marks = 0)
      ∧ ((sweeping 3 1).engine.sweep.active = true ∧ (sweeping 3 1).engine.sweep.marks = 1)
      ∧ (heardCell loopMark).good = true ∧ loopMark.markWellFormed = true
      ∧ loopMark.header.markFormation = (running 3).loop.formation
      ∧ loopMark.roster = (running 3).loop.roster
      ∧ (headTorn loopMark).good = false := by decide +kernel

/-- The damage count of a RUNNING station. -/
def hurt (n : Nat) (s : State) : State := { s with tracker := { s.tracker with damage := n } }

theorem test_witness_DataCellsAreExaminedInOrder :
    (∀ n ∈ [0, 6, 7], ∀ p ∈ [0, 2], (hurt n (running p)).reporting .running
        ∧ (hurt n (running p)).tracker.position < rosterTotal (running p).loop.roster
        ∧ (hurt n (running p)).tracker.damage ≤ 7)
      ∧ (hurt 6 (running 0)).tracker.damage < 7 ∧ (hurt 7 (running 0)).tracker.damage = 7
      ∧ expectedAddress twoStations 1 = ⟨3, 0⟩
      ∧ cell30.kind = .data ∧ (headTorn cell30).headerGood = false
      ∧ (heardCell (dataCell 3 1 0 0 0#8 0#8)).headerGood = true
      ∧ (dataCell 3 1 0 0 0#8 0#8).header.address ≠ ⟨3, 0⟩
      ∧ (heardCell (dataCell 3 0 4 4 0#8 0#8)).headerGood = true
      ∧ (dataCell 3 0 4 4 0#8 0#8).header.address = ⟨3, 0⟩
      ∧ (dataCell 3 0 4 4 0#8 0#8).header.ownershipGood = false
      ∧ ((torn cell30).headerGood = true ∧ cell30.header.address = ⟨3, 0⟩
        ∧ cell30.header.ownershipGood = true ∧ (torn cell30).payloadGood = false
        ∧ cell30.header.damaged = false)
      ∧ (heardCell cell30).payloadGood = true
      ∧ (dataCell 3 0 0 0 2#8 0#8).header.damaged = true := by decide +kernel

theorem test_witness_HeaderWritesAreExact :
    stationLegal 1 = true ∧ stationLegal 30 = true := by decide

/-- A cell of the loop passes at its position as received, repaired or marked, also as the seventh
finding of the revolution; station 5 repairs its own cell too. -/
theorem test_arrivals_handed_on :
    passes (running 0) cell30 ∧ passes (running 2) (dataCell 5 0 3 0 0#8 1#8)
      ∧ (∀ n ∈ [0, 6], ∀ r ∈ [headTorn cell30, torn cell30, heardCell (dataCell 3 1 0 0 0#8 0#8)],
        arrives (hurt n (running 0)) r)
      ∧ (∀ r ∈ [headTorn (dataCell 5 0 0 0 0#8 0#8), torn (dataCell 5 0 0 0 0#8 0#8)],
        arrives (running 2) r)
      ∧ ((running 0).examined (headTorn cell30)).2 = (.header, repairedCell cell30 ⟨3, 0⟩)
      ∧ ((running 0).examined (torn cell30)).2 = (.payload, markedCell cell30) := by decide +kernel

theorem test_witness_UntouchedPassageRecordsRefreshesAndWatches :
    (∀ s ∈ [running 0, watching (running 0), hurt 6 (watching (running 0))],
        ∀ r ∈ [heardCell cell30, headTorn cell30, torn cell30],
          arrives s r
            ∧ ¬((s.examined r).2.2.header.owner = s.port.station
              ∧ (s.examined r).2.2.header.handoff = true)
            ∧ (∀ e ∈ s.engine.table, e.position ≠ s.tracker.position + 1)
            ∧ s.engine.sweep.active = false
            ∧ (s.examined r).2.2.header.reserver ≠ s.port.station
            ∧ (s.examined r).2.2.header.address.station ≠ s.port.station)
      ∧ seenAt (running 0).watch.seen 1 = none
      ∧ seenAt (watching (running 0)).watch.seen 1 = some ⟨0#8, 0#5⟩
      ∧ (let own := heardCell (dataCell 5 0 0 0 0#8 0#8)
        arrives (running 2) own
          ∧ ((running 2).examined own).2.2.header.address.station = (running 2).port.station
          ∧ ((running 2).examined own).2.2.header.damaged = false)
      ∧ (∀ r ∈ [heardCell (dataCell 5 0 0 0 2#8 0#8), headTorn (dataCell 5 0 0 0 0#8 0#8),
          torn (dataCell 5 0 0 0 0#8 0#8)],
        arrives (running 2) r
          ∧ ((running 2).examined r).2.2.header.address.station = (running 2).port.station
          ∧ ((running 2).examined r).2.2.header.damaged = true) := by decide +kernel

/-- An entry fires on a new owner; a cell is compared as repaired, so that the third arrival
leaves its DAMAGE FOUND notice alone. -/
theorem test_watch_entries_fire_or_not :
    (after (.cellArrival (heardCell cell30)) (watching (running 0))).queues.notices = []
      ∧ (after (.cellArrival (heardCell (dataCell 3 0 9 0 0#8 0#8)))
        (watching (running 0))).queues.notices.length = 1
      ∧ (after (.cellArrival (headTorn (dataCell 3 0 9 0 0#8 7#8)))
        (watching (running 0))).queues.notices.length = 1 := by decide +kernel

/-- Four READs of cell 3.0 in turn, a READ of cell 5.0 between them, and then one more entry. -/
def fourAhead (last : Entry) : List Entry :=
  (List.range 4).map (fun i => entry (natByte (i + 11)) (.read ⟨3, 0⟩) 1)
    ++ [entry 20#8 (.read ⟨5, 0⟩) 3] ++ last :: []

/-- A CLAIM of cell 3.0 with tag 1. -/
def claim30 (state : EntryState) : Entry := entry 1#8 (.claim ⟨3, 0⟩) 1 state

/-- One request in the table for position 1, with a READ of cell 5.0 before it. -/
def oneAtOne (q : Request) (state : EntryState) : State :=
  withEntries (running 0) ([entry 2#8 (.read ⟨5, 0⟩) 3] ++ entry 1#8 q 1 state :: [])

theorem test_witness_PassageServesAtMostFour :
    (let s := withEntries (running 2) (reads 5)
      let c := dataCell 5 0 0 0 0#8 0#8
      passes s c ∧ ¬(c.header.owner = s.port.station ∧ c.header.handoff = true)
        ∧ s.tracker.position + 1 = 3)
      ∧ (∀ c ∈ [dataCell 3 0 9 0 0#8 0#8, dataCell 3 0 9 5 0#8 0#8],
        passes (withEntries (running 0) (fourAhead (claim30 .reserved))) c
          ∧ ¬(c.header.owner = 5 ∧ c.header.handoff = true))
      ∧ arrives (withEntries (running 0) (fourAhead (claim30 .reserved))) (headTorn cell30)
      ∧ passes (oneAtOne (.claim ⟨3, 0⟩) .reserved) (dataCell 3 0 9 5 0#8 0#8)
      ∧ passes (withEntries (running 0) (fourAhead (claim30 .reserved)))
        (dataCell 3 0 5 9 1#8 0#8) := by
  refine ⟨?_, ?_, ?_, ?_, ?_⟩ <;> decide +kernel

theorem test_five_reads_four_served :
    (after (.cellArrival (heardCell (dataCell 5 0 0 0 0#8 0#8)))
      (withEntries (running 2) (reads 5))).engine.table.map Entry.tag = [5#8] := by decide +kernel

/-- R88: a RESERVED CLAIM taken up stays in the state of its turn. -/
theorem test_reservation_taken_up :
    (∀ x ∈ [(dataCell 3 0 9 5 0#8 0#8, EntryState.reserved),
        (dataCell 3 0 9 30 0#8 0#8, EntryState.pending)],
      ((after (.cellArrival (heardCell x.1))
        (oneAtOne (.claim ⟨3, 0⟩) .reserved)).engine.table.map Entry.state) = [.pending, x.2]) := by
  decide +kernel

/-- R89: a deferred RESERVED CLAIM stays so only while the cell carries the reservation. -/
theorem test_deferred_reservation :
    (∀ x ∈ [(dataCell 3 0 9 0 0#8 0#8, EntryState.pending),
        (dataCell 3 0 9 5 0#8 0#8, EntryState.reserved)],
      ((after (.cellArrival (heardCell x.1)) (withEntries (running 0)
        (fourAhead (claim30 .reserved)))).engine.table.map Entry.state) = [.pending, x.2]) := by
  decide +kernel

/-- The one request is served alone at the passage of what an arrival is made into. -/
abbrev aloneFor (q : Request) (state : EntryState) (r : Reception) : Prop :=
  let s := oneAtOne q state
  let x := s.examined r
  s.servesAlone r x.1 x.2.1 x.2.2 [entry 2#8 (.read ⟨5, 0⟩) 3] (entry 1#8 q 1 state) []
    ∧ ¬(x.2.2.header.owner = 5 ∧ x.2.2.header.handoff = true)

/-- Two requests in the table for position 1, with a READ of cell 5.0 between them. -/
def twoAtOne (q q' : Request) : State :=
  withEntries (running 0) ([] ++ entry 1#8 q 1 ::
    ([entry 2#8 (.read ⟨5, 0⟩) 3] ++ entry 3#8 q' 1 :: []))

/-- The two requests are served at one passage of the cell as received. -/
abbrev bothFor (q q' : Request) (c : Cell) : Prop :=
  (twoAtOne q q').servesTwo (heardCell c) (twoAtOne q q') .none c [] (entry 1#8 q 1)
      [entry 2#8 (.read ⟨5, 0⟩) 3] (entry 3#8 q' 1) []
    ∧ ¬(c.header.owner = 5 ∧ c.header.handoff = true) ∧ c.header.reserver ≠ 5

theorem test_witness_ReadingRequestsLeaveTheCellUnchanged :
    (∀ q ∈ [Request.read ⟨3, 0⟩, .header ⟨3, 0⟩, .peek 1#16, .verify ⟨3, 0⟩ 0 [0#16],
          .verify ⟨3, 0⟩ 31 [1#16], .verify ⟨3, 0⟩ 0 (List.replicate 32 0#16)],
        ∀ r ∈ [heardCell cell30, heardCell (dataCell 3 0 0 0 2#8 0#8), headTorn cell30,
            torn cell30, heardCell (dataCell 3 0 9 5 0#8 0#8)],
          aloneFor q .pending r)
      ∧ (dataCell 3 0 9 5 0#8 0#8).header.reserver = 5
      ∧ cell30.header.damaged = false
      ∧ (dataCell 3 0 0 0 2#8 0#8).header.damaged = true
      ∧ 31 + [1#16].length ≤ 32 ∧ 0 + (List.replicate 32 0#16).length ≤ 32
      ∧ (∀ i, i < 32 →
        payloadWord cell30.payload (0 + i) = (List.replicate 32 0#16).getD i 0#16)
      ∧ (0 < [1#16].length ∧ payloadWord cell30.payload (31 + 0) ≠ [1#16].getD 0 0#16) := by
  decide +kernel

theorem test_witness_WriteIsJudgedThenApplied :
    (∀ q ∈ [Request.write ⟨3, 0⟩ 0 [7#16] none, .write ⟨3, 0⟩ 31 [7#16] (some 1#8),
          .write ⟨3, 0⟩ 0 (List.replicate 32 7#16) (some 0#8)],
        ∀ r ∈ [heardCell cell30, heardCell (dataCell 3 0 9 0 0#8 0#8),
            heardCell (dataCell 3 0 9 5 0#8 0#8), heardCell (dataCell 3 0 5 0 2#8 0#8),
            headTorn cell30, torn cell30],
          aloneFor q .pending r)
      ∧ (∀ c ∈ [dataCell 3 0 9 0 0#8 0#8, dataCell 3 0 9 5 0#8 0#8],
        c.header.owner ≠ noStation ∧ c.header.owner ≠ (running 0).port.station)
      ∧ cell30.header.owner = noStation
      ∧ (dataCell 3 0 5 0 2#8 0#8).header.owner = (running 0).port.station
      ∧ 1#8 ≠ cell30.header.generation
      ∧ ((dataCell 3 0 5 0 2#8 0#8).header.damaged = true
        ∧ ¬(0 = 0 ∧ [7#16].length = 32)) := by decide +kernel

/-- The premises of the clauses about two entries of one window. -/
theorem test_witness_WriteSeesTheCellInHand :
    (∀ w ∈ [Request.write ⟨3, 0⟩ 0 [7#16] none, .write ⟨3, 0⟩ 31 [7#16] (some 0#8)],
        ∀ q ∈ [Request.read ⟨3, 0⟩, .write ⟨3, 0⟩ 5 [9#16] (some 0#8)],
          ∀ c ∈ [cell30, dataCell 3 0 5 0 0#8 0#8], bothFor w q c ∧ c.header.damaged = false
            ∧ (c.header.owner = noStation ∨ c.header.owner = 5) ∧ c.header.generation = 0#8)
      ∧ (let whole := Request.write ⟨3, 0⟩ 0 (List.replicate 32 7#16) none
        let c := dataCell 3 0 0 0 2#8 0#8
        bothFor whole (.read ⟨3, 0⟩) c ∧ c.header.damaged = true
          ∧ (List.replicate 32 (7#16 : Word)).length = 32)
      ∧ (let c := dataCell 3 0 5 9 0#8 0#8
        bothFor (.release ⟨3, 0⟩) (.write ⟨3, 0⟩ 0 [7#16] none) c ∧ c.header.owner = 5
          ∧ c.header.reserver ≠ noStation) := by
  refine ⟨?_, ?_, ?_⟩ <;> decide +kernel

/-- R90: of two WRITEs with one expected generation the second is STALE. -/
theorem test_two_writes_of_one_generation :
    let w := Request.write ⟨3, 0⟩ 0 [7#16] (some 0#8)
    (after (.cellArrival (heardCell cell30)) (twoAtOne w w)).queues.completions.map
      Completion.result = [.done, .stale] := by decide +kernel

theorem test_witness_OwnershipRequestsFollowTheirTables :
    (∀ state ∈ [EntryState.pending, .reserved, .withdrawing .timeout, .withdrawing .aborted],
        ∀ c ∈ [dataCell 3 0 0 0 0#8 0#8, dataCell 3 0 5 0 0#8 0#8, dataCell 3 0 5 9 0#8 0#8,
          dataCell 3 0 9 0 0#8 0#8, dataCell 3 0 9 5 0#8 0#8, dataCell 3 0 9 30 0#8 0#8],
          aloneFor (.claim ⟨3, 0⟩) state (heardCell c))
      ∧ (∀ c ∈ [dataCell 3 0 5 9 0#8 0#8, dataCell 3 0 5 0 0#8 0#8, dataCell 3 0 0 0 0#8 0#8,
          dataCell 3 0 9 0 1#8 0#8, dataCell 3 0 9 5 0#8 0#8],
        aloneFor (.release ⟨3, 0⟩) .pending (heardCell c))
      ∧ aloneFor (.claim ⟨3, 0⟩) .reserved (headTorn cell30)
      ∧ aloneFor (.release ⟨3, 0⟩) .pending (torn cell30)
      ∧ (dataCell 3 0 0 0 0#8 0#8).header.owner = noStation
      ∧ (dataCell 3 0 5 9 0#8 0#8).header.owner = 5
      ∧ (dataCell 3 0 5 9 0#8 0#8).header.reserver ≠ noStation
      ∧ (dataCell 3 0 5 0 0#8 0#8).header.reserver = noStation
      ∧ (dataCell 3 0 9 5 0#8 0#8).header.reserver = 5
      ∧ (dataCell 3 0 9 30 0#8 0#8).header.reserver = 30 := by
  refine ⟨?_, ?_, ?_, ?_, ?_, ?_, ?_, ?_, ?_, ?_⟩ <;> decide +kernel

/-- Cell 3.0 handed over to station 5, without and with a reserver. -/
def handedOver : List Cell := [dataCell 3 0 5 0 1#8 0#8, dataCell 3 0 5 9 1#8 0#8]

theorem test_witness_HandoffCompletesReturnsOrReportsAnOrphan :
    (∀ c ∈ handedOver, c.header.owner = (running 0).port.station ∧ c.header.handoff = true)
      ∧ (∀ c ∈ handedOver, ∀ s ∈ [running 0, watching (running 0), sweeping 0 0, sweeping 0 1],
        passes s c ∧ ∀ e ∈ s.engine.table, e.position ≠ s.tracker.position + 1)
      ∧ (∀ c ∈ handedOver, ((watching (running 0)).watchNotice c).isSome = true)
      ∧ (∀ c ∈ handedOver, ∀ state ∈ [EntryState.pending, .reserved, .withdrawing .timeout,
          .withdrawing .aborted],
        let s := oneAtOne (.claim ⟨3, 0⟩) state
        s.servesAlone (heardCell c) s .none c [entry 2#8 (.read ⟨5, 0⟩) 3] (claim30 state) [])
      ∧ (∀ c ∈ handedOver,
        let s := oneAtOne (.release ⟨3, 0⟩) .pending
        s.servesAlone (heardCell c) s .none c [entry 2#8 (.read ⟨5, 0⟩) 3]
          (entry 1#8 (.release ⟨3, 0⟩) 1) [])
      ∧ (arrives (running 0) (torn (dataCell 3 0 5 9 1#8 0#8))
        ∧ ((running 0).examined (torn (dataCell 3 0 5 9 1#8 0#8))).2.2.header.handoff = true)
      ∧ (dataCell 3 0 5 0 1#8 0#8).header.reserver = noStation
      ∧ (dataCell 3 0 5 9 1#8 0#8).header.reserver ≠ noStation := by
  refine ⟨?_, ?_, ?_, ?_, ?_, ?_, ?_, ?_⟩ <;> decide +kernel

/-- R107: an orphan is returned beside a RELEASE, which is NOT OWNER, and during a sweep. -/
theorem test_orphan_is_returned :
    let orphan := heardCell (dataCell 3 0 5 9 1#8 0#8)
    let t := after (.cellArrival orphan) (oneAtOne (.release ⟨3, 0⟩) .pending)
    t.line.store = [dataCell 3 0 9 0 1#8 0#8] ∧ t.queues.notices.length = 1
      ∧ t.queues.completions.map Completion.result = [.notOwner]
      ∧ (after (.cellArrival orphan) (sweeping 0 0)).line.store = [dataCell 3 0 9 0 1#8 0#8] := by
  decide +kernel

theorem test_witness_SweepAndStaleClearingFreeCells :
    (∀ c ∈ [dataCell 3 0 5 0 0#8 0#8, dataCell 3 0 5 9 0#8 0#8],
        passes (sweeping 0 0) c ∧ c.header.handoff = false
          ∧ (sweeping 0 0).engine.sweep.active = true ∧ (sweeping 0 0).engine.table = []
          ∧ c.header.owner = (sweeping 0 0).port.station)
      ∧ (∀ c ∈ [dataCell 3 0 9 5 0#8 0#8, dataCell 3 0 9 5 1#8 0#8],
        ((watching (running 0)).watchNotice c).isSome = true
        ∧ (∀ s ∈ [running 0, watching (running 0), sweeping 0 0], passes s c
          ∧ (∀ e ∈ s.engine.table, e.position ≠ s.tracker.position + 1)
          ∧ c.header.reserver = s.port.station)
        ∧ ∀ state ∈ [EntryState.pending, .withdrawing .timeout, .withdrawing .aborted],
          let s := withEntries (running 0) (fourAhead (claim30 state))
          let before := (fourAhead (claim30 state)).take 5
          passes s c ∧ s.engine.table = before ++ claim30 state :: []
            ∧ (claim30 state).position = s.tracker.position + 1
            ∧ (claim30 state).request.kind = .claim
            ∧ (before.filter fun x => x.position == s.tracker.position + 1).length = 4
            ∧ ∀ x ∈ before, x.position = s.tracker.position + 1 → x.request.kind = .read)
      ∧ (dataCell 3 0 9 5 1#8 0#8).header.handoff = true := by
  refine ⟨?_, ?_, ?_⟩ <;> decide +kernel

/-- R125, R129: DAMAGE FOUND, the watch notice, then the notice of the stages, by their kind codes;
the seen entry takes the departing cell. -/
theorem test_notices_in_order :
    ∀ x ∈ [(heardCell (dataCell 3 0 5 9 1#8 0#8), [3#8, 4#8]),
        (heardCell (dataCell 3 0 9 5 1#8 0#8), [3#8, 5#8]),
        (torn (dataCell 3 0 9 5 0#8 0#8), [1#8, 3#8, 5#8])],
      let t := after (.cellArrival x.1) (watching (running 0))
      (t.queues.notices.map fun n => n.body.kindCode) = x.2
        ∧ seenAt t.watch.seen 1 = some ⟨0#8, 9#5⟩ := by decide +kernel

theorem test_witness_ReservedEntriesHoldTheReservation :
    (∀ state ∈ [EntryState.pending, .reserved, .withdrawing .aborted],
        ∀ s ∈ [oneAtOne (.claim ⟨3, 0⟩) state, withEntries (running 0) (fourAhead (claim30 state))],
          ∀ r ∈ [heardCell (dataCell 3 0 9 5 0#8 0#8), headTorn cell30,
              torn (dataCell 3 0 9 5 0#8 0#8)],
            arrives s r ∧ s.quiet ∧ s.tableSound ∧ distinctStations s.loop.roster = true) := by
  decide +kernel

theorem test_witness_CompletionsKeepTheCommitment :
    exec (.cellArrival (heardCell (dataCell 5 0 0 0 0#8 0#8))) (withEntries (running 2) (reads 5))
        = .next (after (.cellArrival (heardCell (dataCell 5 0 0 0 0#8 0#8)))
          (withEntries (running 2) (reads 5)))
      ∧ (∀ f, Instr.cellArrival (heardCell cell30) ≠ .submit f)
      ∧ Instr.cellArrival (heardCell cell30) ≠ .takeFinalByte
      ∧ (∀ o, Instr.cellArrival (heardCell cell30) ≠ .reset o)
      ∧ Instr.cellArrival (heardCell cell30) ≠ .stationReset :=
  ⟨exec_after _ _, nofun, nofun, nofun, nofun⟩

/-- A step with one command waiting answers the state that the command leaves. -/
theorem step_after (c : Instr) (s : State) :
    step { s with pending := [c] } = .next (after c { s with pending := [] }) :=
  exec_after c _

/-- A RUNNING station with an entry, a record, a lost count, a watch entry, a seen entry and a
stored cell, and with a command waiting. -/
def busy : State :=
  let s := withEntries (watching (running 0)) [entry 1#8 (.claim ⟨3, 0⟩) 1 .reserved]
  { (waiting s 1 [lostNotice]).entered [cell30] with pending := [Instr.breakFillReceived] }

/-- The premises of the statements about every step. -/
theorem test_witness_Invariants :
    busy.bounded ∧ busy.lostStands ∧ busy.quiet ∧ busy.modeAgrees ∧ busy.timersAgree
      ∧ busy.loopSound ∧ busy.trackerAgrees ∧ busy.seenSound ∧ busy.tableSound
      ∧ busy.storeSound := by
  refine ⟨?_, ?_, ?_, ?_, ?_, ?_, ?_, ?_, ?_, ?_⟩ <;> decide +kernel

/-- The premise about the station number, in RUNNING and while RESETN is held. -/
theorem test_witness_StationSound :
    (running 0).stationSound ∧ (asking State.reset).resetHeld = true
      ∧ ({ State.reset with pending := [Instr.take] } : State).stationSound := by decide +kernel

end Sys2Proof.Tests
end

section
/-! Proofs of the statements about cells and the loop: rules that say once what an operation does to
the room of the queues, to loop control and the mode, to the station and to the store, and the
invariants and results that follow from them. -/

namespace Sys2Proof.Machine

/-! ### What an operation does to the store, the table and the queues -/

/-- From `s` to `t` nothing outgrows its room: the store stays within its capacity, the fill owed
and the table do not grow, requests leave the table for the completion queue alone, and notices are
posted, none of them a LOST record (R12, R62, R148, R150). -/
structure WithinRoom (s t : State) : Prop where
  store : s.line.store.length ≤ Config.storeCapacity → t.line.store.length ≤ Config.storeCapacity
  gap : t.line.gap ≤ s.line.gap
  table : t.engine.table.length ≤ s.engine.table.length
  commitment : t.commitment = s.commitment
  posted : s.queues.Posted t.queues

/-- One operation after another. -/
theorem WithinRoom.trans {s t u : State} (h : WithinRoom s t) (h' : WithinRoom t u) :
    WithinRoom s u where
  store := fun hs => h'.store (h.store hs)
  gap := h'.gap.trans h.gap
  table := h'.table.trans h.table
  commitment := h'.commitment.trans h.commitment
  posted := h.posted.trans h'.posted

/-- An operation on the store and the notices alone. -/
theorem WithinRoom.of_table_kept {s t : State}
    (hs : s.line.store.length ≤ Config.storeCapacity → t.line.store.length ≤ Config.storeCapacity)
    (hg : t.line.gap ≤ s.line.gap) (ht : t.engine.table = s.engine.table)
    (hc : t.queues.completions = s.queues.completions) (hp : s.queues.Posted t.queues) :
    WithinRoom s t where
  store := hs
  gap := hg
  table := by rw [ht]
  commitment := by simp only [State.commitment, ht, hc]
  posted := hp

/-- An operation that touches neither the store, the table nor the queues. -/
theorem WithinRoom.same {s t : State} (hs : t.line.store = s.line.store)
    (hg : t.line.gap ≤ s.line.gap) (ht : t.engine.table = s.engine.table)
    (hq : t.queues = s.queues) : WithinRoom s t :=
  .of_table_kept (fun h => hs ▸ h) hg ht (by rw [hq]) (.same (by rw [hq]) (by rw [hq]))

/-- Nothing happens. -/
theorem WithinRoom.refl (s : State) : WithinRoom s s := .same rfl le_rfl rfl rfl

/-- A write to loop control alone. -/
theorem WithinRoom.loop (s : State) (l : Loop) : WithinRoom s { s with loop := l } :=
  .same rfl le_rfl rfl rfl

/-- A write to the tracker alone. -/
theorem WithinRoom.tracker (s : State) (t : Tracker) : WithinRoom s { s with tracker := t } :=
  .same rfl le_rfl rfl rfl

/-- One posting of a notice that is no LOST record. -/
theorem Queues.posted_post (q : Queues) (n : Notice) (h : n.isLost = false) :
    q.Posted (q.post n) := (Queues.Posted.same rfl rfl).post n h rfl rfl

theorem State.enterCell_withinRoom (s : State) (c : Cell) : WithinRoom s (s.enterCell c) :=
  .of_table_kept (storeEnter_length_le _ _) le_rfl rfl rfl (.same rfl rfl)

theorem State.enterCells_withinRoom (s : State) (cs : List Cell) :
    WithinRoom s (s.enterCells cs) := by
  rw [State.enterCells_eq]
  exact .of_table_kept (storeEnter_foldl_length_le _ _) le_rfl rfl rfl (.same rfl rfl)

theorem State.enterBroken_withinRoom (s : State) (reason : Reason) :
    WithinRoom s (s.enterBroken reason) := by
  obtain ⟨hc, hp⟩ := s.queuesBroken_spec reason
  rw [State.enterBroken_eq]
  refine ⟨fun _ => Nat.zero_le _, le_rfl, Nat.zero_le _, ?_, hp⟩
  simp [State.commitment, hc, Nat.add_comm]

theorem State.enterCensus_withinRoom (s : State) (hosted : Byte) (restore : Bool) :
    WithinRoom s (s.enterCensus hosted restore) := by
  rw [State.enterCensus_eq]
  refine .of_table_kept ?_ ?_ rfl (Queues.completions_post _ _) (Queues.posted_post _ _ rfl)
  · dsimp only
    split <;> exact id
  · dsimp only
    split <;> exact le_rfl

theorem State.enterBuild_withinRoom (s : State) (roster : List RosterEntry) (formation : Byte)
    (role : Role) : WithinRoom s (s.enterBuild roster formation role) := by
  rw [State.enterBuild_eq]
  exact .of_table_kept (storeEnter_foldl_length_le _ _) le_rfl rfl (Queues.completions_post _ _)
    (Queues.posted_post _ _ rfl)

theorem State.enterRunning_withinRoom (s : State) : WithinRoom s s.enterRunning := by
  rw [State.enterRunning_eq]
  exact .of_table_kept id le_rfl rfl (Queues.completions_post _ _) (Queues.posted_post _ _ rfl)

theorem State.enterExcluded_withinRoom (s : State) : WithinRoom s s.enterExcluded := by
  rw [State.enterExcluded_eq]
  exact .of_table_kept id le_rfl rfl (Queues.completions_post _ _) (Queues.posted_post _ _ rfl)

theorem State.found_withinRoom (s : State) (f : Finding) (p : Nat) (b : Bool) :
    WithinRoom s (s.found f p b) :=
  .of_table_kept id le_rfl rfl (Queues.completions_post _ _) (Queues.posted_post _ _ rfl)

theorem State.positionFault_withinRoom (s : State) (cause : FaultCause) (p : Nat) :
    WithinRoom s (s.positionFault cause p) :=
  (WithinRoom.tracker s _).trans (State.enterBroken_withinRoom _ _)

/-- A MARK passage leaves every entry in the table or records it as timed out. -/
theorem length_markedTable (table : List Entry) (revolution : Word) :
    (markedTable table).length + (markRecords table revolution).length = table.length := by
  have h := (table.map Entry.markSeen).length_eq_length_filter_add Entry.timesOut
  simp only [markedTable, markRecords, List.length_map] at h ⊢
  omega

theorem State.markPassage_withinRoom (s : State) (mark : Cell) (rewritten : Option Bool) :
    WithinRoom s (s.markPassage mark rewritten) := by
  obtain ⟨q, damage, sweep, e, hc, hp, -⟩ := s.markPassage_eq mark rewritten
  have hl := length_markedTable s.engine.table (s.tracker.revolution + 1#16)
  rw [e]
  refine ⟨storeEnter_length_le _ _, le_rfl, ?_, ?_, hp⟩
  · dsimp only
    omega
  · simp only [State.commitment, hc, List.length_append]
    omega

/-- The serve window keeps or completes every entry. -/
theorem length_serveEntries (me : Code5) (a : Arrival) (rev : Word) (es : List Entry) :
    ∀ (n : Nat) (h : Hand), (serveEntries me a rev n es h).kept.length
      + (serveEntries me a rev n es h).records.length = es.length := by
  induction es with
  | nil => intro n h; rfl
  | cons e es ih =>
    intro n h
    have one : ∀ n h, (serveEntries me a rev n es h).kept.length + 1
        + (serveEntries me a rev n es h).records.length = es.length + 1 := fun n h => by
      have := ih n h
      omega
    simp only [serveEntries]
    split
    · cases n with
      | zero => exact one 0 h
      | succ n =>
        dsimp only
        split
        · exact one n _
        · exact (Nat.add_assoc _ _ 1).symm.trans (congrArg (· + 1) (ih n _))
    · exact one n h

theorem State.serviceStage_withinRoom (s : State) (a : Arrival) (n : Nat) (h : Hand) :
    WithinRoom s (s.serviceStage a n h).1 := by
  have hl := length_serveEntries s.port.station a s.tracker.revolution s.engine.table n h
  refine ⟨id, le_rfl, ?_, ?_, .same rfl rfl⟩
  · simp only [State.serviceStage, State.engine_pushRecords, State.engine_withTable,
      List.length_map]
    omega
  · simp only [State.serviceStage, State.commitment, State.engine_pushRecords,
      State.engine_withTable, State.queues_pushRecords, State.queues_withTable, List.length_map,
      List.length_append]
    omega

/-- A stage of a passage that keeps the line, judged by what it does to the table and the
queues. -/
theorem Passed.withinRoom {s t : State} {p n : Nat} (hl : t.line = s.line)
    (h : Passed p s.engine.table t.engine.table s.queues t.queues n) : WithinRoom s t := by
  obtain ⟨records, hc, hlen, -⟩ := h.records
  refine ⟨fun hs => hl ▸ hs, by rw [hl], by omega, ?_, h.posted⟩
  simp only [State.commitment, hc, List.length_append]
  omega

theorem State.stages_withinRoom (s : State) (a : Arrival) : WithinRoom s (s.stages a).1 := by
  have hw : WithinRoom s (s.watchCompare a.position a.cell) := by
    obtain ⟨q, e, -⟩ := s.watchCompare_eq a.position a.cell
    exact (s.watchCompare_passed a.position a.cell).withinRoom (by rw [e])
  simp only [State.stages]
  generalize s.watchCompare a.position a.cell = w at hw ⊢
  have hh : WithinRoom w (w.handoffStep a ⟨a.cell, false⟩).1 := by
    obtain ⟨tb, q, e⟩ := w.handoffStep_eq a ⟨a.cell, false⟩
    obtain ⟨n, -, hp⟩ := w.handoffStep_passed a ⟨a.cell, false⟩
    exact hp.withinRoom (by rw [e])
  generalize w.handoffStep a ⟨a.cell, false⟩ = r at hh ⊢
  have hv := r.1.serviceStage_withinRoom a r.2.2 r.2.1
  generalize r.1.serviceStage a r.2.2 r.2.1 = u at hv ⊢
  have hk : WithinRoom u.1 (u.1.sweepStage u.2).1 := by
    obtain ⟨k, e⟩ := u.1.sweepStage_eq u.2
    rw [e]
    exact .same rfl le_rfl rfl rfl
  generalize u.1.sweepStage u.2 = v at hk ⊢
  have hc : WithinRoom v.1 (v.1.staleStage a v.2).1 := by
    obtain ⟨q, e, -⟩ := v.1.staleStage_eq a v.2
    exact (v.1.staleStage_passed a v.2).withinRoom (by rw [e])
  exact hw.trans (hh.trans (hv.trans (hk.trans hc)))

theorem State.passage_withinRoom (s : State) (a : Arrival) : WithinRoom s (s.passage a) := by
  refine s.stages_withinRoom a |>.trans ?_
  refine .trans ?_ (State.enterCell_withinRoom _ (s.departing a))
  unfold State.refreshHome
  split <;> exact .same rfl le_rfl rfl rfl

theorem State.trackArrival_withinRoom (s : State) (r : Reception) :
    WithinRoom s (s.trackArrival r) := by
  have advanced : WithinRoom s s.advanced := .tracker s _
  apply s.trackArrival_cases r
  case fault => exact fun cause p => s.positionFault_withinRoom cause p
  case mark => exact fun c rewritten _ _ => s.markPassage_withinRoom c rewritten
  case pass => exact fun a _ _ _ _ => advanced.trans (State.passage_withinRoom _ a)
  case found =>
    exact fun a f b _ _ _ _ _ =>
      advanced.trans ((State.found_withinRoom _ f _ b).trans (State.passage_withinRoom _ a))
  case burst =>
    exact fun f b =>
      advanced.trans ((State.found_withinRoom _ f _ b).trans (State.enterBroken_withinRoom _ _))

theorem State.countMark_withinRoom (s : State) (c : Cell) : WithinRoom s (s.countMark c) := by
  have counted : WithinRoom s
      { s with loop := { s.loop with buildMarks := s.loop.buildMarks + 1 } } := .loop s _
  unfold State.countMark
  dsimp only
  split
  · exact counted.trans
      ((State.enterRunning_withinRoom _).trans (State.markPassage_withinRoom _ c none))
  · exact counted.trans (State.enterCell_withinRoom _ c)

theorem State.insertAhead_withinRoom (s : State) (tail : Cell) :
    WithinRoom s (s.insertAhead tail) := by
  unfold State.insertAhead
  split
  · exact s.enterCell_withinRoom tail
  · refine .trans ?_ (State.enterCell_withinRoom _ tail)
    exact (WithinRoom.loop s _).trans (State.enterCells_withinRoom _ s.hostedCells)

theorem State.originate_withinRoom (s : State) : WithinRoom s s.originate :=
  (WithinRoom.loop s _).trans (State.enterCell_withinRoom _ _)

theorem State.arrive_withinRoom (s : State) (r : Reception) : WithinRoom s (s.arrive r) := by
  apply s.arrive_cases r
  case keep => exact .refl s
  case enter => exact fun c _ => s.enterCell_withinRoom c
  case hear => exact fun n => WithinRoom.loop s _
  case hearEnter => exact fun n c _ => (WithinRoom.loop s _).trans (State.enterCell_withinRoom _ c)
  case duplicate => exact fun _ => s.enterBroken_withinRoom _
  case answer => exact fun c _ _ => (WithinRoom.loop s _).trans (State.enterCell_withinRoom _ _)
  case complete =>
    intro c _ _ _
    unfold State.completeCensus
    exact (WithinRoom.loop s _).trans (State.enterBuild_withinRoom _ _ _ _)
  case join =>
    exact fun n c _ _ _ _ => (WithinRoom.loop s _).trans
      ((State.enterCell_withinRoom _ c).trans (State.enterBuild_withinRoom _ _ _ _))
  case exclude =>
    exact fun n c _ _ _ => (WithinRoom.loop s _).trans
      ((State.enterCell_withinRoom _ c).trans (State.enterExcluded_withinRoom _))
  case insert => exact fun tail _ _ => s.insertAhead_withinRoom tail
  case count => exact fun l c _ _ _ => (WithinRoom.loop s l).trans (State.countMark_withinRoom _ c)
  case run => exact fun _ => s.enterRunning_withinRoom
  case track => exact fun _ => s.trackArrival_withinRoom r

/-! ### The room of the store, the table and the queues (O53) -/

/-- An ABORT writes the table and the completion queue alone (R76). -/
theorem abortEffect_eq (tag : Byte) (s : State) : ∃ table completions, (abortEffect tag s).1 =
    { s with engine := { s.engine with table }, queues := { s.queues with completions } } := by
  unfold abortEffect
  split
  · exact ⟨_, _, rfl⟩
  · split
    · exact ⟨_, _, rfl⟩
    · exact ⟨_, s.queues.completions, rfl⟩
    · exact ⟨_, _, rfl⟩

theorem abortEffect_withinRoom (tag : Byte) (s : State) : WithinRoom s (abortEffect tag s).1 := by
  unfold abortEffect
  split
  · exact .refl s
  · rename_i e he
    split
    · have hm : e ∈ s.engine.table := List.mem_of_find?_eq_some he
      have ht : (e.tag == tag) = true := List.find?_some (p := fun e : Entry => e.tag == tag) he
      have hl : (s.engine.table.eraseP fun e => e.tag == tag).length = s.engine.table.length - 1 :=
        List.length_eraseP_of_mem hm ht
      have hpos : 0 < s.engine.table.length := List.length_pos_of_mem hm
      refine ⟨id, le_rfl, ?_, ?_, .same rfl rfl⟩
      · simp only [State.engine_pushRecords, State.engine_withTable]
        omega
      · simp only [State.commitment, State.engine_pushRecords, State.engine_withTable,
          State.queues_pushRecords, State.queues_withTable, List.length_append,
          List.length_singleton]
        omega
    · refine ⟨id, le_rfl, ?_, ?_, .same rfl rfl⟩
      · simp
      · simp [State.commitment]
    · exact .refl s

/-- A property that every operation within its room keeps is kept by every step, if it is kept by
the few that are not: a station reset, a transmitted cell, an accepted SUBMIT, a host RESET, and
the final bytes of TAKE and NOTE. -/
theorem step_keeps_of_withinRoom {P : State → Prop}
    (within : ∀ s t : State, WithinRoom s t → P s → P t)
    (reset : ∀ (p : Port) (l : List Instr), P { State.reset with port := p, pending := l })
    (transmitted : ∀ s : State, P s → P { s with line := s.line.sent })
    (submit : ∀ (s : State) (e : Entry), P s → s.engine.table.length < 16 → s.commitment < 24 →
      P (s.addEntry e))
    (hostReset : ∀ (s : State) (b : Byte), P s → P (resetEffect b s).1)
    (taken : ∀ s : State, P s →
      P { s with queues := { s.queues with completions := s.queues.completions.tail } })
    (noted : ∀ s : State, P s →
      P { s with queues := s.queues.removeNotice s.tracker.revolution })
    (s t : State) (h : P s) (e : step s = .next t) : P t := by
  have same : ∀ s t : State, P s → t.line.store = s.line.store → t.line.gap ≤ s.line.gap →
      t.engine.table = s.engine.table → t.queues = s.queues → P t :=
    fun s t hs h1 h2 h3 h4 => within s t (.same h1 h2 h3 h4) hs
  have line : ∀ (s : State) (l : Line), l.store = s.line.store → l.mode = s.line.mode →
      l.fillFollowing = s.line.fillFollowing → l.gap ≤ s.line.gap → P s → P { s with line := l } :=
    fun s l hl _ _ hg hs => same s _ hs hl hg rfl rfl
  have port : ∀ (s : State) (p : Port), p.station = s.port.station → P s →
      P { s with port := p } := fun s p _ hs => same s _ hs rfl le_rfl rfl rfl
  refine step_keeps (P := P) (fun s rest hs => same s _ hs rfl le_rfl rfl rfl) line port ?_ s t h e
  intro i s h
  apply exec_keeps (P := P) line port
  case reset => exact fun s b _ => reset _ _
  case release => exact fun s x hs _ => same s _ hs rfl le_rfl rfl rfl
  case arrive => exact fun s r hs _ => within _ _ (s.arrive_withinRoom r) hs
  case broken => exact fun s reason hs _ => within _ _ (s.enterBroken_withinRoom reason) hs
  case transmitted => exact transmitted
  case listened => exact fun s hs _ _ _ => same s _ hs rfl le_rfl rfl rfl
  case originates =>
    exact fun s hs _ _ _ =>
      within _ _ ((WithinRoom.loop s _).trans (State.originate_withinRoom _)) hs
  case again => exact fun s hs _ _ _ _ => within _ _ s.originate_withinRoom hs
  case held =>
    intro s hs _
    refine same s _ hs ?_ ?_ rfl rfl
    · dsimp only
      split <;> rfl
    · dsimp only
      split <;> exact le_rfl
  case start => exact fun s c b hs _ _ _ => within _ _ (s.enterCensus_withinRoom c b) hs
  case submit =>
    intro s f q p hs hj
    obtain ⟨-, -, -, -, -, -, -, -, ht, hc⟩ := s.judgeSubmit_admitted f q p hj
    exact submit s _ hs ht hc
  case abort => exact fun s tag hs => within _ _ (abortEffect_withinRoom tag s) hs
  case watch => exact fun s n w hs => same s _ hs rfl le_rfl rfl rfl
  case load => exact fun s n e hs => same s _ hs rfl le_rfl rfl rfl
  case hostReset => exact hostReset
  case taken => exact taken
  case noted => exact noted
  case h => exact h

/-- An operation within its room keeps every bound. -/
theorem WithinRoom.bounded {s t : State} (h : WithinRoom s t) (hs : s.bounded) : t.bounded := by
  obtain ⟨store, gap, table, commitment, notices, lost⟩ := hs
  have hq := h.posted.spec.1 ⟨notices, lost⟩
  exact ⟨h.store store, h.gap.trans gap, h.table.trans table, h.commitment.trans_le commitment,
    hq.1, hq.2⟩

/-- A transmitted cell is owed two fill symbols at most, and leaves the store. -/
theorem Line.gap_sent_le (l : Line) (h : l.gap ≤ 2) : l.sent.gap ≤ 2 := by
  unfold Line.sent
  split
  · exact h
  · exact le_rfl

/-- The removal of a notice makes room for the LOST record that it may enter. -/
theorem Queues.removeNotice_bounded (q : Queues) (w : Word)
    (h : q.notices.length ≤ 16 ∧ q.lost ≤ 65535) :
    (q.removeNotice w).notices.length ≤ 16 ∧ (q.removeNotice w).lost ≤ 65535 := by
  unfold Queues.removeNotice
  dsimp only
  split
  · simp only [List.length_append, List.length_tail, List.length_singleton]
    omega
  · simp only [List.length_tail]
    omega

@[simp] theorem Queues.completions_removeNotice (q : Queues) (w : Word) :
    (q.removeNotice w).completions = q.completions := by
  unfold Queues.removeNotice
  dsimp only
  split <;> rfl

theorem step_keeps_bounded (s t : State) (h : s.bounded) (e : step s = .next t) : t.bounded := by
  refine step_keeps_of_withinRoom (fun s t hst => hst.bounded) ?reset ?transmitted ?submit
    ?hostReset ?taken ?noted s t h e
  case reset =>
    exact fun p l => ⟨Nat.zero_le _, Nat.zero_le _, Nat.zero_le _, Nat.zero_le _, Nat.zero_le _,
      Nat.zero_le _⟩
  case transmitted =>
    rintro s ⟨store, gap, rest⟩
    refine ⟨?_, s.line.gap_sent_le gap, rest⟩
    simp only [Line.store_sent, List.length_tail]
    omega
  case submit =>
    rintro s e ⟨store, gap, -, -, rest⟩ ht hc
    refine ⟨store, gap, ?_, ?_, rest⟩
    · simp only [State.engine_addEntry, List.length_append, List.length_singleton]
      omega
    · simp only [State.commitment, State.engine_addEntry, State.queues_addEntry,
        List.length_append, List.length_singleton] at hc ⊢
      omega
  case hostReset =>
    rintro s b ⟨store, gap, -⟩
    exact ⟨store, gap, Nat.zero_le _, Nat.zero_le _, Nat.zero_le _, Nat.zero_le _⟩
  case taken =>
    rintro s ⟨store, gap, table, commitment, rest⟩
    refine ⟨store, gap, table, ?_, rest⟩
    simp only [State.commitment, List.length_tail] at commitment ⊢
    omega
  case noted =>
    rintro s ⟨store, gap, table, commitment, rest⟩
    refine ⟨store, gap, table, ?_, s.queues.removeNotice_bounded _ rest⟩
    simpa only [State.commitment, Queues.completions_removeNotice] using commitment

/-- An operation within its room posts no LOST record, and posts a notice before it counts a lost
one. -/
theorem WithinRoom.lostStands {s t : State} (h : WithinRoom s t) (hs : s.lostStands) :
    t.lostStands := by
  obtain ⟨-, records, stands⟩ := h.posted.spec
  exact ⟨stands hs.1, by rw [records]; exact hs.2⟩

/-- After the removal of a notice a nonzero lost count is one whose LOST record still stands. -/
theorem Queues.removeNotice_lostStands (q : Queues) (w : Word)
    (h : (q.notices.filter Notice.isLost).length ≤ 1) :
    ((q.removeNotice w).lost ≠ 0 → (q.removeNotice w).notices ≠ [])
      ∧ ((q.removeNotice w).notices.filter Notice.isLost).length ≤ 1 := by
  unfold Queues.removeNotice
  dsimp only
  split
  · rename_i hn
    have none : q.notices.tail.filter Notice.isLost = [] := by
      simpa [List.filter_eq_nil_iff] using hn.2
    refine ⟨fun h0 => absurd rfl h0, ?_⟩
    rw [List.filter_append, none, List.nil_append]
    exact List.length_filter_le _ _
  · rename_i hn
    refine ⟨?_, (((List.tail_sublist _).filter _).length_le).trans h⟩
    intro hl hnil
    exact hn ⟨hl, congrArg (List.any · Notice.isLost) hnil⟩

theorem step_keeps_lostStands (s t : State) (h : s.lostStands) (e : step s = .next t) :
    t.lostStands := by
  refine step_keeps_of_withinRoom (fun s t hst => hst.lostStands) ?reset ?transmitted ?submit
    ?hostReset ?taken ?noted s t h e
  case reset => exact fun p l => ⟨fun h0 => absurd rfl h0, Nat.zero_le _⟩
  case transmitted => exact fun s hs => hs
  case submit => exact fun s e hs _ _ => hs
  case hostReset => exact fun s b _ => ⟨fun h0 => absurd rfl h0, Nat.zero_le _⟩
  case taken => exact fun s hs => hs
  case noted => exact fun s hs => s.queues.removeNotice_lostStands _ hs.2

/-- Settles O53: every operation stays within its room but the few that `step_keeps_of_withinRoom`
names, and each of those makes its own room or has checked it. -/
theorem stepKeepsTheQueuesBounded : Obligations.StepKeepsTheQueuesBounded :=
  ⟨step_keeps_bounded, step_keeps_lostStands⟩

/-! ### Properties of loop control and the transmit mode (O54, O55) -/

/-- A roster as a well-formed MARK or CENSUS carries it (R5, R6). -/
abbrev rosterSound (roster : List RosterEntry) : Prop :=
  roster.length ≤ 30 ∧ roster.all RosterEntry.inRange = true ∧ distinctStations roster = true

theorem rosterSound_of_markWellFormed (c : Cell) (h : c.markWellFormed = true) :
    rosterSound c.roster := (listWellFormed_entries _ _ h).2

theorem rosterSound_of_censusWellFormed (c : Cell) (h : c.censusWellFormed = true) :
    rosterSound c.censusEntries := by
  simp only [Cell.censusWellFormed, Bool.and_eq_true] at h
  exact (listWellFormed_entries _ _ h.1.2).2

/-- Loop control's state on entry into CENSUS (R17, R21). -/
def Loop.forming (l : Loop) (hosted : Byte) (restore : Bool) : Loop :=
  { l.timersStopped with
    state := .census, hosted, restore, attempt := 0, yielded := false, lastAnswered := none
    role := .none, buildMarks := 0, listenTimer := .running }

/-- A property of loop control's state, the transmit mode and fill following that each change of
them keeps: the writes of spec 02 and 10, each where the rules allow it. -/
structure KeptByLoopControl (Q : Loop → TransmitMode → Bool → Prop) : Prop where
  reset : Q Loop.reset .repeating true
  heard : ∀ {l m f} (n : Byte), Q l m f → Q { l with latestFormation := n } m f
  answered : ∀ {l m f} (x : Option (Code5 × Byte)), Q l m f → l.state = .census →
    Q { l with lastAnswered := x, yielded := true, censusTimer := .stopped,
               yieldTimer := .running } m f
  built : ∀ {l f} (roster : List RosterEntry) (n : Byte) (role : Role), Q l .repeating f →
    l.state = .census → rosterSound roster → Q (l.building roster n role) .repeating false
  excluded : ∀ {l f}, Q l .repeating f → l.state = .census →
    Q { l.timersStopped with state := .excluded, lastReason := some .notInRoster } .repeating false
  inserted : ∀ {l m f}, Q l m f → Q { l with inserted := true } m f
  counted : ∀ {l m f}, Q l m f → l.state = .build → l.buildMarks + 1 ≠ 2 →
    Q { l with buildMarks := l.buildMarks + 1 } m f
  running : ∀ {l m f} (k : Nat), Q l m f → l.state = .build → k = l.buildMarks ∨ k = 2 →
    Q { l.timersStopped with state := .running, role := .none, buildMarks := k } .repeating false
  broken : ∀ {l m f} (reason : Reason), Q l m f → l.state ≠ .offline →
    Q (l.broken reason) .breakHold f
  listened : ∀ {l m f}, Q l m f → l.state = .census → l.yielded = true →
    Q { l with listenTimer := .stopped } m f
  originated : ∀ {l m f}, Q l m f → l.state = .census → l.yielded = false →
    l.listenTimer = .running →
    Q { l with listenTimer := .stopped, attempt := l.attempt + 1, censusTimer := .running } m f
  again : ∀ {l m f}, Q l m f → l.state = .census → l.yielded = false →
    l.censusTimer = .running → l.attempt < 16 →
    Q { l with attempt := l.attempt + 1, censusTimer := .running } m f
  heldBroken : ∀ {l m f}, Q l m f → l.holdTimer = .running → l.state = .broken →
    Q { l with holdTimer := .stopped } .censusOnly f
  heldCensus : ∀ {l m f}, Q l m f → l.holdTimer = .running → l.state = .census →
    Q { l with holdTimer := .stopped } .repeating false
  heldElsewhere : ∀ {l m f}, Q l m f → l.holdTimer = .running → l.state ≠ .broken →
    l.state ≠ .census → Q { l with holdTimer := .stopped } m f
  started : ∀ {l m f} (hosted : Byte) (restore : Bool), Q l m f →
    l.state = .offline ∨ l.state = .broken → hosted.toNat ≤ 32 →
    Q (l.forming hosted restore) (if l.holdTimer = .running then m else .repeating)
      (if l.holdTimer = .running then f else false)

/-- The property holds of a state's loop control, transmit mode and fill following. -/
abbrev State.control (Q : Loop → TransmitMode → Bool → Prop) (s : State) : Prop :=
  Q s.loop s.line.mode s.line.fillFollowing

section
variable {Q : Loop → TransmitMode → Bool → Prop}

theorem KeptByLoopControl.enterBroken (hQ : KeptByLoopControl Q) (s : State) (reason : Reason)
    (h : s.control Q) (hs : s.loop.state ≠ .offline) : (s.enterBroken reason).control Q := by
  rw [State.enterBroken_eq]
  exact hQ.broken reason h hs

theorem control_passage (s : State) (a : Arrival) (h : s.control Q) : (s.passage a).control Q := by
  obtain ⟨tb, k, q, hm, e⟩ := s.passage_eq a
  rw [e]
  exact h

theorem control_markPassage (s : State) (mark : Cell) (rewritten : Option Bool)
    (h : s.control Q) : (s.markPassage mark rewritten).control Q := by
  obtain ⟨q, damage, sweep, e, -⟩ := s.markPassage_eq mark rewritten
  rw [e]
  exact h

theorem KeptByLoopControl.trackArrival (hQ : KeptByLoopControl Q) (s : State) (r : Reception)
    (h : s.control Q) (hs : s.loop.state ≠ .offline) : (s.trackArrival r).control Q := by
  apply s.trackArrival_cases r
  case fault => exact fun cause p => hQ.enterBroken _ _ h hs
  case mark => exact fun c rewritten _ _ => control_markPassage s c rewritten h
  case pass => exact fun a _ _ _ _ => control_passage _ a h
  case found => exact fun a f b _ _ _ _ _ => control_passage _ a h
  case burst => exact fun f b => hQ.enterBroken _ _ h hs

theorem KeptByLoopControl.countMark (hQ : KeptByLoopControl Q) (s : State) (c : Cell)
    (h : s.control Q) (hs : s.loop.state = .build) : (s.countMark c).control Q := by
  unfold State.countMark
  dsimp only
  split
  · rename_i h2
    refine control_markPassage _ c none ?_
    rw [State.enterRunning_eq]
    exact hQ.running (l := s.loop) _ h hs (Or.inr h2)
  · rename_i h2
    exact hQ.counted h hs h2

theorem KeptByLoopControl.insertAhead (hQ : KeptByLoopControl Q) (s : State) (tail : Cell)
    (h : s.control Q) : (s.insertAhead tail).control Q := by
  unfold State.insertAhead
  split
  · exact h
  · rw [State.enterCells_eq]
    exact hQ.inserted h

theorem KeptByLoopControl.arrive (hQ : KeptByLoopControl Q) (s : State) (r : Reception)
    (h : s.control Q) : (s.arrive r).control Q := by
  have at_repeating : s.line.mode = .repeating → Q s.loop .repeating s.line.fillFollowing :=
    fun hm => hm ▸ h
  apply s.arrive_cases r
  case keep => exact h
  case enter => exact fun c _ => h
  case hear => exact fun n => hQ.heard _ h
  case hearEnter => exact fun n c _ => hQ.heard _ h
  case duplicate => exact fun hs => hQ.enterBroken s _ h (by simp [hs])
  case answer => exact fun c hs _ => hQ.answered _ h hs
  case complete =>
    intro c hs hm hc
    unfold State.completeCensus
    rw [State.enterBuild_eq]
    exact hQ.built _ _ _ (hQ.heard _ (at_repeating hm)) hs (rosterSound_of_censusWellFormed c hc)
  case join =>
    intro n c hs hm _ hc
    rw [State.enterBuild_eq]
    exact hQ.built _ _ _ (hQ.heard _ (at_repeating hm)) hs (rosterSound_of_markWellFormed c hc)
  case exclude =>
    intro n c hs hm _
    rw [State.enterExcluded_eq]
    exact hQ.excluded (hQ.heard _ (at_repeating hm)) hs
  case insert => exact fun tail _ _ => hQ.insertAhead s tail h
  case count =>
    rintro l c hs _ (rfl | ⟨n, rfl⟩)
    · exact hQ.countMark s c h hs
    · exact hQ.countMark _ c (hQ.heard _ h) hs
  case run =>
    intro hs
    rw [State.enterRunning_eq]
    exact hQ.running _ h hs (Or.inl rfl)
  case track => exact fun hs => hQ.trackArrival s r h (by simp [hs])

theorem control_abortEffect (s : State) (tag : Byte) (h : s.control Q) :
    (abortEffect tag s).1.control Q := by
  obtain ⟨table, completions, e⟩ := abortEffect_eq tag s
  rw [e]
  exact h

/-- A property that every change of loop control and the transmit mode keeps is kept by every
step. -/
theorem KeptByLoopControl.step (hQ : KeptByLoopControl Q) (s t : State) (h : s.control Q)
    (e : step s = .next t) : t.control Q := by
  have line : ∀ (s : State) (l : Line), l.store = s.line.store → l.mode = s.line.mode →
      l.fillFollowing = s.line.fillFollowing → l.gap ≤ s.line.gap → s.control Q →
      State.control Q { s with line := l } := by
    intro s l _ hm hf _ hs
    unfold State.control
    dsimp only
    rw [hm, hf]
    exact hs
  refine step_keeps (P := State.control Q) (fun s rest hs => hs) line (fun s p _ hs => hs) ?_
    s t h e
  intro i s h
  apply exec_keeps (P := State.control Q) line (fun s p _ hs => hs)
  case reset => exact fun s b _ => hQ.reset
  case release => exact fun s x hs _ => hs
  case arrive => exact fun s r hs _ => hQ.arrive s r hs
  case broken => exact fun s reason hs ho => hQ.enterBroken s reason hs ho
  case transmitted =>
    intro s hs
    simpa [State.control] using hs
  case listened => exact fun s hs _ hc hy => hQ.listened hs hc hy
  case originates => exact fun s hs hc hy hl => hQ.originated (l := s.loop) hs hc hy hl
  case again => exact fun s hs hc hy ht ha => hQ.again hs hc hy ht ha
  case held =>
    intro s hs hr
    unfold State.control
    dsimp only
    split
    · rename_i hb
      exact hQ.heldBroken hs hr hb
    · rename_i hc
      exact hQ.heldCensus hs hr hc
    all_goals
      rename_i ho
      exact hQ.heldElsewhere hs hr (by simp [ho]) (by simp [ho])
  case start =>
    intro s c b hs hc _ ho
    have := hQ.started c b hs ho hc
    rw [State.enterCensus_eq]
    unfold State.control
    dsimp only
    split <;> simp_all [Loop.forming, Line.repeatPlain]
  case submit => exact fun s f q p hs _ => hs
  case abort => exact fun s tag hs => control_abortEffect s tag hs
  case watch => exact fun s n w hs => hs
  case load => exact fun s n e hs => hs
  case hostReset => exact fun s b hs => hs
  case taken => exact fun s hs => hs
  case noted => exact fun s hs => hs
  case h => exact h

end

/-! ### The transmit mode with the loop state (O54) -/

/-- `State.modeAgrees` as a property of loop control, the transmit mode and fill following. -/
def modeFits (l : Loop) (m : TransmitMode) (f : Bool) : Prop :=
  (l.state = .offline → m = .repeating ∧ f = true ∧ l.holdTimer = .stopped)
    ∧ (l.state = .build ∨ l.state = .running ∨ l.state = .excluded →
      m = .repeating ∧ f = false ∧ l.holdTimer = .stopped)
    ∧ (l.state = .census →
      f = false ∧ m = if l.holdTimer = .running then .breakHold else .repeating)
    ∧ (l.state = .broken →
      f = false ∧ m = if l.holdTimer = .running then .breakHold else .censusOnly)

theorem modeAgrees_iff_modeFits (s : State) : s.modeAgrees ↔ s.control modeFits := Iff.rfl

/-- In each loop state the hold that runs and the mode that goes with it. -/
theorem modeFits_iff (l : Loop) (m : TransmitMode) (f : Bool) : modeFits l m f ↔
    match l.state with
    | .offline => m = .repeating ∧ f = true ∧ l.holdTimer = .stopped
    | .build | .running | .excluded => m = .repeating ∧ f = false ∧ l.holdTimer = .stopped
    | .census => f = false ∧ m = if l.holdTimer = .running then .breakHold else .repeating
    | .broken => f = false ∧ m = if l.holdTimer = .running then .breakHold else .censusOnly := by
  unfold modeFits
  cases l.state <;> simp

theorem Timer.eq_stopped_of_ne {t : Timer} (h : t ≠ .running) : t = .stopped := by
  cases t
  · rfl
  · exact absurd rfl h

/-- The hold runs in BROKEN and CENSUS alone. -/
theorem modeFits.hold_running {l : Loop} {m : TransmitMode} {f : Bool} (h : modeFits l m f)
    (hr : l.holdTimer = .running) : l.state = .broken ∨ l.state = .census := by
  rw [modeFits_iff] at h
  cases hl : l.state <;> simp_all

/-- In CENSUS the mode REPEAT says that the hold is not running. -/
theorem modeFits.hold_stopped {l : Loop} {f : Bool} (h : modeFits l .repeating f)
    (hs : l.state = .census) : l.holdTimer = .stopped := by
  refine Timer.eq_stopped_of_ne fun hr => ?_
  obtain ⟨-, -, hc, -⟩ := h
  simpa [hr] using (hc hs).2

/-- Fill following is off in every loop state but OFFLINE. -/
theorem modeFits.follows_not {l : Loop} {m : TransmitMode} {f : Bool} (h : modeFits l m f)
    (hs : l.state ≠ .offline) : f = false := by
  rw [modeFits_iff] at h
  cases hl : l.state <;> simp_all

theorem modeFits_kept : KeptByLoopControl modeFits where
  reset := by simp [modeFits_iff, Loop.reset]
  heard _ h := h
  answered _ h _ := h
  built roster n role h hs _ := by
    simpa [modeFits_iff, Loop.building, Loop.timersStopped] using h.hold_stopped hs
  excluded h hs := by simpa [modeFits_iff, Loop.timersStopped] using h.hold_stopped hs
  inserted h := h
  counted h _ _ := h
  running k h hs _ := by
    simpa [modeFits_iff, Loop.timersStopped] using (h.2.1 (Or.inl hs)).2.2
  broken reason h hs := by simpa [modeFits_iff, Loop.broken] using h.follows_not hs
  listened h _ _ := h
  originated h _ _ _ := h
  again h _ _ _ _ := h
  heldBroken h _ hs := by simpa [modeFits_iff, hs] using (h.2.2.2 hs).1
  heldCensus _ _ hs := by simp [modeFits_iff, hs]
  heldElsewhere h hr hb hc := (h.hold_running hr).elim (absurd · hb) (absurd · hc)
  started {l m f} hosted restore h hs _ := by
    by_cases hr : l.holdTimer = .running
    · have hb : l.state = .broken :=
        (h.hold_running hr).resolve_right (by rcases hs with hs | hs <;> simp [hs])
      simpa [modeFits_iff, Loop.forming, Loop.timersStopped, hr] using h.2.2.2 hb
    · simp [modeFits_iff, Loop.forming, Loop.timersStopped, hr]

theorem step_keeps_modeAgrees (s t : State) (h : s.modeAgrees) (e : step s = .next t) :
    t.modeAgrees :=
  (modeAgrees_iff_modeFits t).mpr
    (modeFits_kept.step s t ((modeAgrees_iff_modeFits s).mp h) e)

/-! ### The timers and the formation state (O55) -/

/-- `State.timersAgree` as a property of loop control. -/
def timersFit (l : Loop) : Prop :=
  (l.listenTimer = .running → l.state = .census)
    ∧ (l.censusTimer = .running → l.state = .census ∧ l.yielded = false)
    ∧ (l.yieldTimer = .running → l.state = .census ∧ l.yielded = true)
    ∧ (l.buildTimer = .running ↔ l.state = .build)
    ∧ (l.state = .census → l.yielded = true → l.yieldTimer = .running)
    ∧ (l.state = .census → l.yielded = false →
      l.listenTimer = .running ∨ l.censusTimer = .running)

theorem timersAgree_iff_timersFit (s : State) :
    s.timersAgree ↔ s.control fun l _ _ => timersFit l := Iff.rfl

/-- A state other than CENSUS and BUILD with the four formation timers stopped. -/
theorem timersFit_stopped {l : Loop} (h : l.listenTimer = .stopped) (hc : l.censusTimer = .stopped)
    (hy : l.yieldTimer = .stopped) (hb : l.buildTimer = .stopped) (hs : l.state ≠ .census)
    (ht : l.state ≠ .build) : timersFit l := by
  simp [timersFit, h, hc, hy, hb, hs, ht]

theorem timersFit_kept : KeptByLoopControl fun l _ _ => timersFit l where
  reset := timersFit_stopped rfl rfl rfl rfl nofun nofun
  heard _ h := h
  answered {l _ _} x h hs := by
    obtain ⟨-, -, -, hb, -⟩ := h
    simpa [timersFit, hs] using hb
  built roster n role _ _ _ := by simp [timersFit, Loop.building, Loop.timersStopped]
  excluded _ _ := timersFit_stopped rfl rfl rfl rfl nofun nofun
  inserted h := h
  counted h _ _ := h
  running k _ _ _ := timersFit_stopped rfl rfl rfl rfl nofun nofun
  broken reason _ _ := timersFit_stopped rfl rfl rfl rfl nofun nofun
  listened h hs hy := by
    obtain ⟨-, hc, hw, hb, hyw, -⟩ := h
    exact ⟨nofun, hc, hw, hb, hyw, fun _ hn => absurd (hy.symm.trans hn) (by decide)⟩
  originated h hs hy _ := by
    obtain ⟨-, -, hw, hb, hyw, -⟩ := h
    exact ⟨nofun, fun _ => ⟨hs, hy⟩, hw, hb, hyw, fun _ _ => Or.inr rfl⟩
  again h hs hy _ _ := by
    obtain ⟨hl, -, hw, hb, hyw, -⟩ := h
    exact ⟨hl, fun _ => ⟨hs, hy⟩, hw, hb, hyw, fun _ _ => Or.inr rfl⟩
  heldBroken h _ _ := h
  heldCensus h _ _ := h
  heldElsewhere h _ _ _ := h
  started hosted restore _ _ _ := by simp [timersFit, Loop.forming, Loop.timersStopped]

/-- `State.loopSound` as a property of loop control. -/
def formationFits (l : Loop) : Prop :=
  l.hosted.toNat ≤ 32 ∧ l.attempt ≤ 16
    ∧ (l.listenTimer = .running → l.attempt = 0 ∧ l.censusTimer = .stopped)
    ∧ l.buildMarks ≤ 2 ∧ (l.state = .build → l.buildMarks ≤ 1)
    ∧ rosterSound l.roster

theorem loopSound_iff_formationFits (s : State) :
    s.loopSound ↔ s.control fun l _ _ => formationFits l := Iff.rfl

theorem formationFits_kept : KeptByLoopControl fun l _ _ => formationFits l where
  reset := by
    refine ⟨Nat.zero_le _, Nat.zero_le _, nofun, Nat.zero_le _, nofun, Nat.zero_le _, rfl, rfl⟩
  heard _ h := h
  answered x h _ := by
    obtain ⟨hh, ha, hl, rest⟩ := h
    exact ⟨hh, ha, fun hr => ⟨(hl hr).1, rfl⟩, rest⟩
  built roster n role h _ hr := by
    obtain ⟨hh, ha, -⟩ := h
    exact ⟨hh, ha, nofun, Nat.zero_le _, fun _ => Nat.zero_le _, hr⟩
  excluded h _ := by
    obtain ⟨hh, ha, -, hm, -, hr⟩ := h
    exact ⟨hh, ha, nofun, hm, nofun, hr⟩
  inserted h := h
  counted h hs hn := by
    obtain ⟨hh, ha, hl, -, hb, hr⟩ := h
    have := hb hs
    exact ⟨hh, ha, hl, by dsimp only; omega, fun _ => by dsimp only; omega, hr⟩
  running k h _ hk := by
    obtain ⟨hh, ha, -, hm, -, hr⟩ := h
    exact ⟨hh, ha, nofun, by dsimp only; omega, nofun, hr⟩
  broken reason h _ := by
    obtain ⟨hh, ha, -, -, -, hr⟩ := h
    exact ⟨hh, ha, nofun, Nat.zero_le _, nofun, hr⟩
  listened h _ _ := by
    obtain ⟨hh, ha, -, rest⟩ := h
    exact ⟨hh, ha, nofun, rest⟩
  originated h _ _ hr := by
    obtain ⟨hh, -, hl, rest⟩ := h
    have := (hl hr).1
    exact ⟨hh, by dsimp only; omega, nofun, rest⟩
  again {l _ _} h _ _ hc ha := by
    obtain ⟨hh, -, hl, rest⟩ := h
    exact ⟨hh, ha, fun hr => absurd (hc.symm.trans (hl hr).2) (by decide), rest⟩
  heldBroken h _ _ := h
  heldCensus h _ _ := h
  heldElsewhere h _ _ _ := h
  started hosted restore h _ hh := by
    obtain ⟨-, -, -, -, -, hr⟩ := h
    exact ⟨hh, Nat.zero_le _, fun _ => ⟨rfl, rfl⟩, Nat.zero_le _, nofun, hr⟩

theorem step_keeps_timersAgree (s t : State) (h : s.timersAgree) (e : step s = .next t) :
    t.timersAgree :=
  (timersAgree_iff_timersFit t).mpr
    (timersFit_kept.step s t ((timersAgree_iff_timersFit s).mp h) e)

theorem step_keeps_loopSound (s t : State) (h : s.loopSound) (e : step s = .next t) :
    t.loopSound :=
  (loopSound_iff_formationFits t).mpr
    (formationFits_kept.step s t ((loopSound_iff_formationFits s).mp h) e)

/-- Settles O55: both parts are properties of loop control that each of its changes keeps. -/
theorem stepKeepsTheFormationStateSound : Obligations.StepKeepsTheFormationStateSound :=
  ⟨step_keeps_timersAgree, step_keeps_loopSound⟩

/-! ### A held station (O4, O54) -/

theorem State.takeCommand_of_not_receiving (s : State) (k : HostCommand) (fields : List Byte)
    (effect : State → State × List Byte) (h : s.receiving = false) :
    s.takeCommand k fields effect = s := by
  simp [State.takeCommand, h]

/-- While RESETN is held with the timers at their reset values, every command but the reset, its
release and the edges of CSN leaves the state as it is (R8, R11, R18, R164). -/
theorem exec_of_held (i : Instr) (s : State) (h : s.resetHeld = true) (ht : s.loop.allStopped)
    (hi : i ≠ .stationReset) (hr : ∀ x, i ≠ .stationResetRelease x) (hf : i ≠ .csnFall)
    (hc : ∀ x, i ≠ .csnRise x) : exec i s = .next s := by
  obtain ⟨listen, census, yield, build, hold⟩ := ht
  have idle : s.receiving = false := by simp [State.receiving, h]
  have silent : ∀ k, s.responding k = false := by simp [State.responding, h]
  have ignored : ∀ (k : HostCommand) (fields : List Byte) (effect : State → State × List Byte),
      (.next (s.takeCommand k fields effect) : Host.Outcome State Fault Refusal) = .next s :=
    fun k fields effect => by rw [s.takeCommand_of_not_receiving k fields effect idle]
  cases i with
  | stationReset => exact absurd rfl hi
  | stationResetRelease x => exact absurd rfl (hr x)
  | csnFall => exact absurd rfl hf
  | csnRise x => exact absurd rfl (hc x)
  | cellArrival r => simp [exec, execCellArrival, h]
  | breakFillReceived => simp [exec, execBreakFillReceived, h]
  | signalLoss => simp [exec, execSignalLoss, h]
  | signalReturn x => simp [exec, execSignalReturn, h]
  | cellTransmitted => simp [exec, execCellTransmitted, h]
  | symbolReceived x => simp [exec, execSymbolReceived, h]
  | listenTimerExpiry => simp [exec, execListenTimerExpiry, listen]
  | censusTimerExpiry => simp [exec, execCensusTimerExpiry, census]
  | yieldWaitExpiry => simp [exec, execYieldWaitExpiry, yield]
  | buildLimitExpiry => simp [exec, execBuildLimitExpiry, build]
  | breakHoldExpiry => simp [exec, execBreakHoldExpiry, hold]
  | start c b => exact ignored _ _ _
  | submit f =>
    show Host.Outcome.next (if f.framed then s.takeCommand .submit f.fields (submitEffect f) else s)
      = .next s
    split
    · exact ignored _ _ _
    · rfl
  | abort tag => exact ignored _ _ _
  | take => exact ignored _ _ _
  | note => exact ignored _ _ _
  | watchSet f => exact ignored _ _ _
  | watchClear n => exact ignored _ _ _
  | homeLoad n g p => exact ignored _ _ _
  | homeRead n => exact ignored _ _ _
  | status => exact ignored _ _ _
  | roster => exact ignored _ _ _
  | reset b => exact ignored _ _ _
  | badCheck frame => simp [exec, execBadCheck, idle]
  | unknownCommand code => simp [exec, execUnknownCommand, idle]
  | takeFinalByte => simp [exec, execTakeFinalByte, silent]
  | noteFinalByte => simp [exec, execNoteFinalByte, silent]
  | statusFinalByte => simp [exec, execStatusFinalByte, silent]

/-- A release samples the straps of a held station, and is no event of another (R11, R170). -/
theorem exec_stationResetRelease (straps : Code5) (s : State) :
    (s.resetHeld = true → exec (.stationResetRelease straps) s = .next
        { s with
          resetHeld := false
          line := { s.line with interval := .running }
          port := { s.port with station := straps } })
      ∧ (s.resetHeld = false → exec (.stationResetRelease straps) s = .next s) := by
  constructor <;> intro h <;> simp [exec, execStationResetRelease, h]

theorem State.lout_of_held (s : State) (h : s.resetHeld = true) : s.lout = .silent := by
  simp [State.lout, h]

/-- Settles O4: the release by its two cases, the other commands by `exec_of_held`. -/
theorem onlyTheReleaseEndsAReset : Obligations.OnlyTheReleaseEndsAReset :=
  ⟨exec_stationResetRelease, fun i s h ht hi hr hf hc =>
    ⟨exec_of_held i s h ht hi hr hf hc, s.lout_of_held h⟩⟩

/-! ### What a report to loop control leaves alone (O54, O58, O9) -/

/-- What a cell or a break that is reported to loop control leaves alone: RESETN, the host port, the
signal state with its interval, and OFFLINE. -/
structure KeepsStation (s t : State) : Prop where
  resetHeld : t.resetHeld = s.resetHeld
  port : t.port = s.port
  signal : t.line.signal = s.line.signal
  interval : t.line.interval = s.line.interval
  offline : s.loop.state = .offline → t.loop.state = .offline

theorem KeepsStation.refl (s : State) : KeepsStation s s := ⟨rfl, rfl, rfl, rfl, id⟩

theorem KeepsStation.trans {s t u : State} (h : KeepsStation s t) (h' : KeepsStation t u) :
    KeepsStation s u where
  resetHeld := h'.resetHeld.trans h.resetHeld
  port := h'.port.trans h.port
  signal := h'.signal.trans h.signal
  interval := h'.interval.trans h.interval
  offline := fun hs => h'.offline (h.offline hs)

theorem State.enterBroken_keepsStation (s : State) (reason : Reason)
    (h : s.loop.state ≠ .offline) : KeepsStation s (s.enterBroken reason) := by
  rw [State.enterBroken_eq]
  exact ⟨rfl, rfl, rfl, rfl, fun hs => absurd hs h⟩

theorem State.passage_keepsStation (s : State) (a : Arrival) : KeepsStation s (s.passage a) := by
  obtain ⟨tb, k, q, hm, e⟩ := s.passage_eq a
  rw [e]
  exact ⟨rfl, rfl, rfl, rfl, id⟩

theorem State.markPassage_keepsStation (s : State) (mark : Cell) (rewritten : Option Bool) :
    KeepsStation s (s.markPassage mark rewritten) := by
  obtain ⟨q, damage, sweep, e, -⟩ := s.markPassage_eq mark rewritten
  rw [e]
  exact ⟨rfl, rfl, rfl, rfl, id⟩

theorem State.trackArrival_keepsStation (s : State) (r : Reception) (h : s.loop.state ≠ .offline) :
    KeepsStation s (s.trackArrival r) := by
  have found : ∀ f p b, KeepsStation s (s.advanced.found f p b) :=
    fun f p b => ⟨rfl, rfl, rfl, rfl, id⟩
  have faulted : ∀ t : Tracker, KeepsStation s { s with tracker := t } :=
    fun t => ⟨rfl, rfl, rfl, rfl, id⟩
  apply s.trackArrival_cases r
  case fault => exact fun cause p => (faulted _).trans (State.enterBroken_keepsStation _ _ h)
  case mark => exact fun c rewritten _ _ => s.markPassage_keepsStation c rewritten
  case pass => exact fun a _ _ _ _ => (faulted _).trans (State.passage_keepsStation _ a)
  case found => exact fun a f b _ _ _ _ _ => (found f _ b).trans (State.passage_keepsStation _ a)
  case burst => exact fun f b => (found f _ b).trans (State.enterBroken_keepsStation _ _ h)

theorem State.countMark_keepsStation (s : State) (c : Cell) (h : s.loop.state ≠ .offline) :
    KeepsStation s (s.countMark c) := by
  have run : KeepsStation s { s with
      loop := { s.loop with buildMarks := s.loop.buildMarks + 1 } : State }.enterRunning := by
    rw [State.enterRunning_eq]
    exact ⟨rfl, rfl, rfl, rfl, fun hs => absurd hs h⟩
  unfold State.countMark
  dsimp only
  split
  · exact run.trans (State.markPassage_keepsStation _ c none)
  · exact ⟨rfl, rfl, rfl, rfl, id⟩

theorem State.insertAhead_keepsStation (s : State) (tail : Cell) :
    KeepsStation s (s.insertAhead tail) := by
  unfold State.insertAhead
  split
  · exact ⟨rfl, rfl, rfl, rfl, id⟩
  · rw [State.enterCells_eq]
    exact ⟨rfl, rfl, rfl, rfl, id⟩

theorem State.arrive_keepsStation (s : State) (r : Reception) : KeepsStation s (s.arrive r) := by
  apply s.arrive_cases r
  case keep => exact .refl s
  case enter => exact fun c _ => ⟨rfl, rfl, rfl, rfl, id⟩
  case hear => exact fun n => ⟨rfl, rfl, rfl, rfl, id⟩
  case hearEnter => exact fun n c _ => ⟨rfl, rfl, rfl, rfl, id⟩
  case duplicate => exact fun hs => s.enterBroken_keepsStation _ (by simp [hs])
  case answer => exact fun c _ _ => ⟨rfl, rfl, rfl, rfl, id⟩
  case complete =>
    intro c hs _ _
    unfold State.completeCensus
    rw [State.enterBuild_eq]
    exact ⟨rfl, rfl, rfl, rfl, fun ho => absurd (hs.symm.trans ho) (by decide)⟩
  case join =>
    intro n c hs _ _ _
    rw [State.enterBuild_eq]
    exact ⟨rfl, rfl, rfl, rfl, fun ho => absurd (hs.symm.trans ho) (by decide)⟩
  case exclude =>
    intro n c hs _ _
    rw [State.enterExcluded_eq]
    exact ⟨rfl, rfl, rfl, rfl, fun ho => absurd (hs.symm.trans ho) (by decide)⟩
  case insert => exact fun tail _ _ => s.insertAhead_keepsStation tail
  case count =>
    rintro l c hs _ (rfl | ⟨n, rfl⟩)
    · exact s.countMark_keepsStation c (by simp [hs])
    · exact .trans (t := { s with loop := s.loop.hear n }) ⟨rfl, rfl, rfl, rfl, id⟩
        (State.countMark_keepsStation _ c (by simp [Loop.hear, hs]))
  case run =>
    intro hs
    rw [State.enterRunning_eq]
    exact ⟨rfl, rfl, rfl, rfl, fun ho => absurd (hs.symm.trans ho) (by decide)⟩
  case track => exact fun hs => s.trackArrival_keepsStation r (by simp [hs])

theorem State.breakReport_keepsStation (s : State) (reason : Reason) :
    KeepsStation s (s.breakReport reason) := by
  rcases s.breakReport_cases reason with ⟨e, hs⟩ | ⟨e, -⟩
  · rw [e]
    exact s.enterBroken_keepsStation reason (by rcases hs with hs | hs | hs <;> simp [hs])
  · rw [e]
    exact .refl s

theorem State.takeReport_keepsStation (s : State) (report : LineReport) :
    KeepsStation s (s.takeReport report) := by
  cases report with
  | none => exact .refl s
  | breakFill => exact s.breakReport_keepsStation _
  | cell r => exact s.arrive_keepsStation r

/-! ### A held station (O54) -/

theorem State.resetHeld_takeCommand (s : State) (k : HostCommand) (fields : List Byte)
    (effect : State → State × List Byte) (h : (effect s).1.resetHeld = s.resetHeld) :
    (s.takeCommand k fields effect).resetHeld = s.resetHeld := by
  rcases s.takeCommand_cases k fields effect with ⟨-, e⟩ | ⟨-, e⟩
  · rw [e]
    exact h
  · rw [e]

/-- STATION_RESET and its release alone move RESETN. -/
theorem exec_keeps_resetHeld (i : Instr) (s t : State) (hi : i ≠ .stationReset)
    (hr : ∀ x, i ≠ .stationResetRelease x) (e : exec i s = .next t) :
    t.resetHeld = s.resetHeld := by
  have got : ∀ u : State, u.resetHeld = s.resetHeld →
      (.next u : Host.Outcome State Fault Refusal) = .next t → t.resetHeld = s.resetHeld := by
    intro u hu e
    injection e with e
    exact e ▸ hu
  have symbol : ∀ x, (s.receiveSymbol x).resetHeld = s.resetHeld :=
    fun x => (State.takeReport_keepsStation _ _).resetHeld
  have taken := s.resetHeld_takeCommand
  cases i with
  | stationReset => exact absurd rfl hi
  | stationResetRelease x => exact absurd rfl (hr x)
  | cellArrival r =>
    refine got _ ?_ e
    split
    · rfl
    · exact (State.arrive_keepsStation _ r).resetHeld
  | breakFillReceived =>
    refine got _ ?_ e
    split
    · rfl
    · exact (State.breakReport_keepsStation _ _).resetHeld
  | signalLoss =>
    refine got _ ?_ e
    split
    · rfl
    · exact (State.breakReport_keepsStation _ _).resetHeld
  | signalReturn x =>
    refine got _ ?_ e
    split
    · exact symbol x
    · rfl
  | symbolReceived x =>
    refine got _ ?_ e
    split
    · rfl
    · exact symbol x
  | cellTransmitted => exact got _ (by split <;> rfl) e
  | listenTimerExpiry =>
    refine got _ ?_ e
    split
    · dsimp only
      split <;> rfl
    · rfl
  | censusTimerExpiry =>
    refine got _ ?_ e
    split
    · split
      · rfl
      · rw [State.enterBroken_eq]
    · rfl
  | yieldWaitExpiry =>
    refine got _ ?_ e
    split
    · rw [State.enterBroken_eq]
    · rfl
  | buildLimitExpiry =>
    refine got _ ?_ e
    split
    · rw [State.enterBroken_eq]
    · rfl
  | breakHoldExpiry => exact got _ (by split <;> rfl) e
  | csnFall =>
    refine got _ ?_ e
    split
    · rfl
    · split <;> rfl
  | csnRise x =>
    refine got _ ?_ e
    rfl
  | start c b =>
    refine got _ (taken _ _ _ ?_) e
    unfold startEffect
    split
    · rfl
    · rw [State.enterCensus_eq]
  | submit f =>
    refine got _ ?_ e
    split
    · refine taken _ _ _ ?_
      unfold submitEffect
      split <;> rfl
    · rfl
  | abort tag =>
    obtain ⟨table, completions, ea⟩ := abortEffect_eq tag s
    exact got _ (taken _ _ _ (by rw [ea])) e
  | take =>
    refine got _ (taken _ _ _ ?_) e
    unfold takeEffect
    split <;> rfl
  | note =>
    refine got _ (taken _ _ _ ?_) e
    unfold noteEffect
    split <;> rfl
  | watchSet f =>
    refine got _ (taken _ _ _ ?_) e
    unfold watchSetEffect
    split
    · rfl
    · split <;> rfl
  | watchClear n =>
    refine got _ (taken _ _ _ ?_) e
    unfold watchClearEffect
    dsimp only
    split <;> rfl
  | homeLoad n g p =>
    refine got _ (taken _ _ _ ?_) e
    unfold homeLoadEffect
    dsimp only
    split <;> rfl
  | homeRead n =>
    refine got _ (taken _ _ _ ?_) e
    unfold homeReadEffect
    dsimp only
    split <;> rfl
  | status => exact got _ (taken _ _ _ rfl) e
  | roster => exact got _ (taken _ _ _ rfl) e
  | reset b => exact got _ (taken _ _ _ rfl) e
  | badCheck frame => exact got _ (by split <;> rfl) e
  | unknownCommand code => exact got _ (by split <;> rfl) e
  | takeFinalByte => exact got _ (by split <;> rfl) e
  | noteFinalByte => exact got _ (by split <;> rfl) e
  | statusFinalByte => exact got _ (by split <;> rfl) e

/-- A station in reset, with a level of CSN and a queue of commands. -/
def State.heldWith (csnLow : Bool) (pending : List Instr) : State :=
  { State.reset with port := { Port.reset with csnLow }, pending }

/-- A station whose every field but CSN and the queue has its reset value. -/
theorem State.eq_heldWith (s : State)
    (h : { s with port := { s.port with csnLow := false }, pending := [] } = State.reset) :
    s = State.heldWith s.port.csnLow s.pending :=
  congrArg
    (fun u : State =>
      { u with port := { u.port with csnLow := s.port.csnLow }, pending := s.pending }) h

/-- A command leaves a station in reset as it is but for CSN, until the release. -/
theorem exec_heldWith (i : Instr) (b : Bool) (l : List Instr)
    (hr : ∀ x, i ≠ .stationResetRelease x) :
    ∃ b', exec i (State.heldWith b l) = .next (State.heldWith b' l) := by
  by_cases hi : i = .stationReset
  · exact ⟨b, hi ▸ rfl⟩
  by_cases hf : i = .csnFall
  · refine ⟨true, hf ▸ ?_⟩
    cases b <;> rfl
  by_cases hc : ∃ x, i = .csnRise x
  · obtain ⟨x, rfl⟩ := hc
    exact ⟨false, rfl⟩
  · exact ⟨b, exec_of_held i _ rfl ⟨rfl, rfl, rfl, rfl, rfl⟩ hi hr hf fun x e => hc ⟨x, e⟩⟩

/-- A command that leaves the station held has found it so, or is the reset. -/
theorem exec_held_is_reset (i : Instr) (s t : State)
    (hs : s.resetHeld = true → ∃ b l, s = State.heldWith b l)
    (e : exec i s = .next t) (ht : t.resetHeld = true) : ∃ b l, t = State.heldWith b l := by
  by_cases hi : i = .stationReset
  · subst hi
    injection e with e
    exact ⟨_, _, e.symm⟩
  by_cases hr : ∃ x, i = .stationResetRelease x
  · obtain ⟨x, rfl⟩ := hr
    obtain ⟨held, released⟩ := exec_stationResetRelease x s
    cases h : s.resetHeld with
    | true =>
      rw [held h] at e
      injection e with e
      exact absurd (e ▸ ht) (by simp)
    | false =>
      rw [released h] at e
      injection e with e
      exact absurd (e ▸ ht) (by simp [h])
  · have hr' : ∀ x, i ≠ .stationResetRelease x := fun x ex => hr ⟨x, ex⟩
    have hh : s.resetHeld = true := (exec_keeps_resetHeld i s t hi hr' e).symm.trans ht
    obtain ⟨b, l, rfl⟩ := hs hh
    obtain ⟨b', e'⟩ := exec_heldWith i b l hr'
    rw [e'] at e
    injection e with e
    exact ⟨b', l, e.symm⟩

/-! ### The station number and the cells of the store (O54, O58) -/

/-- The station number: 0 in a held station, which is OFFLINE, and legal outside OFFLINE. -/
def State.numberSound (s : State) : Prop :=
  (s.resetHeld = true → s.port.station = 0#5 ∧ s.loop.state = .offline)
    ∧ (s.loop.state ≠ .offline → stationLegal s.port.station = true)

theorem State.stationSound.numberSound {s : State} (h : s.stationSound) : s.numberSound := by
  refine ⟨fun hr => ?_, h.2⟩
  rw [s.eq_heldWith (h.1 hr)]
  exact ⟨rfl, rfl⟩

/-- What leaves RESETN, the station number and OFFLINE alone keeps the number sound. -/
theorem KeepsStation.numberSound {s t : State} (h : KeepsStation s t) (hs : s.numberSound) :
    t.numberSound := by
  unfold State.numberSound
  rw [h.resetHeld, h.port]
  exact ⟨fun hr => ⟨(hs.1 hr).1, h.offline (hs.1 hr).2⟩,
    fun ht => hs.2 fun ho => ht (h.offline ho)⟩

/-- A cell that, if it is a DATA cell, keeps the ownership conditions of R4. -/
abbrev keepsOwnership (c : Cell) : Prop := c.kind = .data → c.header.ownershipGood = true

/-- A property of the forwarding store that holds of an empty one and is kept when its oldest cell
leaves and when a cell that keeps R4 enters (R12). -/
structure KeptByEntries (P : List Cell → Prop) : Prop where
  empty : P []
  sent : ∀ {l}, P l → P l.tail
  entered : ∀ {l} (c : Cell), keepsOwnership c → P l → P (storeEnter l c)

theorem keepsOwnership_of_kind {c : Cell} (h : c.kind ≠ .data) : keepsOwnership c :=
  fun hd => absurd hd h

theorem payload_hostedCell (s : State) (i : Nat) : (s.hostedCell i).payload
    = if s.loop.restore then (s.homeEntry i).payload else zeroPayload := rfl

theorem generation_hostedCell (s : State) (i : Nat) : (s.hostedCell i).header.generation
    = if s.loop.restore then (s.homeEntry i).generation else 0#8 := rfl

theorem byte7_hostedCell (s : State) (i : Nat) :
    (s.hostedCell i).header.byte7 = if s.loop.restore then 0x04#8 else 0#8 := rfl

/-- The flags of a hosted cell: HANDOFF and DAMAGED clear, RESTORED by the option (R33, R136). -/
theorem flags_hostedCell (s : State) (i : Nat) :
    (s.hostedCell i).header.handoff = false ∧ (s.hostedCell i).header.damaged = false
      ∧ (s.hostedCell i).header.restored = s.loop.restore := by
  simp only [Header.handoff, Header.damaged, Header.restored, byte7_hostedCell]
  cases s.loop.restore <;> decide

/-- A hosted cell is built without owner, reserver and HANDOFF (R33). -/
theorem ownershipGood_hostedCell (s : State) (i : Nat) :
    (s.hostedCell i).header.ownershipGood = true := by
  have hb : field5 0#8 ≠ badStation := by decide
  rw [Header.ownershipGood_iff]
  exact ⟨fun _ => ⟨rfl, (flags_hostedCell s i).1⟩, fun h => absurd rfl h, hb, hb⟩

section
variable {P : List Cell → Prop}

theorem KeptByEntries.enteredAll (hP : KeptByEntries P) (cs : List Cell)
    (hc : ∀ c ∈ cs, keepsOwnership c) {l : List Cell} (h : P l) : P (cs.foldl storeEnter l) := by
  induction cs generalizing l with
  | nil => exact h
  | cons c cs ih =>
    exact ih (fun d hd => hc d (List.mem_cons_of_mem _ hd))
      (hP.entered c (hc c List.mem_cons_self) h)

theorem keepsOwnership_hostedCells (s : State) : ∀ c ∈ s.hostedCells, keepsOwnership c := by
  intro c hc _
  obtain ⟨i, -, rfl⟩ := List.mem_map.mp hc
  exact ownershipGood_hostedCell s i

theorem keepsOwnership_buildCells (s : State) (roster : List RosterEntry) (n : Byte) (role : Role) :
    ∀ c ∈ s.buildCells roster n role, keepsOwnership c := by
  intro c hc
  cases role with
  | none => exact absurd hc List.not_mem_nil
  | nonOriginator => exact absurd hc List.not_mem_nil
  | originator =>
    simp only [State.buildCells, List.mem_cons, List.mem_append, List.not_mem_nil, or_false] at hc
    rcases hc with rfl | hc | rfl
    · exact keepsOwnership_of_kind nofun
    · exact keepsOwnership_hostedCells s c hc
    · exact keepsOwnership_of_kind nofun

theorem KeptByEntries.enterBroken (hP : KeptByEntries P) (s : State) (reason : Reason) :
    P (s.enterBroken reason).line.store := by
  rw [State.enterBroken_eq]
  exact hP.empty

theorem KeptByEntries.enterBuild (hP : KeptByEntries P) (s : State) (roster : List RosterEntry)
    (n : Byte) (role : Role) (h : P s.line.store) : P (s.enterBuild roster n role).line.store := by
  rw [State.enterBuild_eq]
  exact hP.enteredAll _ (keepsOwnership_buildCells s roster n role) h

theorem KeptByEntries.markPassage (hP : KeptByEntries P) (s : State) (mark : Cell)
    (rewritten : Option Bool) (hk : mark.kind = .mark) (h : P s.line.store) :
    P (s.markPassage mark rewritten).line.store := by
  obtain ⟨q, damage, sweep, e, -⟩ := s.markPassage_eq mark rewritten
  rw [e]
  exact hP.entered mark (keepsOwnership_of_kind (by simp [hk])) h

/-- A passage at a station with a legal number keeps R4 in the departing cell. -/
theorem KeptByEntries.passage (hP : KeptByEntries P) (s : State) (a : Arrival)
    (hm : stationLegal s.port.station = true) (ha : a.cell.header.ownershipGood = true)
    (h : P s.line.store) : P (s.passage a).line.store := by
  obtain ⟨-, -, good⟩ := s.departing_hand a hm
  obtain ⟨tb, k, q, hm, e⟩ := s.passage_eq a
  rw [e]
  exact hP.entered _ (fun _ => good ha) h

theorem KeptByEntries.trackArrival (hP : KeptByEntries P) (s : State) (r : Reception)
    (hm : stationLegal s.port.station = true) (h : P s.line.store) :
    P (s.trackArrival r).line.store := by
  apply s.trackArrival_cases (P := fun t => P t.line.store) r
  case fault => exact fun cause p => hP.enterBroken _ _
  case mark => exact fun c rewritten _ hk => hP.markPassage s c rewritten hk h
  case pass => exact fun a _ _ _ ho => hP.passage s.advanced a hm ho h
  case found => exact fun a f b _ _ _ _ ho => hP.passage (s.advanced.found f _ b) a hm ho h
  case burst => exact fun f b => hP.enterBroken _ _

theorem KeptByEntries.countMark (hP : KeptByEntries P) (s : State) (c : Cell) (hk : c.kind = .mark)
    (h : P s.line.store) : P (s.countMark c).line.store := by
  unfold State.countMark
  dsimp only
  split
  · refine hP.markPassage _ c none hk ?_
    rw [State.enterRunning_eq]
    exact h
  · exact hP.entered c (keepsOwnership_of_kind (by simp [hk])) h

theorem KeptByEntries.insertAhead (hP : KeptByEntries P) (s : State) (tail : Cell)
    (hk : tail.kind = .tail) (h : P s.line.store) : P (s.insertAhead tail).line.store := by
  have ht : keepsOwnership tail := keepsOwnership_of_kind (by simp [hk])
  unfold State.insertAhead
  split
  · exact hP.entered tail ht h
  · rw [State.enterCells_eq]
    exact hP.entered tail ht (hP.enteredAll _ (keepsOwnership_hostedCells s) h)

/-- Every cell that an arrival enters keeps R4. -/
theorem KeptByEntries.arrive (hP : KeptByEntries P) (s : State) (r : Reception)
    (hn : s.numberSound) (h : P s.line.store) : P (s.arrive r).line.store := by
  have notData : ∀ c : Cell, c.kind ≠ .data → P (storeEnter s.line.store c) :=
    fun c hc => hP.entered c (keepsOwnership_of_kind hc) h
  apply s.arrive_cases (P := fun t => P t.line.store) r
  case keep => exact h
  case enter => exact fun c hc => hP.entered c hc h
  case hear => exact fun n => h
  case hearEnter => exact fun n c hk => notData c (by simp [hk])
  case duplicate => exact fun _ => hP.enterBroken s _
  case answer => exact fun c _ hk => notData _ (by simp [answeredCensus, Cell.sealed, hk])
  case complete => exact fun c _ _ _ => hP.enterBuild _ _ _ _ h
  case join => exact fun n c _ _ hk _ => hP.enterBuild _ _ _ _ (notData c (by simp [hk]))
  case exclude =>
    intro n c _ _ hk
    rw [State.enterExcluded_eq]
    exact notData c (by simp [hk])
  case insert => exact fun tail _ hk => hP.insertAhead s tail hk h
  case count => exact fun l c _ hk _ => hP.countMark _ c hk h
  case run =>
    intro _
    rw [State.enterRunning_eq]
    exact h
  case track => exact fun hs => hP.trackArrival s r (hn.2 (by simp [hs])) h

/-- Every step keeps a sound station number, and with it each property of the store that the entry
of cells that keep R4 keeps. -/
theorem KeptByEntries.step (hP : KeptByEntries P) (s t : State)
    (h : s.numberSound ∧ P s.line.store) (e : step s = .next t) :
    t.numberSound ∧ P t.line.store := by
  have same : ∀ s t : State, s.numberSound ∧ P s.line.store → t.resetHeld = s.resetHeld →
      t.port.station = s.port.station → t.loop.state = s.loop.state →
      t.line.store = s.line.store → t.numberSound ∧ P t.line.store := by
    intro s t hs hr hp hl hst
    unfold State.numberSound
    rw [hr, hp, hl, hst]
    exact hs
  have line : ∀ (s : State) (l : Line), l.store = s.line.store → l.mode = s.line.mode →
      l.fillFollowing = s.line.fillFollowing → l.gap ≤ s.line.gap →
      s.numberSound ∧ P s.line.store → State.numberSound { s with line := l } ∧ P l.store :=
    fun s l hl _ _ _ hs => same s { s with line := l } hs rfl rfl rfl hl
  have port : ∀ (s : State) (p : Port), p.station = s.port.station →
      s.numberSound ∧ P s.line.store → State.numberSound { s with port := p } ∧ P s.line.store :=
    fun s p hp hs => same s { s with port := p } hs rfl hp rfl rfl
  refine step_keeps (P := fun s => s.numberSound ∧ P s.line.store) (fun s rest hs => hs) line port
    ?_ s t h e
  intro i s h
  apply exec_keeps (P := fun s => s.numberSound ∧ P s.line.store) line port
  case reset => exact fun s b _ => ⟨⟨fun _ => ⟨rfl, rfl⟩, fun ho => absurd rfl ho⟩, hP.empty⟩
  case release => exact fun s x hs hr => ⟨⟨nofun, fun ho => absurd (hs.1.1 hr).2 ho⟩, hs.2⟩
  case arrive =>
    exact fun s r hs _ => ⟨(s.arrive_keepsStation r).numberSound hs.1, hP.arrive s r hs.1 hs.2⟩
  case broken =>
    exact fun s reason hs ho =>
      ⟨(s.enterBroken_keepsStation reason ho).numberSound hs.1, hP.enterBroken s reason⟩
  case transmitted =>
    intro s hs
    refine ⟨hs.1, ?_⟩
    dsimp only
    rw [Line.store_sent]
    exact hP.sent hs.2
  case listened => exact fun s hs _ _ _ => hs
  case originates =>
    exact fun s hs _ _ _ => ⟨hs.1, hP.entered _ (keepsOwnership_of_kind nofun) hs.2⟩
  case again =>
    exact fun s hs _ _ _ _ => ⟨hs.1, hP.entered _ (keepsOwnership_of_kind nofun) hs.2⟩
  case held =>
    intro s hs _
    refine same s _ hs rfl rfl rfl ?_
    dsimp only
    split <;> rfl
  case start =>
    intro s c b hs _ hl _
    rw [State.enterCensus_eq]
    refine ⟨⟨fun hr => ?_, fun _ => hl⟩, ?_⟩
    · rw [(hs.1.1 hr).1] at hl
      exact absurd hl (by decide)
    · dsimp only
      split <;> exact hs.2
  case submit => exact fun s f q p hs _ => hs
  case abort =>
    intro s tag hs
    obtain ⟨table, completions, ea⟩ := abortEffect_eq tag s
    rw [ea]
    exact hs
  case watch => exact fun s n w hs => hs
  case load => exact fun s n e hs => hs
  case hostReset => exact fun s b hs => hs
  case taken => exact fun s hs => hs
  case noted => exact fun s hs => hs
  case h => exact h

end

theorem step_keeps_numberSound (s t : State) (h : s.numberSound) (e : step s = .next t) :
    t.numberSound := by
  have any : KeptByEntries fun _ => True := ⟨trivial, fun _ => trivial, fun _ _ _ => trivial⟩
  exact (any.step s t ⟨h, trivial⟩ e).1

/-- R4 in every DATA cell of a store. -/
theorem keptByEntries_keepsOwnership : KeptByEntries fun l => ∀ c ∈ l, keepsOwnership c where
  empty := fun c hc => absurd hc List.not_mem_nil
  sent h := fun c hc => h c (List.mem_of_mem_tail hc)
  entered {l} c hc h := by
    intro d hd
    rcases mem_storeEnter l c d hd with hd | rfl
    · exact h d hd
    · exact hc

/-- Settles O58: only cells that keep R4 enter the store, at a station with a sound number. -/
theorem stepKeepsTheOwnershipConditionsInTheStore :
    Obligations.StepKeepsTheOwnershipConditionsInTheStore :=
  fun s t hn h e => (keptByEntries_keepsOwnership.step s t ⟨hn.numberSound, h⟩ e).2

/-! ### Every step at a held station (O54) -/

theorem step_keeps_held_reset (s t : State)
    (h : s.resetHeld = true → ∃ b l, s = State.heldWith b l) (e : step s = .next t)
    (ht : t.resetHeld = true) : ∃ b l, t = State.heldWith b l := by
  cases hp : s.pending with
  | cons c rest =>
    rw [step_cons c rest s hp] at e
    refine exec_held_is_reset c _ t (fun hr => ?_) e ht
    obtain ⟨b, l, hs⟩ := h hr
    exact ⟨b, rest, by rw [hs]; rfl⟩
  | nil =>
    rw [step_nil s hp] at e
    injection e with e
    obtain ⟨⟨gap, phase, command, response, incoming, -, he⟩, held⟩ := s.tick_eq
    have hr : s.resetHeld = true := by
      rw [← e, he] at ht
      exact ht
    rw [held hr] at e
    exact e ▸ h hr

theorem step_keeps_stationSound (s t : State) (h : s.stationSound) (e : step s = .next t) :
    t.stationSound := by
  refine ⟨fun ht => ?_, (step_keeps_numberSound s t h.numberSound e).2⟩
  obtain ⟨b, l, rfl⟩ := step_keeps_held_reset s t (fun hr => ⟨_, _, s.eq_heldWith (h.1 hr)⟩) e ht
  rfl

/-- Settles O54: the mode is a property of loop control's changes; the reset values of a held
station and the legal number are kept apart. -/
theorem stepKeepsTheModeAndTheStation : Obligations.StepKeepsTheModeAndTheStation :=
  ⟨step_keeps_modeAgrees, step_keeps_stationSound⟩

/-! ### The machine right after reset (O3, O59) -/

/-- Settles O3: both parts are the values of `State.reset`, field by field. -/
theorem stationResetGivesTheResetValues : Obligations.StationResetGivesTheResetValues :=
  ⟨fun _ => rfl, rfl, rfl, rfl, rfl⟩

/-- Settles O59: at reset the store, the table and the queues are empty and the timers stopped; the
invariants of loop control hold as their own lemmas say. -/
theorem resetMeetsEveryInvariant : Obligations.ResetMeetsEveryInvariant := by
  have bounded : State.reset.bounded := by decide
  have lost : State.reset.lostStands := ⟨fun h => absurd rfl h, Nat.zero_le _⟩
  have quiet : State.reset.quiet := ⟨fun _ => ⟨rfl, rfl, rfl⟩, nofun, Nat.zero_le _⟩
  have tracker : State.reset.trackerAgrees := ⟨by decide, nofun, fun _ => ⟨rfl, rfl⟩⟩
  have seen : State.reset.seenSound := ⟨List.Pairwise.nil, nofun⟩
  have table : State.reset.tableSound := ⟨nofun, List.Pairwise.nil, List.Pairwise.nil⟩
  have station : State.reset.stationSound := ⟨fun _ => rfl, fun h => absurd rfl h⟩
  exact ⟨bounded, lost, quiet, modeFits_kept.reset, timersFit_kept.reset, formationFits_kept.reset,
    tracker, seen, table, station, nofun⟩

/-! ### The symbols of the line (O5, O6, O7, O8, O9) -/

theorem exec_symbolReceived (x : Symbol) (s : State) (h : s.resetHeld = false) :
    exec (.symbolReceived x) s = .next (s.receiveSymbol x) := by
  simp [exec, execSymbolReceived, h]

/-- A symbol received while hunting, with its report. -/
theorem State.receiveSymbol_of_hunting (s : State) (x : Symbol) (h : s.line.receiver = .hunting) :
    s.receiveSymbol x = { s with line := (s.line.hunt x).1 }.takeReport (s.line.hunt x).2 := by
  simp [State.receiveSymbol, Line.receive, h]

/-- A symbol received inside a cell, with its report. -/
theorem State.receiveSymbol_of_inCell (s : State) (x : Symbol) (kind : CellKind)
    (bytes : List Byte) (he pe : Bool) (h : s.line.receiver = .inCell kind bytes he pe) :
    s.receiveSymbol x = { s with line := (s.line.inside kind bytes he pe x).1 }.takeReport
      (s.line.inside kind bytes he pe x).2 := by
  simp [State.receiveSymbol, Line.receive, h]

/-- The station with its receiver back in hunting, as after a truncation (R9). -/
def State.dropped (s : State) : State := { s with line := s.line.dropCell }

/-- BREAK_FILL_RECEIVED where the run has not been reported. -/
theorem exec_breakFillReceived (s : State) (hr : s.resetHeld = false)
    (h : s.line.breakCount < 16) :
    exec .breakFillReceived s =
      .next ({ s with line := s.line.breakRunComplete }.breakReport .breakReceived) := by
  have : ¬(s.resetHeld = true ∨ Config.breakRun ≤ s.line.breakCount) := by
    rw [hr]
    simpa using h
  simp only [exec, execBreakFillReceived, if_neg this]

/-- The break symbol that brings the count of a hunting receiver to 16 completes the run. -/
theorem Line.breakSymbol_sixteenth (l : Line) (h : l.receiver = .hunting)
    (hc : l.breakCount + 1 = 16) : l.breakSymbol = l.breakRunComplete := by
  obtain ⟨receiver, fill, breakCount, signal, interval, store, gap, mode, fillFollowing⟩ := l
  dsimp only at h hc
  subst h
  simp [Line.breakSymbol, Line.breakRunComplete, Line.dropCell, Line.validSymbol,
    Config.breakRun, hc]

/-- A break symbol received while hunting that does not bring the count to 16. -/
theorem exec_breakSymbol_counted (s : State) (hr : s.resetHeld = false)
    (h : s.line.receiver = .hunting) (hc : s.line.breakCount + 1 ≠ 16) :
    exec (.symbolReceived .breakFill) s = .next
      { s with line := { s.line with
          signal := .present, interval := .running, breakCount := s.line.breakCount + 1 } } := by
  rw [exec_symbolReceived _ s hr, s.receiveSymbol_of_hunting _ h]
  simp only [Line.hunt, Config.breakRun, if_neg hc, State.takeReport, Line.breakSymbol,
    Line.validSymbol]

/-- The sixteenth break symbol of a run is the event of the whole run. -/
theorem exec_breakSymbol_sixteenth (s : State) (hr : s.resetHeld = false)
    (h : s.line.receiver = .hunting) (hc : s.line.breakCount + 1 = 16) :
    exec (.symbolReceived .breakFill) s = exec .breakFillReceived s := by
  rw [exec_symbolReceived _ s hr, s.receiveSymbol_of_hunting _ h,
    exec_breakFillReceived s hr (by omega)]
  simp only [Line.hunt, Config.breakRun, if_pos hc, State.takeReport,
    s.line.breakSymbol_sixteenth h hc]

/-- Settles O5: the cases of a hunting receiver by the symbol, and of a break symbol by the
count. -/
theorem symbolWhileHunting : Obligations.SymbolWhileHunting := by
  intro s hr h
  have hunted : ∀ x, exec (.symbolReceived x) s =
      .next ({ s with line := (s.line.hunt x).1 }.takeReport (s.line.hunt x).2) :=
    fun x => by rw [exec_symbolReceived x s hr, s.receiveSymbol_of_hunting x h]
  exact ⟨fun kind => hunted _, fun b => hunted _, hunted _, hunted _, hunted _,
    exec_breakSymbol_counted s hr h, exec_breakSymbol_sixteenth s hr h⟩

/-- A symbol that makes the receiver give up its cell is handled as when hunting. -/
theorem exec_symbol_of_dropped (x : Symbol) (s : State) (hr : s.resetHeld = false)
    (kind : CellKind) (bytes : List Byte) (he pe : Bool)
    (h : s.line.receiver = .inCell kind bytes he pe)
    (hx : s.line.inside kind bytes he pe x = s.line.dropCell.hunt x) :
    exec (.symbolReceived x) s = exec (.symbolReceived x) s.dropped := by
  rw [exec_symbolReceived x s hr, exec_symbolReceived x s.dropped hr,
    s.receiveSymbol_of_inCell x kind bytes he pe h, s.dropped.receiveSymbol_of_hunting x rfl, hx]
  rfl

/-- A data symbol inside a cell before byte 74 is its next byte. -/
theorem exec_data_inside (s : State) (hr : s.resetHeld = false) (kind : CellKind)
    (bytes : List Byte) (he pe : Bool) (h : s.line.receiver = .inCell kind bytes he pe)
    (hl : bytes.length < 74) (b : Byte) :
    exec (.symbolReceived (.data b)) s = .next
      { s with line := { s.line with
          signal := .present, interval := .running, breakCount := 0, fill := .idle
          receiver := .inCell kind (bytes ++ [b]) he pe } } := by
  rw [exec_symbolReceived _ s hr, s.receiveSymbol_of_inCell _ kind bytes he pe h]
  simp [Line.inside, Config.cellBytes, hl, State.takeReport, Line.plainSymbol, Line.validSymbol]

/-- An invalid symbol inside a cell before byte 74 is a zero byte, with a symbol error in its
part. -/
theorem exec_invalid_inside (s : State) (hr : s.resetHeld = false) (kind : CellKind)
    (bytes : List Byte) (he pe : Bool) (h : s.line.receiver = .inCell kind bytes he pe)
    (hl : bytes.length < 74) :
    exec (.symbolReceived .invalid) s = .next
      { s with line := { s.line with
          receiver := .inCell kind (bytes ++ [0#8]) (he || decide (bytes.length < 8))
            (pe || !decide (bytes.length < 8)) } } := by
  rw [exec_symbolReceived _ s hr, s.receiveSymbol_of_inCell _ kind bytes he pe h]
  simp [Line.inside, Config.cellBytes, hl, State.takeReport, nextIsHeader]

/-- The end delimiter after byte 74 is the arrival of the cell. -/
theorem exec_endDelimiter_completes (s : State) (hr : s.resetHeld = false) (kind : CellKind)
    (bytes : List Byte) (he pe : Bool) (h : s.line.receiver = .inCell kind bytes he pe)
    (hl : bytes.length = 74) :
    exec (.symbolReceived .endDelimiter) s
      = exec (.cellArrival ⟨Cell.ofBytes kind bytes, he, pe⟩) s := by
  rw [exec_symbolReceived _ s hr, s.receiveSymbol_of_inCell _ kind bytes he pe h]
  simp [Line.inside, Config.cellBytes, hl, State.takeReport, exec, execCellArrival, hr,
    Line.completed]

/-- Settles O6: before byte 74 a byte, a symbol error or a truncation; after it the completion or a
framing error. -/
theorem symbolInsideACell : Obligations.SymbolInsideACell := by
  intro s kind bytes he pe hr h
  have drop := fun x => exec_symbol_of_dropped x s hr kind bytes he pe h
  refine ⟨fun hl => ?_, fun hl => ?_⟩
  · have truncates : ∀ x, (∀ b, x ≠ .data b) → x ≠ .invalid →
        exec (.symbolReceived x) s = exec (.symbolReceived x) s.dropped := by
      intro x hd hi
      apply drop
      cases x <;> simp_all [Line.inside, Config.cellBytes]
    refine ⟨exec_data_inside s hr kind bytes he pe h hl, fun h8 => ?_, fun h8 => ?_,
      fun k => truncates _ nofun nofun, truncates _ nofun nofun, truncates _ nofun nofun,
      truncates _ nofun nofun⟩
    · simpa [h8] using exec_invalid_inside s hr kind bytes he pe h hl
    · simpa [Nat.not_lt.mpr h8] using exec_invalid_inside s hr kind bytes he pe h hl
  · refine ⟨exec_endDelimiter_completes s hr kind bytes he pe h hl, fun x hx => ?_⟩
    apply drop
    cases x <;> simp_all [Line.inside, Config.cellBytes]

theorem State.breakReport_breaks (s : State) (reason : Reason)
    (h : s.loop.state = .running ∨ s.loop.state = .build ∨ s.loop.state = .excluded) :
    s.breakReport reason = s.enterBroken reason := by
  rcases s.breakReport_cases reason with ⟨e, -⟩ | ⟨-, hn⟩
  · exact e
  · rcases h with h | h | h <;> simp [h] at hn

theorem State.breakReport_stays (s : State) (reason : Reason)
    (h : s.loop.state = .offline ∨ s.loop.state = .census ∨ s.loop.state = .broken) :
    s.breakReport reason = s := by
  rcases s.breakReport_cases reason with ⟨-, hn⟩ | ⟨e, -⟩
  · rcases h with h | h | h <;> simp [h] at hn
  · exact e

/-- SIGNAL_LOSS while the signal is PRESENT. -/
theorem exec_signalLoss (s : State) (hr : s.resetHeld = false) (h : s.line.signal = .present) :
    exec .signalLoss s = .next ({ s with line := s.line.lose }.breakReport .signalLost) := by
  simp [exec, execSignalLoss, hr, h]

/-- Settles O8: each event is its line update and a break report, which acts by the loop state. -/
theorem breakFillAndSignalLossAreReportedOnce :
    Obligations.BreakFillAndSignalLossAreReportedOnce := by
  intro s hr
  have filled := exec_breakFillReceived s hr
  have lost := exec_signalLoss s hr
  refine ⟨fun h => ⟨fun hs => ?_, fun hs => ?_⟩, fun h => ?_,
    fun h => ⟨fun hs => ?_, fun hs => ?_⟩, fun h => ?_⟩
  · exact (filled h).trans (congrArg _ (State.breakReport_breaks _ _ hs))
  · exact (filled h).trans (congrArg _ (State.breakReport_stays _ _ hs))
  · simp [exec, execBreakFillReceived, h]
  · exact (lost h).trans (congrArg _ (State.breakReport_breaks _ _ hs))
  · exact (lost h).trans (congrArg _ (State.breakReport_stays _ _ hs))
  · simp [exec, execSignalLoss, h]

/-- A valid symbol leaves the signal PRESENT with its interval running (R11). -/
theorem State.receiveSymbol_valid (s : State) (x : Symbol) (h : x ≠ .invalid) :
    (s.receiveSymbol x).line.signal = .present ∧ (s.receiveSymbol x).line.interval = .running := by
  have hunted : ∀ l : Line, (l.hunt x).1.signal = .present ∧ (l.hunt x).1.interval = .running := by
    intro l
    cases x with
    | invalid => exact absurd rfl h
    | _ => exact ⟨rfl, rfl⟩
  have received : (s.line.receive x).1.signal = .present
      ∧ (s.line.receive x).1.interval = .running := by
    unfold Line.receive
    split
    · exact hunted _
    · unfold Line.inside
      split
      · cases x with
        | invalid => exact absurd rfl h
        | data b => exact ⟨rfl, rfl⟩
        | _ => exact hunted _
      · cases x with
        | endDelimiter => exact ⟨rfl, rfl⟩
        | _ => exact hunted _
  have kept := State.takeReport_keepsStation { s with line := (s.line.receive x).1 }
    (s.line.receive x).2
  exact ⟨kept.signal.trans received.1, kept.interval.trans received.2⟩

theorem Symbol.valid_of_ne (x : Symbol) (h : x ≠ .invalid) : x.valid = true := by
  cases x with
  | invalid => exact absurd rfl h
  | _ => rfl

/-- Settles O9: a return with a valid symbol is the receipt of that symbol. -/
theorem signalReturnsWithAValidSymbol : Obligations.SignalReturnsWithAValidSymbol := by
  intro x s hr
  refine ⟨fun hs hx => ?_, fun hs => ?_, ?_⟩
  · have returned : exec (.signalReturn x) s = .next (s.receiveSymbol x) := by
      simp [exec, execSignalReturn, hr, hs, Symbol.valid_of_ne x hx]
    exact ⟨returned.trans (exec_symbolReceived x s hr).symm, _, returned,
      s.receiveSymbol_valid x hx⟩
  · simp [exec, execSignalReturn, hs]
  · simp [exec, execSignalReturn, Symbol.valid]

/-! ### Runs of symbols (O7) -/

/-- Steps of the machine behind the host's interface, one after another. -/
def steps (n : Nat) (s : State) : Host.Outcome State Fault Refusal := Host.Core.run core n s

/-- A run of one more step goes on from the state that the step leaves. -/
theorem run_succ (M : Host.Core) (n : Nat) (s t : M.State) (h : M.step s = .next t) :
    M.run (n + 1) s = M.run n t := by
  simp only [Host.Core.run, h]

/-- With a command waiting, the first step is its effect on the queue's rest. -/
theorem steps_command (n : Nat) (c : Instr) (rest : List Instr) (s t : State)
    (h : exec c { s with pending := rest } = .next t) :
    steps (n + 1) { s with pending := c :: rest } = steps n t :=
  run_succ core n ({ s with pending := c :: rest } : State) t h

/-- One step with a command waiting is the command. -/
theorem steps_one (c : Instr) (rest : List Instr) (s : State) :
    steps 1 { s with pending := c :: rest } = exec c { s with pending := rest } := by
  obtain ⟨t, ht⟩ := exec_next c { s with pending := rest }
  rw [steps_command 0 c rest s t ht, ht]
  rfl

/-- CELL_ARRIVAL at a station that is not held. -/
theorem exec_cellArrival (r : Reception) (s : State) (h : s.resetHeld = false) :
    exec (.cellArrival r) s = .next (s.delivered.arrive r) := by
  have hn : ¬s.resetHeld = true := by simp [h]
  simp only [exec, execCellArrival, if_neg hn]
  rfl

/-- The line interface inside a cell whose bytes so far came without a symbol error. -/
def Line.gathering (l : Line) (kind : CellKind) (bytes : List Byte) : Line :=
  { l.plainSymbol with receiver := .inCell kind bytes false false }

/-- The bytes of a cell, one data symbol each, gather in the receiver. -/
theorem steps_data_symbols (kind : CellKind) (bs bytes : List Byte) (n : Nat) (rest : List Instr)
    (s : State) (hr : s.resetHeld = false) (hl : bytes.length + bs.length ≤ 74) :
    steps (bs.length + n)
        { s with
          line := s.line.gathering kind bytes
          pending := bs.map (fun b => Instr.symbolReceived (.data b)) ++ rest }
      = steps n { s with line := s.line.gathering kind (bytes ++ bs), pending := rest } := by
  induction bs generalizing bytes with
  | nil => simp
  | cons b bs ih =>
    rw [List.length_cons] at hl
    have next := ih (bytes ++ [b]) (by simp only [List.length_append, List.length_singleton]; omega)
    have gathered := exec_data_inside
      { s with
        line := s.line.gathering kind bytes
        pending := bs.map (fun b => Instr.symbolReceived (.data b)) ++ rest }
      hr kind bytes false false rfl (by omega) b
    rw [List.append_assoc, List.singleton_append] at next
    rw [List.length_cons, Nat.add_right_comm, List.map_cons, List.cons_append]
    exact (steps_command (bs.length + n) _ _ { s with line := s.line.gathering kind bytes } _
      gathered).trans next

/-- The start delimiter of a cell, received while hunting, opens the cell. -/
theorem exec_startDelimiter_opens (kind : CellKind) (s : State) (hr : s.resetHeld = false)
    (h : s.line.receiver = .hunting) :
    exec (.symbolReceived (.startDelimiter kind)) s
      = .next { s with line := s.line.gathering kind [] } := by
  rw [exec_symbolReceived _ s hr, s.receiveSymbol_of_hunting _ h]
  rfl

/-- A cell sent symbol by symbol to a hunting receiver is its arrival. -/
theorem steps_cell_symbols (c : Cell) (rest : List Instr) (s : State) (hr : s.resetHeld = false)
    (h : s.line.receiver = .hunting) :
    steps 76
        { s with pending :=
            Instr.symbolReceived (.startDelimiter c.kind) ::
              (c.bytes.map (fun b => Instr.symbolReceived (.data b)) ++
                Instr.symbolReceived .endDelimiter :: rest) }
      = exec (.cellArrival ⟨c, false, false⟩) { s with pending := rest } := by
  let inside (l : List Instr) : State :=
    { s with line := s.line.gathering c.kind c.bytes, pending := l }
  have opened := exec_startDelimiter_opens c.kind
    { s with pending := c.bytes.map (fun b => Instr.symbolReceived (.data b)) ++
        Instr.symbolReceived .endDelimiter :: rest } hr h
  have gathered := steps_data_symbols c.kind c.bytes [] 1
    (Instr.symbolReceived .endDelimiter :: rest) s hr (by simp)
  rw [length_cellBytes, List.nil_append] at gathered
  have completed := exec_endDelimiter_completes (inside rest) hr c.kind c.bytes false false rfl
    (length_cellBytes c)
  rw [Cell.ofBytes_bytes] at completed
  calc steps 76 _ = steps 75 _ := steps_command 75 _ _ s _ opened
    _ = steps 1 (inside (Instr.symbolReceived .endDelimiter :: rest)) := gathered
    _ = exec (.symbolReceived .endDelimiter) (inside rest) := steps_one _ rest (inside rest)
    _ = exec (.cellArrival ⟨c, false, false⟩) (inside rest) := completed
    _ = .next ((inside rest).delivered.arrive _) := exec_cellArrival _ (inside rest) hr
    _ = exec (.cellArrival ⟨c, false, false⟩) { s with pending := rest } :=
      (exec_cellArrival _ { s with pending := rest } hr).symm

/-- The break symbols that bring the count of a hunting receiver to 16 are the event of the run. -/
theorem steps_break_symbols (n : Nat) (rest : List Instr) (s : State) (hr : s.resetHeld = false)
    (h : s.line.receiver = .hunting) (hc : s.line.breakCount + (n + 1) = 16) :
    steps (n + 1)
        { s with pending := List.replicate (n + 1) (Instr.symbolReceived .breakFill) ++ rest }
      = exec .breakFillReceived { s with pending := rest } := by
  induction n generalizing s with
  | zero =>
    exact (steps_one _ rest s).trans
      (exec_breakSymbol_sixteenth { s with pending := rest } hr h hc)
  | succ n ih =>
    let counted : State :=
      { s with line := { s.line with
          signal := .present, interval := .running, breakCount := s.line.breakCount + 1 } }
    have hc' : counted.line.breakCount + (n + 1) = 16 := by
      show s.line.breakCount + 1 + (n + 1) = 16
      omega
    have first := exec_breakSymbol_counted
      { s with pending := List.replicate (n + 1) (Instr.symbolReceived .breakFill) ++ rest } hr h
      (show s.line.breakCount + 1 ≠ 16 by omega)
    calc steps (n + 2) _ = steps (n + 1) _ := steps_command (n + 1) _ _ s _ first
      _ = exec .breakFillReceived { counted with pending := rest } := ih counted hr h hc'
      _ = .next _ := exec_breakFillReceived { counted with pending := rest } hr
        (show s.line.breakCount + 1 < 16 by omega)
      _ = exec .breakFillReceived { s with pending := rest } :=
        (exec_breakFillReceived { s with pending := rest } hr
          (show s.line.breakCount < 16 by omega)).symm

/-- Settles O7: by induction on the bytes of the cell and on the number of break symbols. -/
theorem symbolSequencesAreTheirEvents : Obligations.SymbolSequencesAreTheirEvents := by
  refine ⟨steps_cell_symbols, fun n rest s hr h hc hn => ?_⟩
  obtain ⟨n, rfl⟩ := Nat.exists_eq_succ_of_ne_zero hn.ne'
  exact steps_break_symbols n rest s hr h hc

/-! ### Transmission (O10) -/

/-- CELL_TRANSMITTED at a station that is not held, outside BREAK HOLD. -/
theorem exec_cellTransmitted (s : State) (hr : s.resetHeld = false)
    (hm : s.line.mode ≠ .breakHold) :
    exec .cellTransmitted s = .next { s with line := s.line.sent } := by
  simp [exec, execCellTransmitted, hr, hm]

theorem exec_cellTransmitted_breakHold (s : State) (hm : s.line.mode = .breakHold) :
    exec .cellTransmitted s = .next s := by
  simp [exec, execCellTransmitted, hm]

/-- LOUT carries fill outside BREAK HOLD while fill is owed or the store is empty. -/
theorem State.lout_fill (s : State) (hr : s.resetHeld = false) (hm : s.line.mode ≠ .breakHold)
    (h : 0 < s.line.gap ∨ s.line.store = []) : s.lout = s.line.fillOutput := by
  rcases h with h | h <;> simp [State.lout, hr, hm, h]

/-- LOUT carries the oldest stored cell outside BREAK HOLD while no fill is owed. -/
theorem State.lout_cell (s : State) (hr : s.resetHeld = false) (hm : s.line.mode ≠ .breakHold)
    (hg : s.line.gap = 0) (c : Cell) (rest : List Cell) (hs : s.line.store = c :: rest) :
    s.lout = .cell c := by
  simp [State.lout, hr, hm, hg, hs]

/-- Settles O10: the event by the mode and the store, LOUT by the mode, the fill owed and the
store. -/
theorem transmissionFollowsTheMode : Obligations.TransmissionFollowsTheMode := by
  refine ⟨fun s hr => ⟨fun c rest hm hs => ?_, fun hs => ?_, exec_cellTransmitted_breakHold s⟩,
    fun s => ⟨s.lout_of_held, fun hr hm => ?_, fun hr hm =>
      ⟨fun c rest hg hs => s.lout_cell hr hm hg c rest hs, fun h hc => ?_, fun h hp =>
        ⟨fun hf => ?_, fun hf => ?_⟩⟩⟩⟩
  · rw [exec_cellTransmitted s hr hm]
    simp [Line.sent, hs]
  · by_cases hm : s.line.mode = .breakHold
    · exact exec_cellTransmitted_breakHold s hm
    · rw [exec_cellTransmitted s hr hm]
      simp [Line.sent, hs]
  · simp [State.lout, hr, hm]
  · rw [s.lout_fill hr hm h]
    simp [Line.fillOutput, hc]
  · rw [s.lout_fill hr hm h]
    simp [Line.fillOutput, hp, hf]
  · rw [s.lout_fill hr hm h]
    rcases hf with hf | hf <;> simp [Line.fillOutput, hp, hf]

/-! ### Repeaters and carriers (O33) -/

/-- OFFLINE and EXCLUDED in REPEAT report an arriving cell to the repeater. -/
theorem State.arrive_of_repeater (s : State) (r : Reception) (hm : s.line.mode = .repeating)
    (hs : s.loop.state = .offline ∨ s.loop.state = .excluded) : s.arrive r = s.repeatArrival r := by
  rcases hs with hs | hs <;> simp [State.arrive, State.loopArrival, hm, hs]

/-- CENSUS ONLY and BREAK HOLD carry an arriving cell past loop control. -/
theorem State.arrive_of_carrier (s : State) (r : Reception)
    (hm : s.line.mode = .censusOnly ∨ s.line.mode = .breakHold) :
    s.arrive r = s.carryCensus r.cell := by
  rcases hm with hm | hm <;> simp [State.arrive, hm]

theorem State.carryCensus_of_census (s : State) (c : Cell) (h : c.kind = .census) :
    s.carryCensus c = s.enterCell c := by
  simp [State.carryCensus, h]

theorem State.carryCensus_of_other (s : State) (c : Cell) (h : c.kind ≠ .census) :
    s.carryCensus c = s := by
  unfold State.carryCensus
  cases hk : c.kind <;> simp_all

theorem Loop.latestFormation_hear (l : Loop) (n : Byte) :
    l.hear n = { l with latestFormation := heard l.latestFormation n } := by
  simp [Loop.hear, heard, laterFormation]

/-- A MARK with good checks that is well formed is heard. -/
theorem State.hearMark_good (s : State) (r : Reception) (h : r.good = true)
    (hw : r.cell.markWellFormed = true) :
    s.hearMark r = { s with loop := s.loop.hear r.cell.header.markFormation } := by
  simp [State.hearMark, h, hw]

theorem State.hearMark_bad (s : State) (r : Reception)
    (h : r.good = false ∨ r.cell.markWellFormed = false) : s.hearMark r = s := by
  rcases h with h | h <;> simp [State.hearMark, h]

/-- Settles O33: the repeater by the kind of the cell, the carrier by whether it is a CENSUS
cell. -/
theorem repeatersAndCarriersForward : Obligations.RepeatersAndCarriersForward := by
  intro r s hr
  refine ⟨fun hm hs => ?_, fun hm => ?_⟩
  · have repeated : exec (.cellArrival r) s = .next (s.delivered.repeatArrival r) := by
      rw [exec_cellArrival r s hr, s.delivered.arrive_of_repeater r hm hs]
    refine ⟨fun hk => ?_, fun hk => ⟨fun ho => ?_, fun ho => ?_⟩,
      fun hk => ⟨fun hg => ?_, fun hb => ?_⟩⟩
    · rw [repeated]
      rcases hk with hk | hk <;> simp only [State.repeatArrival, hk] <;> rfl
    · rw [repeated]
      simp only [State.repeatArrival, hk, State.forwardData, ho]
      rfl
    · rw [repeated]
      simp only [State.repeatArrival, hk, State.forwardData, ho]
      rfl
    · rw [repeated]
      simp only [State.repeatArrival, hk, State.hearMark_good _ r hg.1 hg.2,
        Loop.latestFormation_hear]
      rfl
    · rw [repeated]
      simp only [State.repeatArrival, hk, State.hearMark_bad _ r hb]
      rfl
  · have carried : exec (.cellArrival r) s = .next (s.delivered.carryCensus r.cell) := by
      rw [exec_cellArrival r s hr, s.delivered.arrive_of_carrier r hm]
    refine ⟨fun hk => ?_, fun hk => ?_⟩
    · rw [carried, State.carryCensus_of_census _ _ hk]
      rfl
    · rw [carried, State.carryCensus_of_other _ _ hk]

/-! ### Built censuses, MARKs and TAILs (O14) -/

/-- The payload of a sound list of entries is a well-formed list. -/
theorem listWellFormed_payloadOfEntries (es : List RosterEntry) (h1 : 1 ≤ es.length)
    (hs : rosterSound es) : listWellFormed (payloadOfEntries es) es.length = true := by
  obtain ⟨h30, hr, hd⟩ := hs
  simp only [listWellFormed, entriesOf_payloadOfEntries es (by omega), zeroBeyond_payloadOfEntries,
    hr, hd, Config.maxEntries, h1, h30, decide_true, Bool.and_self]

/-- A station's own entry, from a legal number and a hosted count of at most 32. -/
theorem inRange_own (me : Code5) (hosted : Byte) (hm : stationLegal me = true)
    (hh : hosted.toNat ≤ 32) : (⟨codeByte me, hosted⟩ : RosterEntry).inRange = true := by
  obtain ⟨h1, h30⟩ := codeByte_range me hm
  simp [RosterEntry.inRange, h1, h30, hh]

theorem builtCensus_wellFormed (me : Code5) (attempt : Nat) (hosted : Byte)
    (hm : stationLegal me = true) (h1 : 1 ≤ attempt) (h16 : attempt ≤ 16)
    (hh : hosted.toNat ≤ 32) :
    (builtCensus me attempt hosted).header.originator = me
      ∧ (builtCensus me attempt hosted).header.attemptNumber.toNat = attempt
      ∧ (builtCensus me attempt hosted).censusEntries = [⟨codeByte me, hosted⟩]
      ∧ (builtCensus me attempt hosted).censusWellFormed = true := by
  have originator : (builtCensus me attempt hosted).header.originator = me := field5_codeByte me
  have number : (builtCensus me attempt hosted).header.attemptNumber.toNat = attempt :=
    toNat_natByte attempt (by omega)
  have entries : (builtCensus me attempt hosted).censusEntries = [⟨codeByte me, hosted⟩] :=
    entriesOf_payloadOfEntries [⟨codeByte me, hosted⟩] (by simp)
  have listed : listWellFormed (builtCensus me attempt hosted).payload
      (builtCensus me attempt hosted).header.entryCount.toNat = true :=
    listWellFormed_payloadOfEntries [⟨codeByte me, hosted⟩] le_rfl
      ⟨by simp, by simp [inRange_own me hosted hm hh], rfl⟩
  have first : entryAt (builtCensus me attempt hosted).payload 0 = ⟨codeByte me, hosted⟩ :=
    entryAt_payloadOfEntries [⟨codeByte me, hosted⟩] 0 (by simp) (by decide)
  refine ⟨originator, number, entries, ?_⟩
  simp [Cell.censusWellFormed, originator, number, listed, first, hm, h1, h16, Config.maxAttempt]

/-- Words outside the range written keep their entries. -/
theorem entryAt_writeWords_other (p : Payload) (n i : Nat) (w : Word) (hi : i ≠ n) (h : i < 32) :
    entryAt (writeWords p n [w]) i = entryAt p i := by
  have hn : ¬(n ≤ i ∧ i < n + [w].length) := by
    simp only [List.length_singleton]
    omega
  simp only [entryAt, payloadWord_writeWords p n [w] i h, if_neg hn]

theorem entryAt_writeWords_same (p : Payload) (n : Nat) (e : RosterEntry) (h : n < 32) :
    entryAt (writeWords p n [entryWord e]) n = e := by
  simp [entryAt, payloadWord_writeWords p n _ n h, entryWord]

/-- An entry written after the last one stands at the end of the list. -/
theorem entriesOf_writeWords (p : Payload) (n : Nat) (e : RosterEntry) (h : n < 32) :
    entriesOf (writeWords p n [entryWord e]) (n + 1) = entriesOf p n ++ [e] := by
  have before : (List.range n).map (entryAt (writeWords p n [entryWord e])) = entriesOf p n := by
    refine List.map_congr_left fun i hi => ?_
    have := List.mem_range.mp hi
    exact entryAt_writeWords_other p n i _ (by omega) (by omega)
  rw [entriesOf, List.range_succ, List.map_append, before, List.map_singleton,
    entryAt_writeWords_same p n e h]

theorem zeroBeyond_writeWords (p : Payload) (n : Nat) (w : Word) (h : zeroBeyond p n = true) :
    zeroBeyond (writeWords p n [w]) (n + 1) = true := by
  simp only [zeroBeyond, List.all_eq_true, List.mem_range, Bool.or_eq_true, decide_eq_true_eq,
    Config.maxEntries] at h ⊢
  intro i hi
  by_cases hn : i < n + 1
  · exact Or.inl hn
  · right
    have hw : ¬(n ≤ i ∧ i < n + [w].length) := by
      simp only [List.length_singleton]
      omega
    rw [payloadWord_writeWords p n [w] i (by omega), if_neg hw]
    exact (h i hi).resolve_left (by omega)

/-- A list keeps its stations distinct when one that is not in it joins its end. -/
theorem distinctStations_append (es : List RosterEntry) (e : RosterEntry)
    (h : distinctStations es = true) (he : ∀ f ∈ es, f.station ≠ e.station) :
    distinctStations (es ++ [e]) = true := by
  induction es with
  | nil => rfl
  | cons x xs ih =>
    simp only [distinctStations, Bool.and_eq_true] at h
    have hx : (e.station != x.station) = true := by
      simpa using (he x List.mem_cons_self).symm
    simp only [List.cons_append, distinctStations, List.all_append, h.1, List.all_cons,
      List.all_nil, hx, ih h.2 fun f hf => he f (List.mem_cons_of_mem _ hf), Bool.and_self]

theorem answeredCensus_wellFormed (c : Cell) (e : RosterEntry) (hw : c.censusWellFormed = true)
    (hn : c.header.entryCount.toNat < 30) (he : e.inRange = true)
    (hd : ∀ f ∈ c.censusEntries, f.station ≠ e.station) :
    (answeredCensus c e).censusEntries = c.censusEntries ++ [e]
      ∧ (answeredCensus c e).censusWellFormed = true := by
  simp only [Cell.censusWellFormed, Bool.and_eq_true, listWellFormed, decide_eq_true_eq] at hw
  obtain ⟨⟨⟨⟨ho, h1⟩, h16⟩, ⟨⟨⟨hc, -⟩, hr⟩, hs⟩, hz⟩, hf⟩ := hw
  have count : (answeredCensus c e).header.entryCount.toNat = c.header.entryCount.toNat + 1 := by
    show (c.header.byte4 + 1#8).toNat = c.header.byte4.toNat + 1
    have hn' : c.header.byte4.toNat < 30 := hn
    rw [BitVec.toNat_add, show (1#8).toNat = 1 from rfl]
    omega
  have entries : (answeredCensus c e).censusEntries = c.censusEntries ++ [e] := by
    rw [Cell.censusEntries, count]
    exact entriesOf_writeWords c.payload _ e (by omega)
  refine ⟨entries, ?_⟩
  have first : entryAt (answeredCensus c e).payload 0 = entryAt c.payload 0 :=
    entryAt_writeWords_other c.payload _ 0 _ (by omega) (by decide)
  have zeros : zeroBeyond (answeredCensus c e).payload (c.header.entryCount.toNat + 1) = true :=
    zeroBeyond_writeWords c.payload _ _ hz
  have listed : listWellFormed (answeredCensus c e).payload
      (answeredCensus c e).header.entryCount.toNat = true := by
    have all : (c.censusEntries ++ [e]).all RosterEntry.inRange = true := by
      rw [List.all_append, Bool.and_eq_true]
      exact ⟨hr, by simp [he]⟩
    have distinct := distinctStations_append c.censusEntries e hs hd
    rw [← entries] at all distinct
    rw [Cell.censusEntries, count] at all distinct
    simp only [listWellFormed, count, all, distinct, zeros, Config.maxEntries, Bool.and_eq_true,
      decide_eq_true_eq, and_true]
    omega
  simp only [Cell.censusWellFormed, listed, first, Bool.and_eq_true, decide_eq_true_eq, and_true]
  exact ⟨⟨⟨ho, h1⟩, h16⟩, hf⟩

theorem builtMark_wellFormed (formation : Byte) (roster : List RosterEntry)
    (h1 : 1 ≤ roster.length) (hs : rosterSound roster) :
    (builtMark formation roster).markWellFormed = true
      ∧ (builtMark formation roster).roster = roster := by
  have h30 : roster.length ≤ 30 := hs.1
  have count : (builtMark formation roster).header.rosterCount.toNat = roster.length :=
    toNat_natByte roster.length (by omega)
  rw [Cell.markWellFormed, Cell.roster, count]
  exact ⟨listWellFormed_payloadOfEntries roster h1 hs,
    entriesOf_payloadOfEntries roster (by omega)⟩

theorem builtTail_wellFormed (me : Code5) (formation : Byte) (hm : stationLegal me = true) :
    (builtTail me formation).header.originator = me
      ∧ (builtTail me formation).tailWellFormed = true := by
  have originator : (builtTail me formation).header.originator = me := field5_codeByte me
  refine ⟨originator, ?_⟩
  rw [Cell.tailWellFormed, originator, hm, Bool.true_and, beq_iff_eq]
  rfl

/-- A cell built with its kind code and both checks computed has good checks. -/
theorem builtCell_good (kind : CellKind) (b2 b3 b4 : Byte) (p : Payload) :
    (⟨builtCell kind b2 b3 b4 p, false, false⟩ : Reception).good = true := good_sealed _ rfl

/-- Settles O14: the lists that a station builds and answers read back from their payloads. -/
theorem censusAndMarkBuiltAreWellFormed : Obligations.CensusAndMarkBuiltAreWellFormed := by
  refine ⟨⟨fun me attempt hosted hm h1 h16 hh => ?_, fun c e hk hc hw hn he hd => ?_⟩,
    fun formation roster h1 h30 hr hd => ?_, fun me formation hm => ?_⟩
  · obtain ⟨originator, number, entries, sound⟩ :=
      builtCensus_wellFormed me attempt hosted hm h1 h16 hh
    exact ⟨rfl, sound, builtCell_good _ _ _ _ _, originator, number, entries⟩
  · obtain ⟨entries, sound⟩ := answeredCensus_wellFormed c e hw hn he hd
    have code : c.header.kindCode = c.kind.code := by rw [hc, hk]
    exact ⟨hk, sound, good_sealed _ code, rfl, rfl, entries⟩
  · obtain ⟨sound, carried⟩ := builtMark_wellFormed formation roster h1 ⟨h30, hr, hd⟩
    exact ⟨rfl, sound, builtCell_good _ _ _ _ _, rfl, carried⟩
  · obtain ⟨originator, sound⟩ := builtTail_wellFormed me formation hm
    exact ⟨rfl, sound, builtCell_good _ _ _ _ _, originator, rfl, rfl, rfl⟩

/-! ### Hosted cells (O15) -/

/-- An index written as a byte reads back as its five-bit code. -/
theorem field5_natByte (i : Nat) : field5 (natByte i) = BitVec.ofNat 5 i := by
  apply BitVec.eq_of_toNat_eq
  simp only [field5, natByte, BitVec.toNat_setWidth, BitVec.toNat_ofNat]
  omega

/-- Settles O15: the address reads back, the flags and the rest go by the option. -/
theorem hostedCellsAreBuiltAsTheOptionSays : Obligations.HostedCellsAreBuiltAsTheOptionSays := by
  intro s i _
  obtain ⟨handoff, damaged, restored⟩ := flags_hostedCell s i
  have address : (s.hostedCell i).header.address = ⟨s.port.station, BitVec.ofNat 5 i⟩ :=
    congrArg₂ Address.mk (field5_codeByte _) (field5_natByte i)
  refine ⟨rfl, good_sealed _ rfl, address, rfl, rfl, handoff, damaged,
    fun h => ⟨?_, ?_, restored.trans h⟩, fun h => ⟨?_, ?_, restored.trans h⟩⟩
  · rw [payload_hostedCell, if_pos h]
  · rw [generation_hostedCell, if_pos h]
  · rw [payload_hostedCell, if_neg (by simp [h])]
    rfl
  · rw [generation_hostedCell, if_neg (by simp [h])]

/-! ### The quiet period (O60) -/

/-- A quiet period sends one fill symbol owed and passes one byte period of the port. -/
theorem step_quiet (s : State) (hp : s.pending = []) (hr : s.resetHeld = false) (p : Port)
    (h : s.port.bytePeriod = p) :
    step s = .next { s with line := { s.line with gap := s.line.gap - 1 }, port := p } := by
  have hn : ¬s.resetHeld = true := by simp [hr]
  rw [step_nil s hp, State.tick, if_neg hn, h]
  rfl

/-- The next byte of a command in hand: it joins while field bytes are missing. -/
theorem CommandInHand.extended_some (b : Byte) (k : HostCommand) (received : List Byte) :
    CommandInHand.extended b (some ⟨k.code, received⟩) =
      if received.length < k.fieldCount received then some ⟨k.code, received ++ [b]⟩ else none := by
  simp [CommandInHand.extended]

/-- A command byte is taken in hand when it names a command. -/
theorem CommandInHand.extended_none (k : HostCommand) :
    CommandInHand.extended k.code none = some ⟨k.code, []⟩ := by
  simp [CommandInHand.extended]

theorem CommandInHand.extended_unknown (b : Byte) (h : ∀ k : HostCommand, k.code ≠ b) :
    CommandInHand.extended b none = none := by
  simp [CommandInHand.extended, HostCommand.ofCode_of_unknown b h]

/-- A byte period in RECEIVING with a byte that joins the command in hand. -/
theorem Port.bytePeriod_joined (p : Port) (hp : p.phase = .receiving) (b : Byte) (rest : List Byte)
    (hi : p.incoming = b :: rest) (c : CommandInHand)
    (h : CommandInHand.extended b p.command = some c) :
    p.bytePeriod = { p with command := some c, incoming := rest } := by
  simp only [Port.bytePeriod, hp, Port.gather, hi, h]

/-- A byte period in RECEIVING with a byte whose arrival is a command. -/
theorem Port.bytePeriod_waits (p : Port) (hp : p.phase = .receiving) (b : Byte) (rest : List Byte)
    (hi : p.incoming = b :: rest) (h : CommandInHand.extended b p.command = none) :
    p.bytePeriod = p := by
  simp only [Port.bytePeriod, hp, Port.gather, hi, h]

/-- Which responses end in a command: TAKE and NOTE with a record, and STATUS (R169). -/
theorem Port.endIsCommand_iff (p : Port) (x : ResponseInHand) (h : p.response = some x) :
    p.endIsCommand = true ↔
      (p.command.map CommandInHand.code = some 0x13#8
          ∨ p.command.map CommandInHand.code = some 0x14#8) ∧ x.bytes.head? = some 0x01#8
        ∨ p.command.map CommandInHand.code = some 0x19#8 ∧ x.bytes.head? = some 0x00#8 := by
  simp only [Port.endIsCommand, Port.holds, Port.responseStatus, h, Option.bind_some,
    HostCommand.code, Status.code, Bool.or_eq_true, Bool.and_eq_true, beq_iff_eq]
  tauto

/-- A byte period in RESPONDING. -/
theorem Port.bytePeriod_responding (p : Port) (hp : p.phase = .responding) (x : ResponseInHand)
    (h : p.response = some x) :
    (x.next + 1 < x.bytes.length →
        p.bytePeriod = { p with response := some ⟨x.bytes, x.next + 1⟩ })
      ∧ (x.bytes.length ≤ x.next + 1 → p.endIsCommand = true → p.bytePeriod = p)
      ∧ (x.bytes.length ≤ x.next + 1 → ¬p.endIsCommand = true → p.bytePeriod =
        { p with phase := .spent, response := some ⟨x.bytes, x.bytes.length⟩ }) := by
  refine ⟨fun hl => ?_, fun hl he => ?_, fun hl he => ?_⟩
  · simp only [Port.bytePeriod, hp, Port.shiftOut, h, if_pos hl]
  · simp only [Port.bytePeriod, hp, Port.shiftOut, h, if_neg (Nat.not_lt.mpr hl), if_pos he]
  · simp only [Port.bytePeriod, hp, Port.shiftOut, h, if_neg (Nat.not_lt.mpr hl), if_neg he,
      Port.spent, Option.map_some]

/-- What SO carries: the response from its index on, then the fill byte. -/
theorem State.so_eq (s : State) (k : Nat) :
    (s.port.response = none → s.so k = 0xFF#8)
      ∧ ∀ x, s.port.response = some x →
        (∀ h : x.next + k < x.bytes.length, s.so k = x.bytes[x.next + k])
        ∧ (x.bytes.length ≤ x.next + k → s.so k = 0xFF#8) := by
  refine ⟨fun h => ?_, fun x h => ⟨fun hl => ?_, fun hl => ?_⟩⟩
  · simp only [State.so, h]
  · simp only [State.so, h, List.getD_eq_getElem _ _ hl]
  · simp only [State.so, h, List.getD_eq_default _ _ hl]

/-- Settles O60: a quiet period by the phase of the port, and the byte that comes or goes in it. -/
theorem quietPeriodMovesTheGapAndThePort : Obligations.QuietPeriodMovesTheGapAndThePort := by
  refine ⟨fun s hp => ⟨fun hr => ?_, fun hr => ?_⟩, State.so_eq, fun received s => ⟨_, rfl, rfl⟩⟩
  · rw [step_nil s hp, s.tick_eq.2 hr]
  have quiet := step_quiet s hp hr
  refine ⟨fun h => quiet _ ?_, fun h => ⟨fun hi => quiet _ ?_, fun b rest hi => ⟨fun hc => ⟨?_, ?_⟩,
    fun k received hc => ⟨fun hl => ?_, fun hl => ?_⟩⟩⟩, fun x hx => ⟨fun h => ?_, fun h => ?_⟩⟩
  · rcases h with h | h <;> simp only [Port.bytePeriod, h]
  · simp only [Port.bytePeriod, h, Port.gather, hi]
  · rintro ⟨k, rfl⟩
    exact quiet _ (s.port.bytePeriod_joined h _ rest hi _ (hc ▸ CommandInHand.extended_none k))
  · intro hb
    exact quiet _ (s.port.bytePeriod_waits h b rest hi (hc ▸ CommandInHand.extended_unknown b hb))
  · refine quiet _ (s.port.bytePeriod_joined h b rest hi _ ?_)
    rw [hc, CommandInHand.extended_some, if_pos hl]
  · refine quiet _ (s.port.bytePeriod_waits h b rest hi ?_)
    rw [hc, CommandInHand.extended_some, if_neg (Nat.not_lt.mpr hl)]
  · obtain ⟨next, waits, spent⟩ := s.port.bytePeriod_responding h x hx
    have ends := s.port.endIsCommand_iff x hx
    exact ⟨fun hl => quiet _ (next hl), fun hl => ⟨fun he => quiet _ (waits hl (ends.mpr he)),
      fun he => quiet _ (spent hl fun hc => he (ends.mp hc))⟩⟩
  · refine quiet _ ?_
    simp only [Port.bytePeriod, h, Port.shiftUnknown, hx, Option.map_some]

end Sys2Proof.Machine
end

section
/-! Proofs of the statements about forming the loop: rules that say once what a timer, a START and
an arrival in CENSUS or BUILD do, and the results that follow from them. -/

namespace Sys2Proof.Machine

/-! ### The timers of loop control (O12) -/

/-- Everything that originating a census does. -/
theorem State.originate_eq (s : State) :
    s.originate =
      { s with
        loop := { s.loop with attempt := s.loop.attempt + 1, censusTimer := .running }
        line := { s.line with
          store := storeEnter s.line.store
            (builtCensus s.port.station (s.loop.attempt + 1) s.loop.hosted) } } := rfl

theorem exec_listenTimer_originates (s : State) (hs : s.loop.state = .census)
    (ht : s.loop.listenTimer = .running) (hy : s.loop.yielded = false) :
    exec .listenTimerExpiry s
      = .next { s with loop := { s.loop with listenTimer := .stopped } : State }.originate := by
  simp [exec, execListenTimerExpiry, hs, ht, hy]

theorem exec_listenTimer_yielded (s : State) (hs : s.loop.state = .census)
    (ht : s.loop.listenTimer = .running) (hy : s.loop.yielded = true) :
    exec .listenTimerExpiry s
      = .next { s with loop := { s.loop with listenTimer := .stopped } } := by
  simp [exec, execListenTimerExpiry, hs, ht, hy]

theorem exec_listenTimer_stopped (s : State) (ht : s.loop.listenTimer = .stopped) :
    exec .listenTimerExpiry s = .next s := by
  simp [exec, execListenTimerExpiry, ht]

theorem exec_censusTimer_originates (s : State) (hs : s.loop.state = .census)
    (ht : s.loop.censusTimer = .running) (hy : s.loop.yielded = false) (ha : s.loop.attempt < 16) :
    exec .censusTimerExpiry s = .next s.originate := by
  simp [exec, execCensusTimerExpiry, hs, ht, hy, Config.maxAttempt, ha]

theorem exec_censusTimer_breaks (s : State) (hs : s.loop.state = .census)
    (ht : s.loop.censusTimer = .running) (hy : s.loop.yielded = false) (ha : s.loop.attempt = 16) :
    exec .censusTimerExpiry s = .next (s.enterBroken .formTimeout) := by
  simp [exec, execCensusTimerExpiry, hs, ht, hy, Config.maxAttempt, ha]

theorem exec_censusTimer_stopped (s : State) (ht : s.loop.censusTimer = .stopped) :
    exec .censusTimerExpiry s = .next s := by
  simp [exec, execCensusTimerExpiry, ht]

theorem exec_yieldWait_breaks (s : State) (hs : s.loop.state = .census)
    (ht : s.loop.yieldTimer = .running) :
    exec .yieldWaitExpiry s = .next (s.enterBroken .formTimeout) := by
  simp [exec, execYieldWaitExpiry, hs, ht]

theorem exec_yieldWait_stopped (s : State) (ht : s.loop.yieldTimer = .stopped) :
    exec .yieldWaitExpiry s = .next s := by
  simp [exec, execYieldWaitExpiry, ht]

theorem exec_buildLimit_breaks (s : State) (hs : s.loop.state = .build)
    (ht : s.loop.buildTimer = .running) :
    exec .buildLimitExpiry s = .next (s.enterBroken .buildTimeout) := by
  simp [exec, execBuildLimitExpiry, hs, ht]

theorem exec_buildLimit_stopped (s : State) (ht : s.loop.buildTimer = .stopped) :
    exec .buildLimitExpiry s = .next s := by
  simp [exec, execBuildLimitExpiry, ht]

/-- Settles O12: one rule for each outcome of each timer; originating is written out. -/
theorem formationTimersOriginateOrBreak : Obligations.FormationTimersOriginateOrBreak := by
  refine ⟨fun s hs => ⟨fun ht hy => ?_, exec_listenTimer_yielded s hs, exec_listenTimer_stopped s,
      fun ht hy ha => ?_, exec_censusTimer_breaks s hs, exec_censusTimer_stopped s⟩,
    fun s => ⟨exec_yieldWait_breaks s, exec_yieldWait_stopped s, exec_buildLimit_breaks s,
      exec_buildLimit_stopped s⟩⟩
  · exact (exec_listenTimer_originates s hs ht hy).trans (congrArg _ (State.originate_eq _))
  · exact (exec_censusTimer_originates s hs ht hy ha).trans (congrArg _ s.originate_eq)

/-! ### The entry into BROKEN (O11) -/

/-- ATTN is asserted while a notice waits (R153). -/
theorem State.attn_of_notice (s : State) (h : s.queues.notices ≠ []) : s.attn = true := by
  simp [State.attn, h]

/-- An entry into BROKEN leaves a notice waiting. -/
theorem State.notices_queuesBroken_ne_nil (s : State) (reason : Reason) :
    (s.queuesBroken reason).notices ≠ [] := by
  unfold State.queuesBroken
  dsimp only
  split <;> exact Queues.notices_post_ne_nil _ _

/-- Settles O11: each cause enters BROKEN from the station as the line interface leaves it, and the
entry is written out once for all of them. -/
theorem entryIntoBrokenTakesTheSixActions : Obligations.EntryIntoBrokenTakesTheSixActions := by
  intro i reason s hr cause
  have entered : ∃ l : Line, l.fillFollowing = s.line.fillFollowing
      ∧ exec i s = .next ({ s with line := l : State }.enterBroken reason) := by
    rcases cause with ⟨rfl, rfl, ht, hs, hy, ha⟩ | ⟨rfl, rfl, ht, hs⟩ | ⟨rfl, rfl, ht, hs⟩
      | ⟨rfl, rfl, hp, hs⟩ | ⟨rfl, rfl, hc, hs⟩
    · exact ⟨s.line, rfl, exec_censusTimer_breaks s hs ht hy ha⟩
    · exact ⟨s.line, rfl, exec_yieldWait_breaks s hs ht⟩
    · exact ⟨s.line, rfl, exec_buildLimit_breaks s hs ht⟩
    · exact ⟨s.line.lose, rfl,
        (exec_signalLoss s hr hp).trans (congrArg _ (State.breakReport_breaks _ _ hs))⟩
    · exact ⟨s.line.breakRunComplete, rfl,
        (exec_breakFillReceived s hr hc).trans (congrArg _ (State.breakReport_breaks _ _ hs))⟩
  obtain ⟨l, hf, e⟩ := entered
  refine ⟨_, e, ?_⟩
  rw [State.enterBroken_eq]
  exact ⟨rfl, rfl, rfl, hf, rfl, ⟨rfl, rfl⟩, rfl, rfl, rfl, rfl, rfl, rfl, rfl,
    State.attn_of_notice _ (State.notices_queuesBroken_ne_nil _ _)⟩

/-! ### START (O20) -/

/-- A legal station number is one of 1 to 30. -/
theorem stationLegal_iff : ∀ c : Code5, stationLegal c = true ↔ 1 ≤ c.toNat ∧ c.toNat ≤ 30 := by
  decide

/-- A command in RECEIVING has its effect and is answered. -/
theorem State.takeCommand_of_receiving (s : State) (k : HostCommand) (fields : List Byte)
    (effect : State → State × List Byte) (h : s.receiving = true) :
    s.takeCommand k fields effect = (effect s).1.answered k fields (effect s).2 := by
  rw [State.takeCommand, if_pos h]
  rfl

theorem State.startRefusal_badStation (s : State) (n : Nat)
    (h : stationLegal s.port.station = false) : s.startRefusal n = some .badStation := by
  simp [State.startRefusal, h]

theorem State.startRefusal_malformed (s : State) (n : Nat)
    (h : stationLegal s.port.station = true) (hn : 32 < n) :
    s.startRefusal n = some .malformed := by
  simp [State.startRefusal, h, Config.maxHosted, hn]

/-- With a legal number and hosted count, the loop state decides. -/
theorem State.startRefusal_by_state (s : State) (n : Nat)
    (h : stationLegal s.port.station = true) (hn : n ≤ 32) :
    (s.loop.state = .offline ∨ s.loop.state = .broken → s.startRefusal n = none)
      ∧ (s.loop.state = .census ∨ s.loop.state = .build ∨ s.loop.state = .running →
        s.startRefusal n = some .running)
      ∧ (s.loop.state = .excluded → s.startRefusal n = some .excluded) := by
  have hn' : ¬Config.maxHosted < n := Nat.not_lt.mpr hn
  unfold State.startRefusal
  rw [if_neg (by simp [h]), if_neg hn']
  cases s.loop.state <;> simp

/-- A START that a check refuses is answered with its status and the loop state. -/
theorem exec_start_refused (hostedCount restore : Byte) (s : State) (hr : s.receiving = true)
    (status : Status)
    (h : s.startRefusal (hostedCount &&& 0x3F#8).toNat = some status) :
    exec (.start hostedCount restore) s = .next
      (s.answered .start [hostedCount, restore] [status.code, s.loop.state.code, 0#8, 0#8]) := by
  have effect : startEffect hostedCount restore s
      = (s, [status.code, s.loop.state.code, 0#8, 0#8]) := by
    simp only [startEffect, hostedField, h]
  simp only [exec, execStart, s.takeCommand_of_receiving _ _ _ hr, effect]

/-- A START that passes its checks enters CENSUS and is answered ACCEPTED. -/
theorem exec_start_accepted (hostedCount restore : Byte) (s : State) (hr : s.receiving = true)
    (h : s.startRefusal (hostedCount &&& 0x3F#8).toNat = none) :
    exec (.start hostedCount restore) s = .next
      ((s.enterCensus (hostedCount &&& 0x3F#8) (restore != 0#8)).answered .start
        [hostedCount, restore]
        [Status.accepted.code, LoopState.census.code, s.loop.state.code,
          if s.loop.holdTimer = .running then 1#8 else 0#8]) := by
  have effect : startEffect hostedCount restore s
      = (s.enterCensus (hostedCount &&& 0x3F#8) (restore != 0#8),
        [Status.accepted.code, LoopState.census.code, s.loop.state.code,
          if s.loop.holdTimer = .running then 1#8 else 0#8]) := by
    simp only [startEffect, hostedField, h, boolByte, beq_iff_eq]
    rfl
  simp only [exec, execStart, s.takeCommand_of_receiving _ _ _ hr, effect]

/-- Settles O20: the checks in their order, then the entry into CENSUS written out. -/
theorem startEntersCensusOrIsRefused : Obligations.StartEntersCensusOrIsRefused := by
  intro hostedCount restore s hr h legal
  have legal_iff : stationLegal s.port.station = true ↔ legal := stationLegal_iff _
  have refused := exec_start_refused hostedCount restore s hr
  have by_state := fun hl : legal => s.startRefusal_by_state h.toNat (legal_iff.mpr hl)
  refine ⟨fun hl hh hs => ?_, fun hl => refused .badStation ?_,
    fun hl hh => refused .malformed ?_, fun hl hh hs => refused .running ?_,
    fun hl hh hs => ?_⟩
  · obtain ⟨accepted, -, -⟩ := by_state hl hh
    rw [exec_start_accepted hostedCount restore s hr (accepted hs), State.enterCensus_eq]
    rfl
  · exact s.startRefusal_badStation _ (Bool.eq_false_iff.mpr fun hc => hl (legal_iff.mp hc))
  · exact s.startRefusal_malformed _ (legal_iff.mpr hl) hh
  · obtain ⟨-, running, -⟩ := by_state hl hh
    exact running hs
  · obtain ⟨-, -, excluded⟩ := by_state hl hh
    have answered := refused .excluded (excluded hs)
    rwa [hs] at answered

/-! ### Arrivals that are reported to loop control (O34 to O39) -/

/-- In REPEAT a completed cell is judged by the loop state. -/
theorem exec_cellArrival_reported (r : Reception) (s : State) (hr : s.resetHeld = false)
    (hm : s.line.mode = .repeating) :
    exec (.cellArrival r) s = .next (s.delivered.loopArrival r) := by
  have mode : s.delivered.line.mode = .repeating := hm
  rw [exec_cellArrival r s hr]
  simp only [State.arrive, mode]

theorem exec_cellArrival_census (r : Reception) (s : State) (h : s.reporting .census) :
    exec (.cellArrival r) s = .next (s.delivered.censusArrival r) := by
  obtain ⟨hr, hm, hs⟩ := h
  have state : s.delivered.loop.state = .census := hs
  rw [exec_cellArrival_reported r s hr hm]
  simp only [State.loopArrival, state]

theorem exec_cellArrival_build (r : Reception) (s : State) (h : s.reporting .build) :
    exec (.cellArrival r) s = .next (s.delivered.buildArrival r) := by
  obtain ⟨hr, hm, hs⟩ := h
  have state : s.delivered.loop.state = .build := hs
  rw [exec_cellArrival_reported r s hr hm]
  simp only [State.loopArrival, state]

theorem State.forwardData_good (s : State) (c : Cell) (h : c.header.ownershipGood = true) :
    s.forwardData c = s.enterCell c := by
  rw [State.forwardData, if_pos h]

theorem State.forwardData_bad (s : State) (c : Cell) (h : c.header.ownershipGood = false) :
    s.forwardData c = s := by
  simp [State.forwardData, h]

/-- A sound MARK that is heard writes the latest formation number alone. -/
theorem State.hearMark_sound (s : State) (r : Reception) (h : r.good = true)
    (hw : r.cell.markWellFormed = true) :
    s.hearMark r = { s with loop := { s.loop with
      latestFormation := heard s.loop.latestFormation r.cell.header.markFormation } } := by
  rw [s.hearMark_good r h hw, Loop.latestFormation_hear]

/-! ### A census in CENSUS (O35) -/

theorem State.judgeCensus_unsound (s : State) (r : Reception)
    (h : r.good = false ∨ r.cell.censusWellFormed = false) : s.judgeCensus r = s := by
  have hn : ¬(r.good = true ∧ r.cell.censusWellFormed = true) := by
    rcases h with h | h <;> simp [h]
  simp only [State.judgeCensus, if_pos hn]

/-- A sound census of a lower-numbered originator: discarded when it is the one last answered, a
break when it names this station, answered otherwise. -/
theorem State.judgeCensus_lower (s : State) (r : Reception)
    (h : r.good = true ∧ r.cell.censusWellFormed = true)
    (ho : r.cell.header.originator.toNat < s.port.station.toNat) :
    s.judgeCensus r =
      if s.loop.lastAnswered = some (r.cell.header.originator, r.cell.header.attemptNumber) then s
      else if r.cell.censusEntries.any (fun e => e.station == codeByte s.port.station) then
        s.enterBroken .duplicateStation
      else s.answerCensus r.cell := by
  simp only [State.judgeCensus, if_neg (not_not.mpr h), if_pos ho]

theorem State.judgeCensus_higher (s : State) (r : Reception)
    (h : r.good = true ∧ r.cell.censusWellFormed = true)
    (ho : s.port.station.toNat < r.cell.header.originator.toNat) : s.judgeCensus r = s := by
  simp only [State.judgeCensus, if_neg (not_not.mpr h), if_neg (Nat.not_lt.mpr ho.le), if_pos ho]

/-- A sound census of this station: discarded by a station that has yielded or is at another
attempt, completed otherwise. -/
theorem State.judgeCensus_own (s : State) (r : Reception)
    (h : r.good = true ∧ r.cell.censusWellFormed = true)
    (ho : r.cell.header.originator = s.port.station) :
    s.judgeCensus r =
      if s.loop.yielded = true ∨ r.cell.header.attemptNumber.toNat ≠ s.loop.attempt then s
      else s.completeCensus r.cell := by
  simp only [State.judgeCensus, if_neg (not_not.mpr h), ho, if_neg (Nat.lt_irrefl _)]

/-- Settles O35: the kind of the cell, then a census by its originator's number. -/
theorem censusCellsAreJudgedInCensus : Obligations.CensusCellsAreJudgedInCensus := by
  intro r s h c me o a
  have arrived := exec_cellArrival_census r s h
  have judged : c.kind = .census →
      exec (.cellArrival r) s = .next (s.delivered.judgeCensus r) := fun hk => by
    rw [arrived]
    simp only [State.censusArrival, show r.cell.kind = .census from hk]
  refine ⟨fun hk => ?_, fun hk hb => ?_, fun hk hg hw => ⟨fun ho => ?_, fun ho hy => ?_,
    fun ho => ⟨fun ha => ?_, fun ha => ⟨fun he => ?_, fun he => ?_⟩⟩⟩⟩
  · rw [arrived]
    rcases hk with hk | hk <;> simp only [State.censusArrival, show r.cell.kind = _ from hk]
  · rw [judged hk, s.delivered.judgeCensus_unsound r hb]
  · rw [judged hk, s.delivered.judgeCensus_higher r ⟨hg, hw⟩ ho]
  · rw [judged hk, s.delivered.judgeCensus_own r ⟨hg, hw⟩ ho]
    exact congrArg _ (if_pos hy)
  · rw [judged hk, s.delivered.judgeCensus_lower r ⟨hg, hw⟩ ho]
    exact congrArg _ (if_pos ha)
  · have named : c.censusEntries.any (fun e => e.station == codeByte me) = true := by
      simpa using he
    rw [judged hk, s.delivered.judgeCensus_lower r ⟨hg, hw⟩ ho]
    exact congrArg _ ((if_neg ha).trans (if_pos named))
  · have unnamed : ¬c.censusEntries.any (fun e => e.station == codeByte me) = true := by
      simpa using he
    rw [judged hk, s.delivered.judgeCensus_lower r ⟨hg, hw⟩ ho]
    exact congrArg _ ((if_neg ha).trans (if_neg unnamed))

/-! ### The station's own census (O36) -/

/-- The station's own current census, sound and arriving before it has yielded, completes. -/
theorem exec_cellArrival_ownCensus (r : Reception) (s : State) (h : s.reporting .census)
    (hk : r.cell.kind = .census) (hc : r.good = true ∧ r.cell.censusWellFormed = true)
    (ho : r.cell.header.originator = s.port.station) (hy : s.loop.yielded = false)
    (ha : r.cell.header.attemptNumber.toNat = s.loop.attempt) :
    exec (.cellArrival r) s = .next (s.delivered.completeCensus r.cell) := by
  have current : ¬(s.delivered.loop.yielded = true
      ∨ r.cell.header.attemptNumber.toNat ≠ s.delivered.loop.attempt) := by
    simp [hy, ha]
  rw [exec_cellArrival_census r s h]
  simp only [State.censusArrival, hk]
  rw [s.delivered.judgeCensus_own r hc ho, if_neg current]

/-- Settles O36: the completion is an entry into BUILD as originator. -/
theorem ownCensusCompletesIntoBuild : Obligations.OwnCensusCompletesIntoBuild := by
  intro r s h hk hg hw ho hy ha roster formation
  have ⟨_, _, former⟩ := h
  rw [exec_cellArrival_ownCensus r s h hk ⟨hg, hw⟩ ho hy ha, State.completeCensus,
    State.enterBuild_eq, State.loop_delivered, former]
  rfl

/-! ### A MARK in CENSUS (O37) -/

theorem State.censusMark_unsound (s : State) (r : Reception)
    (h : r.good = false ∨ r.cell.markWellFormed = false) : s.censusMark r = s.enterCell r.cell := by
  have hn : ¬(r.good && r.cell.markWellFormed) = true := by
    rcases h with h | h <;> simp [h]
  simp only [State.censusMark, if_neg hn]

/-- A sound MARK is heard and forwarded, and takes the station to BUILD or EXCLUDED. -/
theorem State.censusMark_sound (s : State) (r : Reception)
    (h : r.good = true ∧ r.cell.markWellFormed = true) :
    s.censusMark r =
      if s.namedBy r.cell.roster then
        ((s.hearMark r).enterCell r.cell).enterBuild r.cell.roster r.cell.header.markFormation
          .nonOriginator
      else ((s.hearMark r).enterCell r.cell).enterExcluded := by
  obtain ⟨hg, hw⟩ := h
  simp only [State.censusMark, hg, hw, Bool.and_self, if_true]

theorem State.namedBy_iff (s : State) (roster : List RosterEntry) :
    s.namedBy roster = true ↔ ⟨codeByte s.port.station, s.loop.hosted⟩ ∈ roster := by
  simp [State.namedBy]

/-- Settles O37: the MARK is entered, then the station enters BUILD or EXCLUDED as it is named or
not. -/
theorem markHeardInCensusJoinsOrExcludes : Obligations.MarkHeardInCensusJoinsOrExcludes := by
  intro r s h hk c n line
  have ⟨_, _, former⟩ := h
  have arrived : exec (.cellArrival r) s = .next (s.delivered.censusMark r) := by
    rw [exec_cellArrival_census r s h]
    simp only [State.censusArrival, hk]
  have named_iff := s.delivered.namedBy_iff c.roster
  refine ⟨fun hb => ?_, fun hg hw => ⟨fun hn => ?_, fun hn => ?_⟩⟩
  · rw [arrived, s.delivered.censusMark_unsound r hb]
    rfl
  · rw [arrived, s.delivered.censusMark_sound r ⟨hg, hw⟩, if_pos (named_iff.mpr hn),
      s.delivered.hearMark_sound r hg hw, State.enterBuild_eq]
    simp only [State.loop_enterCell, State.loop_delivered, former]
    rfl
  · rw [arrived, s.delivered.censusMark_sound r ⟨hg, hw⟩, if_neg (mt named_iff.mp hn),
      s.delivered.hearMark_sound r hg hw, State.enterExcluded_eq]
    simp only [State.loop_enterCell, State.loop_delivered, former]
    rfl

/-! ### A MARK or a TAIL in BUILD -/

theorem State.buildMark_damaged (s : State) (r : Reception)
    (h : r.good = false ∨ r.cell.markWellFormed = false) : s.buildMark r = .damaged := by
  rcases h with h | h <;> simp [State.buildMark, h]

theorem State.buildMark_own (s : State) (r : Reception) (hg : r.good = true)
    (hw : r.cell.markWellFormed = true)
    (h : r.cell.header.markFormation = s.loop.formation ∧ r.cell.roster = s.loop.roster) :
    s.buildMark r = .own := by
  simp [State.buildMark, State.ownMark, hg, hw, h]

theorem State.buildMark_foreign (s : State) (r : Reception) (hg : r.good = true)
    (hw : r.cell.markWellFormed = true)
    (h : r.cell.header.markFormation ≠ s.loop.formation ∨ r.cell.roster ≠ s.loop.roster) :
    s.buildMark r = .foreign := by
  rcases h with h | h <;> simp [State.buildMark, State.ownMark, hg, hw, h]

theorem State.buildTail_damaged_of_bad (s : State) (o : Code5) (r : Reception)
    (hg : r.good = false) : s.buildTail o r = .damaged := by
  simp [State.buildTail, hg]

theorem State.buildTail_foreign (s : State) (o : Code5) (r : Reception) (hg : r.good = true)
    (h : r.cell.header.originator ≠ o ∨ r.cell.header.tailFormation ≠ s.loop.formation) :
    s.buildTail o r = .foreign := by
  simp only [State.buildTail, hg, Bool.true_eq_false, if_false, if_pos h]

/-- A TAIL with good checks that names the loop is its own, or damaged when it is not well
formed. -/
theorem State.buildTail_named (s : State) (o : Code5) (r : Reception) (hg : r.good = true)
    (h : r.cell.header.originator = o ∧ r.cell.header.tailFormation = s.loop.formation) :
    s.buildTail o r = if r.cell.tailWellFormed then .own else .damaged := by
  have hn : ¬(r.cell.header.originator ≠ o ∨ r.cell.header.tailFormation ≠ s.loop.formation) := by
    simp [h]
  simp only [State.buildTail, hg, Bool.true_eq_false, if_false, if_neg hn]

/-! ### A DATA or a CENSUS cell in BUILD, whatever the role -/

theorem State.buildArrival_of_data (s : State) (r : Reception) (hk : r.cell.kind = .data) :
    s.buildArrival r = s.forwardData r.cell := by
  unfold State.buildArrival
  split <;> simp only [State.originatorArrival, State.nonOriginatorArrival, hk]

theorem State.buildArrival_of_census (s : State) (r : Reception) (hk : r.cell.kind = .census) :
    s.buildArrival r = s := by
  unfold State.buildArrival
  split <;> simp only [State.originatorArrival, State.nonOriginatorArrival, hk]

/-- A station in BUILD discards every CENSUS cell (R34, R35). -/
theorem exec_census_in_build (r : Reception) (s : State) (h : s.reporting .build)
    (hk : r.cell.kind = .census) : exec (.cellArrival r) s = .next s.delivered := by
  rw [exec_cellArrival_build r s h, State.buildArrival_of_census _ r hk]

/-- A station in BUILD forwards the DATA cells that keep R4 and discards the others. -/
theorem exec_data_in_build (r : Reception) (s : State) (h : s.reporting .build)
    (hk : r.cell.kind = .data) :
    (r.cell.header.ownershipGood = true →
        exec (.cellArrival r) s = .next (s.delivered.entered [r.cell]))
      ∧ (r.cell.header.ownershipGood = false → exec (.cellArrival r) s = .next s.delivered) := by
  rw [exec_cellArrival_build r s h, State.buildArrival_of_data _ r hk]
  refine ⟨fun hg => ?_, fun hb => ?_⟩
  · rw [State.forwardData_good _ _ hg]
    rfl
  · rw [State.forwardData_bad _ _ hb]

/-! ### The originator in BUILD (O38) -/

theorem exec_cellArrival_originator (r : Reception) (s : State) (h : s.reporting .build)
    (ho : s.loop.role = .originator) :
    exec (.cellArrival r) s = .next (s.delivered.originatorArrival r) := by
  have role : s.delivered.loop.role = .originator := ho
  rw [exec_cellArrival_build r s h]
  simp only [State.buildArrival, role]

/-- A MARK at an originator in BUILD, by what it is to this loop. -/
theorem State.originatorArrival_of_mark (s : State) (r : Reception) (hk : r.cell.kind = .mark) :
    (s.buildMark r = .own → s.originatorArrival r = (s.hearMark r).enterCell r.cell)
      ∧ (s.buildMark r = .damaged →
        s.originatorArrival r = (s.hearMark r).enterCell s.rewrittenMark)
      ∧ (s.buildMark r = .foreign → s.originatorArrival r = s.hearMark r) := by
  refine ⟨fun h => ?_, fun h => ?_, fun h => ?_⟩ <;> simp only [State.originatorArrival, hk, h]

/-- A TAIL at an originator in BUILD brings RUNNING unless it is foreign. -/
theorem State.originatorArrival_of_tail (s : State) (r : Reception) (hk : r.cell.kind = .tail) :
    (s.buildTail s.port.station r ≠ .foreign → s.originatorArrival r = s.enterRunning)
      ∧ (s.buildTail s.port.station r = .foreign → s.originatorArrival r = s) := by
  simp only [State.originatorArrival, hk]
  cases s.buildTail s.port.station r with
  | own => exact ⟨fun _ => rfl, nofun⟩
  | damaged => exact ⟨fun _ => rfl, nofun⟩
  | foreign => exact ⟨fun h => absurd rfl h, fun _ => rfl⟩

/-- The entry of an originator into RUNNING from BUILD: the position counter stands at T. -/
theorem State.enterRunning_originator (s : State) (hs : s.loop.state = .build)
    (ho : s.loop.role = .originator) :
    s.enterRunning =
      { s with
        line := s.line.repeatPlain
        loop := { s.loop.timersStopped with state := .running, role := .none }
        tracker := { s.tracker with
          activity := .active, damage := 0, position := rosterTotal s.loop.roster }
        queues := s.queues.post
          ⟨.loopState .running .build none (some s.loop.formation) .none,
            s.tracker.revolution⟩ } := by
  rw [State.enterRunning_eq, hs, if_pos ho, State.total]

/-- Settles O38: the kind of the cell, then what the MARK or the TAIL is to this loop. -/
theorem originatorRunsOnItsReturningTail : Obligations.OriginatorRunsOnItsReturningTail := by
  intro r s h ho c listened running
  have ⟨_, _, hs⟩ := h
  have arrived := exec_cellArrival_originator r s h ho
  have entered : s.delivered.enterRunning = running := s.delivered.enterRunning_originator hs ho
  refine ⟨exec_census_in_build r s h, exec_data_in_build r s h, fun hk => ?_, fun hk => ?_⟩
  · obtain ⟨own, damaged, foreign⟩ := s.delivered.originatorArrival_of_mark r hk
    refine ⟨fun hb => ?_, fun hg hw => ⟨fun hm => ?_, fun hm => ?_⟩⟩
    · rw [arrived, damaged (s.delivered.buildMark_damaged r hb), s.delivered.hearMark_bad r hb]
      rfl
    · rw [arrived, own (s.delivered.buildMark_own r hg hw hm), s.delivered.hearMark_sound r hg hw]
      rfl
    · rw [arrived, foreign (s.delivered.buildMark_foreign r hg hw hm),
        s.delivered.hearMark_sound r hg hw]
      rfl
  · obtain ⟨returned, foreign⟩ := s.delivered.originatorArrival_of_tail r hk
    refine ⟨fun hg hf => ?_, fun hf => ?_⟩
    · rw [arrived, foreign (s.delivered.buildTail_foreign _ r hg hf)]
    · have home : s.delivered.buildTail s.port.station r ≠ .foreign := by
        cases hg : r.good with
        | false => simp [State.buildTail_damaged_of_bad _ _ r hg]
        | true =>
          rw [s.delivered.buildTail_named s.port.station r hg (hf.resolve_left (by simp [hg]))]
          split <;> simp
      rw [arrived, returned home, entered]

/-! ### The non-originator in BUILD (O39) -/

theorem exec_cellArrival_nonOriginator (r : Reception) (s : State) (h : s.reporting .build)
    (ho : s.loop.role = .nonOriginator) :
    exec (.cellArrival r) s = .next (s.delivered.nonOriginatorArrival r) := by
  have role : s.delivered.loop.role = .nonOriginator := ho
  rw [exec_cellArrival_build r s h]
  simp only [State.buildArrival, role]

/-- The hosted cells are built from the home image, the station number, the hosted count and the
restore option. -/
theorem State.hostedCells_with_inserted (s : State) (b : Bool) :
    { s with loop := { s.loop with inserted := b } : State }.hostedCells = s.hostedCells := rfl

theorem State.insertAhead_first (s : State) (tail : Cell) (h : s.loop.inserted = false) :
    s.insertAhead tail =
      { s with loop := { s.loop with inserted := true } : State }.entered
        (s.hostedCells ++ [tail]) := by
  rw [State.insertAhead, if_neg (by simp [h]), State.hostedCells_with_inserted,
    State.enterCells_eq]
  simp only [State.entered, List.foldl_append]
  rfl

theorem State.insertAhead_again (s : State) (tail : Cell) (h : s.loop.inserted = true) :
    s.insertAhead tail = s.entered [tail] := by
  rw [State.insertAhead, if_pos h]
  rfl

theorem State.countMark_first (s : State) (mark : Cell) (h : s.loop.buildMarks = 0) :
    s.countMark mark =
      { s with loop := { s.loop with buildMarks := 1 } : State }.entered [mark] := by
  simp only [State.countMark, h]
  rfl

/-- A MARK passage as received, with an empty table and no sweep: a new revolution begins and the
MARK is forwarded. -/
theorem State.markPassage_quiet (s : State) (mark : Cell) (ht : s.engine.table = [])
    (ha : s.engine.sweep.active = false) :
    s.markPassage mark none
      = { s with tracker := s.tracker.newRevolution : State }.entered [mark] := by
  obtain ⟨resetHeld, line, loop, tracker, ⟨table, acceptance, sweep⟩, watch, home, queues, port,
    pending⟩ := s
  dsimp only at ht ha
  subst ht
  simp [State.markPassage, State.markTimeouts, State.markSweep, State.withTable, State.pushRecords,
    State.enterCell, State.entered, ha]

@[simp] theorem State.engine_enterRunning (s : State) : s.enterRunning.engine = s.engine := rfl

/-- The second MARK passage enters RUNNING and is the tracker's first; the notice of the entry
carries the revolution count before it. -/
theorem State.countMark_second (s : State) (mark : Cell) (hs : s.loop.state = .build)
    (h : s.loop.buildMarks = 1) (ht : s.engine.table = []) (ha : s.engine.sweep.active = false) :
    s.countMark mark =
      { s with
        line := s.line.repeatPlain
        loop := { s.loop.timersStopped with state := .running, role := .none, buildMarks := 2 }
        tracker := { s.tracker.newRevolution with activity := .active }
        queues := s.queues.post
          ⟨.loopState .running .build none (some s.loop.formation) .none,
            s.tracker.revolution⟩ : State }.entered [mark] := by
  simp only [State.countMark, h, if_true]
  rw [State.markPassage_quiet _ mark (by simpa using ht) (by simpa using ha),
    State.enterRunning_eq]
  simp only [hs]
  rfl

/-- The station number of the first entry of the roster is the loop's originator. -/
theorem State.firstStation_cons (s : State) (first : RosterEntry) (others : List RosterEntry)
    (h : s.loop.roster = first :: others) : s.firstStation = field5 first.station := by
  simp only [State.firstStation, h]

/-- A MARK at a non-originator in BUILD, by what it is to this loop. -/
theorem State.nonOriginatorArrival_of_mark (s : State) (r : Reception) (hk : r.cell.kind = .mark) :
    (s.buildMark r = .own → s.nonOriginatorArrival r = (s.hearMark r).countMark r.cell)
      ∧ (s.buildMark r = .damaged →
        s.nonOriginatorArrival r = (s.hearMark r).countMark s.rewrittenMark)
      ∧ (s.buildMark r = .foreign → s.nonOriginatorArrival r = s.hearMark r) := by
  refine ⟨fun h => ?_, fun h => ?_, fun h => ?_⟩ <;> simp only [State.nonOriginatorArrival, hk, h]

/-- A TAIL at a non-originator in BUILD, by what it is to this loop. -/
theorem State.nonOriginatorArrival_of_tail (s : State) (r : Reception) (hk : r.cell.kind = .tail) :
    (s.buildTail s.firstStation r = .own → s.nonOriginatorArrival r = s.insertAhead r.cell)
      ∧ (s.buildTail s.firstStation r = .damaged →
        s.nonOriginatorArrival r = s.insertAhead (builtTail s.firstStation s.loop.formation))
      ∧ (s.buildTail s.firstStation r = .foreign → s.nonOriginatorArrival r = s) := by
  refine ⟨fun h => ?_, fun h => ?_, fun h => ?_⟩ <;> simp only [State.nonOriginatorArrival, hk, h]

/-- Settles O39: the kind of the cell, then what the MARK or the TAIL is to this loop; the insertion
and the count are shown once for all cells that bring them about. -/
theorem nonOriginatorInsertsAndRunsOnTheSecondMark :
    Obligations.NonOriginatorInsertsAndRunsOnTheSecondMark := by
  intro r first others s h hn hr c o hosted own ahead counted
  have ⟨_, _, hs⟩ := h
  have arrived := exec_cellArrival_nonOriginator r s h hn
  have inserts : ∀ tail, s.delivered.nonOriginatorArrival r = s.delivered.insertAhead tail →
      ahead tail := fun tail e =>
    ⟨fun hi => arrived.trans (congrArg _ (e.trans (s.delivered.insertAhead_first tail hi))),
      fun hi => arrived.trans (congrArg _ (e.trans (s.delivered.insertAhead_again tail hi)))⟩
  have counts : ∀ latest mark, s.delivered.nonOriginatorArrival r =
      { s.delivered with loop := { s.loop with latestFormation := latest } : State }.countMark
        mark → counted latest mark := fun latest mark e =>
    ⟨fun hm => arrived.trans (congrArg _ (e.trans (State.countMark_first _ mark hm))),
      fun hm ht ha =>
        arrived.trans (congrArg _ (e.trans (State.countMark_second _ mark hs hm ht ha)))⟩
  refine ⟨exec_census_in_build r s h, exec_data_in_build r s h, fun hk => ?_, fun hk => ?_⟩
  · obtain ⟨ownTail, damaged, foreign⟩ := s.delivered.nonOriginatorArrival_of_tail r hk
    rw [s.delivered.firstStation_cons first others hr] at ownTail damaged foreign
    refine ⟨fun hg ho hw => inserts _ (ownTail ?_), fun hg ho hw => inserts _ (damaged ?_),
      fun hb => inserts _ (damaged (s.delivered.buildTail_damaged_of_bad _ r hb)), fun hg ho => ?_⟩
    · exact (s.delivered.buildTail_named _ r hg ho).trans (if_pos hw)
    · exact (s.delivered.buildTail_named _ r hg ho).trans (if_neg (Bool.eq_false_iff.mp hw))
    · rw [arrived, foreign (s.delivered.buildTail_foreign _ r hg (not_and_or.mp ho))]
  · obtain ⟨ownMark, damaged, foreign⟩ := s.delivered.nonOriginatorArrival_of_mark r hk
    refine ⟨fun hb => counts _ _ ?_, fun hg hw => ⟨fun hm => counts _ _ ?_, fun hm => ?_⟩⟩
    · rw [damaged (s.delivered.buildMark_damaged r hb), s.delivered.hearMark_bad r hb]
      rfl
    · rw [ownMark (s.delivered.buildMark_own r hg hw hm), s.delivered.hearMark_sound r hg hw]
      rfl
    · rw [arrived, foreign (s.delivered.buildMark_foreign r hg hw hm),
        s.delivered.hearMark_sound r hg hw]
      rfl

/-! ### The latest formation number (O34) -/

/-- The difference of two formation numbers modulo 256. -/
theorem toNat_sub_formation (n latest : Byte) :
    (n - latest).toNat = (n.toNat + 256 - latest.toNat) % 256 := by
  have := latest.isLt
  rw [BitVec.toNat_sub]
  omega

/-- A later number replaces the latest one; an equal or an earlier one does not. -/
theorem heard_spec (latest n : Byte) :
    (1 ≤ (n.toNat + 256 - latest.toNat) % 256 ∧ (n.toNat + 256 - latest.toNat) % 256 ≤ 127 →
        heard latest n = n)
      ∧ ((n.toNat + 256 - latest.toNat) % 256 = 0
          ∨ 128 ≤ (n.toNat + 256 - latest.toNat) % 256 → heard latest n = latest) := by
  unfold heard
  rw [toNat_sub_formation]
  exact ⟨fun h => if_pos h, fun h => if_neg (by omega)⟩

@[simp] theorem State.latestFormation_enterBroken (s : State) (reason : Reason) :
    (s.enterBroken reason).loop.latestFormation = s.loop.latestFormation := by
  rw [State.enterBroken_eq]
  rfl

@[simp] theorem State.latestFormation_enterBuild (s : State) (roster : List RosterEntry)
    (formation : Byte) (role : Role) :
    (s.enterBuild roster formation role).loop.latestFormation = s.loop.latestFormation := by
  rw [State.enterBuild_eq]
  rfl

@[simp] theorem State.latestFormation_markPassage (s : State) (mark : Cell)
    (rewritten : Option Bool) :
    (s.markPassage mark rewritten).loop.latestFormation = s.loop.latestFormation := by
  obtain ⟨q, damage, sweep, e, -⟩ := s.markPassage_eq mark rewritten
  rw [e]

@[simp] theorem State.latestFormation_passage (s : State) (a : Arrival) :
    (s.passage a).loop.latestFormation = s.loop.latestFormation := by
  obtain ⟨tb, k, q, hm, e⟩ := s.passage_eq a
  rw [e]

@[simp] theorem State.latestFormation_countMark (s : State) (mark : Cell) :
    (s.countMark mark).loop.latestFormation = s.loop.latestFormation := by
  unfold State.countMark
  dsimp only
  split
  · rw [State.latestFormation_markPassage]
    rfl
  · rfl

/-- The tracker leaves the latest formation number alone. -/
theorem State.latestFormation_trackArrival (s : State) (r : Reception) :
    (s.trackArrival r).loop.latestFormation = s.loop.latestFormation := by
  apply s.trackArrival_cases (P := fun t => t.loop.latestFormation = s.loop.latestFormation) r
  case fault => exact fun cause p => State.latestFormation_enterBroken _ _
  case mark => exact fun c rewritten _ _ => s.latestFormation_markPassage c rewritten
  case pass => exact fun a _ _ _ _ => State.latestFormation_passage _ a
  case found => exact fun a f b _ _ _ _ _ => State.latestFormation_passage _ a
  case burst => exact fun f b => State.latestFormation_enterBroken _ _

/-- In CENSUS a sound MARK is heard, whether it joins or excludes the station. -/
theorem State.latestFormation_censusMark (s : State) (r : Reception)
    (h : r.good = true ∧ r.cell.markWellFormed = true) :
    (s.censusMark r).loop.latestFormation = (s.hearMark r).loop.latestFormation := by
  rw [s.censusMark_sound r h]
  split
  · rw [State.latestFormation_enterBuild, State.loop_enterCell]
  · rfl

/-- In BUILD a MARK is heard, whatever the role and its fate. -/
theorem State.latestFormation_buildArrival (s : State) (r : Reception) (hk : r.cell.kind = .mark) :
    (s.buildArrival r).loop.latestFormation = (s.hearMark r).loop.latestFormation := by
  have originator : (s.originatorArrival r).loop.latestFormation
      = (s.hearMark r).loop.latestFormation := by
    simp only [State.originatorArrival, hk]
    cases s.buildMark r <;> rfl
  have nonOriginator : (s.nonOriginatorArrival r).loop.latestFormation
      = (s.hearMark r).loop.latestFormation := by
    simp only [State.nonOriginatorArrival, hk]
    cases s.buildMark r with
    | own => exact State.latestFormation_countMark _ _
    | damaged => exact State.latestFormation_countMark _ _
    | foreign => rfl
  unfold State.buildArrival
  split
  · exact originator
  · exact nonOriginator
  · exact nonOriginator

/-- A sound MARK is heard in OFFLINE, CENSUS, BUILD and EXCLUDED alike. -/
theorem State.latestFormation_loopArrival (s : State) (r : Reception) (hk : r.cell.kind = .mark)
    (h : r.good = true ∧ r.cell.markWellFormed = true)
    (hs : s.loop.state = .offline ∨ s.loop.state = .census ∨ s.loop.state = .build
      ∨ s.loop.state = .excluded) :
    (s.loopArrival r).loop.latestFormation
      = heard s.loop.latestFormation r.cell.header.markFormation := by
  obtain ⟨hg, hw⟩ := h
  have hears : (s.hearMark r).loop.latestFormation
      = heard s.loop.latestFormation r.cell.header.markFormation := by
    rw [s.hearMark_sound r hg hw]
  rw [← hears]
  rcases hs with hs | hs | hs | hs
  · simp only [State.loopArrival, hs, State.repeatArrival, hk, State.loop_enterCell]
  · simp only [State.loopArrival, hs, State.censusArrival, hk,
      s.latestFormation_censusMark r ⟨hg, hw⟩]
  · simp only [State.loopArrival, hs, s.latestFormation_buildArrival r hk]
  · simp only [State.loopArrival, hs, State.repeatArrival, hk, State.loop_enterCell]

/-- A MARK is not heard in RUNNING, in BROKEN, or where no cell is reported. -/
theorem State.latestFormation_arrive_unheard (s : State) (r : Reception) (hk : r.cell.kind = .mark)
    (h : s.line.mode ≠ .repeating ∨ s.loop.state = .running ∨ s.loop.state = .broken) :
    (s.arrive r).loop.latestFormation = s.loop.latestFormation := by
  have carried : s.carryCensus r.cell = s := s.carryCensus_of_other r.cell (by simp [hk])
  unfold State.arrive
  cases hm : s.line.mode with
  | repeating =>
    rcases h.resolve_left (not_not.mpr hm) with hs | hs
    · simp only [State.loopArrival, hs, State.latestFormation_trackArrival]
    · simp only [State.loopArrival, hs, carried]
  | censusOnly => simp only [carried]
  | breakHold => simp only [carried]

/-- Settles O34: where a MARK is heard, where it is not, and the number that an originator takes. -/
theorem laterFormationNumbersAreKept : Obligations.LaterFormationNumbersAreKept := by
  intro r s hr n latest
  refine ⟨fun hk hg hw => ⟨fun hm hs => ⟨_, exec_cellArrival_reported r s hr hm, ?_⟩,
      fun h => ⟨_, exec_cellArrival r s hr, ?_⟩⟩,
    fun h hk hg hw ho hy ha =>
      ⟨_, exec_cellArrival_ownCensus r s h hk ⟨hg, hw⟩ ho hy ha, ?_⟩⟩
  · rw [s.delivered.latestFormation_loopArrival r hk ⟨hg, hw⟩ hs]
    exact heard_spec latest n
  · exact s.delivered.latestFormation_arrive_unheard r hk h
  · rw [State.completeCensus, State.enterBuild_eq]
    exact ⟨rfl, rfl⟩

end Sys2Proof.Machine
end

section
/-! Proofs of the statements about positions, revolutions and the repair of cells: the tracker and
the seen table as a property of what each command does to them, the roster arithmetic, the
outcomes of an arrival in RUNNING, and the requests that read a cell. -/

namespace Sys2Proof

/-! ### Roster entries and data headers (R5, R177, R178) -/

/-- An entry in range names the station of a five-bit code and covers at most 32 cells. -/
theorem RosterEntry.inRange_bounds (e : RosterEntry) (h : e.inRange = true) :
    codeByte (field5 e.station) = e.station ∧ e.hosted.toNat ≤ 32 := by
  simp only [RosterEntry.inRange, Bool.and_eq_true, decide_eq_true_eq] at h
  obtain ⟨⟨-, station⟩, hosted⟩ := h
  exact ⟨codeByte_field5 _ station, hosted⟩

theorem Header.withHandoff_eq (h : Header) :
    h.withHandoff true = { h with byte7 := h.byte7 ||| 0x01#8 }
      ∧ h.withHandoff false = { h with byte7 := h.byte7 &&& 0xFE#8 } := ⟨rfl, rfl⟩

theorem Header.withDamaged_eq (h : Header) :
    h.withDamaged true = { h with byte7 := h.byte7 ||| 0x02#8 }
      ∧ h.withDamaged false = { h with byte7 := h.byte7 &&& 0xFD#8 } := ⟨rfl, rfl⟩

theorem Header.withRestored_eq (h : Header) :
    h.withRestored true = { h with byte7 := h.byte7 ||| 0x04#8 }
      ∧ h.withRestored false = { h with byte7 := h.byte7 &&& 0xFB#8 } := ⟨rfl, rfl⟩

@[simp] theorem Header.restored_withRestored (h : Header) (v : Bool) :
    (h.withRestored v).restored = v := by
  obtain ⟨-, -, -, -, -, -, -, -, written⟩ := withBit_bits h.byte7 v
  exact written

@[simp] theorem Header.restored_withDamaged (h : Header) (v : Bool) :
    (h.withDamaged v).restored = h.restored := by
  obtain ⟨-, -, -, -, -, kept, -⟩ := withBit_bits h.byte7 v
  exact kept

end Sys2Proof

namespace Sys2Proof.Machine

/-! ### The tracker and the seen table with the loop (O56) -/

/-- A property of the loop state, the roster, the tracker and the seen table that each change of
them keeps: the writes of spec 02, 03 and 07 to these four, each where the rules allow it. -/
structure KeptByTracking
    (Q : LoopState → List RosterEntry → Tracker → List (Nat × Seen) → Prop) : Prop where
  reset : Q .offline [] Tracker.reset []
  moved : ∀ {st ro tr se} (st' : LoopState), Q st ro tr se → st ≠ .running → st' ≠ .running →
    Q st' ro tr se
  built : ∀ {st ro tr se} (ro' : List RosterEntry), Q st ro tr se → st ≠ .running →
    Q .build ro' tr []
  running : ∀ {ro tr se} (p : Nat), Q .build ro tr se → p = rosterTotal ro ∨ p = tr.position →
    Q .running ro { tr with activity := .active, damage := 0, position := p } se
  revolved : ∀ {ro tr se} (d : Nat), Q .running ro tr se → d ≤ 1 →
    Q .running ro { tr.newRevolution with damage := d } se
  passed : ∀ {ro tr se} (d : Nat) (v : Seen), Q .running ro tr se →
    tr.position < rosterTotal ro → d = tr.damage ∨ d < 8 →
    Q .running ro { tr with position := tr.position + 1, damage := d }
      (recordSeen (tr.position + 1) v se)
  broken : ∀ ro (tr : Tracker), Q .broken ro tr.stopped []

/-- The property holds of a state's loop state, roster, tracker and seen table. -/
abbrev State.tracking (Q : LoopState → List RosterEntry → Tracker → List (Nat × Seen) → Prop)
    (s : State) : Prop :=
  Q s.loop.state s.loop.roster s.tracker s.watch.seen

section
variable {Q : LoopState → List RosterEntry → Tracker → List (Nat × Seen) → Prop}

theorem KeptByTracking.enterBroken (hQ : KeptByTracking Q) (s : State) (reason : Reason) :
    (s.enterBroken reason).tracking Q := by
  rw [State.enterBroken_eq]
  exact hQ.broken s.loop.roster s.tracker

theorem KeptByTracking.enterBuild (hQ : KeptByTracking Q) (s : State) (roster : List RosterEntry)
    (n : Byte) (role : Role) (h : s.tracking Q) (hs : s.loop.state ≠ .running) :
    (s.enterBuild roster n role).tracking Q := by
  rw [State.enterBuild_eq]
  exact hQ.built roster h hs

theorem KeptByTracking.enterRunning (hQ : KeptByTracking Q) (s : State) (h : s.tracking Q)
    (hs : s.loop.state = .build) : s.enterRunning.tracking Q := by
  have hb : Q .build s.loop.roster s.tracker s.watch.seen := hs ▸ h
  rw [State.enterRunning_eq]
  refine hQ.running _ hb ?_
  split
  · exact Or.inl rfl
  · exact Or.inr rfl

theorem KeptByTracking.markPassage (hQ : KeptByTracking Q) (s : State) (mark : Cell)
    (rewritten : Option Bool) (h : s.tracking Q) (hs : s.loop.state = .running) :
    (s.markPassage mark rewritten).tracking Q := by
  obtain ⟨q, damage, sweep, e, -, -, hd, -⟩ := s.markPassage_eq mark rewritten
  rw [e]
  unfold State.tracking at h ⊢
  rw [hs] at h
  dsimp only
  rw [hs]
  exact hQ.revolved damage h hd

/-- A passage at the next position, with the damage count as it was or with one finding more that
is not the eighth. -/
theorem KeptByTracking.passage (hQ : KeptByTracking Q) (s u : State) (a : Arrival) (d : Nat)
    (h : s.tracking Q) (hs : s.loop.state = .running) (hp : s.tracker.position < s.total)
    (ha : a.position = s.tracker.position + 1) (hd : d = s.tracker.damage ∨ d < 8)
    (hl : u.loop = s.loop) (hw : u.watch = s.watch)
    (ht : u.tracker = { s.tracker with position := s.tracker.position + 1, damage := d }) :
    (u.passage a).tracking Q := by
  obtain ⟨tb, k, q, hm, e⟩ := u.passage_eq a
  rw [e]
  unfold State.tracking at h ⊢
  rw [hs] at h
  dsimp only
  rw [hl, hs, ht, hw, ha]
  exact hQ.passed d _ h hp hd

theorem KeptByTracking.trackArrival (hQ : KeptByTracking Q) (s : State) (r : Reception)
    (h : s.tracking Q) (hs : s.loop.state = .running) : (s.trackArrival r).tracking Q := by
  apply s.trackArrival_cases r
  case fault => exact fun cause p => hQ.enterBroken _ _
  case mark => exact fun c rewritten _ _ => hQ.markPassage s c rewritten h hs
  case pass =>
    exact fun a hp ha _ _ =>
      hQ.passage s s.advanced a s.tracker.damage h hs hp ha (Or.inl rfl) rfl rfl rfl
  case found =>
    exact fun a f b hp ha hd _ _ =>
      hQ.passage s (s.advanced.found f _ b) a (s.tracker.damage + 1) h hs hp ha (Or.inr hd) rfl rfl
        rfl
  case burst => exact fun f b => hQ.enterBroken _ _

theorem KeptByTracking.countMark (hQ : KeptByTracking Q) (s : State) (c : Cell)
    (h : s.tracking Q) (hs : s.loop.state = .build) : (s.countMark c).tracking Q := by
  unfold State.countMark
  dsimp only
  split
  · refine hQ.markPassage _ c none (hQ.enterRunning _ h hs) ?_
    rw [State.enterRunning_eq]
  · exact h

theorem tracking_insertAhead (s : State) (tail : Cell) (h : s.tracking Q) :
    (s.insertAhead tail).tracking Q := by
  unfold State.insertAhead
  split
  · exact h
  · rw [State.enterCells_eq]
    exact h

theorem KeptByTracking.arrive (hQ : KeptByTracking Q) (s : State) (r : Reception)
    (h : s.tracking Q) : (s.arrive r).tracking Q := by
  have forming : s.loop.state = .census → s.loop.state ≠ .running := fun hs => by simp [hs]
  apply s.arrive_cases r
  case keep => exact h
  case enter => exact fun c _ => h
  case hear => exact fun n => h
  case hearEnter => exact fun n c _ => h
  case duplicate => exact fun _ => hQ.enterBroken s _
  case answer => exact fun c _ _ => h
  case complete => exact fun c hs _ _ => hQ.enterBuild _ _ _ _ h (forming hs)
  case join => exact fun n c hs _ _ _ => hQ.enterBuild _ _ _ _ h (forming hs)
  case exclude =>
    intro n c hs _ _
    rw [State.enterExcluded_eq]
    exact hQ.moved .excluded h (forming hs) nofun
  case insert => exact fun tail _ _ => tracking_insertAhead s tail h
  case count =>
    rintro l c hs _ (rfl | ⟨n, rfl⟩)
    · exact hQ.countMark s c h hs
    · exact hQ.countMark { s with loop := s.loop.hear n } c h hs
  case run => exact fun hs => hQ.enterRunning s h hs
  case track => exact fun hs => hQ.trackArrival s r h hs

/-- A property that every change of the loop state, the roster, the tracker and the seen table keeps
is kept by every step. -/
theorem KeptByTracking.step (hQ : KeptByTracking Q) (s t : State) (h : s.tracking Q)
    (e : step s = .next t) : t.tracking Q := by
  refine step_keeps (P := State.tracking Q) (fun s rest hs => hs) (fun s l _ _ _ _ hs => hs)
    (fun s p _ hs => hs) ?_ s t h e
  intro i s h
  apply exec_keeps (P := State.tracking Q) (fun s l _ _ _ _ hs => hs) (fun s p _ hs => hs)
  case reset => exact fun s b _ => hQ.reset
  case release => exact fun s x hs _ => hs
  case arrive => exact fun s r hs _ => hQ.arrive s r hs
  case broken => exact fun s reason _ _ => hQ.enterBroken s reason
  case transmitted => exact fun s hs => hs
  case listened => exact fun s hs _ _ _ => hs
  case originates => exact fun s hs _ _ _ => hs
  case again => exact fun s hs _ _ _ _ => hs
  case held => exact fun s hs _ => hs
  case start =>
    intro s c b hs _ _ ho
    rw [State.enterCensus_eq]
    exact hQ.moved .census hs (by rcases ho with ho | ho <;> simp [ho]) nofun
  case submit => exact fun s f q p hs _ => hs
  case abort =>
    intro s tag hs
    obtain ⟨table, completions, ea⟩ := abortEffect_eq tag s
    rw [ea]
    exact hs
  case watch => exact fun s n w hs => hs
  case load => exact fun s n e hs => hs
  case hostReset => exact fun s b hs => hs
  case taken => exact fun s hs => hs
  case noted => exact fun s hs => hs
  case h => exact h

end

/-- `State.trackerAgrees` as a property of the loop state, the roster and the tracker. -/
def trackerFits (st : LoopState) (ro : List RosterEntry) (tr : Tracker) : Prop :=
  (tr.activity = .active ↔ st = .running)
    ∧ (st = .running → tr.position ≤ rosterTotal ro ∧ tr.damage < 8)
    ∧ (st ≠ .running → tr.position = 0 ∧ tr.damage = 0)

theorem trackerAgrees_iff_trackerFits (s : State) :
    s.trackerAgrees ↔ s.tracking fun st ro tr _ => trackerFits st ro tr := Iff.rfl

/-- In RUNNING the tracker is ACTIVE with its counters in range. -/
theorem trackerFits_running (ro : List RosterEntry) (tr : Tracker) :
    trackerFits .running ro tr ↔
      tr.activity = .active ∧ tr.position ≤ rosterTotal ro ∧ tr.damage < 8 := by
  simp [trackerFits]

/-- Outside RUNNING the tracker is INACTIVE with its counters at 0. -/
theorem trackerFits_elsewhere {st : LoopState} (ro : List RosterEntry) (tr : Tracker)
    (hs : st ≠ .running) :
    trackerFits st ro tr ↔ tr.activity ≠ .active ∧ tr.position = 0 ∧ tr.damage = 0 := by
  simp [trackerFits, hs]

theorem trackerFits_kept : KeptByTracking fun st ro tr _ => trackerFits st ro tr where
  reset := (trackerFits_elsewhere _ _ (by decide)).mpr ⟨nofun, rfl, rfl⟩
  moved {_ ro tr _} _ h hs hs' :=
    (trackerFits_elsewhere ro tr hs').mpr ((trackerFits_elsewhere ro tr hs).mp h)
  built {_ ro tr _} ro' h hs :=
    (trackerFits_elsewhere ro' tr (by decide)).mpr ((trackerFits_elsewhere ro tr hs).mp h)
  running {ro tr _} p h hp := by
    obtain ⟨-, h0, -⟩ := (trackerFits_elsewhere ro tr (by decide)).mp h
    refine (trackerFits_running ro _).mpr ⟨rfl, ?_, Nat.zero_lt_succ 7⟩
    dsimp only
    omega
  revolved {ro tr _} d h hd := by
    obtain ⟨active, -, -⟩ := (trackerFits_running ro tr).mp h
    exact (trackerFits_running ro _).mpr ⟨active, Nat.zero_le _, Nat.lt_of_le_of_lt hd (by decide)⟩
  passed {ro tr _} d v h hp hd := by
    obtain ⟨active, -, damage⟩ := (trackerFits_running ro tr).mp h
    refine (trackerFits_running ro _).mpr ⟨active, hp, ?_⟩
    dsimp only
    omega
  broken ro tr := (trackerFits_elsewhere _ _ (by decide)).mpr ⟨nofun, rfl, rfl⟩

/-- `State.seenSound` as a property of the roster and the seen table. -/
def seenFits (ro : List RosterEntry) (se : List (Nat × Seen)) : Prop :=
  se.Pairwise (fun a b => a.1 < b.1) ∧ ∀ e ∈ se, 1 ≤ e.1 ∧ e.1 ≤ rosterTotal ro

theorem seenSound_iff_seenFits (s : State) :
    s.seenSound ↔ s.tracking fun _ ro _ se => seenFits ro se := Iff.rfl

theorem seenFits_nil (ro : List RosterEntry) : seenFits ro [] :=
  ⟨List.Pairwise.nil, fun _ he => absurd he List.not_mem_nil⟩

theorem seenFits_kept : KeptByTracking fun _ ro _ se => seenFits ro se where
  reset := seenFits_nil _
  moved _ h _ _ := h
  built _ _ _ := seenFits_nil _
  running _ h _ := h
  revolved _ h _ := h
  passed {ro tr se} d v h hp _ := by
    refine ⟨pairwise_recordSeen _ _ _ h.1, fun e he => ?_⟩
    rcases mem_recordSeen _ _ _ _ he with he | rfl
    · exact h.2 e he
    · exact ⟨Nat.succ_pos _, hp⟩
  broken _ _ := seenFits_nil _

/-- Settles O56: both parts are properties of the loop state, the roster, the tracker and the seen
table that each change of these keeps. -/
theorem stepKeepsTheTrackerWithTheLoop : Obligations.StepKeepsTheTrackerWithTheLoop :=
  ⟨fun s t h e => (trackerAgrees_iff_trackerFits t).mpr
      (trackerFits_kept.step s t ((trackerAgrees_iff_trackerFits s).mp h) e),
    fun s t h e => (seenSound_iff_seenFits t).mpr
      (seenFits_kept.step s t ((seenSound_iff_seenFits s).mp h) e)⟩

/-! ### Positions and addresses (O21) -/

theorem rosterTotal_eq_sum (roster : List RosterEntry) :
    rosterTotal roster = (roster.map fun e => e.hosted.toNat).sum := by
  induction roster with
  | nil => rfl
  | cons e es ih => simp only [rosterTotal, ih, List.map_cons, List.sum_cons]

/-- A position that the first entry covers is a cell of its station. -/
theorem expectedAddress_cons_le (e : RosterEntry) (es : List RosterEntry) (p : Nat)
    (h : p ≤ e.hosted.toNat) :
    expectedAddress (e :: es) p = ⟨field5 e.station, BitVec.ofNat 5 (p - 1)⟩ := by
  simp only [expectedAddress, if_pos h]

/-- A position past the first entry is one of the other entries. -/
theorem expectedAddress_cons_gt (e : RosterEntry) (es : List RosterEntry) (p : Nat)
    (h : e.hosted.toNat < p) :
    expectedAddress (e :: es) p = expectedAddress es (p - e.hosted.toNat) := by
  simp only [expectedAddress, if_neg (Nat.not_le.mpr h)]

/-- The position of an address whose station the first entry names. -/
theorem positionOf_cons_same (e : RosterEntry) (es : List RosterEntry) (a : Address)
    (h : e.station = codeByte a.station) :
    positionOf (e :: es) a =
      if a.index.toNat < e.hosted.toNat then some (1 + a.index.toNat) else none := by
  simp only [positionOf, if_pos h]

/-- The position of an address whose station the first entry does not name. -/
theorem positionOf_cons_other (e : RosterEntry) (es : List RosterEntry) (a : Address)
    (h : e.station ≠ codeByte a.station) :
    positionOf (e :: es) a = (positionOf es a).map (e.hosted.toNat + ·) := by
  simp only [positionOf, if_neg h]

/-- Entries that do not name the station of an address move its position by the cells they cover. -/
theorem positionOf_append (before rest : List RosterEntry) (a : Address)
    (h : ∀ x ∈ before, x.station ≠ codeByte a.station) :
    positionOf (before ++ rest) a = (positionOf rest a).map (rosterTotal before + ·) := by
  induction before with
  | nil => simp [rosterTotal]
  | cons e es ih =>
    rw [List.cons_append, positionOf_cons_other _ _ _ (h e List.mem_cons_self),
      ih fun x hx => h x (List.mem_cons_of_mem _ hx), Option.map_map]
    congr 1
    funext n
    exact (Nat.add_assoc _ _ n).symm

/-- The index that a position within an entry's cells stands for. -/
theorem toNat_positionIndex (p : Nat) (h : p ≤ 32) : (BitVec.ofNat 5 (p - 1)).toNat = p - 1 := by
  rw [BitVec.toNat_ofNat]
  exact Nat.mod_eq_of_lt (by omega)

/-- The station expected at a position of the roster is named by one of its entries. -/
theorem station_expectedAddress (roster : List RosterEntry)
    (hr : roster.all RosterEntry.inRange = true) (p : Nat) (h1 : 1 ≤ p)
    (hp : p ≤ rosterTotal roster) :
    ∃ e ∈ roster, e.station = codeByte (expectedAddress roster p).station := by
  induction roster generalizing p with
  | nil => exact absurd (h1.trans hp) (by decide)
  | cons e es ih =>
    rw [List.all_cons, Bool.and_eq_true] at hr
    by_cases h : p ≤ e.hosted.toNat
    · rw [expectedAddress_cons_le e es p h]
      exact ⟨e, List.mem_cons_self, (e.inRange_bounds hr.1).1.symm⟩
    · rw [expectedAddress_cons_gt e es p (Nat.not_le.mp h)]
      simp only [rosterTotal] at hp
      obtain ⟨x, hx, hn⟩ := ih hr.2 (p - e.hosted.toNat) (by omega) (by omega)
      exact ⟨x, List.mem_cons_of_mem _ hx, hn⟩

theorem positionOf_expectedAddress (roster : List RosterEntry)
    (hr : roster.all RosterEntry.inRange = true) (hd : distinctStations roster = true) (p : Nat)
    (h1 : 1 ≤ p) (hp : p ≤ rosterTotal roster) :
    positionOf roster (expectedAddress roster p) = some p := by
  induction roster generalizing p with
  | nil => exact absurd (h1.trans hp) (by decide)
  | cons e es ih =>
    rw [List.all_cons, Bool.and_eq_true] at hr
    simp only [distinctStations, Bool.and_eq_true, List.all_eq_true, bne_iff_ne] at hd
    obtain ⟨hs, hh⟩ := e.inRange_bounds hr.1
    by_cases h : p ≤ e.hosted.toNat
    · have hi := toNat_positionIndex p (h.trans hh)
      rw [expectedAddress_cons_le e es p h, positionOf_cons_same _ _ _ hs.symm]
      dsimp only
      rw [hi, if_pos (by omega), show 1 + (p - 1) = p by omega]
    · have h' := Nat.not_le.mp h
      simp only [rosterTotal] at hp
      have h1' : 1 ≤ p - e.hosted.toNat := by omega
      have hp' : p - e.hosted.toNat ≤ rosterTotal es := by omega
      obtain ⟨x, hx, hn⟩ := station_expectedAddress es hr.2 _ h1' hp'
      rw [expectedAddress_cons_gt e es p h',
        positionOf_cons_other _ _ _ (hn ▸ (hd.1 x hx).symm), ih hr.2 hd.2 _ h1' hp',
        Option.map_some, show e.hosted.toNat + (p - e.hosted.toNat) = p by omega]

theorem expectedAddress_positionOf (roster : List RosterEntry) (a : Address) (p : Nat)
    (h : positionOf roster a = some p) :
    1 ≤ p ∧ p ≤ rosterTotal roster ∧ expectedAddress roster p = a := by
  induction roster generalizing p with
  | nil => exact absurd h nofun
  | cons e es ih =>
    by_cases hs : e.station = codeByte a.station
    · rw [positionOf_cons_same e es a hs] at h
      obtain ⟨hi, rfl⟩ : a.index.toNat < e.hosted.toNat ∧ 1 + a.index.toNat = p := by simpa using h
      rw [expectedAddress_cons_le e es _ (by omega), hs, field5_codeByte, Nat.add_sub_cancel_left,
        BitVec.ofNat_toNat, BitVec.setWidth_eq]
      exact ⟨by omega, by simp only [rosterTotal]; omega, rfl⟩
    · rw [positionOf_cons_other e es a hs] at h
      obtain ⟨q, hq, rfl⟩ := Option.map_eq_some_iff.mp h
      obtain ⟨h1, ht, hx⟩ := ih q hq
      rw [expectedAddress_cons_gt e es _ (by omega), Nat.add_sub_cancel_left]
      exact ⟨by omega, by simp only [rosterTotal]; omega, hx⟩

/-- Settles O21: the inverses by induction on the roster, the count by passing over the entries
before that of the station. -/
theorem positionsAndAddressesAreInverse : Obligations.PositionsAndAddressesAreInverse := by
  refine ⟨fun roster hr hd => ⟨positionOf_expectedAddress roster hr hd,
    expectedAddress_positionOf roster⟩, ?_⟩
  intro roster a covered
  refine ⟨rosterTotal_eq_sum roster, ?_, ?_⟩
  · rintro before e after rfl hs hb
    rw [positionOf_append before _ a hb, positionOf_cons_same e after a hs]
    refine ⟨fun hi => ?_, fun hi => ?_⟩
    · rw [if_pos hi, Option.map_some, rosterTotal_eq_sum, Nat.add_comm]
    · rw [if_neg (Nat.not_lt.mpr hi), Option.map_none]
  · intro hn
    simpa [positionOf] using positionOf_append roster [] a hn

/-! ### Writes to a data header (O43) -/

/-- The header that a repair writes: the expected address, DAMAGED, and no other field (R50). -/
theorem repairedCell_fields (c : Cell) (x : Address) :
    let h := (repairedCell c x).header
    h.address = x ∧ h.generation = 0#8 ∧ h.owner = noStation ∧ h.reserver = noStation
      ∧ h.handoff = false ∧ h.damaged = true ∧ h.restored = false := by
  have address : (repairedCell c x).header.address = x := by
    show (⟨field5 (codeByte x.station), field5 (codeByte x.index)⟩ : Address) = x
    rw [field5_codeByte, field5_codeByte]
  have flags : (0x02#8).getLsbD 0 = false ∧ (0x02#8).getLsbD 1 = true
      ∧ (0x02#8).getLsbD 2 = false := by decide
  exact ⟨address, rfl, rfl, rfl, flags⟩

/-- A marked cell carries DAMAGED and the other flags as received (R51). -/
theorem markedCell_flags (c : Cell) :
    (markedCell c).header.damaged = true
      ∧ (markedCell c).header.handoff = c.header.handoff
      ∧ (markedCell c).header.restored = c.header.restored :=
  ⟨Header.damaged_withDamaged _ _, Header.handoff_withDamaged _ _, Header.restored_withDamaged _ _⟩

/-- Settles O43: each write is one byte of the header; the repaired header is written whole, and the
marked one differs in DAMAGED. -/
theorem headerWritesAreExact : Obligations.HeaderWritesAreExact := by
  refine ⟨fun h c b => ?_, fun c x _ => ?_, fun c => ?_⟩
  · obtain ⟨handoffSet, handoffClear⟩ := h.withHandoff_eq
    obtain ⟨damagedSet, damagedClear⟩ := h.withDamaged_eq
    obtain ⟨restoredSet, restoredClear⟩ := h.withRestored_eq
    exact ⟨h.owner_withOwner c, h.reserver_withReserver c, h.handoff_withHandoff b,
      h.damaged_withDamaged b, h.restored_withRestored b, rfl, rfl, handoffSet, handoffClear,
      damagedSet, damagedClear, restoredSet, restoredClear⟩
  · obtain ⟨address, generation, owner, reserver, handoff, damaged, restored⟩ :=
      repairedCell_fields c x
    exact ⟨rfl, rfl, rfl, rfl, rfl, address, generation, owner, reserver, handoff, damaged,
      restored, ownershipGood_repairedCell c x⟩
  · exact ⟨rfl, rfl, rfl, rfl, rfl, markedCell_flags c⟩

/-! ### What an arrival in RUNNING does (O40, O42) -/

theorem exec_cellArrival_running (r : Reception) (s : State) (h : s.reporting .running) :
    exec (.cellArrival r) s = .next (s.delivered.trackArrival r) := by
  obtain ⟨hr, hm, hs⟩ := h
  have state : s.delivered.loop.state = .running := hs
  rw [exec_cellArrival_reported r s hr hm]
  simp only [State.loopArrival, state]

/-- A DATA cell is checked where a data position remains, and is a missing MARK at position T. -/
theorem State.trackArrival_of_data (s : State) (r : Reception) (hk : r.cell.kind = .data) :
    (s.tracker.position < s.total → s.trackArrival r = s.checkData r)
      ∧ (s.tracker.position = s.total → s.trackArrival r = s.positionFault .markMissing 0) := by
  simp only [State.trackArrival, hk]
  exact ⟨fun h => if_pos h, fun h => if_neg h.not_lt⟩

/-- A MARK is out of place where a data position remains, and is checked at position T. -/
theorem State.trackArrival_of_mark (s : State) (r : Reception) (hk : r.cell.kind = .mark) :
    (s.tracker.position < s.total →
        s.trackArrival r = s.positionFault .markOutOfPlace (s.tracker.position + 1))
      ∧ (s.tracker.position = s.total → s.trackArrival r = s.checkMark r) := by
  simp only [State.trackArrival, hk]
  exact ⟨fun h => if_pos h, fun h => if_neg h.not_lt⟩

/-- A cell of a forming loop is a position fault wherever it arrives. -/
theorem State.trackArrival_of_forming (s : State) (r : Reception)
    (hk : r.cell.kind = .tail ∨ r.cell.kind = .census) :
    s.trackArrival r = s.positionFault .formationCell s.judgedPosition := by
  rcases hk with hk | hk <;> simp only [State.trackArrival, hk]

theorem State.judgedPosition_eq (s : State) :
    (s.tracker.position < s.total → s.judgedPosition = s.tracker.position + 1)
      ∧ (s.tracker.position = s.total → s.judgedPosition = 0) :=
  ⟨fun h => if_pos h, fun h => if_neg h.not_lt⟩

/-- The loop's own MARK is well formed and carries the stored formation number and roster. -/
theorem State.ownMark_iff (s : State) (c : Cell) :
    s.ownMark c = true ↔ c.markWellFormed = true ∧ c.header.markFormation = s.loop.formation
      ∧ c.roster = s.loop.roster := by
  simp [State.ownMark, and_assoc]

/-- Settles O40: each fault by the kind of the cell and the position counter. -/
theorem positionFaultsBreakTheLoop : Obligations.PositionFaultsBreakTheLoop := by
  intro r s h p total faulted
  have arrived := exec_cellArrival_running r s h
  refine ⟨fun hk hp => ?_, fun hk hp => ?_, fun hk hp hg hf => ?_, fun hk => ?_⟩
  · obtain ⟨outOfPlace, -⟩ := s.delivered.trackArrival_of_mark r hk
    exact arrived.trans (congrArg _ (outOfPlace hp))
  · obtain ⟨-, missing⟩ := s.delivered.trackArrival_of_data r hk
    exact arrived.trans (congrArg _ (missing hp))
  · obtain ⟨-, checked⟩ := s.delivered.trackArrival_of_mark r hk
    have foreign : ¬s.delivered.ownMark r.cell = true := by
      rw [State.ownMark_iff]
      rintro ⟨wellFormed, formation, roster⟩
      rcases hf with hf | hf | hf
      · exact absurd (hf.symm.trans wellFormed) (by decide)
      · exact hf formation
      · exact hf roster
    refine arrived.trans (congrArg _ ((checked hp).trans ?_))
    rw [State.checkMark, if_pos hg, if_neg foreign]
    rfl
  · have fault := s.delivered.trackArrival_of_forming r hk
    obtain ⟨next, zero⟩ := s.delivered.judgedPosition_eq
    refine ⟨fun hp => ?_, fun hp => ?_⟩
    · rw [arrived, fault, next hp]
      rfl
    · rw [arrived, fault, zero hp]
      rfl

theorem examine_badCheck (r : Reception) (x : Address) (h : r.headerGood = false) :
    examine r x = .repair .check := by
  rw [examine, if_pos h]

theorem examine_wrongAddress (r : Reception) (x : Address) (h : r.headerGood = true)
    (ha : r.cell.header.address ≠ x) : examine r x = .repair .address := by
  rw [examine, if_neg (by simp [h]), if_pos ha]

theorem examine_badOwnership (r : Reception) (x : Address) (h : r.headerGood = true)
    (ha : r.cell.header.address = x) (ho : r.cell.header.ownershipGood = false) :
    examine r x = .repair .ownership := by
  rw [examine, if_neg (by simp [h]), if_neg (not_not.mpr ha), if_pos ho]

/-- A good header leaves the payload and DAMAGED to decide. -/
theorem examine_goodHeader (r : Reception) (x : Address) (h : r.headerGood = true)
    (ha : r.cell.header.address = x) (ho : r.cell.header.ownershipGood = true) :
    examine r x = if r.payloadGood = false ∧ r.cell.header.damaged = false then .marking
      else .passed := by
  rw [examine, if_neg (by simp [h]), if_neg (not_not.mpr ha), if_neg (by simp [ho])]

/-- A finding that brings the damage count to 8 breaks the loop; before that the cell is handed
on. -/
theorem State.handOnFound_eq (s : State) (a : Arrival) :
    (s.tracker.damage < 8 → s.handOnFound a = s.passage a)
      ∧ (s.tracker.damage = 8 → s.handOnFound a = s.enterBroken .damageBurst) :=
  ⟨fun h => if_neg (Nat.not_le.mpr h), fun h => if_pos h.ge⟩

/-- What the check of a DATA cell makes of each outcome of its examination. -/
theorem State.checkData_eq (s : State) (r : Reception) :
    let p := s.tracker.position + 1
    let x := expectedAddress s.loop.roster p
    (examine r x = .passed → s.checkData r = s.advanced.passage ⟨p, r, .none, r.cell⟩)
      ∧ (∀ cause, examine r x = .repair cause → s.checkData r =
        (s.advanced.found (.header x r.cell.header.address cause) p r.payloadGood).handOnFound
          ⟨p, r, .header, repairedCell r.cell x⟩)
      ∧ (examine r x = .marking → s.checkData r =
        (s.advanced.found (.payload x r.cell.header.address) p r.payloadGood).handOnFound
          ⟨p, r, .payload, markedCell r.cell⟩) := by
  refine ⟨fun h => ?_, fun cause h => ?_, fun h => ?_⟩ <;> simp only [State.checkData, h] <;> rfl

/-- Settles O42: the rows of R49 in order, then the outcome that each gives. -/
theorem dataCellsAreExaminedInOrder : Obligations.DataCellsAreExaminedInOrder := by
  intro r s h hk hp p x hd placed counted finds
  obtain ⟨checked, -⟩ := s.delivered.trackArrival_of_data r hk
  have arrived : exec (.cellArrival r) s = .next (s.delivered.checkData r) :=
    (exec_cellArrival_running r s h).trans (congrArg _ (checked hp))
  obtain ⟨passes, repairs, marks⟩ := s.delivered.checkData_eq r
  have found : ∀ finding repaired c, s.delivered.checkData r =
      (s.delivered.advanced.found finding p r.payloadGood).handOnFound ⟨p, r, repaired, c⟩ →
      finds finding repaired c := by
    intro finding repaired c e
    obtain ⟨handedOn, burst⟩ := (s.delivered.advanced.found finding p r.payloadGood).handOnFound_eq
      ⟨p, r, repaired, c⟩
    exact ⟨fun hn => arrived.trans (congrArg _ (e.trans (handedOn (Nat.succ_lt_succ hn)))),
      fun hn => arrived.trans (congrArg _ (e.trans (burst (congrArg (· + 1) hn))))⟩
  refine ⟨fun hh => found _ _ _ (repairs _ (examine_badCheck r x hh)),
    fun hh ha => found _ _ _ (repairs _ (examine_wrongAddress r x hh ha)),
    fun hh ha ho => found _ _ _ (repairs _ (examine_badOwnership r x hh ha ho)),
    fun hh ha ho => ⟨fun hg hm => found _ _ _ (marks ?_), fun hg => ?_⟩⟩
  · exact (examine_goodHeader r x hh ha ho).trans (if_pos ⟨hg, hm⟩)
  · refine arrived.trans (congrArg _ (passes ?_))
    refine (examine_goodHeader r x hh ha ho).trans (if_neg ?_)
    rintro ⟨badPayload, undamaged⟩
    rcases hg with hg | hg
    · exact absurd (badPayload.symm.trans hg) (by decide)
    · exact absurd (undamaged.symm.trans hg) (by decide)

/-! ### A MARK passage (O41) -/

/-- A PENDING entry times out at the MARK that makes its count the pass limit plus one (R74). -/
theorem Entry.timesOut_markSeen (e : Entry) :
    e.markSeen.timesOut = (e.state == .pending && e.marks == e.passLimit) := by
  cases he : e.state with
  | pending => simp [Entry.markSeen, Entry.timesOut, Entry.atLimit, he]
  | reserved => simp [Entry.markSeen, Entry.timesOut, Entry.atLimit, he]
  | withdrawing ending =>
    simp only [Entry.markSeen, Entry.timesOut, he]
    rfl

/-- What a MARK passage makes of an entry by its state, if it stays in the table (R73, R75). -/
theorem Entry.limitReached_markSeen (e : Entry) :
    (e.state = .pending → e.markSeen.limitReached = { e with marks := e.marks + 1 })
      ∧ (e.state = .reserved → e.marks = e.passLimit → e.markSeen.limitReached
        = { e with marks := e.marks + 1, state := .withdrawing .timeout })
      ∧ (e.state = .reserved → e.marks ≠ e.passLimit →
        e.markSeen.limitReached = { e with marks := e.marks + 1 })
      ∧ (∀ ending, e.state = .withdrawing ending → e.markSeen.limitReached = e) := by
  refine ⟨fun he => ?_, fun he hm => ?_, fun he hm => ?_, fun ending he => ?_⟩
  · simp [Entry.markSeen, Entry.limitReached, he]
  · simp [Entry.markSeen, Entry.limitReached, Entry.atLimit, he, hm]
  · simp [Entry.markSeen, Entry.limitReached, Entry.atLimit, he, hm]
  · simp [Entry.markSeen, Entry.limitReached, he]

/-- The MARKs that an entry has seen do not show in its record. -/
theorem Entry.completion_markSeen (e : Entry) (revolution : Word) (result : Result)
    (data : CompletionData) :
    e.markSeen.completion revolution result data = e.completion revolution result data := by
  cases he : e.state <;> simp [Entry.markSeen, Entry.completion, he]

theorem markedTable_eq (table : List Entry) :
    markedTable table =
      (table.filter fun e => !(e.state == .pending && e.marks == e.passLimit)).map
        fun e => e.markSeen.limitReached := by
  simp only [markedTable, List.filter_map, List.map_map, Function.comp_def,
    Entry.timesOut_markSeen]

theorem markRecords_eq (table : List Entry) (revolution : Word) :
    markRecords table revolution =
      (table.filter fun e => e.state == .pending && e.marks == e.passLimit).map
        fun e => e.completion revolution .timeout .none := by
  simp only [markRecords, List.filter_map, List.map_map, Function.comp_def,
    Entry.timesOut_markSeen, Entry.completion_markSeen]

theorem State.markTimeouts_eq (s : State) :
    s.markTimeouts =
      { s with
        engine := { s.engine with table := markedTable s.engine.table }
        queues := { s.queues with completions :=
          s.queues.completions ++ markRecords s.engine.table s.tracker.revolution } } := rfl

/-- A MARK passage is counted against an active sweep; the second ends it with its notice, and
nothing else changes (R114). -/
theorem State.markSweep_eq (s : State) :
    ∃ sweep q, s.markSweep = { s with engine := { s.engine with sweep }, queues := q }
      ∧ q.completions = s.queues.completions
      ∧ (s.engine.sweep.active = false → sweep = s.engine.sweep ∧ q = s.queues)
      ∧ (s.engine.sweep.active = true → s.engine.sweep.marks = 0 →
        sweep = { s.engine.sweep with marks := 1 } ∧ q = s.queues)
      ∧ (s.engine.sweep.active = true → s.engine.sweep.marks = 1 →
        sweep = { s.engine.sweep with active := false, marks := 2 }
          ∧ q = s.queues.post
            ⟨.sweepDone s.engine.sweep.released true, s.tracker.revolution⟩) := by
  unfold State.markSweep
  split
  · rename_i ha
    have active : s.engine.sweep.active ≠ false := by simp [ha]
    split
    · rename_i hm
      have second : s.engine.sweep.marks = 1 := Nat.succ.inj hm
      refine ⟨_, _, rfl, Queues.completions_post _ _, fun hn => absurd hn active, fun _ h0 => ?_,
        fun _ _ => ⟨?_, rfl⟩⟩
      · exact absurd (h0.symm.trans second) (by decide)
      · simp [second]
    · rename_i hm
      refine ⟨_, s.queues, rfl, rfl, fun hn => absurd hn active, fun _ h0 => ⟨?_, rfl⟩,
        fun _ h1 => absurd (congrArg (· + 1) h1) hm⟩
      simp [h0]
  · rename_i ha
    exact ⟨s.engine.sweep, s.queues, rfl, rfl, fun _ => ⟨rfl, rfl⟩, fun h => absurd h ha,
      fun h => absurd h ha⟩

/-- What the timeouts, the sweep and the store make of a MARK passage, from the station `u` at the
new revolution with a rewritten MARK reported (R73 to R75, R114). -/
theorem State.markActions_eq (u : State) (mark : Cell) :
    ∃ sweep q, u.markTimeouts.markSweep.enterCell mark =
        { u with
          line := { u.line with store := storeEnter u.line.store mark }
          engine := { u.engine with table := markedTable u.engine.table, sweep }
          queues := q }
      ∧ q.completions = u.queues.completions ++ markRecords u.engine.table u.tracker.revolution
      ∧ (u.engine.sweep.active = false → sweep = u.engine.sweep
        ∧ q.notices = u.queues.notices ∧ q.lost = u.queues.lost)
      ∧ (u.engine.sweep.active = true → u.engine.sweep.marks = 0 →
        sweep = { u.engine.sweep with marks := 1 }
          ∧ q.notices = u.queues.notices ∧ q.lost = u.queues.lost)
      ∧ (u.engine.sweep.active = true → u.engine.sweep.marks = 1 →
        sweep = { u.engine.sweep with active := false, marks := 2 }
          ∧ q.notices = (u.queues.post
            ⟨.sweepDone u.engine.sweep.released true, u.tracker.revolution⟩).notices
          ∧ q.lost = (u.queues.post
            ⟨.sweepDone u.engine.sweep.released true, u.tracker.revolution⟩).lost) := by
  obtain ⟨sweep, q, swept, completions, inactive, first, second⟩ := u.markTimeouts.markSweep_eq
  refine ⟨sweep, q, ?_, completions, fun ha => ?_, fun ha hm => ?_, fun ha hm => ?_⟩
  · rw [swept]
    rfl
  · obtain ⟨sweep_eq, rfl⟩ := inactive ha
    exact ⟨sweep_eq, rfl, rfl⟩
  · obtain ⟨sweep_eq, rfl⟩ := first ha hm
    exact ⟨sweep_eq, rfl, rfl⟩
  · obtain ⟨sweep_eq, rfl⟩ := second ha hm
    rw [State.markTimeouts_eq, Queues.post_with_completions]
    exact ⟨sweep_eq, rfl, rfl⟩

/-- A MARK at position T is the loop's own, or rewritten when a check is bad. -/
theorem State.checkMark_passes (s : State) (r : Reception) :
    (r.good = true → s.ownMark r.cell = true → s.checkMark r = s.markPassage r.cell none)
      ∧ (r.good = false → s.checkMark r = s.markPassage s.rewrittenMark (some r.payloadGood)) := by
  refine ⟨fun hg ho => ?_, fun hg => ?_⟩
  · rw [State.checkMark, if_pos hg, if_pos ho]
  · rw [State.checkMark, if_neg (by simp [hg])]

/-- Settles O41: the own and the rewritten MARK take the same actions, from the tracker at the new
revolution and the queues with the report of a rewritten MARK. -/
theorem markPassageTakesItsActions : Obligations.MarkPassageTakesItsActions := by
  intro r s h hk hp revolution out seen sweep passed
  obtain ⟨-, checked⟩ := s.delivered.trackArrival_of_mark r hk
  have arrived : exec (.cellArrival r) s = .next (s.delivered.checkMark r) :=
    (exec_cellArrival_running r s h).trans (congrArg _ (checked hp))
  obtain ⟨accepted, rewritten⟩ := s.delivered.checkMark_passes r
  have seen_eq : ∀ e : Entry, e.markSeen.limitReached = seen e := by
    intro e
    obtain ⟨pending, atLimit, below, withdrawing⟩ := e.limitReached_markSeen
    dsimp only [seen]
    split
    · rename_i he
      exact pending he
    · rename_i he
      split
      · rename_i hm
        exact atLimit he hm
      · rename_i hm
        exact below he hm
    · rename_i ending he
      exact withdrawing ending he
  have actions : ∀ (u : State) (mark : Cell) (damage : Nat) (reported : Queues),
      u = { s.delivered with
        tracker := { s.tracker with position := 0, damage, revolution, rev := !s.tracker.rev }
        queues := reported } →
      reported.completions = s.queues.completions →
      s.delivered.checkMark r = u.markTimeouts.markSweep.enterCell mark →
      passed mark damage reported := by
    rintro u mark damage reported rfl hq e
    obtain ⟨sweep', q, marked, completions, inactive, first, second⟩ :=
      State.markActions_eq _ mark
    refine ⟨_, arrived.trans (congrArg _ (e.trans marked)), rfl, ?_, ?_, inactive, first, second,
      rfl, rfl, rfl, rfl, rfl, rfl⟩
    · exact (markedTable_eq s.engine.table).trans (List.map_congr_left fun e _ => seen_eq e)
    · rw [← hq]
      exact completions.trans
        (congrArg (reported.completions ++ ·) (markRecords_eq s.engine.table revolution))
  exact ⟨fun hg hw hf hr => actions _ r.cell 0 s.queues rfl rfl
      (accepted hg ((s.delivered.ownMark_iff r.cell).mpr ⟨hw, hf, hr⟩)),
    fun hg => actions _ _ 1 _ rfl (Queues.completions_post _ _) (rewritten hg)⟩

/-! ### The service of one matching entry -/

/-- With one matching entry and a place for it the service stage is that entry's turn: the entry
stays as the turn leaves it or its record is pushed (R88). -/
theorem State.serviceStage_of_one (s : State) (a : Arrival) (n : Nat) (h : Hand)
    (before after : List Entry) (e : Entry) (ht : s.engine.table = before ++ e :: after)
    (he : e.position = a.position) (ho : ∀ x ∈ before ++ after, x.position ≠ a.position) :
    let turn := serveEntry s.port.station a e h
    s.serviceStage a (n + 1) h =
      ((s.withTable (before ++ ((turnKept (e, turn.2)).toList ++ after))).pushRecords
        (turnRecord s.tracker.revolution (e, turn.2)).toList, turn.1) := by
  intro turn
  simp only [State.serviceStage, ht, serveEntries_one _ _ _ n before after e h he ho,
    List.map_append, settleDeferred_false]
  cases (serveEntry s.port.station a e h).2 <;>
    simp [turn, turnKept, turnRecord, settleDeferred]

/-- Where no entry of the table stands at the position, stale reservation clearing takes this
station's reservation away and reports it, and leaves any other cell; the notice is that of the
station `u` before the tracker took the position (R110). -/
theorem State.staleStage_of_none (s u : State) (a : Arrival) (c : Cell)
    (hs : ∀ e ∈ s.engine.table, e.position ≠ a.position) (hp : s.port = u.port)
    (hr : s.tracker.revolution = u.tracker.revolution) (ha : a.position = u.tracker.position + 1)
    (hm : u.port.station ≠ noStation) :
    ∃ hand : Hand, hand.departing c = clearedCell u.port.station c
      ∧ s.staleStage a ⟨c, false⟩ = ({ s with
        queues := (u.staleNotices c).foldl (fun q b => q.post ⟨b, u.tracker.revolution⟩) s.queues },
        hand) := by
  have unclaimed : (s.engine.table.any fun e => e.claimsAt a.position && e.state == .reserved)
      = false := by
    rw [List.any_eq_false]
    intro e he
    simp [Entry.claimsAt, hs e he]
  by_cases hc : c.header.reserver = u.port.station
  · have changed : c.header.withReserver noStation ≠ c.header := by
      intro h
      have kept := congrArg Header.reserver h
      rw [Header.reserver_withReserver, hc] at kept
      exact hm kept.symm
    refine ⟨⟨{ c with header := c.header.withReserver noStation }, false⟩, ?_, ?_⟩
    · rw [Hand.departing_changed c _ changed, clearedCell, if_pos hc]
    · rw [State.staleStage, if_pos ⟨hp ▸ hc, unclaimed⟩, State.staleNotices, if_pos hc, ← hr, ← ha]
      rfl
  · refine ⟨⟨c, false⟩, ?_, ?_⟩
    · rw [Hand.departing_unchanged, clearedCell, if_neg hc]
    · rw [s.staleStage_of_not a ⟨c, false⟩ (Or.inl (hp ▸ hc)), State.staleNotices, if_neg hc]
      rfl

/-- The stages of a passage that finds one matching entry, no handoff and no sweep: after the watch
comparison, which leaves `w`, that entry's turn and stale reservation clearing. -/
theorem State.stages_of_one (s w : State) (a : Arrival) (before after : List Entry) (e : Entry)
    (hand : Hand) (verdict : Verdict) (hw : s.watchCompare a.position a.cell = w)
    (ht : w.engine.table = before ++ e :: after) (he : e.position = a.position)
    (ho : ∀ x ∈ before ++ after, x.position ≠ a.position) (hs : w.engine.sweep.active = false)
    (hn : ¬(a.cell.header.owner = w.port.station ∧ a.cell.header.handoff = true))
    (hv : serveEntry w.port.station a e ⟨a.cell, false⟩ = (hand, verdict)) :
    s.stages a =
      State.staleStage
        ((w.withTable (before ++ ((turnKept (e, verdict)).toList ++ after))).pushRecords
          (turnRecord w.tracker.revolution (e, verdict)).toList) a hand := by
  have handoff := w.handoffStep_of_not a ⟨a.cell, false⟩ hn
  have service := w.serviceStage_of_one a 3 ⟨a.cell, false⟩ before after e ht he ho
  have sweep := State.sweepStage_of_not
    ((w.withTable (before ++ ((turnKept (e, verdict)).toList ++ after))).pushRecords
      (turnRecord w.tracker.revolution (e, verdict)).toList) hand (Or.inl hs)
  simp only [hv] at service
  simp only [State.stages, hw, handoff, service, sweep]

/-- Posting depends on no completion record. -/
theorem foldl_post_with_completions (bodies : List NoticeBody) (q : Queues) (cs : List Completion)
    (revolution : Word) :
    bodies.foldl (fun q b => q.post ⟨b, revolution⟩) { q with completions := cs } =
      { bodies.foldl (fun q b => q.post ⟨b, revolution⟩) q with completions := cs } := by
  induction bodies generalizing q with
  | nil => rfl
  | cons b bs ih => rw [List.foldl_cons, List.foldl_cons, Queues.post_with_completions, ih]

/-- A turn that completes its entry and leaves the cell in hand, alone in its window: the record is
pushed, a stale reservation is cleared and reported, and the cell departs as it arrived but for
that (R85, R110). -/
theorem State.servesAlone_unchanged (r : Reception) (s u : State) (repaired : Repaired) (c : Cell)
    (before after : List Entry) (e : Entry) (result : Result) (data : CompletionData)
    (how : Option How) (h : s.servesAlone r u repaired c before e after)
    (hn : ¬(c.header.owner = s.port.station ∧ c.header.handoff = true))
    (hv : serveEntry s.port.station ⟨s.tracker.position + 1, r, repaired, c⟩ e ⟨c, false⟩
      = (⟨c, false⟩, .ends result data how)) :
    ∃ t, exec (.cellArrival r) s = .next t
      ∧ u.handsOn t c (clearedCell s.port.station c) { s.engine with table := before ++ after }
        [{ e.completion s.tracker.revolution result data with how }] (s.staleNotices c) := by
  obtain ⟨ha, hs, ht, he, ho⟩ := h
  obtain ⟨-, -, -, hu, -⟩ := s.accepts_passage r u repaired c ha
  have engine : u.engine = s.engine := by rw [hu]
  have port : u.port = s.port := by rw [hu]
  have position : u.tracker.position = s.tracker.position := by rw [hu]
  have revolution : u.tracker.revolution = s.tracker.revolution := by rw [hu]
  have legal : u.port.station ≠ noStation := by
    obtain ⟨-, -, -, hl, -⟩ := ha
    rintro h0
    rw [← port, h0] at hl
    exact absurd hl (by decide)
  have notices : s.staleNotices c = u.staleNotices c := by
    simp only [State.staleNotices, port, position]
  rw [notices]
  rw [← port, ← position] at hv
  rw [← port] at hn ⊢
  rw [← position] at he ho
  rw [← engine] at ht hs ⊢
  rw [← revolution]
  obtain ⟨hand, departs, cleared⟩ := State.staleStage_of_none
    (({ u.delivered.advanced with
        queues := u.posting (u.watchNotice c).toList : State }.withTable
          (before ++ after)).pushRecords
      [{ e.completion u.tracker.revolution result data with how }])
    u ⟨u.tracker.position + 1, r, repaired, c⟩ c ho rfl rfl rfl legal
  have stages := u.delivered.advanced.stages_of_one _ ⟨u.tracker.position + 1, r, repaired, c⟩
    before after e _ _ (u.watchCompare_advanced c) ht he ho hs hn hv
  have queues : (u.staleNotices c).foldl (fun q b => q.post ⟨b, u.tracker.revolution⟩)
      { u.posting (u.watchNotice c).toList with
        completions := (u.posting (u.watchNotice c).toList).completions
          ++ [{ e.completion u.tracker.revolution result data with how }] }
      = { u.posting ((u.watchNotice c).toList ++ u.staleNotices c) with
        completions := u.queues.completions
          ++ [{ e.completion u.tracker.revolution result data with how }] } := by
    rw [foldl_post_with_completions, State.completions_posting, State.posting_append]
  rw [← departs]
  refine s.accepts_handsOn r u repaired c _ hand _ _ ha ?_
  rw [← position, ← queues]
  exact stages.trans cleared

/-! ### The requests that read a cell (O46) -/

/-- A range that agrees with the words given has no mismatch. -/
theorem firstMismatch_of_agree (p : Payload) (first : Nat) (words : List Word)
    (h : ∀ i, i < words.length → payloadWord p (first + i) = words.getD i 0#16) :
    firstMismatch p first words = none := by
  induction words generalizing first with
  | nil => rfl
  | cons w ws ih =>
    have rest := ih (first + 1) fun i hi => by
      rw [Nat.add_assoc, Nat.add_comm 1 i]
      exact h (i + 1) (Nat.succ_lt_succ hi)
    have agrees : payloadWord p first = w := h 0 (Nat.succ_pos _)
    rw [firstMismatch, if_pos agrees, rest]

/-- The first word that differs from those given is the mismatch, with the cell's value. -/
theorem firstMismatch_of_first (p : Payload) (first : Nat) (words : List Word) (i : Nat)
    (hi : i < words.length) (hd : payloadWord p (first + i) ≠ words.getD i 0#16)
    (hb : ∀ j, j < i → payloadWord p (first + j) = words.getD j 0#16) :
    firstMismatch p first words = some (first + i, payloadWord p (first + i)) := by
  induction words generalizing first i with
  | nil => exact absurd hi (Nat.not_lt_zero i)
  | cons w ws ih =>
    cases i with
    | zero => exact if_neg hd
    | succ i =>
      have shift : ∀ j, first + 1 + j = first + (j + 1) := fun j => by omega
      have rest := ih (first + 1) i (Nat.lt_of_succ_lt_succ hi) (by rw [shift]; exact hd)
        fun j hj => by
          rw [shift]
          exact hb (j + 1) (Nat.succ_lt_succ hj)
      have agrees : payloadWord p first = w := hb 0 (Nat.succ_pos i)
      rw [firstMismatch, if_pos agrees, rest, shift]

/-- READ leaves the cell in hand and completes with it, with the result that DAMAGED gives (R91). -/
theorem serveEntry_read (me : Code5) (a : Arrival) (e : Entry) (h : Hand) (x : Address)
    (hq : e.request = .read x) :
    (h.header.damaged = false → serveEntry me a e h =
        (h, .ends .done (.cell (headerSummary h.header) h.cell.payload) none))
      ∧ (h.header.damaged = true → serveEntry me a e h =
        (h, .ends .damaged (.cell (headerSummary h.header) h.cell.payload) none)) := by
  refine ⟨fun hd => ?_, fun hd => ?_⟩ <;>
    simp only [serveEntry, hq, serveRead, hd, Bool.false_eq_true, if_true, if_false]

theorem serveEntry_header (me : Code5) (a : Arrival) (e : Entry) (h : Hand) (x : Address)
    (hq : e.request = .header x) :
    serveEntry me a e h = (h, .ends .done (.header (headerSummary h.header)) none) := by
  simp only [serveEntry, hq, serveHeader]

theorem serveEntry_peek (me : Code5) (a : Arrival) (e : Entry) (h : Hand) (x : Word)
    (hq : e.request = .peek x) :
    serveEntry me a e h = (h, .ends .done
      (.raw a.raw.cell.header a.raw.cell.payload a.raw.headerGood a.raw.payloadGood a.repaired)
      none) := by
  simp only [serveEntry, hq, servePeek]

theorem serveEntry_verify_damaged (me : Code5) (a : Arrival) (e : Entry) (h : Hand) (x : Address)
    (first : Nat) (words : List Word) (hq : e.request = .verify x first words)
    (hd : h.header.damaged = true) :
    serveEntry me a e h = (h, .ends .damaged (.generation h.header.generation) none) := by
  simp only [serveEntry, hq, serveVerify, if_pos hd]

/-- VERIFY on a cell with DAMAGED clear, by the mismatch that it finds. -/
theorem serveEntry_verify (me : Code5) (a : Arrival) (e : Entry) (h : Hand) (x : Address)
    (first : Nat) (words : List Word) (hq : e.request = .verify x first words)
    (hd : h.header.damaged = false) :
    (firstMismatch h.cell.payload first words = none →
        serveEntry me a e h = (h, .ends .done (.generation h.header.generation) none))
      ∧ ∀ i w, firstMismatch h.cell.payload first words = some (i, w) →
        serveEntry me a e h = (h, .ends .mismatch (.mismatch i w h.header.generation) none) := by
  refine ⟨fun hm => ?_, fun i w hm => ?_⟩ <;>
    simp only [serveEntry, hq, serveVerify, hd, hm, Bool.false_eq_true, if_false]

/-- Settles O46: each request completes by its turn, which leaves the cell in hand. -/
theorem readingRequestsLeaveTheCellUnchanged :
    Obligations.ReadingRequestsLeaveTheCellUnchanged := by
  intro r s u repaired c before after e hs _ h hn summary completes
  have turn : ∀ result data, serveEntry s.port.station ⟨s.tracker.position + 1, r, repaired, c⟩ e
      ⟨c, false⟩ = (⟨c, false⟩, .ends result data none) → completes result data :=
    fun result data => s.servesAlone_unchanged r u repaired c before after e result data none hs hn
  refine ⟨fun x hq => ?_, fun x hq => turn _ _ (serveEntry_header _ _ e ⟨c, false⟩ x hq),
    fun x hq => turn _ _ (serveEntry_peek _ _ e ⟨c, false⟩ x hq),
    fun x first words hq _ => ⟨fun hd => turn _ _ ?_, fun hd => ⟨fun hw => turn _ _ ?_,
      fun i hi hw hb => turn _ _ ?_⟩⟩⟩
  · obtain ⟨clean, damaged⟩ := serveEntry_read s.port.station
      ⟨s.tracker.position + 1, r, repaired, c⟩ e ⟨c, false⟩ x hq
    exact ⟨fun hd => turn _ _ (clean hd), fun hd => turn _ _ (damaged hd)⟩
  · exact serveEntry_verify_damaged _ _ e ⟨c, false⟩ x first words hq hd
  · obtain ⟨agrees, -⟩ := serveEntry_verify _ _ e ⟨c, false⟩ x first words hq hd
    exact agrees (firstMismatch_of_agree c.payload first words hw)
  · obtain ⟨-, differs⟩ := serveEntry_verify _ _ e ⟨c, false⟩ x first words hq hd
    exact differs _ _ (firstMismatch_of_first c.payload first words i hi hw hb)

end Sys2Proof.Machine
end

section
/-! Proofs of the statements about requests and the request table: rules that say once what an
operation does to the commitment, to the table and the sweep, to a submission and to the serve
window, and the results that follow from them. -/

namespace Sys2Proof

/-! ### The ranges of a SUBMIT frame (R67) -/

/-- A target of station 0 or 31 lies outside its range (R3, R67). -/
theorem Address.outOfRange_iff (a : Address) :
    a.outOfRange = true ↔ a.station = 0#5 ∨ a.station = 31#5 := by
  simp only [Address.outOfRange, stationLegal, noStation, badStation, Bool.not_eq_true',
    Bool.and_eq_false_iff, bne_eq_false_iff_eq]

theorem SubmitFrame.badRange_iff (f : SubmitFrame) :
    f.badRange = true ↔ f.count = 0 ∨ 32 < f.count ∨ 32 < f.first + f.count := by
  simp [SubmitFrame.badRange, or_assoc]

end Sys2Proof

namespace Sys2Proof.Machine

/-! ### The commitment (O52) -/

/-- A host command whose effect keeps the commitment keeps it, taken or not. -/
theorem State.commitment_takeCommand (s : State) (k : HostCommand) (fields : List Byte)
    (effect : State → State × List Byte) (h : (effect s).1.commitment = s.commitment) :
    (s.takeCommand k fields effect).commitment = s.commitment := by
  rcases s.takeCommand_cases k fields effect with ⟨-, e⟩ | ⟨-, e⟩
  · rw [e]
    exact h
  · rw [e]

/-- A report of a break moves requests from the table to the completion queue at most. -/
theorem State.commitment_breakReport (s : State) (reason : Reason) :
    (s.breakReport reason).commitment = s.commitment := by
  rcases s.breakReport_cases reason with ⟨e, -⟩ | ⟨e, -⟩
  · rw [e]
    exact (s.enterBroken_withinRoom reason).commitment
  · rw [e]

/-- What the line interface reports to loop control keeps the commitment. -/
theorem State.commitment_takeReport (s : State) (report : LineReport) :
    (s.takeReport report).commitment = s.commitment := by
  cases report with
  | none => rfl
  | breakFill => exact s.commitment_breakReport _
  | cell r => exact (s.arrive_withinRoom r).commitment

theorem State.commitment_receiveSymbol (s : State) (x : Symbol) :
    (s.receiveSymbol x).commitment = s.commitment :=
  State.commitment_takeReport { s with line := (s.line.receive x).1 } (s.line.receive x).2

/-- Both outcomes of an event that depends on a condition. -/
theorem State.commitment_ite (c : Prop) [Decidable c] {s t u : State}
    (ht : t.commitment = s.commitment) (hu : u.commitment = s.commitment) :
    (if c then t else u).commitment = s.commitment := by
  split
  · exact ht
  · exact hu

theorem State.commitment_originate (s : State) : s.originate.commitment = s.commitment :=
  s.originate_withinRoom.commitment

/-- The next state of a command that is neither SUBMIT, the final byte of TAKE, host RESET nor
station reset has the commitment of the state before (R62, R76, R147). -/
theorem exec_keeps_commitment (i : Instr) (s : State) (hsubmit : ∀ f, i ≠ .submit f)
    (htake : i ≠ .takeFinalByte) (hreset : ∀ o, i ≠ .reset o) (hstation : i ≠ .stationReset) :
    ∃ t, exec i s = .next t ∧ t.commitment = s.commitment := by
  cases i with
  | stationReset => exact absurd rfl hstation
  | submit f => exact absurd rfl (hsubmit f)
  | reset o => exact absurd rfl (hreset o)
  | takeFinalByte => exact absurd rfl htake
  | stationResetRelease x => exact ⟨_, rfl, State.commitment_ite _ rfl rfl⟩
  | cellArrival r =>
    exact ⟨_, rfl, State.commitment_ite _ rfl (State.arrive_withinRoom _ r).commitment⟩
  | breakFillReceived =>
    exact ⟨_, rfl, State.commitment_ite _ rfl (State.commitment_breakReport _ _)⟩
  | signalLoss =>
    exact ⟨_, rfl, State.commitment_ite _ rfl (State.commitment_breakReport _ _)⟩
  | signalReturn x => exact ⟨_, rfl, State.commitment_ite _ (s.commitment_receiveSymbol x) rfl⟩
  | symbolReceived x => exact ⟨_, rfl, State.commitment_ite _ rfl (s.commitment_receiveSymbol x)⟩
  | cellTransmitted => exact ⟨_, rfl, State.commitment_ite _ rfl rfl⟩
  | listenTimerExpiry =>
    refine ⟨_, rfl, State.commitment_ite _ ?_ rfl⟩
    dsimp only
    split
    · rfl
    · exact State.commitment_originate _
  | censusTimerExpiry =>
    refine ⟨_, rfl, State.commitment_ite _ ?_ rfl⟩
    split
    · exact s.commitment_originate
    · exact (s.enterBroken_withinRoom _).commitment
  | yieldWaitExpiry =>
    exact ⟨_, rfl, State.commitment_ite _ (s.enterBroken_withinRoom _).commitment rfl⟩
  | buildLimitExpiry =>
    exact ⟨_, rfl, State.commitment_ite _ (s.enterBroken_withinRoom _).commitment rfl⟩
  | breakHoldExpiry => exact ⟨_, rfl, State.commitment_ite _ rfl rfl⟩
  | csnFall =>
    refine ⟨_, rfl, State.commitment_ite _ rfl ?_⟩
    split <;> rfl
  | csnRise received => exact ⟨_, rfl, rfl⟩
  | badCheck frame => exact ⟨_, rfl, State.commitment_ite _ rfl rfl⟩
  | unknownCommand code => exact ⟨_, rfl, State.commitment_ite _ rfl rfl⟩
  | start hosted restore =>
    refine ⟨_, rfl, s.commitment_takeCommand _ _ _ ?_⟩
    unfold startEffect
    split
    · rfl
    · exact (s.enterCensus_withinRoom _ _).commitment
  | abort tag =>
    exact ⟨_, rfl, s.commitment_takeCommand _ _ _ (abortEffect_withinRoom tag s).commitment⟩
  | take =>
    refine ⟨_, rfl, s.commitment_takeCommand _ _ _ ?_⟩
    unfold takeEffect
    split <;> rfl
  | note =>
    refine ⟨_, rfl, s.commitment_takeCommand _ _ _ ?_⟩
    unfold noteEffect
    split <;> rfl
  | watchSet f =>
    refine ⟨_, rfl, s.commitment_takeCommand _ _ _ ?_⟩
    unfold watchSetEffect
    split
    · rfl
    · split <;> rfl
  | watchClear n =>
    refine ⟨_, rfl, s.commitment_takeCommand _ _ _ ?_⟩
    unfold watchClearEffect
    dsimp only
    split <;> rfl
  | homeLoad index generation words =>
    refine ⟨_, rfl, s.commitment_takeCommand _ _ _ ?_⟩
    unfold homeLoadEffect
    dsimp only
    split <;> rfl
  | homeRead index =>
    refine ⟨_, rfl, s.commitment_takeCommand _ _ _ ?_⟩
    unfold homeReadEffect
    dsimp only
    split <;> rfl
  | status => exact ⟨_, rfl, s.commitment_takeCommand _ _ _ rfl⟩
  | roster => exact ⟨_, rfl, s.commitment_takeCommand _ _ _ rfl⟩
  | noteFinalByte =>
    refine ⟨_, rfl, State.commitment_ite _ ?_ rfl⟩
    split
    · simp [State.commitment]
    · rfl
  | statusFinalByte => exact ⟨_, rfl, State.commitment_ite _ rfl rfl⟩

/-- Settles O52: command by command, the operations within their room keep the commitment. -/
theorem completionsKeepTheCommitment : Obligations.CompletionsKeepTheCommitment := by
  intro i s t h hsubmit htake hreset hstation
  obtain ⟨u, hu, kept⟩ := exec_keeps_commitment i s hsubmit htake hreset hstation
  rw [hu] at h
  injection h with h
  exact h ▸ kept

/-! ### The table, the sweep and the seen table (O57) -/

/-- What no operation on a table entry changes: its tag and its request. -/
def Entry.key (e : Entry) : Byte × Request := (e.tag, e.request)

/-- `tb'` holds entries of `tb` alone, in their order and by their tags and requests, and they are
sound if those of `tb` are. -/
structure TableKept (tb tb' : List Entry) : Prop where
  keys : (tb'.map Entry.key).Sublist (tb.map Entry.key)
  sound : ∀ roster, (∀ e ∈ tb, e.sound roster) → ∀ e ∈ tb', e.sound roster

theorem TableKept.refl (tb : List Entry) : TableKept tb tb := ⟨.refl _, fun _ h => h⟩

theorem TableKept.trans {tb tb' tb'' : List Entry} (h : TableKept tb tb')
    (h' : TableKept tb' tb'') : TableKept tb tb'' :=
  ⟨h'.keys.trans h.keys, fun roster hs => h'.sound roster (h.sound roster hs)⟩

/-- Entries leave the table. -/
theorem TableKept.of_sublist {tb tb' : List Entry} (h : tb'.Sublist tb) : TableKept tb tb' :=
  ⟨h.map _, fun _ hs e he => hs e (h.subset he)⟩

/-- The entries are written, each with its tag and its request, and soundly. -/
theorem TableKept.of_map {α : Type} (l : List α) (f g : α → Entry)
    (hk : ∀ x, (g x).key = (f x).key)
    (hs : ∀ roster, ∀ x ∈ l, (f x).sound roster → (g x).sound roster) :
    TableKept (l.map f) (l.map g) where
  keys := by
    rw [List.map_map, List.map_map]
    exact (List.map_congr_left fun x _ => hk x) ▸ List.Sublist.refl _
  sound := by
    intro roster h e he
    obtain ⟨x, hx, rfl⟩ := List.mem_map.mp he
    exact hs roster x hx (h _ (List.mem_map_of_mem hx))

theorem TableKept.of_map_id {tb : List Entry} (g : Entry → Entry) (hk : ∀ e, (g e).key = e.key)
    (hs : ∀ roster, ∀ e ∈ tb, e.sound roster → (g e).sound roster) : TableKept tb (tb.map g) := by
  have := TableKept.of_map tb id g hk hs
  rwa [List.map_id] at this

/-- The first entry is written with its tag and its request, and soundly. -/
theorem TableKept.cons {tb tb' : List Entry} {e e' : Entry} (h : TableKept tb tb')
    (hk : e'.key = e.key) (hs : ∀ roster, e.sound roster → e'.sound roster) :
    TableKept (e :: tb) (e' :: tb') where
  keys := by
    rw [List.map_cons, List.map_cons, hk]
    exact h.keys.cons_cons _
  sound := by
    intro roster hr x hx
    obtain ⟨he, ht⟩ := List.forall_mem_cons.mp hr
    rcases List.mem_cons.mp hx with rfl | hx
    · exact hs roster he
    · exact h.sound roster ht x hx

theorem TableKept.nil {tb tb' : List Entry} (h : TableKept tb tb') (hn : tb = []) : tb' = [] := by
  simpa [hn] using h.keys

/-- The table part of `State.tableSound` for the tags and requests. -/
theorem State.tableSound_iff_keys (s : State) :
    s.tableSound ↔ (∀ e ∈ s.engine.table, e.sound s.loop.roster)
      ∧ (s.engine.table.map Entry.key).Pairwise (fun a b => a.1 ≠ b.1)
      ∧ (s.engine.table.map Entry.key).Pairwise (fun a b =>
        a.2.ownershipTarget = none ∨ a.2.ownershipTarget ≠ b.2.ownershipTarget) := by
  simp only [State.tableSound, List.pairwise_map, Entry.key]

theorem State.tableSound_of_kept {s t : State} (hr : t.loop.roster = s.loop.roster)
    (ht : TableKept s.engine.table t.engine.table) (h : s.tableSound) : t.tableSound := by
  rw [State.tableSound_iff_keys] at h ⊢
  obtain ⟨sound, tags, targets⟩ := h
  exact ⟨hr ▸ ht.sound _ sound, tags.sublist ht.keys, targets.sublist ht.keys⟩

theorem State.tableSound_of_nil {s : State} (h : s.engine.table = []) : s.tableSound := by
  simp [State.tableSound, h]

/-- From `s` to `t` the station stays quiet outside RUNNING, and a quiet station's table stays
sound. -/
structure EngineKept (s t : State) : Prop where
  quiet : s.quiet → t.quiet
  table : s.quiet → s.tableSound → t.tableSound

theorem EngineKept.trans {s t u : State} (h : EngineKept s t) (h' : EngineKept t u) :
    EngineKept s u :=
  ⟨fun hq => h'.quiet (h.quiet hq), fun hq ht => h'.table (h.quiet hq) (h.table hq ht)⟩

/-- An operation that writes none of the loop state, the roster, the engine and the seen table. -/
theorem EngineKept.same {s t : State} (hl : t.loop.state = s.loop.state)
    (hr : t.loop.roster = s.loop.roster) (he : t.engine = s.engine)
    (hw : t.watch.seen = s.watch.seen) : EngineKept s t := by
  constructor
  · simp only [State.quiet, hl, he, hw]
    exact id
  · simp only [State.tableSound, hr, he]
    exact fun _ => id

/-- An operation outside RUNNING, where a quiet station has nothing in the table, in the sweep or in
the seen table, whatever loop state it leads to. -/
theorem EngineKept.of_forming {s t : State} (hs : s.loop.state ≠ .running)
    (he : t.engine = s.engine) (hw : t.watch.seen = s.watch.seen ∨ t.watch.seen = []) :
    EngineKept s t := by
  have empty : s.quiet → t.engine.table = [] ∧ t.engine.sweep.active = false
      ∧ t.watch.seen = [] := by
    rintro ⟨forming, -, -⟩
    obtain ⟨table, sweep, seen⟩ := forming hs
    exact ⟨he ▸ table, he ▸ sweep, hw.elim (fun h => h.trans seen) id⟩
  refine ⟨fun hq => ⟨fun _ => empty hq, fun ha => ?_, he ▸ hq.2.2⟩,
    fun hq _ => State.tableSound_of_nil (empty hq).1⟩
  rw [(empty hq).2.1] at ha
  cases ha

/-- An operation in RUNNING on the table and the sweep: a sweep that is active was so before, and
has not seen its second MARK passage. -/
theorem EngineKept.of_running {s t : State} (hs : s.loop.state = .running) (hl : t.loop = s.loop)
    (ht : TableKept s.engine.table t.engine.table)
    (hw : (s.engine.sweep.active = true → s.engine.sweep.marks ≤ 1) → s.engine.sweep.marks ≤ 2 →
      (t.engine.sweep.active = true → s.engine.sweep.active = true ∧ t.engine.sweep.marks ≤ 1)
        ∧ t.engine.sweep.marks ≤ 2) : EngineKept s t := by
  refine ⟨fun hq => ?_, fun _ h => State.tableSound_of_kept (by rw [hl]) ht h⟩
  obtain ⟨-, sweeping, marks⟩ := hq
  obtain ⟨active, marks'⟩ := hw (fun ha => (sweeping ha).2) marks
  refine ⟨fun h => absurd (hl ▸ hs) h, fun ha => ?_, marks'⟩
  obtain ⟨was, few⟩ := active ha
  exact ⟨ht.nil (sweeping was).1, few⟩

theorem EngineKept.loop (s : State) (l : Loop) (hs : l.state = s.loop.state)
    (hr : l.roster = s.loop.roster) : EngineKept s { s with loop := l } := .same hs hr rfl rfl

theorem State.enterCell_engineKept (s : State) (c : Cell) : EngineKept s (s.enterCell c) :=
  .same rfl rfl rfl rfl

theorem State.enterBroken_engineKept (s : State) (reason : Reason) :
    EngineKept s (s.enterBroken reason) := by
  rw [State.enterBroken_eq]
  exact ⟨fun hq => ⟨fun _ => ⟨rfl, rfl, rfl⟩, nofun, hq.2.2⟩,
    fun _ _ => State.tableSound_of_nil rfl⟩

theorem State.enterBuild_engineKept (s : State) (roster : List RosterEntry) (formation : Byte)
    (role : Role) (h : s.loop.state ≠ .running) :
    EngineKept s (s.enterBuild roster formation role) := by
  rw [State.enterBuild_eq]
  exact .of_forming h rfl (Or.inr rfl)

theorem State.enterRunning_engineKept (s : State) (h : s.loop.state ≠ .running) :
    EngineKept s s.enterRunning := by
  rw [State.enterRunning_eq]
  exact .of_forming h rfl (Or.inl rfl)

/-! #### The table at a MARK passage -/

/-- An entry that a MARK passage leaves in the table stays sound: one that is not WITHDRAWING counts
the MARK, and at its limit a RESERVED one becomes WITHDRAWING (R73 to R75). -/
theorem Entry.sound_limitReached_markSeen (e : Entry) (roster : List RosterEntry)
    (h : e.sound roster) (hn : ¬(e.state = .pending ∧ e.marks = e.passLimit)) :
    e.markSeen.limitReached.sound roster := by
  obtain ⟨pending, atLimit, below, withdrawing⟩ := e.limitReached_markSeen
  obtain ⟨position, low, high, marks, counting, claim⟩ := h
  cases he : e.state with
  | pending =>
    have := counting (Or.inl he)
    have : e.marks ≠ e.passLimit := fun hm => hn ⟨he, hm⟩
    rw [pending he]
    refine ⟨position, low, high, ?_, fun _ => ?_, claim⟩
    · dsimp only
      omega
    · dsimp only
      omega
  | reserved =>
    have := counting (Or.inr he)
    by_cases hm : e.marks = e.passLimit
    · rw [atLimit he hm]
      refine ⟨position, low, high, ?_, ?_, fun _ => claim (by simp [he])⟩
      · dsimp only
        omega
      · rintro (h0 | h0) <;> cases h0
    · rw [below he hm]
      refine ⟨position, low, high, ?_, fun _ => ?_, claim⟩
      · dsimp only
        omega
      · dsimp only
        omega
  | withdrawing ending =>
    rw [withdrawing ending he]
    exact ⟨position, low, high, marks, counting, claim⟩

theorem Entry.key_limitReached_markSeen (e : Entry) : e.markSeen.limitReached.key = e.key := by
  have seen : e.markSeen.key = e.key := by
    unfold Entry.markSeen
    split <;> rfl
  have reached : ∀ x : Entry, x.limitReached.key = x.key := by
    intro x
    unfold Entry.limitReached
    split <;> rfl
  exact (reached _).trans seen

theorem markedTable_kept (table : List Entry) : TableKept table (markedTable table) := by
  rw [markedTable_eq]
  refine (TableKept.of_sublist List.filter_sublist).trans
    (.of_map_id _ Entry.key_limitReached_markSeen fun roster e he hs => ?_)
  refine e.sound_limitReached_markSeen roster hs fun hn => ?_
  simp [List.mem_filter, hn.1, hn.2] at he

theorem State.markPassage_engineKept (s : State) (mark : Cell) (rewritten : Option Bool)
    (h : s.loop.state = .running) : EngineKept s (s.markPassage mark rewritten) := by
  obtain ⟨q, damage, sweep, e, -, -, -, inactive, active⟩ := s.markPassage_eq mark rewritten
  rw [e]
  refine .of_running h rfl (markedTable_kept _) fun few marks => ?_
  dsimp only
  cases ha : s.engine.sweep.active with
  | false =>
    rw [inactive ha]
    exact ⟨fun h => absurd (ha.symm.trans h) (by decide), marks⟩
  | true =>
    obtain ⟨counted, ends⟩ := active ha
    have := few ha
    rw [ends]
    exact ⟨fun _ => ⟨rfl, by omega⟩, by omega⟩

/-! #### The table at a passage -/

/-- A turn that leaves its entry in the table is that of a CLAIM that was PENDING or RESERVED and
is so afterwards, whatever the station number. -/
theorem serveEntry_stays_claim (me : Code5) (a : Arrival) (e : Entry) (h : Hand) (st : EntryState)
    (hs : (serveEntry me a e h).2 = .stays st) :
    e.request.kind = .claim ∧ (e.state = .pending ∨ e.state = .reserved)
      ∧ (st = .pending ∨ st = .reserved) := by
  have claimed : (serveClaim me h).2 = .stays st → st = .pending ∨ st = .reserved := by
    unfold serveClaim
    split_ifs <;> simp +contextual [eq_comm]
  unfold serveEntry at hs
  split at hs
  · cases hs
  · cases hs
  · cases hs
  · unfold serveWrite at hs
    split_ifs at hs
  · unfold serveVerify at hs
    split at hs
    · cases hs
    · split at hs <;> cases hs
  · rename_i hq
    rw [hq]
    split at hs
    · rename_i he
      exact ⟨rfl, Or.inl he, claimed hs⟩
    · rename_i he
      exact ⟨rfl, Or.inr he, claimed hs⟩
    · cases hs
  · unfold serveRelease at hs
    split at hs <;> cases hs

/-- An entry whose turn leaves it in the table stays sound. -/
theorem Entry.sound_stays (me : Code5) (a : Arrival) (e : Entry) (h : Hand) (st : EntryState)
    (hs : (serveEntry me a e h).2 = .stays st) (roster : List RosterEntry)
    (hr : e.sound roster) : Entry.sound roster { e with state := st } := by
  obtain ⟨claim, was, -⟩ := serveEntry_stays_claim me a e h st hs
  obtain ⟨position, low, high, marks, counting, -⟩ := hr
  exact ⟨position, low, high, marks, fun _ => counting was, fun _ => claim⟩

/-- The serve window keeps entries of its list in their order, and soundly. -/
theorem serveEntries_tableKept (me : Code5) (a : Arrival) (rev : Word) (es : List Entry) :
    ∀ (n : Nat) (h : Hand), TableKept es ((serveEntries me a rev n es h).kept.map Prod.fst) := by
  induction es with
  | nil => exact fun _ _ => .refl []
  | cons e es ih =>
    intro n h
    simp only [serveEntries]
    split
    · cases n with
      | zero => exact (ih 0 h).cons rfl fun _ => id
      | succ n =>
        dsimp only
        split
        · rename_i st hs
          exact (ih n _).cons rfl (e.sound_stays me a h st hs)
        · exact (TableKept.of_sublist (List.sublist_cons_self e es)).trans (ih n _)
    · exact (ih n h).cons rfl fun _ => id

/-- A deferred entry that is settled stays sound. -/
theorem settleDeferred_sound (me : Code5) (h : Hand) (x : Entry × Bool) (roster : List RosterEntry)
    (hx : x.1.sound roster) : (settleDeferred me h x).sound roster := by
  unfold settleDeferred
  split
  · rename_i hc
    obtain ⟨position, low, high, marks, counting, -⟩ := hx
    exact ⟨position, low, high, marks, fun _ => counting (Or.inr hc.2.1), fun h0 => absurd rfl h0⟩
  · exact hx

theorem State.serviceStage_tableKept (s : State) (a : Arrival) (n : Nat) (h : Hand) :
    TableKept s.engine.table (s.serviceStage a n h).1.engine.table := by
  refine (serveEntries_tableKept s.port.station a s.tracker.revolution s.engine.table n h).trans
    (.of_map _ _ _ (fun x => ?_) fun roster x _ => settleDeferred_sound _ _ x roster)
  unfold settleDeferred
  split <;> rfl

theorem State.handoffStep_tableKept (s : State) (a : Arrival) (h : Hand) :
    TableKept s.engine.table (s.handoffStep a h).1.engine.table := by
  unfold State.handoffStep
  split
  · dsimp only
    split
    · exact .refl _
    · split <;> exact .of_sublist List.eraseP_sublist
  · exact .refl _

/-- The table and the completion queue are those that the service stage leaves, after the watch
comparison and the handoff step (R84). -/
theorem State.stages_served (s : State) (a : Arrival) :
    let w := (s.watchCompare a.position a.cell).handoffStep a ⟨a.cell, false⟩
    let served := (w.1.serviceStage a w.2.2 w.2.1).1
    (s.stages a).1.engine.table = served.engine.table
      ∧ (s.stages a).1.queues.completions = served.queues.completions := by
  intro w served
  obtain ⟨k, swept⟩ := served.sweepStage_eq (w.1.serviceStage a w.2.2 w.2.1).2
  obtain ⟨q, cleared, completions⟩ :=
    (served.sweepStage (w.1.serviceStage a w.2.2 w.2.1).2).1.staleStage_eq a
      (served.sweepStage (w.1.serviceStage a w.2.2 w.2.1).2).2
  have last : (s.stages a).1
      = ((served.sweepStage (w.1.serviceStage a w.2.2 w.2.1).2).1.staleStage a
        (served.sweepStage (w.1.serviceStage a w.2.2 w.2.1).2).2).1 := rfl
  rw [last, cleared, completions, swept]
  exact ⟨rfl, rfl⟩

theorem State.passage_tableKept (s : State) (a : Arrival) :
    TableKept s.engine.table (s.passage a).engine.table := by
  obtain ⟨served, -⟩ := s.stages_served a
  obtain ⟨q, compared, -⟩ := s.watchCompare_eq a.position a.cell
  rw [(s.passage_engine_queues a).1, served]
  refine TableKept.trans ?_ (State.serviceStage_tableKept _ _ _ _)
  rw [compared]
  exact State.handoffStep_tableKept { s with queues := q } a _

theorem State.passage_engineKept (s : State) (a : Arrival) (h : s.loop.state = .running) :
    EngineKept s (s.passage a) := by
  have kept := s.passage_tableKept a
  obtain ⟨tb, k, q, hm, e⟩ := s.passage_eq a
  rw [e] at kept ⊢
  exact .of_running h rfl kept fun few marks => ⟨fun ha => ⟨ha, few ha⟩, marks⟩

/-! #### The commands of the line -/

theorem State.trackArrival_engineKept (s : State) (r : Reception) (h : s.loop.state = .running) :
    EngineKept s (s.trackArrival r) := by
  have advanced : EngineKept s s.advanced := .same rfl rfl rfl rfl
  have found : ∀ f p b, EngineKept s.advanced (s.advanced.found f p b) :=
    fun f p b => .same rfl rfl rfl rfl
  apply s.trackArrival_cases r
  case fault =>
    intro cause p
    have recorded : EngineKept s { s with tracker := { s.tracker with
        lastFault := some ⟨cause, p, s.tracker.revolution⟩ } } := .same rfl rfl rfl rfl
    exact recorded.trans (State.enterBroken_engineKept _ _)
  case mark => exact fun c rewritten _ _ => s.markPassage_engineKept c rewritten h
  case pass => exact fun a _ _ _ _ => advanced.trans (State.passage_engineKept _ a h)
  case found =>
    exact fun a f b _ _ _ _ _ =>
      advanced.trans ((found f _ b).trans (State.passage_engineKept _ a h))
  case burst =>
    exact fun f b => advanced.trans ((found f _ b).trans (State.enterBroken_engineKept _ _))

theorem State.countMark_engineKept (s : State) (c : Cell) (h : s.loop.state = .build) :
    EngineKept s (s.countMark c) := by
  have counted : EngineKept s
      { s with loop := { s.loop with buildMarks := s.loop.buildMarks + 1 } } := .loop s _ rfl rfl
  unfold State.countMark
  dsimp only
  split
  · refine counted.trans ((State.enterRunning_engineKept _ (by simp [h])).trans
      (State.markPassage_engineKept _ c none ?_))
    rw [State.enterRunning_eq]
  · exact counted.trans (State.enterCell_engineKept _ c)

theorem State.insertAhead_engineKept (s : State) (tail : Cell) :
    EngineKept s (s.insertAhead tail) := by
  unfold State.insertAhead
  split
  · exact .same rfl rfl rfl rfl
  · rw [State.enterCells_eq]
    exact .same rfl rfl rfl rfl

theorem State.arrive_engineKept (s : State) (r : Reception) : EngineKept s (s.arrive r) := by
  have forming : s.loop.state = .census → s.loop.state ≠ .running := fun hs => by simp [hs]
  have building : s.loop.state = .build → s.loop.state ≠ .running := fun hs => by simp [hs]
  have heard : ∀ n, EngineKept s { s with loop := s.loop.hear n } :=
    fun n => .loop s _ rfl rfl
  apply s.arrive_cases r
  case keep => exact .same rfl rfl rfl rfl
  case enter => exact fun c _ => .same rfl rfl rfl rfl
  case hear => exact fun n => .same rfl rfl rfl rfl
  case hearEnter => exact fun n c _ => .same rfl rfl rfl rfl
  case duplicate => exact fun _ => s.enterBroken_engineKept _
  case answer => exact fun c _ _ => .same rfl rfl rfl rfl
  case complete =>
    intro c hs _ _
    have numbered : EngineKept s { s with loop := { s.loop with
        latestFormation := s.loop.latestFormation + 1#8 } } := .loop s _ rfl rfl
    refine numbered.trans ?_
    unfold State.completeCensus
    refine State.enterBuild_engineKept _ _ _ _ ?_
    exact forming hs
  case join =>
    exact fun n c hs _ _ _ => (heard n).trans ((State.enterCell_engineKept _ c).trans
      (State.enterBuild_engineKept _ _ _ _ (forming hs)))
  case exclude =>
    intro n c hs _ _
    rw [State.enterExcluded_eq]
    exact .of_forming (forming hs) rfl (Or.inl rfl)
  case insert => exact fun tail _ _ => s.insertAhead_engineKept tail
  case count =>
    rintro l c hs _ (rfl | ⟨n, rfl⟩)
    · exact s.countMark_engineKept c hs
    · exact (heard n).trans (State.countMark_engineKept _ c hs)
  case run => exact fun hs => s.enterRunning_engineKept (building hs)
  case track => exact fun hs => s.trackArrival_engineKept r hs

/-! #### The commands of the host -/

/-- The entry of an admitted SUBMIT is sound, and no entry of the table has its tag or, for an
ownership request, its target (R59, R63, R70). -/
theorem State.addEntry_engineKept (s : State) (f : SubmitFrame) (q : Request) (p : Nat)
    (h : s.judgeSubmit f = .admitted q p) :
    EngineKept s (s.addEntry (s.newEntry f q p)) := by
  obtain ⟨running, sweep, -, limit, -, tag, position, busy, -⟩ := s.judgeSubmit_admitted f q p h
  refine ⟨fun hq => ⟨fun hn => absurd running hn, fun ha => ?_, hq.2.2⟩, fun _ ht => ?_⟩
  · exact absurd (sweep.symm.trans ha) (by decide)
  obtain ⟨sound, tags, targets⟩ := ht
  have newSound : (s.newEntry f q p).sound s.loop.roster := by
    have high : f.limit ≤ 15 := Nat.le_of_lt_succ (Nat.mod_lt _ (by decide))
    exact ⟨position, Nat.one_le_iff_ne_zero.mpr limit, high, Nat.zero_le _,
      fun _ => Nat.zero_le _, fun hn => absurd rfl hn⟩
  refine ⟨?_, ?_, ?_⟩
  · intro e he
    rcases List.mem_append.mp he with he | he
    · exact sound e he
    · exact List.mem_singleton.mp he ▸ newSound
  · refine List.pairwise_append.mpr ⟨tags, List.pairwise_singleton _ _, fun e he x hx => ?_⟩
    obtain rfl := List.mem_singleton.mp hx
    exact fun same => List.any_eq_false.mp tag e he (beq_iff_eq.mpr same)
  · refine List.pairwise_append.mpr ⟨targets, List.pairwise_singleton _ _, fun e he x hx => ?_⟩
    obtain rfl := List.mem_singleton.mp hx
    show e.request.ownershipTarget = none ∨ e.request.ownershipTarget ≠ q.ownershipTarget
    unfold ownershipBusy at busy
    split at busy
    · rename_i free
      rw [free]
      exact em _
    · rename_i target taken
      rw [taken]
      exact Or.inr fun same => List.any_eq_false.mp busy e he (beq_iff_eq.mpr same)

/-- Entries with unique tags are told apart by them. -/
theorem eq_of_tag_eq {tb : List Entry} (h : tb.Pairwise fun a b => a.tag ≠ b.tag) {x y : Entry}
    (hx : x ∈ tb) (hy : y ∈ tb) (ht : x.tag = y.tag) : x = y :=
  List.inj_on_of_nodup_map (f := Entry.tag) (List.pairwise_map.mpr h) hx hy ht

/-- An ABORT takes its entry from the table or makes a RESERVED one WITHDRAWING: where tags are
unique, no other entry is written (R76). -/
theorem abortEffect_engineKept (tag : Byte) (s : State) : EngineKept s (abortEffect tag s).1 := by
  constructor
  · rintro ⟨forming, sweeping, marks⟩
    have shorter := (abortEffect_withinRoom tag s).table
    obtain ⟨table, completions, e⟩ := abortEffect_eq tag s
    rw [e] at shorter ⊢
    have empty : s.engine.table = [] → table = [] := by
      intro hn
      rw [hn] at shorter
      exact List.length_eq_zero_iff.mp (Nat.le_zero.mp shorter)
    exact ⟨fun hs => ⟨empty (forming hs).1, (forming hs).2⟩,
      fun ha => ⟨empty (sweeping ha).1, (sweeping ha).2⟩, marks⟩
  · intro _ ht
    unfold abortEffect
    split
    · exact ht
    · rename_i e he
      split
      · exact State.tableSound_of_kept (s := s) rfl (.of_sublist List.eraseP_sublist) ht
      · rename_i hr
        refine State.tableSound_of_kept (s := s) rfl
          (.of_map_id _ (fun x => ?_) fun roster x hx hs => ?_) ht
        · split <;> rfl
        · split
          · rename_i hxt
            have het : e.tag = tag := by simpa using List.find?_some he
            obtain rfl : x = e :=
              eq_of_tag_eq ht.2.1 hx (List.mem_of_find?_eq_some he) (hxt.trans het.symm)
            obtain ⟨position, low, high, marks, -, claim⟩ := hs
            refine ⟨position, low, high, marks, ?_, fun _ => claim (by simp [hr])⟩
            rintro (h0 | h0) <;> cases h0
          · exact hs
      · exact ht

/-- A host RESET leaves an empty table, and a sweep that it has started in RUNNING or none
(R80). -/
theorem resetEffect_engineKept (b : Byte) (s : State) : EngineKept s (resetEffect b s).1 := by
  refine ⟨fun ⟨forming, sweeping, marks⟩ => ?_, fun _ _ => State.tableSound_of_nil rfl⟩
  have swept : ∀ option,
      ((sweepAfterReset s option).active = true → s.loop.state = .running
        ∧ (sweepAfterReset s option).marks = 0) ∧ (sweepAfterReset s option).marks ≤ 2 := by
    intro option
    unfold sweepAfterReset
    split
    · split
      · rename_i running
        exact ⟨fun _ => ⟨running, rfl⟩, Nat.zero_le _⟩
      · exact ⟨nofun, marks⟩
    · exact ⟨nofun, marks⟩
  obtain ⟨active, few⟩ := swept (b != 0#8)
  refine ⟨fun hs => ⟨rfl, ?_, (forming hs).2.2⟩, fun ha => ⟨rfl, ?_⟩, few⟩
  · exact Bool.eq_false_iff.mpr fun ha => hs (active ha).1
  · exact (active ha).2.trans_le (Nat.zero_le 1)

/-- Every command keeps a quiet station quiet and its table sound. -/
theorem exec_engineKept (i : Instr) (s t : State) (e : exec i s = .next t) : EngineKept s t := by
  have same : ∀ {u v : State}, EngineKept s u → v.loop.state = u.loop.state →
      v.loop.roster = u.loop.roster → v.engine = u.engine → v.watch.seen = u.watch.seen →
      EngineKept s v := fun h h1 h2 h3 h4 => h.trans (.same h1 h2 h3 h4)
  refine exec_keeps (P := EngineKept s) (fun u l _ _ _ _ h => same h rfl rfl rfl rfl)
    (fun u p _ h => same h rfl rfl rfl rfl) ?reset ?release ?arrive ?broken ?transmitted ?listened
    ?originates ?again ?held ?start ?submit ?abort ?watch ?load ?hostReset ?taken ?noted i s
    (.same rfl rfl rfl rfl) t e
  case reset =>
    exact fun u b h => ⟨fun _ => ⟨fun _ => ⟨rfl, rfl, rfl⟩, nofun, Nat.zero_le 2⟩,
      fun _ _ => State.tableSound_of_nil rfl⟩
  case release => exact fun u x h _ => same h rfl rfl rfl rfl
  case arrive => exact fun u r h _ => h.trans (u.arrive_engineKept r)
  case broken => exact fun u reason h _ => h.trans (u.enterBroken_engineKept reason)
  case transmitted => exact fun u h => same h rfl rfl rfl rfl
  case listened => exact fun u h _ _ _ => same h rfl rfl rfl rfl
  case originates => exact fun u h _ _ _ => same h rfl rfl rfl rfl
  case again => exact fun u h _ _ _ _ => same h rfl rfl rfl rfl
  case held => exact fun u h _ => same h rfl rfl rfl rfl
  case start =>
    intro u hosted restore h _ _ ho
    refine h.trans ?_
    rw [State.enterCensus_eq]
    exact .of_forming (by rcases ho with ho | ho <;> simp [ho]) rfl (Or.inl rfl)
  case submit => exact fun u f q p h hj => h.trans (u.addEntry_engineKept f q p hj)
  case abort => exact fun u tag h => h.trans (abortEffect_engineKept tag u)
  case watch => exact fun u n w h => same h rfl rfl rfl rfl
  case load => exact fun u n x h => same h rfl rfl rfl rfl
  case hostReset => exact fun u b h => h.trans (resetEffect_engineKept b u)
  case taken => exact fun u h => same h rfl rfl rfl rfl
  case noted => exact fun u h => same h rfl rfl rfl rfl

/-- Every step keeps a quiet station quiet and its table sound. -/
theorem step_engineKept (s t : State) (e : step s = .next t) : EngineKept s t := by
  cases hp : s.pending with
  | nil =>
    rw [step_nil s hp] at e
    injection e with e
    obtain ⟨⟨gap, phase, command, response, incoming, -, ticked⟩, -⟩ := s.tick_eq
    rw [← e, ticked]
    exact .same rfl rfl rfl rfl
  | cons c rest =>
    rw [step_cons c rest s hp] at e
    have taken : EngineKept s { s with pending := rest } := .same rfl rfl rfl rfl
    exact taken.trans (exec_engineKept c _ t e)

/-- Settles O57: every operation keeps a quiet station quiet and its table sound. -/
theorem stepKeepsTheEngineSound : Obligations.StepKeepsTheEngineSound :=
  ⟨fun s t hq e => (step_engineKept s t e).quiet hq,
    fun s t hq ht e => (step_engineKept s t e).table hq ht⟩

/-! ### SUBMIT (O22, O23) -/

/-- A whole SUBMIT frame in RECEIVING has its effect and is answered. -/
theorem exec_submit (f : SubmitFrame) (s : State) (hr : s.receiving = true)
    (hf : f.framed = true) :
    exec (.submit f) s = .next
      ((submitEffect f s).1.answered .submit f.fields (submitEffect f s).2) := by
  simp only [exec, execSubmit, hf, if_true, s.takeCommand_of_receiving _ _ _ hr]

/-- A SUBMIT that a check refuses changes the port's transaction alone, and its response carries
the table entries and the commitment (R69, R172). -/
theorem exec_submit_refused (f : SubmitFrame) (s : State) (hr : s.receiving = true)
    (hf : f.framed = true) (status : Status) (h : s.judgeSubmit f = .refused status) :
    exec (.submit f) s = .next (s.answered .submit f.fields
      [status.code, natByte s.engine.table.length,
        natByte (s.engine.table.length + s.queues.completions.length), 0#8, 0#8, 0#8, 0#8]) := by
  rw [exec_submit f s hr hf, submitEffect, h]
  rfl

/-- A SUBMIT that passes the checks adds its entry and is answered ACCEPTED (R70, R172). -/
theorem exec_submit_admitted (f : SubmitFrame) (s : State) (hr : s.receiving = true)
    (hf : f.framed = true) (q : Request) (p : Nat) (h : s.judgeSubmit f = .admitted q p) :
    exec (.submit f) s = .next ((s.addEntry (s.newEntry f q p)).answered .submit f.fields
      ([0x00#8, natByte (s.engine.table.length + 1),
        natByte (s.engine.table.length + 1 + s.queues.completions.length)]
        ++ wordBytes s.engine.acceptance ++ natBytes p)) := by
  rw [exec_submit f s hr hf, submitEffect, h]
  simp [State.submitCounts, State.commitment, Status.code]

/-- An ownership request is refused for an ownership request of the table with its target (R63). -/
theorem ownershipBusy_iff (table : List Entry) (q : Request) :
    ownershipBusy table q = true ↔
      ∃ e ∈ table, ∃ a, q.ownershipTarget = some a ∧ e.request.ownershipTarget = some a := by
  unfold ownershipBusy
  split
  · rename_i hq
    simp [hq]
  · rename_i a hq
    simp [hq]

theorem State.judgeSubmit_notRunning (s : State) (f : SubmitFrame) (h : s.loop.state ≠ .running) :
    s.judgeSubmit f = .refused .notRunning := by
  rw [State.judgeSubmit, if_pos h]

theorem State.judgeSubmit_sweeping (s : State) (f : SubmitFrame) (h : s.loop.state = .running)
    (hw : s.engine.sweep.active = true) : s.judgeSubmit f = .refused .sweeping := by
  rw [State.judgeSubmit, if_neg (not_not.mpr h), if_pos hw]

/-- In RUNNING without a sweep the frame's own fields decide first (R67). -/
theorem State.judgeSubmit_malformed (s : State) (f : SubmitFrame) (h : s.loop.state = .running)
    (hw : s.engine.sweep.active = false) :
    (submitRequest f = none → s.judgeSubmit f = .refused .malformed)
      ∧ ∀ q, submitRequest f = some q → f.limit = 0 ∨ submitBadFields f q = true →
        s.judgeSubmit f = .refused .malformed := by
  refine ⟨fun hq => ?_, fun q hq hf => ?_⟩
  · simp [State.judgeSubmit, h, hw, hq]
  · simp [State.judgeSubmit, h, hw, hq, hf]

/-- The checks that follow for a request whose fields lie in their ranges: its tag, its target, the
ownership requests for the target and the room, in this order (R66). -/
theorem State.judgeSubmit_wellFormed (s : State) (f : SubmitFrame) (q : Request)
    (h : s.loop.state = .running) (hw : s.engine.sweep.active = false)
    (hq : submitRequest f = some q) (hl : f.limit ≠ 0) (hb : submitBadFields f q = false) :
    ((∃ e ∈ s.engine.table, e.tag = f.tag) → s.judgeSubmit f = .refused .tagInUse)
    ∧ ((∀ e ∈ s.engine.table, e.tag ≠ f.tag) →
      (q.targetPosition s.loop.roster = none → s.judgeSubmit f = .refused .noCell)
      ∧ ∀ p, q.targetPosition s.loop.roster = some p →
        (ownershipBusy s.engine.table q = true → s.judgeSubmit f = .refused .ownershipBusy)
        ∧ (ownershipBusy s.engine.table q = false →
          (16 ≤ s.engine.table.length ∨ 24 ≤ s.commitment → s.judgeSubmit f = .refused .full)
          ∧ (s.engine.table.length < 16 → s.commitment < 24 →
            s.judgeSubmit f = .admitted q p))) := by
  have fields : ¬(f.limit = 0 ∨ submitBadFields f q = true) := by simp [hl, hb]
  have judged : s.judgeSubmit f =
      if s.engine.table.any (fun e => e.tag == f.tag) = true then .refused .tagInUse
      else (q.targetPosition s.loop.roster).elim (.refused .noCell) fun p =>
        if ownershipBusy s.engine.table q = true then .refused .ownershipBusy
        else if 16 ≤ s.engine.table.length ∨ 24 ≤ s.commitment then .refused .full
        else .admitted q p := by
    simp only [State.judgeSubmit, h, hw, hq, fields]
    cases q.targetPosition s.loop.roster <;> rfl
  rw [judged]
  refine ⟨fun ht => if_pos ?_, fun ht => ?_⟩
  · simpa using ht
  rw [if_neg (by simpa using ht)]
  refine ⟨fun hp => by rw [hp]; rfl, fun p hp => ?_⟩
  rw [hp]
  refine ⟨fun ho => if_pos ho, fun ho => ?_⟩
  have free : ¬ownershipBusy s.engine.table q = true := by simp [ho]
  exact ⟨fun hr => (if_neg free).trans (if_pos hr),
    fun ht hc => (if_neg free).trans (if_neg (by omega))⟩

/-- Settles O22: the checks are those of `State.judgeSubmit`, passed one by one. -/
theorem submitAcceptedAddsItsEntry : Obligations.SubmitAcceptedAddsItsEntry := by
  intro f q p s hr hf running sweep hq limit fields tag position ownership table commitment
  obtain ⟨-, tagged⟩ := s.judgeSubmit_wellFormed f q running sweep hq limit fields
  obtain ⟨-, placed⟩ := tagged tag
  obtain ⟨-, unclaimed⟩ := placed p position
  have free : ownershipBusy s.engine.table q = false := by
    rw [Bool.eq_false_iff, ne_eq, ownershipBusy_iff]
    rintro ⟨e, he, a, hqa, hea⟩
    exact ownership e he (by simp [hqa]) (hea.trans hqa.symm)
  obtain ⟨-, admitted⟩ := unclaimed free
  exact exec_submit_admitted f s hr hf q p (admitted table commitment)

/-- Settles O23: the checks in their order, each with the status of its refusal, and the target
position kind by kind. -/
theorem submitRefusedByTheFirstFailingCheck : Obligations.SubmitRefusedByTheFirstFailingCheck := by
  constructor
  · intro f s hr hf
    have refused := exec_submit_refused f s hr hf
    refine ⟨fun hs => refused .notRunning (s.judgeSubmit_notRunning f hs), fun hs =>
      ⟨fun hw => refused .sweeping (s.judgeSubmit_sweeping f hs hw), fun hw => ?_⟩⟩
    obtain ⟨unknown, malformed⟩ := s.judgeSubmit_malformed f hs hw
    refine ⟨fun hq => refused .malformed (unknown hq), fun q hq =>
      ⟨fun hm => refused .malformed (malformed q hq hm), fun limit fields => ?_⟩⟩
    obtain ⟨inUse, tagged⟩ := s.judgeSubmit_wellFormed f q hs hw hq limit fields
    refine ⟨fun ht => refused .tagInUse (inUse ht), fun ht => ?_⟩
    obtain ⟨noCell, placed⟩ := tagged ht
    refine ⟨fun hp => refused .noCell (noCell hp), fun p hp => ?_⟩
    obtain ⟨busy, unclaimed⟩ := placed p hp
    refine ⟨fun ho => refused .ownershipBusy (busy ((ownershipBusy_iff _ q).mpr ho)),
      fun ho room => ?_⟩
    have free : ownershipBusy s.engine.table q = false := by
      rw [Bool.eq_false_iff, ne_eq, ownershipBusy_iff]
      rintro ⟨e, he, a, hqa, hea⟩
      exact ho e he a hqa hea
    obtain ⟨full, -⟩ := unclaimed free
    exact refused .full (full room)
  · intro roster
    refine ⟨?_, fun p => ⟨fun low high => if_pos ⟨low, high⟩, fun out => if_neg ?_⟩⟩
    · rintro a q (rfl | rfl | rfl | rfl | ⟨first, words, expected, rfl⟩ | ⟨first, words, rfl⟩) <;>
        rfl
    · omega

/-! ### The frame of a SUBMIT (O24) -/

/-- A kind code that is none of 1 to 7 names no kind. -/
theorem submitRequest_none (f : SubmitFrame) (h : f.kind = 0#8 ∨ 8 ≤ f.kind.toNat) :
    submitRequest f = none := by
  have other : ∀ n : Nat, 1 ≤ n → n ≤ 7 → f.kind ≠ BitVec.ofNat 8 n := by
    rintro n low high he
    have hn : f.kind.toNat = n := by
      rw [he, BitVec.toNat_ofNat]
      omega
    rcases h with h | h
    · rw [h] at hn
      exact absurd hn.symm (Nat.one_le_iff_ne_zero.mp low)
    · omega
  simp [submitRequest, other 1, other 2, other 3, other 4, other 5, other 6, other 7]

/-- Settles O24: kind by kind, the request and its ranges. -/
theorem submitFrameFieldsAndRanges : Obligations.SubmitFrameFieldsAndRanges := by
  intro f a first count badAddress badRange
  have address : a.outOfRange = true ↔ badAddress := a.outOfRange_iff
  have both : (a.outOfRange || f.badRange) = true ↔ badAddress ∨ badRange := by
    rw [Bool.or_eq_true, address, f.badRange_iff]
    exact Iff.rfl
  refine ⟨fun hk => ⟨by rw [submitRequest, hk]; rfl, address⟩,
    fun hk => ⟨by rw [submitRequest, hk]; rfl, address⟩,
    fun hk => ⟨by rw [submitRequest, hk]; rfl, rfl⟩,
    fun hk => ⟨fun he => ?_, fun he => ?_, fun g => both⟩,
    fun hk => ⟨by rw [submitRequest, hk]; rfl, both⟩,
    fun hk => ⟨by rw [submitRequest, hk]; rfl, address⟩,
    fun hk => ⟨by rw [submitRequest, hk]; rfl, address⟩, submitRequest_none f, beq_iff_eq⟩
  · rw [submitRequest, hk, if_pos he]
    rfl
  · rw [submitRequest, hk, if_neg he]
    rfl

/-! ### ABORT (O25) -/

/-- An ABORT in RECEIVING has its effect and is answered. -/
theorem exec_abort (tag : Byte) (s : State) (hr : s.receiving = true) :
    exec (.abort tag) s = .next
      ((abortEffect tag s).1.answered .abort [tag] (abortEffect tag s).2) := by
  simp only [exec, execAbort, s.takeCommand_of_receiving _ _ _ hr]

theorem abortEffect_notFound (tag : Byte) (s : State) (h : ∀ e ∈ s.engine.table, e.tag ≠ tag) :
    abortEffect tag s = (s, [0x33#8, 0#8, 0#8, 0#8]) := by
  have missing : (s.engine.table.find? fun e => e.tag == tag) = none := by simpa using h
  simp only [abortEffect, missing]
  rfl

/-- The entry that an ABORT finds is the one with its tag. -/
theorem find?_tag (before after : List Entry) (e : Entry) (tag : Byte) (he : e.tag = tag)
    (hb : ∀ x ∈ before, x.tag ≠ tag) :
    ((before ++ e :: after).find? fun e => e.tag == tag) = some e := by
  have missing : (before.find? fun e => e.tag == tag) = none := by simpa using hb
  simp [missing, he]

/-- Settles O25: the entry that the tag finds, and what each of its states makes of the ABORT. -/
theorem abortActsByTheEntryState : Obligations.AbortActsByTheEntryState := by
  intro tag s hr
  have notFound : (∀ e ∈ s.engine.table, e.tag ≠ tag) →
      exec (.abort tag) s = .next (s.answered .abort [tag] [0x33#8, 0#8, 0#8, 0#8]) := by
    intro h
    rw [exec_abort tag s hr, abortEffect_notFound tag s h]
  refine ⟨notFound, fun hq hs => notFound ?_, fun before after e ht he ho => ?_⟩
  · obtain ⟨forming, -, -⟩ := hq
    simp [(forming hs).1]
  have others : ∀ x ∈ before, x.tag ≠ tag := fun x hx => ho x (List.mem_append_left _ hx)
  have found := find?_tag before after e tag he others
  rw [← ht] at found
  rw [exec_abort tag s hr]
  refine ⟨fun hp => ?_, fun hp => ?_, fun hp => ?_, fun hp => ?_⟩
  · have erased : (s.engine.table.eraseP fun e => e.tag == tag) = before ++ after := by
      rw [ht, List.eraseP_append_right _ (by simpa using others)]
      simp [he]
    simp only [abortEffect, found, hp, erased]
    rfl
  · have written : (s.engine.table.map fun x =>
        if x.tag = tag then { x with state := .withdrawing .aborted } else x)
        = before ++ { e with state := .withdrawing .aborted } :: after := by
      have kept : ∀ l : List Entry, (∀ x ∈ l, x.tag ≠ tag) → (l.map fun x =>
          if x.tag = tag then { x with state := .withdrawing .aborted } else x) = l := by
        intro l hl
        exact (List.map_congr_left fun x hx => if_neg (hl x hx)).trans (List.map_id l)
      rw [ht, List.map_append, List.map_cons, if_pos he, kept before others,
        kept after fun x hx => ho x (List.mem_append_right _ hx)]
    simp only [abortEffect, found, hp, written]
    rfl
  · simp only [abortEffect, found, hp]
    rfl
  · simp only [abortEffect, found, hp]
    rfl

/-! ### RESET (O32) -/

/-- Settles O32: the option selects the sweep and the status, and the rest is the same. -/
theorem hostResetEmptiesAndMaySweep : Obligations.HostResetEmptiesAndMaySweep := by
  intro option s hr emptied discarded ended
  have taken : exec (.reset option) s = .next
      ((emptied (sweepAfterReset s (option != 0#8))).answered .reset [option]
        ((s.resetStatus (option != 0#8)).code :: discarded)) := by
    simp only [exec, execReset, s.takeCommand_of_receiving _ _ _ hr]
    rfl
  rw [taken]
  refine ⟨fun ho => ?_, fun ho hs => ?_, fun ho hs => ?_, _, rfl, rfl, rfl⟩
  · simp [ho, sweepAfterReset, State.resetStatus, Status.code, ended]
  · simp [ho, hs, sweepAfterReset, State.resetStatus, Status.code]
  · simp [ho, hs, sweepAfterReset, State.resetStatus, Status.code, ended]

/-! ### The serve window at a passage (O45) -/

/-- The serve window keeps every entry of another position as it is. -/
theorem serveEntries_elsewhere (me : Code5) (a : Arrival) (rev : Word) (es : List Entry) :
    ∀ (n : Nat) (h : Hand), (serveEntries me a rev n es h).kept.filter
        (fun x => x.1.position != a.position)
      = (es.filter fun e => e.position != a.position).map (·, false) := by
  induction es with
  | nil => exact fun _ _ => rfl
  | cons e es ih =>
    intro n h
    by_cases hp : e.position = a.position
    · have here : (e :: es).filter (fun e => e.position != a.position)
          = es.filter fun e => e.position != a.position := by simp [hp]
      rw [here]
      cases n with
      | zero => simp [serveEntries, hp, ih 0 h]
      | succ n =>
        cases hv : (serveEntry me a e h).2 <;>
          simp [serveEntries, hp, hv, ih n (serveEntry me a e h).1]
    · simp [serveEntries, hp, ih n h]

/-- Settling a deferred entry keeps its position. -/
theorem position_settleDeferred (me : Code5) (h : Hand) (x : Entry × Bool) :
    (settleDeferred me h x).position = x.1.position := by
  unfold settleDeferred
  split <;> rfl

/-- The entries that a test of the position picks from the table after the service stage are those
that it picks from the window's, settled. -/
theorem State.serviceStage_filter (s : State) (a : Arrival) (n : Nat) (h : Hand) (f : Nat → Bool) :
    (s.serviceStage a n h).1.engine.table.filter (fun e => f e.position)
      = ((serveEntries s.port.station a s.tracker.revolution n s.engine.table h).kept.filter
          fun x => f x.1.position).map (settleDeferred s.port.station (s.serviceStage a n h).2) := by
  simp only [State.serviceStage, State.engine_pushRecords, State.engine_withTable,
    List.filter_map, Function.comp_def, position_settleDeferred]

/-- The service stage keeps every entry of another position as it is. -/
theorem State.serviceStage_elsewhere (s : State) (a : Arrival) (n : Nat) (h : Hand) :
    (s.serviceStage a n h).1.engine.table.filter (fun e => e.position != a.position)
      = s.engine.table.filter fun e => e.position != a.position := by
  rw [s.serviceStage_filter a n h (· != a.position), serveEntries_elsewhere, settleDeferred_false]

/-- The handoff step keeps every entry of another position: the CLAIM that it completes stands at
the cell's (R104). -/
theorem State.handoffStep_elsewhere (s : State) (a : Arrival) (h : Hand) :
    (s.handoffStep a h).1.engine.table.filter (fun e => e.position != a.position)
      = s.engine.table.filter fun e => e.position != a.position := by
  have erased : ∀ l : List Entry, (l.eraseP (Entry.claimsAt a.position)).filter
      (fun e => e.position != a.position) = l.filter fun e => e.position != a.position := by
    intro l
    induction l with
    | nil => rfl
    | cons e es ih =>
      by_cases hc : e.claimsAt a.position = true
      · have hp : e.position = a.position := by
          simp only [Entry.claimsAt, Bool.and_eq_true, beq_iff_eq] at hc
          exact hc.2
        simp [hc, hp]
      · simp [hc, List.filter_cons, ih]
  unfold State.handoffStep
  split
  · dsimp only
    split
    · rfl
    · split <;> exact erased _
  · rfl

/-- A passage keeps every entry of another position as it is. -/
theorem State.passage_elsewhere (s : State) (a : Arrival) :
    (s.passage a).engine.table.filter (fun e => e.position != a.position)
      = s.engine.table.filter fun e => e.position != a.position := by
  obtain ⟨served, -⟩ := s.stages_served a
  obtain ⟨q, compared, -⟩ := s.watchCompare_eq a.position a.cell
  rw [(s.passage_engine_queues a).1, served, State.serviceStage_elsewhere, compared,
    State.handoffStep_elsewhere]

/-- A deferred entry, settled by the cell in hand after the last turn (R89). -/
theorem settleDeferred_true (me : Code5) (h : Hand) (e : Entry) :
    settleDeferred me h (e, true) =
      if e.state = .reserved ∧ h.header.reserver ≠ me then { e with state := .pending } else e := by
  simp [settleDeferred]

/-- Without a handoff to this station a passage takes up the first four matching entries by their
turns and settles the later ones (R87 to R90). -/
theorem State.passage_turns (s : State) (a : Arrival)
    (hn : ¬(a.cell.header.owner = s.port.station ∧ a.cell.header.handoff = true)) :
    let here := s.engine.table.filter fun e => e.position == a.position
    let turns := serveTurns s.port.station a (here.take 4) ⟨a.cell, false⟩
    (s.passage a).queues.completions
        = s.queues.completions ++ turns.1.filterMap (turnRecord s.tracker.revolution)
      ∧ (s.passage a).engine.table.filter (fun e => e.position == a.position)
        = turns.1.filterMap turnKept ++ (here.drop 4).map fun e =>
          settleDeferred s.port.station turns.2 (e, true) := by
  intro here turns
  obtain ⟨table, completions⟩ := s.stages_served a
  obtain ⟨q, compared, kept⟩ := s.watchCompare_eq a.position a.cell
  obtain ⟨hand, records, matching⟩ := serveEntries_turns s.port.station a s.tracker.revolution
    s.engine.table 4 ⟨a.cell, false⟩
  have whole := State.handoffStep_of_not { s with queues := q } a ⟨a.cell, false⟩ hn
  rw [compared, whole] at table completions
  obtain ⟨engine, queues⟩ := s.passage_engine_queues a
  constructor
  · rw [queues, completions, ← kept]
    exact congrArg (q.completions ++ ·) records
  · have picked := State.serviceStage_filter { s with queues := q } a 4 ⟨a.cell, false⟩
      (· == a.position)
    have last : (State.serviceStage { s with queues := q } a 4 ⟨a.cell, false⟩).2 = turns.2 := hand
    rw [engine, table, picked, last]
    dsimp only
    rw [matching, List.map_append, settleDeferred_false, List.map_map]
    rfl

/-- Settles O45: the counts and the order from the rule of the whole passage, the other positions
kept by each stage, and the turns of the serve window. -/
theorem passageServesAtMostFour : Obligations.PassageServesAtMostFour := by
  intro r s u repaired c h p me here elsewhere first later turns settled
  obtain ⟨hex, -, -, hu, completions⟩ := s.accepts_passage r u repaired c h
  obtain ⟨-, -, -, legal, -⟩ := h
  have engine : u.engine = s.engine := by rw [hu]
  have port : u.port = s.port := by rw [hu]
  have station : u.delivered.advanced.port.station = me := congrArg Port.station port
  have stamp : u.delivered.advanced.tracker.revolution = s.tracker.revolution := by
    rw [hu]
    rfl
  have passed := u.delivered.advanced.passage_passed ⟨p, r, repaired, c⟩ (port ▸ legal)
  obtain ⟨records, pushed, moved, most⟩ := passed.records
  have table : u.delivered.advanced.engine.table = s.engine.table := congrArg Engine.table engine
  rw [table] at moved
  have fixed := passed.fixed
  have elsewhere_kept := u.delivered.advanced.passage_elsewhere ⟨p, r, repaired, c⟩
  rw [table] at fixed elsewhere_kept
  refine ⟨_, records, hex, pushed.trans (congrArg (· ++ records) completions), most, moved,
    elsewhere_kept, ?_, fun hn => ?_⟩
  · simpa [List.map_map, Function.comp_def, Entry.fixed] using fixed.map Entry.tag
  · obtain ⟨recorded, left⟩ := u.delivered.advanced.passage_turns ⟨p, r, repaired, c⟩ (port ▸ hn)
    rw [table, station, stamp] at recorded
    rw [table, station] at left
    refine ⟨List.append_cancel_left (pushed.symm.trans recorded), left.trans ?_⟩
    exact congrArg (turns.1.filterMap turnKept ++ ·)
      (List.map_congr_left fun e _ => settleDeferred_true me turns.2 e)

end Sys2Proof.Machine
end

section
/-! Proofs of the statements about the service of a passing cell: the stages after the handoff step
as one operation, the reservation that a departing cell carries, the service stage on two entries
and on reading requests, and what a WRITE, a sweep and stale reservation clearing hand on. -/

namespace Sys2Proof

/-! ### Station numbers, data headers and sealed cells (R1, R4, R95) -/

theorem ne_noStation_of_legal {me : Code5} (h : stationLegal me = true) : me ≠ noStation := by
  rintro rfl
  exact absurd h (by decide)

/-- A cell that this station has reserved is not its own (R4). -/
theorem Header.owner_ne_of_reserver {h : Header} {me : Code5} (hg : h.ownershipGood = true)
    (hm : me ≠ noStation) (hr : h.reserver = me) : h.owner ≠ me := by
  obtain ⟨-, distinct, -⟩ := h.ownershipGood_iff.mp hg
  rw [← hr]
  exact (distinct (hr ▸ hm)).symm

/-- A cell that no other station owns carries no reservation of this station's (R4). -/
theorem Header.reserver_ne_of_owner {h : Header} {me : Code5} (hg : h.ownershipGood = true)
    (hm : me ≠ noStation) (ho : h.owner = noStation ∨ h.owner = me) : h.reserver ≠ me := by
  intro hr
  rcases ho with ho | ho
  · obtain ⟨free, -⟩ := h.ownershipGood_iff.mp hg
    exact hm (hr.symm.trans (free ho).1)
  · exact Header.owner_ne_of_reserver hg hm hr ho

theorem Header.generation_passedOn (h : Header) : h.passedOn.generation = h.generation := by
  unfold Header.passedOn
  split <;> rfl

/-- Raising a generation changes it (R95). -/
theorem generation_ne_succ : ∀ g : Byte, g ≠ g + 1#8 := by decide +kernel

/-- A sealed cell carries the checks of its header and its payload (R1). -/
theorem Cell.checks_sealed (c : Cell) :
    c.sealed.header.check = crc8 c.sealed.header.checkedBytes
      ∧ c.sealed.payloadCheck = crc16 (payloadBytes c.sealed.payload) := ⟨rfl, rfl⟩

end Sys2Proof

namespace Sys2Proof.Machine

/-! ### The stages after the handoff step -/

/-- Service, the release sweep and stale reservation clearing, each from the cell in hand as the one
before left it: what a passage does after the handoff step (R84). -/
def State.laterStages (w : State) (a : Arrival) (places : Nat) (h : Hand) : State × Hand :=
  let served := w.serviceStage a places h
  let swept := served.1.sweepStage served.2
  swept.1.staleStage a swept.2

/-- The handoff step takes entries from the table alone. -/
theorem State.handoffStep_sublist (s : State) (a : Arrival) (h : Hand) :
    (s.handoffStep a h).1.engine.table.Sublist s.engine.table := by
  unfold State.handoffStep
  split
  · dsimp only
    split
    · exact .refl _
    · split <;> exact List.eraseP_sublist
  · exact .refl _

/-- The stages of a passage are the later ones from what the watch comparison and the handoff step
leave, which keep the station number and the sweep and take entries from the table alone. -/
theorem State.stages_eq_laterStages (s : State) (a : Arrival) :
    ∃ w n h, s.stages a = State.laterStages w a n h ∧ w.port = s.port
      ∧ w.engine.sweep = s.engine.sweep ∧ w.engine.table.Sublist s.engine.table := by
  obtain ⟨q, compared, -⟩ := s.watchCompare_eq a.position a.cell
  have fewer := (s.watchCompare a.position a.cell).handoffStep_sublist a ⟨a.cell, false⟩
  obtain ⟨tb, q', taken⟩ := (s.watchCompare a.position a.cell).handoffStep_eq a ⟨a.cell, false⟩
  refine ⟨((s.watchCompare a.position a.cell).handoffStep a ⟨a.cell, false⟩).1, _, _, rfl, ?_, ?_,
    ?_⟩
  · rw [taken, compared]
  · rw [taken, compared]
  · rwa [compared] at fewer ⊢

@[simp] theorem State.port_sweepStage (s : State) (h : Hand) :
    (s.sweepStage h).1.port = s.port := by
  obtain ⟨k, swept⟩ := s.sweepStage_eq h
  rw [swept]

@[simp] theorem State.table_sweepStage (s : State) (h : Hand) :
    (s.sweepStage h).1.engine.table = s.engine.table := by
  obtain ⟨k, swept⟩ := s.sweepStage_eq h
  rw [swept]

@[simp] theorem State.table_staleStage (s : State) (a : Arrival) (h : Hand) :
    (s.staleStage a h).1.engine.table = s.engine.table := by
  obtain ⟨q, cleared, -⟩ := s.staleStage_eq a h
  rw [cleared]

/-- The later stages leave the table that the service stage leaves. -/
theorem State.table_laterStages (w : State) (a : Arrival) (n : Nat) (h : Hand) :
    (w.laterStages a n h).1.engine.table = (w.serviceStage a n h).1.engine.table := by
  simp only [State.laterStages, State.table_staleStage, State.table_sweepStage]

/-! ### The reservation that a departing cell carries (O51) -/

/-- No two entries of the list at position `p` are ownership requests. -/
abbrev OneOwnershipAt (p : Nat) (tb : List Entry) : Prop :=
  tb.Pairwise fun x y => x.position = p → y.position = p →
    x.request.ownershipTarget = none ∨ y.request.ownershipTarget = none

/-- The position of an ownership request is that of the address it names. -/
theorem Request.positionOf_ownershipTarget (q : Request) (roster : List RosterEntry) (a : Address)
    (h : q.ownershipTarget = some a) : q.targetPosition roster = positionOf roster a := by
  cases q <;> simp_all [Request.ownershipTarget, Request.targetPosition]

/-- In a sound table no two ownership requests share a position, since a position has one address
(R44, R63). -/
theorem State.tableSound.oneOwnershipAt {s : State} (h : s.tableSound) (p : Nat) :
    OneOwnershipAt p s.engine.table := by
  obtain ⟨sound, -, targets⟩ := h
  refine targets.imp_of_mem fun {x y} hx hy distinct px py => ?_
  have addressed : ∀ e ∈ s.engine.table, e.position = p → ∀ a, e.request.ownershipTarget = some a →
      expectedAddress s.loop.roster p = a := by
    intro e he hp a ha
    obtain ⟨position, -⟩ := sound e he
    rw [e.request.positionOf_ownershipTarget _ a ha, hp] at position
    exact (expectedAddress_positionOf _ _ _ position).2.2
  cases hqx : x.request.ownershipTarget with
  | none => exact Or.inl rfl
  | some a =>
    cases hqy : y.request.ownershipTarget with
    | none => exact Or.inr rfl
    | some b =>
      have same : a = b := (addressed x hx px a hqx).symm.trans (addressed y hy py b hqy)
      rw [hqx, hqy, same] at distinct
      simp at distinct

/-- A window without ownership requests keeps the reserver of the cell in hand. -/
theorem serveEntries_reserver_kept (me : Code5) (a : Arrival) (rev : Word) (es : List Entry) :
    ∀ (n : Nat) (h : Hand),
    (∀ e ∈ es, e.position = a.position → e.request.ownershipTarget = none) →
    (serveEntries me a rev n es h).hand.header.reserver = h.header.reserver := by
  induction es with
  | nil => exact fun _ _ _ => rfl
  | cons e es ih =>
    intro n h unowned
    obtain ⟨first, others⟩ := List.forall_mem_cons.mp unowned
    simp only [serveEntries]
    split
    · rename_i hp
      cases n with
      | zero => exact ih 0 h others
      | succ n =>
        obtain ⟨-, reserver, -⟩ := serveEntry_ownership_kept me a e h (first hp)
        dsimp only
        split <;> exact (ih n _ others).trans reserver
    · exact ih n h others

/-- An entry that its turn leaves RESERVED stands for a reservation of this station's on the cell in
hand at the end of the window: no later turn is that of an ownership request (R63, R99). -/
theorem serveEntries_reserved (me : Code5) (a : Arrival) (rev : Word) (hm : stationLegal me = true)
    (es : List Entry) : ∀ (n : Nat) (h : Hand), OneOwnershipAt a.position es →
    ∀ x ∈ (serveEntries me a rev n es h).kept,
      x.1.position = a.position → x.2 = false → x.1.state = .reserved →
      (serveEntries me a rev n es h).hand.header.reserver = me := by
  induction es with
  | nil => exact fun _ _ _ x hx => absurd hx List.not_mem_nil
  | cons e es ih =>
    intro n h one x hx px taken reserved
    obtain ⟨alone, rest⟩ := List.pairwise_cons.mp one
    simp only [serveEntries] at hx ⊢
    split at hx
    · rename_i hp
      rw [if_pos hp]
      cases n with
      | zero =>
        rcases List.mem_cons.mp hx with rfl | hx
        · cases taken
        · exact ih 0 h rest x hx px taken reserved
      | succ n =>
        dsimp only at hx ⊢
        split at hx
        · rename_i st hs
          rcases List.mem_cons.mp hx with rfl | hx
          · obtain ⟨claim, -, -, holds⟩ := serveEntry_stays me a e h st hm hs
            have owned : e.request.ownershipTarget ≠ none := by
              cases hq : e.request <;> simp_all [Request.kind, Request.ownershipTarget]
            exact (serveEntries_reserver_kept me a rev es n _ fun y hy py =>
              (alone y hy hp py).resolve_left owned).trans (holds.mp reserved)
          · exact ih n _ rest x hx px taken reserved
        · exact ih n _ rest x hx px taken reserved
    · rename_i hp
      rw [if_neg hp]
      rcases List.mem_cons.mp hx with rfl | hx
      · exact absurd px hp
      · exact ih n h rest x hx px taken reserved

/-- A RESERVED entry that the service stage leaves at the position stands for a reservation of this
station's on the cell in hand, whether the window reached it or deferred it (R89, R99). -/
theorem State.serviceStage_reserved (s : State) (a : Arrival) (n : Nat) (h : Hand)
    (hm : stationLegal s.port.station = true) (one : OneOwnershipAt a.position s.engine.table)
    (e : Entry) (he : e ∈ (s.serviceStage a n h).1.engine.table) (hp : e.position = a.position)
    (hr : e.state = .reserved) : (s.serviceStage a n h).2.header.reserver = s.port.station := by
  obtain ⟨x, hx, rfl⟩ := List.mem_map.mp he
  rw [position_settleDeferred] at hp
  show (serveEntries s.port.station a s.tracker.revolution n s.engine.table h).hand.header.reserver
    = s.port.station
  by_contra hn
  obtain ⟨entry, deferred⟩ := x
  cases deferred with
  | false =>
    exact hn (serveEntries_reserved _ a _ hm _ n h one _ hx hp rfl (by
      simpa [settleDeferred] using hr))
  | true =>
    rw [settleDeferred_true] at hr
    split at hr
    · cases hr
    · rename_i kept
      exact kept ⟨hr, hn⟩

/-- After stale reservation clearing the cell carries this station's reservation exactly when it did
so before and a RESERVED CLAIM stands for the position (R110). -/
theorem State.staleStage_reserver_iff (s : State) (a : Arrival) (h : Hand)
    (hm : s.port.station ≠ noStation) :
    (s.staleStage a h).2.header.reserver = s.port.station ↔
      h.header.reserver = s.port.station
        ∧ ∃ e ∈ s.engine.table, e.claimsAt a.position = true ∧ e.state = .reserved := by
  have held : (∃ e ∈ s.engine.table, e.claimsAt a.position = true ∧ e.state = .reserved) ↔
      (s.engine.table.any fun e => e.claimsAt a.position && e.state == .reserved) = true := by
    simp
  rw [held, State.staleStage]
  split
  · rename_i hc
    obtain ⟨-, unheld⟩ := hc
    have removed : (h.withHeader (h.header.withReserver noStation)).header.reserver = noStation :=
      Header.reserver_withReserver _ _
    rw [removed, unheld]
    simpa using hm.symm
  · rename_i hc
    simpa using hc

/-- The reserver of the departing cell is that of the cell in hand. -/
theorem State.reserver_departing (s : State) (a : Arrival) :
    (s.departing a).header.reserver = (s.stages a).2.header.reserver := by
  obtain ⟨-, -, kept | afresh⟩ := s.departing_spec a
  · rw [kept]
    rfl
  · rw [afresh]
    rfl

/-- After the later stages the cell in hand carries this station's reservation exactly when a
RESERVED entry for its position is left, where the list holds one ownership request for it, only
CLAIMs are RESERVED and a sweep finds the table empty (R89, R110, R112). -/
theorem State.laterStages_reserved_iff (w : State) (a : Arrival) (n : Nat) (h : Hand)
    (hm : stationLegal w.port.station = true) (one : OneOwnershipAt a.position w.engine.table)
    (claims : ∀ e ∈ (w.laterStages a n h).1.engine.table, e.state = .reserved →
      e.request.kind = .claim)
    (idle : w.engine.sweep.active = true → (w.laterStages a n h).1.engine.table = []) :
    (w.laterStages a n h).2.header.reserver = w.port.station ↔
      ∃ e ∈ (w.laterStages a n h).1.engine.table,
        e.position = a.position ∧ e.state = .reserved := by
  rw [w.table_laterStages] at claims idle ⊢
  have reserved := w.serviceStage_reserved a n h hm one
  have cleared := State.staleStage_reserver_iff
    ((w.serviceStage a n h).1.sweepStage (w.serviceStage a n h).2).1 a
    ((w.serviceStage a n h).1.sweepStage (w.serviceStage a n h).2).2
    (by rw [State.port_sweepStage]; exact ne_noStation_of_legal hm)
  rw [State.port_sweepStage, State.table_sweepStage] at cleared
  refine cleared.trans ⟨?_, ?_⟩
  · rintro ⟨-, e, he, hc, hr⟩
    simp only [Entry.claimsAt, Bool.and_eq_true, beq_iff_eq] at hc
    exact ⟨e, he, hc.2, hr⟩
  · rintro ⟨e, he, hp, hr⟩
    have held : e.claimsAt a.position = true := by simp [Entry.claimsAt, hp, claims e he hr]
    have inactive : w.engine.sweep.active = false := by
      rw [Bool.eq_false_iff]
      intro active
      rw [idle active] at he
      exact absurd he List.not_mem_nil
    have unswept := (w.serviceStage a n h).1.sweepStage_of_not (w.serviceStage a n h).2
      (Or.inl inactive)
    rw [unswept]
    exact ⟨reserved e he hp hr, e, he, held, hr⟩

/-- After the passage at a quiet station with a sound table the departing cell carries this
station's reservation exactly when a RESERVED entry for its position is left (R89, R110). -/
theorem State.passage_reserved_iff (s : State) (a : Arrival)
    (hm : stationLegal s.port.station = true) (hq : s.quiet) (ht : s.tableSound) :
    (s.departing a).header.reserver = s.port.station ↔
      ∃ e ∈ (s.passage a).engine.table, e.position = a.position ∧ e.state = .reserved := by
  have kept := s.passage_tableKept a
  obtain ⟨-, sweeping, -⟩ := hq
  obtain ⟨w, n, h, later, port, sweep, fewer⟩ := s.stages_eq_laterStages a
  rw [(s.passage_engine_queues a).1, later] at kept ⊢
  rw [s.reserver_departing, later, ← port]
  refine w.laterStages_reserved_iff a n h (port ▸ hm) ((ht.oneOwnershipAt a.position).sublist fewer)
    (fun e he hr => ?_) fun active => kept.nil (sweeping (sweep ▸ active)).1
  obtain ⟨-, -, -, -, -, claim⟩ := kept.sound s.loop.roster ht.1 e he
  exact claim (by rw [hr]; decide)

/-- Settles O51: a RESERVED entry that the service stage leaves stands for the reservation of the
cell in hand, and stale reservation clearing removes every other reservation of this station's. -/
theorem reservedEntriesHoldTheReservation : Obligations.ReservedEntriesHoldTheReservation := by
  intro r s u repaired c h hq ht _ p d
  obtain ⟨arrived, -, -, hu, -⟩ := s.accepts_passage r u repaired c h
  obtain ⟨-, -, -, legal, -⟩ := h
  obtain ⟨tb, k, q, home, passed⟩ := u.delivered.advanced.passage_eq ⟨p, r, repaired, c⟩
  have loop : u.loop = s.loop := by rw [hu]
  have engine : u.engine = s.engine := by rw [hu]
  have watch : u.watch = s.watch := by rw [hu]
  have port : u.port = s.port := by rw [hu]
  have line : u.line = s.line := by rw [hu]
  have quiet : u.quiet := by
    simpa only [State.quiet, loop, engine, watch] using hq
  have sound : u.tableSound := by
    simpa only [State.tableSound, loop, engine] using ht
  refine ⟨_, arrived, ?_, ?_⟩
  · rw [passed, ← line]
    rfl
  · rw [← port] at legal ⊢
    exact u.delivered.advanced.passage_reserved_iff ⟨p, r, repaired, c⟩ legal quiet sound

/-! ### The notices and records of the later stages -/

/-- The station of an accepted cell has a number. -/
theorem State.accepts_station {s : State} {r : Reception} {u : State} {repaired : Repaired}
    {c : Cell} (h : s.accepts r u repaired c) : s.port.station ≠ noStation := by
  obtain ⟨-, -, -, legal, -⟩ := h
  exact ne_noStation_of_legal legal

/-- An accepted cell that is not handed over to this station departs as the later stages leave it,
with the notices and records that they add: what they do at every station with the engine, the
number and the revolution count of this one (R84, R129). -/
theorem State.accepts_laterStages (s : State) (r : Reception) (u : State) (repaired : Repaired)
    (c d : Cell) (engine : Engine) (hand : Hand) (records : List Completion)
    (notices : List NoticeBody) (h : s.accepts r u repaired c) (hd : hand.departing c = d)
    (hn : ¬(c.header.owner = s.port.station ∧ c.header.handoff = true))
    (hs : ∀ w : State, w.engine = s.engine → w.port = s.port →
      w.tracker.revolution = s.tracker.revolution →
      w.laterStages ⟨s.tracker.position + 1, r, repaired, c⟩ 4 ⟨c, false⟩
        = ({ w with
            engine
            queues := { w.posting notices with
              completions := w.queues.completions ++ records } }, hand)) :
    ∃ t, exec (.cellArrival r) s = .next t
      ∧ u.handsOn t c d engine records notices := by
  subst hd
  obtain ⟨-, -, -, hu, -⟩ := s.accepts_passage r u repaired c h
  have same : u.engine = s.engine ∧ u.port = s.port ∧ u.tracker.position = s.tracker.position
      ∧ u.tracker.revolution = s.tracker.revolution := by
    rw [hu]
    exact ⟨rfl, rfl, rfl, rfl⟩
  obtain ⟨hengine, port, position, revolution⟩ := same
  have later := hs { u.delivered.advanced with queues := u.posting (u.watchNotice c).toList }
    hengine port revolution
  have whole := State.handoffStep_of_not
    { u.delivered.advanced with queues := u.posting (u.watchNotice c).toList }
    ⟨s.tracker.position + 1, r, repaired, c⟩ ⟨c, false⟩ (by rw [← port] at hn; exact hn)
  refine s.accepts_handsOn r u repaired c engine hand records notices h ?_
  have stages : u.delivered.advanced.stages ⟨s.tracker.position + 1, r, repaired, c⟩
      = State.laterStages
        { u.delivered.advanced with queues := u.posting (u.watchNotice c).toList }
        ⟨s.tracker.position + 1, r, repaired, c⟩ 4 ⟨c, false⟩ := by
    simp only [State.stages, State.laterStages, ← position, u.watchCompare_advanced c]
    rw [position, whole]
  rw [stages, later, u.posting_append]
  dsimp only
  rw [u.completions_posting]
  rfl

/-- The later stages where the sweep and stale reservation clearing find nothing to do: service
alone. -/
theorem State.laterStages_of_served (w : State) (a : Arrival) (n : Nat) (h hand : Hand)
    (table : List Entry) (records : List Completion)
    (served : w.serviceStage a n h = ((w.withTable table).pushRecords records, hand))
    (unswept : w.engine.sweep.active = false ∨ hand.header.owner ≠ w.port.station)
    (unreserved : hand.header.reserver ≠ w.port.station) :
    w.laterStages a n h = ({ w with
      engine := { w.engine with table }
      queues := { w.posting [] with completions := w.queues.completions ++ records } }, hand) := by
  have sweep := ((w.withTable table).pushRecords records).sweepStage_of_not hand unswept
  have stale := ((w.withTable table).pushRecords records).staleStage_of_not a hand
    (Or.inl unreserved)
  simp only [State.laterStages, served, sweep, stale]
  rfl

/-- The later stages where service leaves a reservation of this station's that no RESERVED entry
holds: it is removed and reported after the records (R110). -/
theorem State.laterStages_of_stale (w : State) (a : Arrival) (n : Nat) (h hand : Hand)
    (table : List Entry) (records : List Completion)
    (served : w.serviceStage a n h = ((w.withTable table).pushRecords records, hand))
    (unswept : w.engine.sweep.active = false ∨ hand.header.owner ≠ w.port.station)
    (reserved : hand.header.reserver = w.port.station)
    (unheld : ∀ e ∈ table, e.position = a.position → e.state ≠ .reserved) :
    w.laterStages a n h = ({ w with
      engine := { w.engine with table }
      queues := { w.posting [.staleReservation hand.header.address a.position hand.header.owner
          hand.header.generation] with
        completions := w.queues.completions ++ records } },
      hand.withHeader (hand.header.withReserver noStation)) := by
  have sweep := ((w.withTable table).pushRecords records).sweepStage_of_not hand unswept
  have unclaimed : (table.any fun e => e.claimsAt a.position && e.state == .reserved) = false := by
    rw [List.any_eq_false]
    intro e he
    simp only [Entry.claimsAt, Bool.and_eq_true, beq_iff_eq, not_and, and_imp]
    exact fun _ => unheld e he
  simp only [State.laterStages, served, sweep]
  rw [State.staleStage, if_pos ⟨reserved, unclaimed⟩]
  have posted := Queues.post_with_completions w.queues (w.queues.completions ++ records)
    ⟨.staleReservation hand.header.address a.position hand.header.owner hand.header.generation,
      w.tracker.revolution⟩
  exact congrArg (fun q => (({ w with engine := { w.engine with table }, queues := q } : State),
    hand.withHeader (hand.header.withReserver noStation))) posted

/-- The service stage without a matching entry leaves the table and pushes no record. -/
theorem State.serviceStage_of_none_served (w : State) (a : Arrival) (n : Nat) (h : Hand)
    (ho : ∀ e ∈ w.engine.table, e.position ≠ a.position) :
    w.serviceStage a n h = ((w.withTable w.engine.table).pushRecords [], h) := by
  rw [w.serviceStage_of_none a n h ho]
  simp only [State.withTable, State.pushRecords, List.append_nil]

/-- With two matching entries and places for both the service stage is their turns, the second on
the cell in hand as the first left it (R88, R90). -/
theorem State.serviceStage_of_two (w : State) (a : Arrival) (n : Nat) (h hand₁ hand₂ : Hand)
    (before between after : List Entry) (e f : Entry) (verdict₁ verdict₂ : Verdict)
    (ht : w.engine.table = before ++ e :: (between ++ f :: after))
    (he : e.position = a.position) (hf : f.position = a.position)
    (ho : ∀ x ∈ before ++ between ++ after, x.position ≠ a.position)
    (h₁ : serveEntry w.port.station a e h = (hand₁, verdict₁))
    (h₂ : serveEntry w.port.station a f hand₁ = (hand₂, verdict₂)) :
    w.serviceStage a (n + 2) h =
      ((w.withTable (before ++ ((turnKept (e, verdict₁)).toList ++
          (between ++ ((turnKept (f, verdict₂)).toList ++ after))))).pushRecords
        ((turnRecord w.tracker.revolution (e, verdict₁)).toList
          ++ (turnRecord w.tracker.revolution (f, verdict₂)).toList), hand₂) := by
  have skipped := serveEntries_skip w.port.station a w.tracker.revolution (n + 2) before
    (e :: (between ++ f :: after)) h fun x hx => ho x (by simp [hx])
  have second := serveEntries_one w.port.station a w.tracker.revolution n between after f hand₁ hf
    fun x hx => ho x (by
      rw [List.append_assoc]
      exact List.mem_append_right before hx)
  rw [h₂] at second
  simp only [State.serviceStage, ht, skipped, serveEntries, if_pos he, h₁, second]
  have kept : ∀ x : Entry, settleDeferred w.port.station hand₂ (x, false) = x := fun _ => rfl
  cases verdict₁ <;> cases verdict₂ <;>
    simp only [List.map_append, List.map_cons, settleDeferred_false, kept,
      turnKept, turnRecord, Option.toList, List.nil_append, List.singleton_append,
      List.append_nil]

/-- A cell in hand whose owner changed departs with its header check afresh (R85). -/
theorem Hand.departing_of_owner_changed (c : Cell) (h : Header) (ho : h.owner ≠ c.header.owner) :
    (⟨{ c with header := h }, false⟩ : Hand).departing c = { c with header := h.sealed } :=
  Hand.departing_changed c h fun same => ho (congrArg Header.owner same)

/-! ### A passage without service (O44) -/

/-- Settles O44: no stage finds anything to do, and what the passage hands on is read off for each
record of the passage before. -/
theorem untouchedPassageRecordsRefreshesAndWatches :
    Obligations.UntouchedPassageRecordsRefreshesAndWatches := by
  intro r s u repaired c ha p h hn ho hs hr
  obtain ⟨-, -, -, hu, -⟩ := s.accepts_passage r u repaired c ha
  obtain ⟨t, arrived, hands⟩ := s.accepts_laterStages r u repaired c c s.engine ⟨c, false⟩ [] [] ha
    (Hand.departing_unchanged c) hn fun w engine port _ => by
      rw [← engine] at ho hs ⊢
      rw [← port] at hr
      exact w.laterStages_of_served _ 4 _ ⟨c, false⟩ _ []
        (w.serviceStage_of_none_served _ 4 ⟨c, false⟩ ho) (Or.inl hs) hr
  have queues : t.queues = u.posting (s.watchNotice c).toList := by
    obtain ⟨-, -, queues, -⟩ := hands
    rw [queues, List.append_nil, List.append_nil, State.posting_no_records]
    rw [hu]
    rfl
  have same : u.tracker.position = s.tracker.position ∧ u.watch = s.watch ∧ u.home = s.home
      ∧ u.port = s.port ∧ u.tracker.revolution = s.tracker.revolution := by
    rw [hu]
    exact ⟨rfl, rfl, rfl, rfl, rfl⟩
  obtain ⟨position, watch, home, port, revolution⟩ := same
  refine ⟨t, arrived, hands, ?_⟩
  obtain ⟨-, engine, -, -, seen, others, -, refreshed, left, -⟩ := hands
  rw [position, watch] at others
  rw [position] at seen
  rw [home, port] at refreshed left
  refine ⟨engine, seen, others, refreshed, left, fun unseen => ?_,
    fun old recorded => ⟨fun quiet => ?_, fun fires => ?_⟩⟩
  · have silent : s.watchNotice c = none := congrArg (Option.bind · _) unseen
    rw [queues, silent]
    rfl
  · have silent : s.watchNotice c = none := (congrArg (Option.bind · _) recorded).trans
      (if_neg (ne_true_of_eq_false quiet))
    rw [queues, silent]
    rfl
  · have notice : s.watchNotice c = some _ :=
      (congrArg (Option.bind · _) recorded).trans (if_pos fires)
    rw [queues, notice, ← revolution]
    rfl

/-! ### The release sweep and stale reservations (O50) -/

/-- The later stages during a sweep, where the table holds no entry, pass a cell of this station on
and count it; passed on, it carries no reservation (R112, R113). -/
theorem State.laterStages_of_sweep (w : State) (a : Arrival) (n : Nat) (h : Hand)
    (hm : w.port.station ≠ noStation) (active : w.engine.sweep.active = true)
    (ht : w.engine.table = []) (ho : h.header.owner = w.port.station) :
    w.laterStages a n h = ({ w with
      engine := { w.engine with
        sweep := { w.engine.sweep with released := w.engine.sweep.released + 1 } }
      queues := { w.posting [] with completions := w.queues.completions ++ [] } },
      h.withHeader h.header.passedOn) := by
  have served := w.serviceStage_of_none a n h fun e he => by simp [ht] at he
  obtain ⟨unreserved, -⟩ := h.header.passedOn_spec
  have swept : w.sweepStage h = ({ w with
      engine := { w.engine with
        sweep := { w.engine.sweep with released := w.engine.sweep.released + 1 } } },
      h.withHeader h.header.passedOn) := if_pos ⟨active, ho⟩
  have stale := State.staleStage_of_not
    { w with
      engine := { w.engine with
        sweep := { w.engine.sweep with released := w.engine.sweep.released + 1 } } }
    a (h.withHeader h.header.passedOn) (Or.inl fun hr => hm (hr.symm.trans unreserved))
  simp only [State.laterStages, served, swept, stale, List.append_nil]
  rfl

/-- READ, HEADER and PEEK, the requests that never judge the cell (R91 to R93). -/
def Request.reads (q : Request) : Prop := q.kind = .read ∨ q.kind = .header ∨ q.kind = .peek

/-- A reading request leaves the cell in hand and ends. -/
theorem serveEntry_reads (me : Code5) (a : Arrival) (e : Entry) (h : Hand)
    (hq : e.request.reads) :
    ∃ result data how, serveEntry me a e h = (h, .ends result data how) := by
  cases he : e.request with
  | read x =>
    obtain ⟨clean, damaged⟩ := serveEntry_read me a e h x he
    cases hd : h.header.damaged with
    | false => exact ⟨_, _, _, clean hd⟩
    | true => exact ⟨_, _, _, damaged hd⟩
  | header x => exact ⟨_, _, _, serveEntry_header me a e h x he⟩
  | peek x => exact ⟨_, _, _, serveEntry_peek me a e h x he⟩
  | write | verify | claim | release => simp [Request.reads, Request.kind, he] at hq

/-- A window with a place for each of the reading requests at its head completes them and leaves the
cell in hand to the rest of the list (R88). -/
theorem serveEntries_reads (me : Code5) (a : Arrival) (rev : Word) (n : Nat) (h : Hand)
    (rest before : List Entry)
    (hq : ∀ x ∈ before, x.position = a.position → x.request.reads) :
    ∃ records, records.length = (before.filter fun x => x.position == a.position).length
      ∧ serveEntries me a rev ((before.filter fun x => x.position == a.position).length + n)
          (before ++ rest) h
        = { hand := (serveEntries me a rev n rest h).hand
            kept := (before.filter fun x => x.position != a.position).map (·, false)
              ++ (serveEntries me a rev n rest h).kept
            records := records ++ (serveEntries me a rev n rest h).records } := by
  induction before with
  | nil => exact ⟨[], rfl, by simp⟩
  | cons e es ih =>
    obtain ⟨first, others⟩ := List.forall_mem_cons.mp hq
    obtain ⟨records, length, window⟩ := ih others
    by_cases hp : e.position = a.position
    · obtain ⟨result, data, how, turn⟩ := serveEntry_reads me a e h (first hp)
      refine ⟨{ e.completion rev result data with how } :: records, by simp [hp, length], ?_⟩
      simp only [hp, List.filter_cons, beq_self_eq_true, if_true, List.length_cons,
        bne_self_eq_false, Bool.false_eq_true, if_false, Nat.add_right_comm _ 1 n, List.cons_append,
        serveEntries, turn, window]
    · refine ⟨records, by simp [hp, length], ?_⟩
      simp only [hp, List.filter_cons, beq_iff_eq, bne_iff_ne, ne_eq, not_false_iff, if_false,
        if_true, List.map_cons, List.cons_append, serveEntries, window]

/-- The service stage where reading requests fill the window ahead of the one other matching entry,
which is deferred and, not RESERVED, stays as it is (R88, R89). -/
theorem State.serviceStage_of_deferred (me : Code5) (rev : Word) (a : Arrival) (h : Hand)
    (before after : List Entry) (e : Entry) (he : e.position = a.position)
    (hr : e.state ≠ .reserved)
    (hq : ∀ x ∈ before, x.position = a.position → x.request.reads)
    (ho : ∀ x ∈ after, x.position ≠ a.position) :
    ∃ records, records.length = (before.filter fun x => x.position == a.position).length
      ∧ ∀ w : State, w.port.station = me → w.tracker.revolution = rev →
        w.engine.table = before ++ e :: after →
        w.serviceStage a (before.filter fun x => x.position == a.position).length h
          = ((w.withTable (before.filter (fun x => x.position != a.position)
              ++ e :: after)).pushRecords records, h) := by
  obtain ⟨records, length, window⟩ := serveEntries_reads me a rev 0 h (e :: after) before hq
  have deferred : serveEntries me a rev 0 (e :: after) h
      = ⟨h, (e, true) :: after.map (·, false), []⟩ := by
    simp only [serveEntries, if_pos he, serveEntries_none me a rev 0 after h ho]
  rw [deferred, Nat.add_zero] at window
  refine ⟨records, length, fun w station revolution table => ?_⟩
  have kept : settleDeferred me h (e, true) = e := by
    rw [settleDeferred_true, if_neg fun held => hr held.1]
  simp only [State.serviceStage, station, revolution, table, window, List.append_nil,
    List.map_append, List.map_cons, settleDeferred_false, kept]

/-- An accepted cell that carries a reservation of this station's which no RESERVED entry holds
after a service stage that leaves the cell in hand: the reservation is removed and reported
(R110). -/
theorem State.accepts_clears (s : State) (r : Reception) (u : State) (repaired : Repaired)
    (c : Cell) (table : List Entry) (records : List Completion) (ha : s.accepts r u repaired c)
    (reserved : c.header.reserver = s.port.station)
    (unheld : ∀ e ∈ table, e.position = s.tracker.position + 1 → e.state ≠ .reserved)
    (served : ∀ w : State, w.engine = s.engine → w.port = s.port →
      w.tracker.revolution = s.tracker.revolution →
      w.serviceStage ⟨s.tracker.position + 1, r, repaired, c⟩ 4 ⟨c, false⟩
        = ((w.withTable table).pushRecords records, ⟨c, false⟩)) :
    ∃ t, exec (.cellArrival r) s = .next t
      ∧ u.handsOn t c { c with header := (c.header.withReserver noStation).sealed }
        { s.engine with table } records
        [.staleReservation c.header.address (s.tracker.position + 1) c.header.owner
          c.header.generation] := by
  obtain ⟨-, -, good, -⟩ := s.accepts_passage r u repaired c ha
  have legal := State.accepts_station ha
  have unowned := Header.owner_ne_of_reserver good legal reserved
  have changed : c.header.withReserver noStation ≠ c.header := by
    intro same
    have kept := congrArg Header.reserver same
    rw [Header.reserver_withReserver] at kept
    exact legal (reserved.symm.trans kept.symm)
  refine s.accepts_laterStages r u repaired c _ _ _ records _ ha
    (Hand.departing_changed c _ changed) (fun handed => unowned handed.1)
    fun w engine port revolution => ?_
  have stage := served w engine port revolution
  rw [← engine]
  rw [← port] at unowned reserved
  exact w.laterStages_of_stale _ 4 ⟨c, false⟩ ⟨c, false⟩ table records stage (Or.inr unowned)
    reserved unheld

/-- Settles O50: the sweep alone, and stale reservation clearing after a service stage that finds no
entry or whose window is full before it reaches the CLAIM. -/
theorem sweepAndStaleClearingFreeCells : Obligations.SweepAndStaleClearingFreeCells := by
  intro r s u repaired c ha h p me departs stale
  obtain ⟨-, -, good, -⟩ := s.accepts_passage r u repaired c ha
  have legal : me ≠ noStation := State.accepts_station ha
  refine ⟨fun active empty owned unhanded => ?_, fun reserved => ?_⟩
  · have changed : h.passedOn.owner ≠ c.header.owner := by
      obtain ⟨-, owner, -⟩ := h.passedOn_spec
      rw [owner, owned]
      exact Header.reserver_ne_of_owner good legal (Or.inr owned)
    refine s.accepts_laterStages r u repaired c _ _ _ [] [] ha
      (Hand.departing_of_owner_changed c _ changed)
      (fun handed => Bool.false_ne_true (unhanded.symm.trans handed.2)) fun w engine port _ => ?_
    rw [← engine] at active empty ⊢
    have station : w.port.station = me := congrArg Port.station port
    rw [← station] at legal owned
    exact w.laterStages_of_sweep _ 4 ⟨c, false⟩ legal active empty owned
  · have unowned : h.owner ≠ me := Header.owner_ne_of_reserver good legal reserved
    have clears := s.accepts_clears r u repaired c
    refine ⟨fun unmatched => ?_, fun before e after table at_p _ waiting full reading others => ?_⟩
    · refine clears s.engine.table [] ha reserved (fun e he hp => absurd hp (unmatched e he))
        fun w engine _ _ => ?_
      rw [← engine] at unmatched ⊢
      exact w.serviceStage_of_none_served _ 4 ⟨c, false⟩ unmatched
    · have unreserved : e.state ≠ .reserved := by
        rcases waiting with pending | ⟨ending, withdrawing⟩
        · rw [pending]
          nofun
        · rw [withdrawing]
          nofun
      obtain ⟨records, length, served⟩ := State.serviceStage_of_deferred me s.tracker.revolution
        ⟨p, r, repaired, c⟩ ⟨c, false⟩ before after e at_p unreserved reading others
      dsimp only at length served
      rw [full] at length served
      have unheld : ∀ x ∈ before.filter (fun x => x.position != p) ++ e :: after,
          x.position = p → x.state ≠ .reserved := by
        intro x hx hp
        rcases List.mem_append.mp hx with hx | hx
        · simp [hp] at hx
        · rcases List.mem_cons.mp hx with rfl | hx
          · exact unreserved
          · exact absurd hp (others x hx)
      obtain ⟨t, arrived, hands⟩ := clears _ records ha reserved unheld
        fun w engine port revolution =>
          served w (congrArg Port.station port) revolution (by rw [engine, table])
      exact ⟨t, records, arrived, length, hands⟩

/-! ### WRITE and the next entry of its window (O47) -/

/-- A turn that completes its entry, alone in its window, and leaves no reservation of this
station's: the record is pushed and the cell departs as the turn leaves it (R85). -/
theorem State.servesAlone_ends (r : Reception) (s u : State) (repaired : Repaired) (c : Cell)
    (before after : List Entry) (e : Entry) (hand : Hand) (d : Cell) (result : Result)
    (data : CompletionData) (h : s.servesAlone r u repaired c before e after)
    (hn : ¬(c.header.owner = s.port.station ∧ c.header.handoff = true))
    (hv : serveEntry s.port.station ⟨s.tracker.position + 1, r, repaired, c⟩ e ⟨c, false⟩
      = (hand, .ends result data none))
    (hd : hand.departing c = d) (hr : hand.header.reserver ≠ s.port.station) :
    ∃ t, exec (.cellArrival r) s = .next t
      ∧ u.handsOn t c d { s.engine with table := before ++ after }
        [e.completion s.tracker.revolution result data] [] := by
  obtain ⟨ha, idle, table, he, ho⟩ := h
  refine s.accepts_laterStages r u repaired c d _ hand _ [] ha hd hn
    fun w engine port revolution => ?_
  rw [← engine] at idle table ⊢
  rw [← port] at hv hr
  rw [← revolution]
  have served := w.serviceStage_of_one ⟨s.tracker.position + 1, r, repaired, c⟩ 3 ⟨c, false⟩ before
    after e table he ho
  simp only [hv] at served
  exact w.laterStages_of_served _ 4 _ hand _ _ served (Or.inl idle) hr

/-- Two turns that complete their entries, alone in their window, and leave no reservation of this
station's: both records are pushed and the cell departs as the second turn leaves it (R85, R90). -/
theorem State.servesTwo_ends (r : Reception) (s u : State) (repaired : Repaired) (c : Cell)
    (before between after : List Entry) (e f : Entry) (hand₁ hand₂ : Hand) (d : Cell)
    (result₁ result₂ : Result) (data₁ data₂ : CompletionData)
    (h : s.servesTwo r u repaired c before e between f after)
    (hn : ¬(c.header.owner = s.port.station ∧ c.header.handoff = true))
    (h₁ : serveEntry s.port.station ⟨s.tracker.position + 1, r, repaired, c⟩ e ⟨c, false⟩
      = (hand₁, .ends result₁ data₁ none))
    (h₂ : serveEntry s.port.station ⟨s.tracker.position + 1, r, repaired, c⟩ f hand₁
      = (hand₂, .ends result₂ data₂ none))
    (hd : hand₂.departing c = d) (hr : hand₂.header.reserver ≠ s.port.station) :
    ∃ t, exec (.cellArrival r) s = .next t
      ∧ u.handsOn t c d { s.engine with table := before ++ (between ++ after) }
        [e.completion s.tracker.revolution result₁ data₁,
          f.completion s.tracker.revolution result₂ data₂] [] := by
  obtain ⟨ha, idle, table, he, hf, ho⟩ := h
  refine s.accepts_laterStages r u repaired c d _ hand₂ _ [] ha hd hn
    fun w engine port revolution => ?_
  rw [← engine] at idle table ⊢
  rw [← port] at h₁ h₂ hr
  rw [← revolution]
  have served := w.serviceStage_of_two ⟨s.tracker.position + 1, r, repaired, c⟩ 2 ⟨c, false⟩ hand₁
    hand₂ before between after e f _ _ table he hf ho h₁ h₂
  exact w.laterStages_of_served _ 4 _ hand₂ _ _ served (Or.inl idle) hr

section

variable (me : Code5) (a : Arrival) (e : Entry) (h : Hand) (x : Address) (first : Nat)
  (words : List Word) (expected : Option Byte) (hq : e.request = .write x first words expected)

include hq

/-- WRITE on a cell that another station owns (R94). -/
theorem serveEntry_write_owned (ho : h.header.owner ≠ noStation ∧ h.header.owner ≠ me) :
    serveEntry me a e h = (h, .ends .owned (.owned h.header.owner h.header.generation) none) := by
  simp only [serveEntry, hq, serveWrite]
  rw [if_pos ho]

/-- WRITE that expects another generation (R94). -/
theorem serveEntry_write_stale (ho : ¬(h.header.owner ≠ noStation ∧ h.header.owner ≠ me))
    (hs : ∃ g, expected = some g ∧ g ≠ h.header.generation) :
    serveEntry me a e h = (h, .ends .stale (.generation h.header.generation) none) := by
  obtain ⟨g, rfl, differs⟩ := hs
  simp only [serveEntry, hq, serveWrite]
  rw [if_neg ho, if_pos (by simpa using differs)]

/-- A WRITE judged neither OWNED nor STALE, by whether DAMAGED and its range refuse it (R94). -/
theorem serveEntry_write_judged (ho : ¬(h.header.owner ≠ noStation ∧ h.header.owner ≠ me))
    (hs : ¬∃ g, expected = some g ∧ g ≠ h.header.generation) :
    (h.header.damaged = true ∧ ¬(first = 0 ∧ words.length = 32) → serveEntry me a e h =
        (h, .ends .damaged (.generation h.header.generation) none))
      ∧ (¬(h.header.damaged = true ∧ ¬(first = 0 ∧ words.length = 32)) → serveEntry me a e h =
        (h.written first words, .ends .done (.generation (h.header.generation + 1#8)) none)) := by
  have fresh : ¬expected.any (· != h.header.generation) = true := by
    intro differs
    obtain ⟨g, expects, differs⟩ := (Option.any_eq_true _ _).mp differs
    exact hs ⟨g, expects, by simpa using differs⟩
  simp only [serveEntry, hq, serveWrite]
  rw [if_neg ho, if_neg fresh]
  exact ⟨fun torn => if_pos torn, fun whole => if_neg whole⟩

/-- A WRITE on a cell that no other station owns, which expects no other generation and writes a
DAMAGED cell whole only, writes it (R94, R95). -/
theorem serveEntry_write_applies (free : h.header.owner = noStation ∨ h.header.owner = me)
    (expects : expected = none ∨ expected = some h.header.generation)
    (whole : h.header.damaged = false ∨ (first = 0 ∧ words.length = 32)) :
    serveEntry me a e h =
      (h.written first words, .ends .done (.generation (h.header.generation + 1#8)) none) := by
  have unowned : ¬(h.header.owner ≠ noStation ∧ h.header.owner ≠ me) :=
    not_and_or.mpr (free.imp not_not.mpr not_not.mpr)
  have fresh : ¬∃ g, expected = some g ∧ g ≠ h.header.generation := by
    rintro ⟨g, rfl, differs⟩
    rcases expects with anything | same
    · cases anything
    · exact differs (Option.some.inj same)
  obtain ⟨-, writes⟩ := serveEntry_write_judged me a e h x first words expected hq unowned fresh
  refine writes ?_
  rintro ⟨damaged, partly⟩
  rcases whole with clean | whole
  · exact Bool.false_ne_true (clean.symm.trans damaged)
  · exact partly whole

end

/-- RELEASE of a cell of this station passes it on (R102). -/
theorem serveEntry_release_own (me : Code5) (a : Arrival) (e : Entry) (h : Hand) (x : Address)
    (hq : e.request = .release x) (ho : h.header.owner = me) :
    serveEntry me a e h = (h.withHeader h.header.passedOn,
      .ends .done (.released h.header.reserver h.header.generation) none) := by
  obtain ⟨-, owner, -⟩ := h.header.passedOn_spec
  simp only [serveEntry, hq, serveRelease]
  rw [if_pos ho, ← owner]
  rfl

/-- The header of a written cell: the generation one higher, DAMAGED and RESTORED clear, the other
fields kept (R95). -/
theorem Hand.header_written (h : Hand) (first : Nat) (words : List Word) :
    let w := (h.written first words).header
    w.address = h.header.address ∧ w.generation = h.header.generation + 1#8
      ∧ w.owner = h.header.owner ∧ w.reserver = h.header.reserver
      ∧ w.handoff = h.header.handoff ∧ w.damaged = false ∧ w.restored = false := by
  have flags : (h.written first words).header.handoff = h.header.handoff
      ∧ (h.written first words).header.damaged = false := by
    simp [Hand.header, Hand.written]
  exact ⟨rfl, rfl, rfl, rfl, flags.1, flags.2, Header.restored_withRestored _ _⟩

/-- A written cell departs with both checks afresh (R85). -/
theorem Hand.departing_written (h : Hand) (first : Nat) (words : List Word) (arrived : Cell) :
    (h.written first words).departing arrived = (h.written first words).cell.sealed := rfl

/-- What READ reports of a written cell (R91, R95). -/
theorem Hand.summary_written (h : Hand) (first : Nat) (words : List Word) :
    headerSummary (h.written first words).header =
      { address := h.header.address, generation := h.header.generation + 1#8
        owner := h.header.owner, reserver := h.header.reserver, handoff := h.header.handoff
        damaged := false, restored := false } := by
  obtain ⟨address, generation, owner, reserver, handoff, damaged, restored⟩ :=
    h.header_written first words
  simp only [headerSummary, address, generation, owner, reserver, handoff, damaged, restored]

/-- Settles O47: a WRITE by the judgement of its turn, and a second entry by its turn on the cell in
hand that the first left. -/
theorem writeIsJudgedThenApplied : Obligations.WriteIsJudgedThenApplied := by
  refine ⟨?_, ?_⟩
  · intro r s u repaired c before after e a first words expected hs _ hq h me hn unwritten others
      stale torn
    obtain ⟨-, -, good, -⟩ := s.accepts_passage r u repaired c hs.1
    have legal : me ≠ noStation := State.accepts_station hs.1
    have turn : ∀ result data, serveEntry me ⟨s.tracker.position + 1, r, repaired, c⟩ e ⟨c, false⟩
        = (⟨c, false⟩, .ends result data none) → unwritten result data := fun result data =>
      s.servesAlone_unchanged r u repaired c before after e result data none hs hn
    have judged := serveEntry_write_judged me ⟨s.tracker.position + 1, r, repaired, c⟩ e ⟨c, false⟩
      a first words expected hq
    refine ⟨fun ho => turn _ _
        (serveEntry_write_owned me _ e ⟨c, false⟩ a first words expected hq ho),
      fun ho hst => turn _ _
        (serveEntry_write_stale me _ e ⟨c, false⟩ a first words expected hq ho hst),
      fun ho hst ht => turn _ _ ((judged ho hst).1 ht), fun ho hst ht => ?_⟩
    obtain ⟨address, generation, owner, reserver, handoff, damaged, restored⟩ :=
      (⟨c, false⟩ : Hand).header_written first words
    have unreserved : h.reserver ≠ me := Header.reserver_ne_of_owner good legal (by
      by_contra hc
      exact ho (not_or.mp hc))
    obtain ⟨t, arrived, hands⟩ := s.servesAlone_ends r u repaired c before after e _ _ _ _ hs hn
      ((judged ho hst).2 ht) (Hand.departing_written _ _ _ c) (by rw [reserver]; exact unreserved)
    exact ⟨t, _, arrived, hands, rfl, generation, damaged, restored, owner, reserver, handoff,
      address, fun i => Vector.getElem_ofFn .., Cell.checks_sealed _⟩
  · intro r s u repaired c before between after e f hs _ _ h me hn both
    obtain ⟨-, -, good, -⟩ := s.accepts_passage r u repaired c hs.1
    have legal : me ≠ noStation := State.accepts_station hs.1
    have turns := s.servesTwo_ends r u repaired c before between after e f
    refine ⟨?_, fun a hq owned reserved b from_ others expected hf => ?_⟩
    · intro a first words expected hq free expects whole g written
      have writes := serveEntry_write_applies me ⟨s.tracker.position + 1, r, repaired, c⟩ e
        ⟨c, false⟩ a first words expected hq free expects whole
      obtain ⟨-, generation, owner, reserver, -, damaged, -⟩ :=
        (⟨c, false⟩ : Hand).header_written first words
      have second := fun result data turn => turns _ ((⟨c, false⟩ : Hand).written first words)
        written _ result _ data hs hn writes turn rfl
        (by rw [reserver]; exact Header.reserver_ne_of_owner good legal free)
      refine ⟨fun b hf => second _ _ ?_, fun b from_ others hf => second _ _ ?_⟩
      · obtain ⟨reads, -⟩ := serveEntry_read me ⟨s.tracker.position + 1, r, repaired, c⟩ f
          ((⟨c, false⟩ : Hand).written first words) b hf
        rw [reads damaged, Hand.summary_written]
        rfl
      · refine serveEntry_write_stale me _ f _ b from_ others _ hf ?_
          ⟨h.generation, rfl, generation ▸ generation_ne_succ _⟩
        rw [owner]
        exact not_and_or.mpr (free.imp not_not.mpr not_not.mpr)
    · obtain ⟨cleared, owner, -⟩ := h.passedOn_spec
      have distinct : h.reserver ≠ me := Header.reserver_ne_of_owner good legal (Or.inr owned)
      have passed : h.passedOn
          = ((h.withOwner h.reserver).withReserver noStation).withHandoff true := if_neg reserved
      have releases := serveEntry_release_own me ⟨s.tracker.position + 1, r, repaired, c⟩ e
        ⟨c, false⟩ a hq owned
      have refused : serveEntry me ⟨s.tracker.position + 1, r, repaired, c⟩ f
          ((⟨c, false⟩ : Hand).withHeader h.passedOn) = ((⟨c, false⟩ : Hand).withHeader h.passedOn,
            .ends .owned (.owned h.passedOn.owner h.passedOn.generation) none) :=
        serveEntry_write_owned me _ f _ b from_ others expected hf
          (owner.symm ▸ ⟨reserved, distinct⟩)
      rw [owner, h.generation_passedOn] at refused
      have departs := Hand.departing_of_owner_changed c h.passedOn
        (by rw [owner]; exact fun same => distinct (same.trans owned))
      exact turns _ _ _ _ _ _ _ hs hn releases refused (departs.trans (by rw [passed]))
        fun hr => legal (hr.symm.trans cleared)

end Sys2Proof.Machine
end

section
/-! Proofs of the statements about ownership, reservation and handoff: the turns of CLAIM, RELEASE
and a withdrawal, what the one matching entry of a passage hands on, and the handoff step with the
stages after it. -/

namespace Sys2Proof.Machine

/-! ### The turns of CLAIM, withdrawal and RELEASE (R99, R102, R108) -/

section

variable (me : Code5) (a : Arrival) (e : Entry) (h : Hand) (x : Address)
  (hq : e.request = .claim x)

include hq

/-- A CLAIM that is not WITHDRAWING has its turn by the ownership fields alone (R99). -/
theorem serveEntry_claim (live : e.state = .pending ∨ e.state = .reserved) :
    serveEntry me a e h = serveClaim me h := by
  rcases live with hs | hs <;> simp only [serveEntry, hq, hs]

/-- Withdrawal takes away a reservation of this station's and no other (R108). -/
theorem serveEntry_withdrawal (ending : Ending) (hs : e.state = .withdrawing ending) :
    (h.header.reserver = me → serveEntry me a e h =
        (h.withHeader (h.header.withReserver noStation), .ends ending.result .none none))
      ∧ (h.header.reserver ≠ me → serveEntry me a e h =
        (h, .ends ending.result .none none)) := by
  simp only [serveEntry, hq, hs, serveWithdrawal]
  exact ⟨fun mine => by rw [if_pos mine], fun other => by rw [if_neg other]⟩

end

/-- CLAIM takes a cell that no station owns, and that none has reserved (R4, R99). -/
theorem serveClaim_free (me : Code5) (h : Hand) (free : h.header.owner = noStation)
    (unreserved : h.header.reserver = noStation) :
    serveClaim me h = (h.withHeader (h.header.withOwner me),
      .ends .done (.claimed h.header.generation noStation) (some .takenFree)) := by
  rw [serveClaim, if_pos free, unreserved]

/-- CLAIM of a cell that is this station's already (R99). -/
theorem serveClaim_own (me : Code5) (h : Hand) (hm : me ≠ noStation) (own : h.header.owner = me) :
    serveClaim me h =
      (h, .ends .done (.claimed h.header.generation h.header.reserver) (some .alreadyOwner)) := by
  rw [serveClaim, if_neg (own ▸ hm), if_pos own]

/-- CLAIM of a cell that another station owns, by its reserver (R99). -/
theorem serveClaim_owned (me : Code5) (h : Hand) (owned : h.header.owner ≠ noStation)
    (other : h.header.owner ≠ me) :
    (h.header.reserver = noStation → serveClaim me h =
        (h.withHeader (h.header.withReserver me), .stays .reserved))
      ∧ (h.header.reserver ≠ noStation → h.header.reserver = me →
        serveClaim me h = (h, .stays .reserved))
      ∧ (h.header.reserver ≠ noStation → h.header.reserver ≠ me →
        serveClaim me h = (h, .stays .pending)) := by
  rw [serveClaim, if_neg owned, if_neg other]
  exact ⟨fun unreserved => if_pos unreserved,
    fun reserved mine => by rw [if_neg reserved, if_pos mine],
    fun reserved others => by rw [if_neg reserved, if_neg others]⟩

/-- RELEASE of a cell that is not this station's (R102). -/
theorem serveEntry_release_other (me : Code5) (a : Arrival) (e : Entry) (h : Hand) (x : Address)
    (hq : e.request = .release x) (ho : h.header.owner ≠ me) :
    serveEntry me a e h =
      (h, .ends .notOwner (.notOwner h.header.owner h.header.handoff) none) := by
  simp only [serveEntry, hq, serveRelease]
  rw [if_neg ho]

/-! ### What the turn of the one matching entry hands on -/

/-- The later stages where service leaves this station's reservation with a RESERVED CLAIM that
holds it, and no sweep is active: service alone (R110). -/
theorem State.laterStages_of_held (w : State) (a : Arrival) (n : Nat) (h hand : Hand)
    (table : List Entry) (records : List Completion) (e : Entry)
    (served : w.serviceStage a n h = ((w.withTable table).pushRecords records, hand))
    (idle : w.engine.sweep.active = false) (he : e ∈ table) (hc : e.claimsAt a.position = true)
    (hs : e.state = .reserved) :
    w.laterStages a n h = ({ w with
      engine := { w.engine with table }
      queues := { w.posting [] with completions := w.queues.completions ++ records } }, hand) := by
  have held : (table.any fun e => e.claimsAt a.position && e.state == .reserved) = true :=
    List.any_eq_true.mpr ⟨e, he, by rw [hc, hs]; rfl⟩
  have sweep := ((w.withTable table).pushRecords records).sweepStage_of_not hand (Or.inl idle)
  have stale := ((w.withTable table).pushRecords records).staleStage_of_not a hand (Or.inr held)
  simp only [State.laterStages, served, sweep, stale]
  rfl

/-- The turn of the one matching entry, where it leaves no reservation of this station's or leaves
its CLAIM RESERVED: the entry stays or its record is pushed, and the cell departs as the turn leaves
it (R85, R88, R110). -/
theorem State.servesAlone_turn (r : Reception) (s u : State) (repaired : Repaired) (c : Cell)
    (before after : List Entry) (e : Entry) (hand : Hand) (d : Cell) (verdict : Verdict)
    (h : s.servesAlone r u repaired c before e after)
    (hn : ¬(c.header.owner = s.port.station ∧ c.header.handoff = true))
    (hv : serveEntry s.port.station ⟨s.tracker.position + 1, r, repaired, c⟩ e ⟨c, false⟩
      = (hand, verdict))
    (hd : hand.departing c = d)
    (settled : hand.header.reserver ≠ s.port.station
      ∨ e.request.kind = .claim ∧ verdict = .stays .reserved) :
    ∃ t, exec (.cellArrival r) s = .next t
      ∧ u.handsOn t c d
        { s.engine with table := before ++ ((turnKept (e, verdict)).toList ++ after) }
        (turnRecord s.tracker.revolution (e, verdict)).toList [] := by
  obtain ⟨ha, idle, table, he, ho⟩ := h
  refine s.accepts_laterStages r u repaired c d _ hand _ [] ha hd hn
    fun w engine port revolution => ?_
  rw [← engine] at idle table ⊢
  rw [← port] at hv settled
  rw [← revolution]
  have served := w.serviceStage_of_one ⟨s.tracker.position + 1, r, repaired, c⟩ 3 ⟨c, false⟩ before
    after e table he ho
  simp only [hv] at served
  rcases settled with unreserved | ⟨claim, rfl⟩
  · exact w.laterStages_of_served _ 4 _ hand _ _ served (Or.inl idle) unreserved
  · exact w.laterStages_of_held _ 4 _ hand _ _ { e with state := .reserved } served idle
      (by simp [turnKept]) (by simp [Entry.claimsAt, claim, he]) rfl

/-! ### CLAIM, RELEASE and withdrawal (O48) -/

/-- A cell in hand whose reserver changed departs with its header check afresh (R85). -/
theorem Hand.departing_of_reserver_changed (c : Cell) (h : Header)
    (hr : h.reserver ≠ c.header.reserver) :
    (⟨{ c with header := h }, false⟩ : Hand).departing c = { c with header := h.sealed } :=
  Hand.departing_changed c h fun same => hr (congrArg Header.reserver same)

/-- Settles O48: row by row, the turn of the entry and the cell that departs from it. -/
theorem ownershipRequestsFollowTheirTables : Obligations.OwnershipRequestsFollowTheirTables := by
  intro r s u repaired c before after e hs h me hn record departs goes
  obtain ⟨-, -, good, -⟩ := s.accepts_passage r u repaired c hs.1
  have legal : me ≠ noStation := State.accepts_station hs.1
  have turn := fun hand d verdict =>
    s.servesAlone_turn r u repaired c before after e hand d verdict hs hn
  have unchanged : (⟨c, false⟩ : Hand).departing c = c := Hand.departing_unchanged c
  refine ⟨fun a hq live => ?_, fun a ending hq withdrawing => ?_, fun a hq => ?_⟩
  · have claim : e.request.kind = .claim := by rw [hq]; rfl
    have claims := serveEntry_claim me ⟨s.tracker.position + 1, r, repaired, c⟩ e ⟨c, false⟩ a hq
      live
    refine ⟨fun free => ?_, fun own => ?_, fun owned other => ?_⟩
    · obtain ⟨unheld, -⟩ := h.ownershipGood_iff.mp good
      obtain ⟨unreserved, -⟩ := unheld free
      have departing := Hand.departing_of_owner_changed c (h.withOwner me) (by
        rw [Header.owner_withOwner, free]
        exact legal)
      have other : (h.withOwner me).reserver ≠ me := by
        rw [Header.reserver_withOwner, unreserved]
        exact legal.symm
      exact turn _ _ _ (claims.trans (serveClaim_free me ⟨c, false⟩ free unreserved)) departing
        (Or.inl other)
    · exact turn _ _ _ (claims.trans (serveClaim_own me ⟨c, false⟩ legal own)) unchanged
        (Or.inl (Header.reserver_ne_of_owner good legal (Or.inr own)))
    · obtain ⟨reserves, keeps, waits⟩ := serveClaim_owned me ⟨c, false⟩ owned other
      refine ⟨fun unreserved => ?_, fun mine => ?_, fun reserved others => ?_⟩
      · refine turn _ _ _ (claims.trans (reserves unreserved))
          (Hand.departing_of_reserver_changed c _ ?_) (Or.inr ⟨claim, rfl⟩)
        rw [Header.reserver_withReserver, unreserved]
        exact legal
      · exact turn _ _ _ (claims.trans (keeps (mine ▸ legal) mine)) unchanged
          (Or.inr ⟨claim, rfl⟩)
      · exact turn _ _ _ (claims.trans (waits reserved others)) unchanged (Or.inl others)
  · obtain ⟨removes, leaves⟩ := serveEntry_withdrawal me ⟨s.tracker.position + 1, r, repaired, c⟩ e
      ⟨c, false⟩ a hq ending withdrawing
    refine ⟨fun mine => ?_, fun other => turn _ _ _ (leaves other) unchanged (Or.inl other)⟩
    have gone : (h.withReserver noStation).reserver ≠ me := by
      rw [Header.reserver_withReserver]
      exact legal.symm
    exact turn _ _ _ (removes mine) (Hand.departing_of_reserver_changed c _ (mine ▸ gone))
      (Or.inl gone)
  · refine ⟨fun own => ?_, fun other => s.servesAlone_unchanged r u repaired c before after e _ _ _
      hs hn (serveEntry_release_other me _ e ⟨c, false⟩ a hq other)⟩
    obtain ⟨cleared, owner, -⟩ := h.passedOn_spec
    have distinct : h.reserver ≠ me := Header.reserver_ne_of_owner good legal (Or.inr own)
    have released : ∀ header next, h.passedOn = header → h.reserver = next →
        goes (departs header) (before ++ after) [record .done (.released next h.generation)] := by
      rintro _ _ rfl rfl
      refine turn _ _ _ (serveEntry_release_own me _ e ⟨c, false⟩ a hq own)
        (Hand.departing_of_owner_changed c h.passedOn ?_)
        (Or.inl fun mine => legal (mine.symm.trans cleared))
      exact fun same => distinct (owner.symm.trans (same.trans own))
    exact ⟨fun reserved => released _ _ (if_neg reserved) rfl,
      fun unreserved => released _ _ (if_pos unreserved) unreserved⟩

/-! ### The handoff step (R104 to R107) -/

/-- The entries that the handoff step looks for: CLAIMs of the cell's position (R104). -/
theorem Entry.claimsAt_iff (e : Entry) (p : Nat) :
    e.claimsAt p = true ↔ e.request.kind = .claim ∧ e.position = p := by
  simp only [Entry.claimsAt, Bool.and_eq_true, beq_iff_eq]

/-- The handoff step returns a cell for which no CLAIM waits, as an orphan (R107). -/
theorem State.handoffStep_orphan (s : State) (a : Arrival) (h : Hand)
    (handed : h.header.owner = s.port.station ∧ h.header.handoff = true)
    (unclaimed : ∀ e ∈ s.engine.table, ¬e.claimsAt a.position = true) :
    s.handoffStep a h =
      (s.post (.orphanReturned h.header.address a.position h.header.reserver h.header.generation),
        h.withHeader h.header.passedOn, 4) := by
  obtain ⟨-, owner, -⟩ := h.header.passedOn_spec
  have unfound : s.engine.table.find? (Entry.claimsAt a.position) = none :=
    List.find?_eq_none.mpr unclaimed
  rw [← owner]
  simp only [State.handoffStep, unfound]
  rw [if_pos handed]
  rfl

/-- The handoff step with a CLAIM for the cell takes the entry from the table: one that waits is
HANDED OVER the cell, and for a WITHDRAWING one the cell is returned (R104 to R106). -/
theorem State.handoffStep_claim (s : State) (a : Arrival) (h : Hand) (before after : List Entry)
    (e : Entry) (handed : h.header.owner = s.port.station ∧ h.header.handoff = true)
    (ht : s.engine.table = before ++ e :: after) (he : e.claimsAt a.position = true)
    (ho : ∀ x ∈ before, ¬x.claimsAt a.position = true) :
    (e.state = .pending ∨ e.state = .reserved → s.handoffStep a h =
      ((s.withTable (before ++ after)).pushRecords
        [{ e.completion s.tracker.revolution .done
            (.claimed h.header.generation h.header.reserver) with how := some .handedOver }],
        h.withHeader (h.header.withHandoff false), 3))
    ∧ ∀ ending, e.state = .withdrawing ending → s.handoffStep a h =
      ((s.withTable (before ++ after)).pushRecords
        [{ e.completion s.tracker.revolution ending.result
            (.returned h.header.reserver h.header.generation) with returned := true }],
        h.withHeader h.header.passedOn, 3) := by
  obtain ⟨-, owner, -⟩ := h.header.passedOn_spec
  have found : s.engine.table.find? (Entry.claimsAt a.position) = some e := by
    rw [ht, List.find?_append, List.find?_eq_none.mpr ho, List.find?_cons_of_pos he]
    rfl
  have erased : s.engine.table.eraseP (Entry.claimsAt a.position) = before ++ after := by
    rw [ht, List.eraseP_append_right _ ho, List.eraseP_cons_of_pos he]
  simp only [State.handoffStep, found, erased]
  rw [if_pos handed]
  refine ⟨?_, fun ending hs => ?_⟩
  · rintro (hs | hs) <;> (rw [hs]; rfl)
  · rw [hs, ← owner]
    rfl

/-! ### What the handoff step and the stages after it hand on (O49) -/

/-- An accepted cell departs as the handoff step and the later stages leave it, with the notices and
records that they add: what they do at every station with the engine, the number and the revolution
count of this one (R84, R129). -/
theorem State.accepts_handoff (s : State) (r : Reception) (u : State) (repaired : Repaired)
    (c d : Cell) (engine : Engine) (hand : Hand) (records : List Completion)
    (notices : List NoticeBody) (h : s.accepts r u repaired c) (hd : hand.departing c = d)
    (hs : ∀ w : State, w.engine = s.engine → w.port = s.port →
      w.tracker.revolution = s.tracker.revolution →
      ∃ v n taken,
        w.handoffStep ⟨s.tracker.position + 1, r, repaired, c⟩ ⟨c, false⟩ = (v, taken, n)
          ∧ v.laterStages ⟨s.tracker.position + 1, r, repaired, c⟩ n taken
            = ({ w with
                engine
                queues := { w.posting notices with
                  completions := w.queues.completions ++ records } }, hand)) :
    ∃ t, exec (.cellArrival r) s = .next t
      ∧ u.handsOn t c d engine records notices := by
  subst hd
  obtain ⟨-, -, -, hu, -⟩ := s.accepts_passage r u repaired c h
  have same : u.engine = s.engine ∧ u.port = s.port ∧ u.tracker.position = s.tracker.position
      ∧ u.tracker.revolution = s.tracker.revolution := by
    rw [hu]
    exact ⟨rfl, rfl, rfl, rfl⟩
  obtain ⟨hengine, port, position, revolution⟩ := same
  obtain ⟨v, n, taken, step, later⟩ := hs
    { u.delivered.advanced with queues := u.posting (u.watchNotice c).toList } hengine port
    revolution
  have compared : u.delivered.advanced.watchCompare (s.tracker.position + 1) c
      = { u.delivered.advanced with queues := u.posting (u.watchNotice c).toList } :=
    position ▸ u.watchCompare_advanced c
  have stages : u.delivered.advanced.stages ⟨s.tracker.position + 1, r, repaired, c⟩
      = v.laterStages ⟨s.tracker.position + 1, r, repaired, c⟩ n taken := by
    simp only [State.stages, State.laterStages, compared, step]
  refine s.accepts_handsOn r u repaired c engine hand records notices h ?_
  rw [stages, later, u.posting_append]
  dsimp only
  rw [u.completions_posting]
  rfl

/-- A handed-over cell for which the handoff step completes the one matching entry: it departs with
the header that the step leaves, and the other stages find nothing to do (R104 to R106). -/
theorem State.accepts_completes (s : State) (r : Reception) (u : State) (repaired : Repaired)
    (c : Cell) (table : List Entry) (record : Completion) (header : Header)
    (ha : s.accepts r u repaired c) (idle : s.engine.sweep.active = false)
    (ho : ∀ x ∈ table, x.position ≠ s.tracker.position + 1) (changed : header ≠ c.header)
    (unreserved : header.reserver ≠ s.port.station)
    (step : ∀ w : State, w.engine = s.engine → w.port = s.port →
      w.tracker.revolution = s.tracker.revolution →
      w.handoffStep ⟨s.tracker.position + 1, r, repaired, c⟩ ⟨c, false⟩
        = ((w.withTable table).pushRecords [record], ⟨{ c with header }, false⟩, 3)) :
    ∃ t, exec (.cellArrival r) s = .next t
      ∧ u.handsOn t c { c with header := header.sealed } { s.engine with table } [record] [] := by
  refine s.accepts_handoff r u repaired c _ _ ⟨{ c with header }, false⟩ [record] [] ha
    (Hand.departing_changed c header changed)
    fun w engine port revolution => ⟨_, _, _, step w engine port revolution, ?_⟩
  rw [← engine] at idle ⊢
  rw [← port] at unreserved
  have served := State.serviceStage_of_none_served ((w.withTable table).pushRecords [record])
    ⟨s.tracker.position + 1, r, repaired, c⟩ 3 ⟨{ c with header }, false⟩ ho
  have later := State.laterStages_of_served _ _ 3 _ _ _ [] served (Or.inl idle) unreserved
  rw [List.append_nil] at later
  exact later

/-- A handed-over cell for which no CLAIM waits: it is returned and reported as an orphan, and
service has the cell as returned (R107). -/
theorem State.accepts_orphan (s : State) (r : Reception) (u : State) (repaired : Repaired)
    (c : Cell) (table : List Entry) (records : List Completion) (ha : s.accepts r u repaired c)
    (owned : c.header.owner = s.port.station) (handed : c.header.handoff = true)
    (unclaimed : ∀ e ∈ s.engine.table, ¬e.claimsAt (s.tracker.position + 1) = true)
    (served : ∀ w : State, w.engine = s.engine → w.port = s.port →
      w.tracker.revolution = s.tracker.revolution →
      w.serviceStage ⟨s.tracker.position + 1, r, repaired, c⟩ 4
          ⟨{ c with header := c.header.passedOn }, false⟩
        = ((w.withTable table).pushRecords records,
          ⟨{ c with header := c.header.passedOn }, false⟩)) :
    ∃ t, exec (.cellArrival r) s = .next t
      ∧ u.handsOn t c { c with header := c.header.passedOn.sealed } { s.engine with table } records
        [.orphanReturned c.header.address (s.tracker.position + 1) c.header.reserver
          c.header.generation] := by
  obtain ⟨-, -, good, -⟩ := s.accepts_passage r u repaired c ha
  have legal := State.accepts_station ha
  obtain ⟨cleared, owner, -⟩ := c.header.passedOn_spec
  have unowned : c.header.passedOn.owner ≠ s.port.station := by
    rw [owner]
    exact Header.reserver_ne_of_owner good legal (Or.inr owned)
  refine s.accepts_handoff r u repaired c _ _ ⟨{ c with header := c.header.passedOn }, false⟩
    records _ ha (Hand.departing_of_owner_changed c _ (owned ▸ unowned))
    fun w engine port revolution => ?_
  have returned := served (w.post (.orphanReturned c.header.address (s.tracker.position + 1)
    c.header.reserver c.header.generation)) engine port revolution
  rw [← engine] at unclaimed ⊢
  rw [← port] at owned unowned legal
  have later := State.laterStages_of_served _ _ 4 _ _ table records returned (Or.inr unowned)
    fun mine => legal (mine.symm.trans cleared)
  refine ⟨_, _, _, w.handoffStep_orphan _ ⟨c, false⟩ ⟨owned, handed⟩ unclaimed, later.trans ?_⟩
  simp only [State.post, Queues.completions_post]
  rfl

/-- Settles O49: the handoff step with the CLAIM that it finds, or an orphan and the service of the
cell as returned. -/
theorem handoffCompletesReturnsOrReportsAnOrphan :
    Obligations.HandoffCompletesReturnsOrReportsAnOrphan := by
  intro r s u repaired c ha h p owned handed departs returned orphan
  obtain ⟨-, -, good, -⟩ := s.accepts_passage r u repaired c ha
  have legal := State.accepts_station ha
  obtain ⟨cleared, owner, -, hand, -⟩ := h.passedOn_spec
  have distinct : h.reserver ≠ s.port.station :=
    Header.reserver_ne_of_owner good legal (Or.inr owned)
  have orphaned := s.accepts_orphan r u repaired c
  refine ⟨?_, fun unmatched => ?_, fun before e after a table at_p others hq => ?_⟩
  · intro before e after a idle table at_p others hq record
    have completes := fun record header => s.accepts_completes r u repaired c (before ++ after)
      record header ha idle others
    have claim : e.claimsAt p = true := (e.claimsAt_iff p).mpr ⟨by rw [hq]; rfl, at_p⟩
    have step := fun (w : State) (engine : w.engine = s.engine) (port : w.port = s.port) =>
      w.handoffStep_claim ⟨p, r, repaired, c⟩ ⟨c, false⟩ before after e (port ▸ ⟨owned, handed⟩)
        (engine ▸ table) claim fun x hx hc =>
          others x (List.mem_append_left after hx) ((x.claimsAt_iff p).mp hc).2
    refine ⟨fun live => ?_, fun ending withdrawing => ?_⟩
    · have changed : h.withHandoff false ≠ h := fun same => by
        have kept := congrArg Header.handoff same
        rw [Header.handoff_withHandoff, handed] at kept
        exact Bool.false_ne_true kept
      refine completes _ _ changed distinct fun w engine port revolution => ?_
      obtain ⟨taken, -⟩ := step w engine port
      rw [revolution] at taken
      exact taken live
    · have changed : h.passedOn ≠ h := fun same =>
        distinct (owner.symm.trans ((congrArg Header.owner same).trans owned))
      refine completes _ h.passedOn changed (fun mine => legal (mine.symm.trans cleared))
        fun w engine port revolution => ?_
      obtain ⟨-, returns⟩ := step w engine port
      rw [revolution] at returns
      exact returns ending withdrawing
  · refine orphaned s.engine.table [] ha owned handed
      (fun e he hc => unmatched e he ((e.claimsAt_iff p).mp hc).2) fun w engine _ _ => ?_
    rw [← engine] at unmatched ⊢
    exact w.serviceStage_of_none_served _ 4 _ unmatched
  · have unclaimed : ∀ x ∈ s.engine.table, ¬x.claimsAt p = true := by
      intro x hx hc
      obtain ⟨kind, position⟩ := (x.claimsAt_iff p).mp hc
      rw [table, List.mem_append, List.mem_cons] at hx
      rcases hx with hx | rfl | hx
      · exact others x (List.mem_append_left after hx) position
      · rw [hq] at kind
        nomatch kind
      · exact others x (List.mem_append_right before hx) position
    have handoff : h.passedOn.handoff = (h.reserver != noStation) := by
      rw [Bool.eq_iff_iff, hand, bne_iff_ne]
    have unowned : h.passedOn.owner ≠ s.port.station := by
      rw [owner]
      exact distinct
    have refused := serveEntry_release_other s.port.station ⟨p, r, repaired, c⟩ e
      ⟨{ c with header := h.passedOn }, false⟩ a hq unowned
    refine orphaned (before ++ after) _ ha owned handed unclaimed fun w engine port revolution => ?_
    rw [← engine] at table
    rw [← port] at refused
    have served := w.serviceStage_of_one ⟨p, r, repaired, c⟩ 3
      ⟨{ c with header := h.passedOn }, false⟩ before after e table at_p others
    simp only [refused] at served
    rw [served, ← revolution, ← handoff, ← owner]
    rfl

end Sys2Proof.Machine
end

section
/-! Proofs of the statements about watching cells: what a trigger code names, and what WATCH SET and
WATCH CLEAR do to the entry that their frame names. -/

namespace Sys2Proof.Machine

/-! ### WATCH SET (O29) -/

/-- The code of a trigger names it. -/
@[simp] theorem triggerOf_code (t : Trigger) : triggerOf t.code = some t := by
  cases t <;> rfl

/-- A byte that is the code of no trigger names none. -/
theorem triggerOf_of_unknown (b : Byte) (h : ∀ t : Trigger, b ≠ t.code) : triggerOf b = none := by
  simp only [triggerOf, if_neg (show b ≠ 1#8 from h .change), if_neg (show b ≠ 2#8 from h .owner),
    if_neg (show b ≠ 3#8 from h .both)]

/-- A stored entry reports its trigger and its capture by the bytes of the frame (log 14). -/
theorem bytes_storedWatch (f : WatchSetFrame) (t : Trigger) :
    (storedWatch f t).bytes =
      [1#8, codeByte (field5 f.valueStation &&& field5 f.stationCare),
        codeByte (field5 f.valueIndex &&& field5 f.indexCare), codeByte (field5 f.stationCare),
        codeByte (field5 f.indexCare), t.code, if f.capture = 0#8 then 0#8 else 1#8] := by
  by_cases h : f.capture = 0#8 <;> simp [WatchEntry.bytes, storedWatch, boolByte, h]

/-- A WATCH SET in RECEIVING has its effect and is answered. -/
theorem exec_watchSet (f : WatchSetFrame) (s : State) (hr : s.receiving = true) :
    exec (.watchSet f) s = .next
      ((watchSetEffect f s).1.answered .watchSet f.fields (watchSetEffect f s).2) := by
  simp only [exec, execWatchSet, s.takeCommand_of_receiving _ _ _ hr]

/-- A WATCH SET that names an entry and a trigger writes the entry whole. -/
theorem watchSetEffect_stored (f : WatchSetFrame) (s : State) (t : Trigger)
    (hn : watchNumber f.entry ≤ 7) (ht : f.trigger = t.code) :
    watchSetEffect f s =
      (s.withWatchEntry (watchNumber f.entry) (storedWatch f t),
        Status.accepted.code :: (storedWatch f t).bytes) := by
  simp only [watchSetEffect, ht, triggerOf_code, if_neg (Nat.not_lt.mpr hn)]

/-- A WATCH SET that names no entry or no trigger is MALFORMED and writes nothing. -/
theorem watchSetEffect_malformed (f : WatchSetFrame) (s : State)
    (h : 7 < watchNumber f.entry ∨ ∀ t : Trigger, f.trigger ≠ t.code) :
    watchSetEffect f s = (s, Status.malformed.code :: List.replicate 7 0#8) := by
  rcases h with beyond | unknown
  · cases ht : triggerOf f.trigger with
    | none => simp only [watchSetEffect, ht]
    | some t => simp only [watchSetEffect, ht, if_pos beyond]
  · simp only [watchSetEffect, triggerOf_of_unknown _ unknown]

/-! ### WATCH CLEAR (O29) -/

/-- The entry that a number below 8 names. -/
theorem State.watchEntry_of_lt (s : State) (n : Nat) (h : n < 8) :
    s.watchEntry n = s.watch.entries[n] := by
  simp [State.watchEntry, h]

/-- Replacing an entry whose number is below 8 writes within the table. -/
theorem State.withWatchEntry_of_lt (s : State) (n : Nat) (w : WatchEntry) (h : n < 8) :
    s.withWatchEntry n w =
      { s with watch := { s.watch with entries := s.watch.entries.set n w } } := by
  have written : s.watch.entries.setIfInBounds n w = s.watch.entries.set n w := by
    ext i hi
    rw [Vector.getElem_setIfInBounds, Vector.getElem_set]
  rw [State.withWatchEntry, written]

/-- A WATCH CLEAR in RECEIVING has its effect and is answered. -/
theorem exec_watchClear (entry : Byte) (s : State) (hr : s.receiving = true) :
    exec (.watchClear entry) s = .next
      ((watchClearEffect entry s).1.answered .watchClear [entry] (watchClearEffect entry s).2) := by
  simp only [exec, execWatchClear, s.takeCommand_of_receiving _ _ _ hr]

/-- A WATCH CLEAR that names an entry disables it and tells whether it was enabled. -/
theorem watchClearEffect_disabled (entry : Byte) (s : State) (h : watchNumber entry < 8) :
    watchClearEffect entry s =
      (s.withWatchEntry (watchNumber entry)
          { s.watch.entries[watchNumber entry] with enabled := false },
        [Status.accepted.code, boolByte s.watch.entries[watchNumber entry].enabled]) := by
  have inTable : ¬7 < watchNumber entry := by omega
  simp only [watchClearEffect, if_neg inTable, s.watchEntry_of_lt _ h]

/-- A WATCH CLEAR that names no entry is MALFORMED and writes nothing. -/
theorem watchClearEffect_malformed (entry : Byte) (s : State) (h : 7 < watchNumber entry) :
    watchClearEffect entry s = (s, [Status.malformed.code, 0#8]) := by
  simp only [watchClearEffect, if_pos h]

/-- Settles O29: each command by whether its frame names an entry, WATCH SET also by whether it
names a trigger. -/
theorem watchSetAndClearWriteTheirEntry : Obligations.WatchSetAndClearWriteTheirEntry := by
  refine ⟨fun f s hr => ⟨fun t hn ht => ?stored, fun refused => ?setRefused⟩, rfl,
    fun entry s hr => ⟨fun hn => ?disabled, fun beyond => ?clearRefused⟩⟩
  case stored =>
    rw [exec_watchSet f s hr, watchSetEffect_stored f s t hn ht, bytes_storedWatch, ← ht]
    rfl
  case setRefused =>
    rw [exec_watchSet f s hr, watchSetEffect_malformed f s refused]
    rfl
  case disabled =>
    have named : watchNumber entry < 8 := hn
    rw [exec_watchClear entry s hr, watchClearEffect_disabled entry s named,
      s.withWatchEntry_of_lt _ _ named]
    rfl
  case clearRefused =>
    rw [exec_watchClear entry s hr, watchClearEffect_malformed entry s beyond]
    rfl

end Sys2Proof.Machine
end

section
/-! Proofs of the statements about the home image: what HOME LOAD and HOME READ do with the entry
that their frame names. -/

namespace Sys2Proof.Machine

/-- The entry that an index below 32 names. -/
theorem State.homeEntry_of_lt (s : State) (i : Nat) (h : i < 32) : s.homeEntry i = s.home[i] := by
  simp [State.homeEntry, h]

/-- Replacing an entry whose index is below 32 writes within the home image. -/
theorem State.withHomeEntry_of_lt (s : State) (i : Nat) (e : HomeEntry) (h : i < 32) :
    s.withHomeEntry i e = { s with home := s.home.set i e } := by
  have written : s.home.setIfInBounds i e = s.home.set i e := by
    ext j hj
    rw [Vector.getElem_setIfInBounds, Vector.getElem_set]
  rw [State.withHomeEntry, written]

/-! ### HOME LOAD (R137) -/

/-- A HOME LOAD that names no entry is MALFORMED in every loop state. -/
theorem State.homeLoadRefusal_malformed (s : State) (i : Nat) (h : 31 < i) :
    s.homeLoadRefusal i = some .malformed := if_pos h

/-- A HOME LOAD that names an entry is refused for no cause outside CENSUS, BUILD and RUNNING. -/
theorem State.homeLoadRefusal_none (s : State) (i : Nat) (h : i < 32)
    (allowed : s.loop.state = .offline ∨ s.loop.state = .broken ∨ s.loop.state = .excluded) :
    s.homeLoadRefusal i = none := by
  have named : ¬31 < i := by omega
  rcases allowed with state | state | state <;>
    simp only [State.homeLoadRefusal, if_neg named, state]

/-- A HOME LOAD that names an entry is refused WRONG STATE while the loop forms or runs. -/
theorem State.homeLoadRefusal_wrongState (s : State) (i : Nat) (h : i < 32)
    (forbidden : s.loop.state = .census ∨ s.loop.state = .build ∨ s.loop.state = .running) :
    s.homeLoadRefusal i = some .wrongState := by
  have named : ¬31 < i := by omega
  rcases forbidden with state | state | state <;>
    simp only [State.homeLoadRefusal, if_neg named, state]

/-- A HOME LOAD in RECEIVING that passes its checks replaces its entry, and its answer tells the
source that the entry had before. -/
theorem exec_homeLoad_accepted (index generation : Byte) (words : Payload) (s : State)
    (hr : s.receiving = true) (h : homeIndex index < 32)
    (passes : s.homeLoadRefusal (homeIndex index) = none) :
    exec (.homeLoad index generation words) s = .next
      ({ s with
          home := s.home.set (homeIndex index)
            { payload := words, generation, source := .loaded } : State }.answered .homeLoad
        (index :: generation :: payloadBytes words)
        [Status.accepted.code, natByte (homeIndex index),
          s.home[homeIndex index].source.code]) := by
  simp only [exec, execHomeLoad, s.takeCommand_of_receiving _ _ _ hr, homeLoadEffect, passes,
    s.homeEntry_of_lt _ h, s.withHomeEntry_of_lt _ _ h]

/-- A HOME LOAD in RECEIVING that fails a check is answered with the status alone. -/
theorem exec_homeLoad_refused (index generation : Byte) (words : Payload) (s : State)
    (hr : s.receiving = true) (status : Status)
    (fails : s.homeLoadRefusal (homeIndex index) = some status) :
    exec (.homeLoad index generation words) s = .next
      (s.answered .homeLoad (index :: generation :: payloadBytes words)
        [status.code, 0#8, 0#8]) := by
  simp only [exec, execHomeLoad, s.takeCommand_of_receiving _ _ _ hr, homeLoadEffect, fails]

/-! ### HOME READ (R139) -/

/-- A HOME READ in RECEIVING that names an entry is answered with the entry, whatever the loop
state. -/
theorem exec_homeRead_entry (index : Byte) (s : State) (hr : s.receiving = true)
    (h : homeIndex index < 32) :
    exec (.homeRead index) s = .next
      (s.answered .homeRead [index]
        (Status.accepted.code :: natByte (homeIndex index)
          :: s.home[homeIndex index].source.code :: s.home[homeIndex index].generation
          :: payloadBytes s.home[homeIndex index].payload)) := by
  have named : ¬31 < homeIndex index := by omega
  simp only [exec, execHomeRead, s.takeCommand_of_receiving _ _ _ hr, homeReadEffect,
    if_neg named, s.homeEntry_of_lt _ h]

/-- A HOME READ in RECEIVING that names no entry is MALFORMED. -/
theorem exec_homeRead_malformed (index : Byte) (s : State) (hr : s.receiving = true)
    (h : 31 < homeIndex index) :
    exec (.homeRead index) s = .next
      (s.answered .homeRead [index] (Status.malformed.code :: List.replicate 67 0#8)) := by
  simp only [exec, execHomeRead, s.takeCommand_of_receiving _ _ _ hr, homeReadEffect, if_pos h]

/-- Settles O30: HOME LOAD by whether its frame names an entry and then by the loop state, HOME READ
by whether its frame names an entry. -/
theorem homeLoadAndReadUseTheirEntry : Obligations.HomeLoadAndReadUseTheirEntry := by
  refine ⟨rfl, payloadBytes_highFirst, fun index s hr => ⟨fun generation words =>
    ⟨fun named allowed => ?loaded, fun beyond => ?malformed, fun named forbidden => ?wrongState⟩,
    fun named => exec_homeRead_entry index s hr named,
    fun beyond => exec_homeRead_malformed index s hr beyond⟩⟩
  case loaded =>
    exact exec_homeLoad_accepted index generation words s hr named
      (s.homeLoadRefusal_none _ named allowed)
  case malformed =>
    exact exec_homeLoad_refused index generation words s hr .malformed
      (s.homeLoadRefusal_malformed _ beyond)
  case wrongState =>
    exact exec_homeLoad_refused index generation words s hr .wrongState
      (s.homeLoadRefusal_wrongState _ named forbidden)

end Sys2Proof.Machine
end

section
/-! Proofs of the statements about the completion queue and the notice queue: what TAKE and NOTE
answer, what leaves a queue at the final byte of a response, how the records are laid out, and what
a full notice queue does. -/

namespace Sys2Proof.Machine

/-! ### The final byte of a response (R164, R169) -/

/-- A port in RESPONDING with a command in hand shifts out the response to it. -/
theorem State.responding_of_inHand (s : State) (k : HostCommand) (hr : s.resetHeld = false)
    (hp : s.port.phase = .responding)
    (hk : s.port.command.map CommandInHand.code = some k.code) : s.responding k = true := by
  simp [State.responding, Port.holds, hr, hp, hk]

/-- The port after the last byte of the response in hand. -/
theorem Port.spent_of_response (p : Port) (r : ResponseInHand) (h : p.response = some r) :
    p.spent = { p with phase := .spent, response := some ⟨r.bytes, r.bytes.length⟩ } := by
  simp only [Port.spent, h, Option.map_some]

/-- The status of the response in hand is its first byte. -/
theorem Port.responseStatus_of_response (p : Port) (r : ResponseInHand) (h : p.response = some r) :
    p.responseStatus = r.bytes.head? := by
  simp only [Port.responseStatus, h, Option.bind_some]

/-- A rise of CSN leaves both queues. -/
theorem exec_csnRise_queues (received : List Byte) (s : State) :
    ∃ t, exec (.csnRise received) s = .next t ∧ t.queues = s.queues := ⟨_, rfl, rfl⟩

/-! ### TAKE (R147) -/

/-- TAKE in RECEIVING answers the oldest completion record and changes no queue. -/
theorem exec_take_record (s : State) (hr : s.receiving = true) (c : Completion)
    (rest : List Completion) (h : s.queues.completions = c :: rest) :
    exec .take s = .next (s.answered .take []
      (Status.record.code :: natByte (rest.length + 1) :: c.bytes)) := by
  simp only [exec, execTake, s.takeCommand_of_receiving _ _ _ hr, takeEffect, h, List.length_cons]

/-- TAKE in RECEIVING finds no completion record (log 16). -/
theorem exec_take_empty (s : State) (hr : s.receiving = true) (h : s.queues.completions = []) :
    exec .take s = .next (s.answered .take [] [Status.empty.code, natByte 0]) := by
  simp only [exec, execTake, s.takeCommand_of_receiving _ _ _ hr, takeEffect, h, List.length_nil]

/-- The final byte of a TAKE response with a record takes the oldest record from the queue. -/
theorem exec_takeFinalByte_record (s : State) (hs : s.responding .take = true)
    (h : s.port.responseStatus = some Status.record.code) :
    exec .takeFinalByte s = .next
      { s with
        port := s.port.spent
        queues := { s.queues with completions := s.queues.completions.tail } } := by
  simp only [exec, execTakeFinalByte, if_pos hs, if_pos h]

/-- The final byte of a TAKE response without a record only ends it (log 23). -/
theorem exec_takeFinalByte_noRecord (s : State) (hs : s.responding .take = true)
    (h : s.port.responseStatus ≠ some Status.record.code) :
    exec .takeFinalByte s = .next { s with port := s.port.spent } := by
  simp only [exec, execTakeFinalByte, if_pos hs, if_neg h]

/-- The oldest completion record counts one in the commitment (R62). -/
theorem State.commitment_cons (s : State) (c : Completion) (rest : List Completion)
    (h : s.queues.completions = c :: rest) :
    s.commitment = s.engine.table.length + rest.length + 1 := by
  simp only [State.commitment, h, List.length_cons, Nat.add_assoc]

/-! ### NOTE (R151, R152) -/

/-- NOTE in RECEIVING answers the lost count and the oldest notice and changes no queue. -/
theorem exec_note_record (s : State) (hr : s.receiving = true) (n : Notice) (rest : List Notice)
    (h : s.queues.notices = n :: rest) :
    exec .note s = .next (s.answered .note []
      (Status.record.code :: natByte (rest.length + 1)
        :: (natBytes s.queues.lost ++ n.bytes))) := by
  simp only [exec, execNote, s.takeCommand_of_receiving _ _ _ hr, noteEffect, h, List.length_cons]

/-- NOTE in RECEIVING finds no notice. -/
theorem exec_note_empty (s : State) (hr : s.receiving = true) (h : s.queues.notices = []) :
    exec .note s = .next
      (s.answered .note [] (Status.empty.code :: natBytes s.queues.lost)) := by
  simp only [exec, execNote, s.takeCommand_of_receiving _ _ _ hr, noteEffect, h]

/-- The final byte of a NOTE response with a record takes the oldest notice from the queue. -/
theorem exec_noteFinalByte_record (s : State) (hs : s.responding .note = true)
    (h : s.port.responseStatus = some Status.record.code) :
    exec .noteFinalByte s = .next
      { s with
        port := s.port.spent
        queues := s.queues.removeNotice s.tracker.revolution } := by
  simp only [exec, execNoteFinalByte, if_pos hs, if_pos h]

/-- The final byte of a NOTE response without a record only ends it (log 23). -/
theorem exec_noteFinalByte_noRecord (s : State) (hs : s.responding .note = true)
    (h : s.port.responseStatus ≠ some Status.record.code) :
    exec .noteFinalByte s = .next { s with port := s.port.spent } := by
  simp only [exec, execNoteFinalByte, if_pos hs, if_neg h]

/-- With nothing lost, or a LOST record still standing, the oldest notice leaves and none enters. -/
theorem Queues.removeNotice_plain (q : Queues) (w : Word) (n : Notice) (rest : List Notice)
    (h : q.notices = n :: rest) (hn : q.lost = 0 ∨ ∃ x ∈ rest, x.isLost = true) :
    q.removeNotice w = { q with notices := rest } := by
  have enters_not : ¬(q.lost ≠ 0 ∧ rest.any Notice.isLost = false) := by
    rintro ⟨lost, none_stands⟩
    rcases hn with zero | ⟨x, hx, stands⟩
    · exact lost zero
    · exact List.any_eq_false.mp none_stands x hx stands
  simp only [Queues.removeNotice, h, List.tail_cons, if_neg enters_not]

/-- With notices lost and no LOST record standing, a LOST record enters as the oldest leaves. -/
theorem Queues.removeNotice_entersLost (q : Queues) (w : Word) (n : Notice) (rest : List Notice)
    (h : q.notices = n :: rest) (lost : q.lost ≠ 0) (hn : ∀ x ∈ rest, x.isLost = false) :
    q.removeNotice w = { q with notices := rest ++ [⟨.lost q.lost, w⟩], lost := 0 } := by
  have enters : q.lost ≠ 0 ∧ rest.any Notice.isLost = false :=
    ⟨lost, List.any_eq_false.mpr fun x hx => by simp [hn x hx]⟩
  simp only [Queues.removeNotice, h, List.tail_cons, if_pos enters]

/-! ### The bits of a record's bytes (R178, R179) -/

/-- The detail byte has Returned in bit 0 and the how above it. -/
theorem Completion.detail_bits (c : Completion) :
    c.detail = bitAt 0 c.returned + (howCode c.how).shiftLeft 1 := by
  rw [Completion.detail]
  rcases c.how with _ | how
  · cases c.returned <;> rfl
  · cases how <;> cases c.returned <;> rfl

/-- The flags of a header summary are its bits 0 to 2. -/
theorem HeaderSummary.flags_bits (h : HeaderSummary) :
    h.flags = bitAt 0 h.handoff + bitAt 1 h.damaged + bitAt 2 h.restored := by
  rw [HeaderSummary.flags]
  cases h.handoff <;> cases h.damaged <;> cases h.restored <;> rfl

/-- The last byte of a PEEK record has an indication for each check and the repair above them. -/
theorem peekFlags_bits (headerGood payloadGood : Bool) (repaired : Repaired) :
    boolByte headerGood ||| (boolByte payloadGood).shiftLeft 1 ||| repaired.code.shiftLeft 2
      = bitAt 0 headerGood + bitAt 1 payloadGood + repaired.code.shiftLeft 2 := by
  cases headerGood <;> cases payloadGood <;> cases repaired <;> rfl

/-- Four indications as one byte are its bits 0 to 3. -/
theorem bitsByte_four (a b c d : Bool) :
    bitsByte [a, b, c, d] = bitAt 0 a + bitAt 1 b + bitAt 2 c + bitAt 3 d := by
  cases a <;> cases b <;> cases c <;> cases d <;> rfl

/-! ### The layout of records (R144 to R146, R179) -/

/-- A completion record item by item. -/
theorem Completion.bytes_eq (c : Completion) :
    c.bytes =
      [natByte c.data.bytes.length, c.tag, c.request.kind.code] ++ c.request.targetBytes
        ++ highFirst c.position ++ highFirst c.acceptance.toNat
        ++ [c.result.code, bitAt 0 c.returned + (howCode c.how).shiftLeft 1]
        ++ highFirst c.revolution.toNat ++ c.data.bytes := by
  rw [Completion.bytes, natBytes_highFirst, wordBytes_highFirst, wordBytes_highFirst,
    c.detail_bits]

/-- A header summary item by item. -/
theorem HeaderSummary.bytes_eq (h : HeaderSummary) :
    h.bytes = stationIndex h.address ++ [h.generation, codeByte h.owner, codeByte h.reserver,
      bitAt 0 h.handoff + bitAt 1 h.damaged + bitAt 2 h.restored] := by
  rw [HeaderSummary.bytes, addressBytes_stationIndex, h.flags_bits]

/-- A notice record item by item. -/
theorem Notice.bytes_eq (n : Notice) :
    n.bytes = [natByte n.body.bytes.length, n.body.kindCode] ++ highFirst n.revolution.toNat
      ++ n.body.bytes := by
  rw [Notice.bytes, wordBytes_highFirst]

/-- The content of a watch notice item by item. -/
theorem WatchReport.bytes_eq (w : WatchReport) :
    w.bytes = stationIndex w.address ++ highFirst w.position
      ++ [bitsByte w.firing, bitAt 0 w.generationDiffered + bitAt 1 w.ownerDiffered
            + bitAt 2 w.damaged + bitAt 3 w.payload.isSome,
          w.oldGeneration, codeByte w.oldOwner, w.newGeneration, codeByte w.newOwner]
      ++ (w.payload.map wordsHighFirst).getD [] := by
  rw [WatchReport.bytes, addressBytes_stationIndex, natBytes_highFirst, bitsByte_four,
    funext payloadBytes_highFirst]

/-- The content of a DAMAGE FOUND notice item by item. -/
theorem NoticeBody.bytes_damageFound (finding : Finding) (p : Nat) (good : Bool) (count : Nat) :
    (NoticeBody.damageFound finding p good count).bytes =
      finding.parts.1 :: (highFirst p ++ finding.parts.2.1
        ++ [finding.parts.2.2, bitAt 0 good, natByte count]) := by
  rw [NoticeBody.bytes, natBytes_highFirst, boolByte_bitAt]

/-- An address and its position, then the items after them. -/
theorem addressed_highFirst (a : Address) (p : Nat) (items : List Byte) :
    addressBytes a ++ natBytes p ++ items = stationIndex a ++ highFirst p ++ items := by
  rw [addressBytes_stationIndex, natBytes_highFirst]

/-! ### TAKE and the completion records (O26) -/

/-- Settles O26: TAKE by whether a record waits, its final byte by whether one was returned, and the
layout of the record and of each kind of data. -/
theorem takeReturnsTheOldestCompletion : Obligations.TakeReturnsTheOldestCompletion := by
  refine ⟨fun s => ⟨fun hr => ⟨exec_take_record s hr, exec_take_empty s hr⟩,
      fun r hr hp hk h => ?finalByte,
      fun received => exec_csnRise_queues received s⟩,
    fun c => ?record, rfl, ⟨fun p => ⟨rfl, wordBytes_highFirst p⟩, fun a => ?target⟩, ?data⟩
  case finalByte =>
    have responding := s.responding_of_inHand .take hr hp hk
    have status := s.port.responseStatus_of_response r h
    have spent := s.port.spent_of_response r h
    refine ⟨fun c rest hq recorded =>
        ⟨_, exec_takeFinalByte_record s responding (status.trans recorded), ?_, ?_⟩,
      fun unrecorded => ?_⟩
    · rw [spent, hq, List.tail_cons]
    · rw [s.commitment_cons c rest hq]
      simp only [State.commitment, hq, List.tail_cons]
    · rw [exec_takeFinalByte_noRecord s responding (status ▸ unrecorded), spent]
  case record =>
    rw [c.bytes_eq]
    rcases c.how with _ | how
    · rfl
    · cases how <;> rfl
  case target =>
    exact ⟨⟨rfl, rfl⟩, ⟨rfl, rfl⟩, fun _ _ _ => ⟨rfl, rfl⟩, fun _ _ => ⟨rfl, rfl⟩, ⟨rfl, rfl⟩,
      ⟨rfl, rfl⟩⟩
  case data =>
    refine ⟨⟨rfl, rfl⟩, fun h words => ⟨?cell, ?cellLength⟩, fun h => ⟨h.bytes_eq, rfl⟩,
      fun h words headerGood payloadGood repaired => ⟨?raw, ?rawLength⟩, fun g => ⟨rfl, rfl⟩,
      fun owner g => ⟨rfl, rfl⟩, fun i w g => ⟨?mismatch, rfl⟩, fun g reserver => ⟨rfl, rfl⟩,
      fun station g => ⟨rfl, rfl⟩, fun station g => ⟨rfl, rfl⟩,
      fun owner handoff => ⟨?notOwner, rfl⟩⟩
    case cell =>
      rw [CompletionData.bytes, h.bytes_eq, payloadBytes_highFirst]
      rfl
    case cellLength => simp [stationIndex]
    case raw =>
      rw [CompletionData.bytes, payloadBytes_highFirst, peekFlags_bits]
      cases repaired <;> rfl
    case rawLength => simp
    case mismatch =>
      rw [CompletionData.bytes, wordBytes_highFirst]
      rfl
    case notOwner =>
      rw [CompletionData.bytes, boolByte_bitAt]
      rfl

/-! ### NOTE and the notice records (O27) -/

/-- Settles O27: NOTE by whether a notice waits, its final byte by whether one was returned and
whether a LOST record is due, and the layout of the record and of each kind of content. -/
theorem noteReturnsTheOldestNotice : Obligations.NoteReturnsTheOldestNotice := by
  refine ⟨fun s => ⟨fun hr => ⟨exec_note_record s hr, exec_note_empty s hr⟩,
      fun r hr hp hk h => ?finalByte,
      fun received => exec_csnRise_queues received s⟩,
    Notice.bytes_eq, rfl, ?content⟩
  case finalByte =>
    have responding := s.responding_of_inHand .note hr hp hk
    have status := s.port.responseStatus_of_response r h
    have spent := s.port.spent_of_response r h
    refine ⟨fun n rest hq recorded => ?_, fun unrecorded => ?_⟩
    · rw [exec_noteFinalByte_record s responding (status.trans recorded), spent]
      refine ⟨fun zero => ?_, fun stands => ?_, fun lost none_stands => ?_⟩
      · rw [s.queues.removeNotice_plain _ n rest hq (.inl zero)]
      · rw [s.queues.removeNotice_plain _ n rest hq (.inr stands)]
      · rw [s.queues.removeNotice_entersLost _ n rest hq lost none_stands]
    · rw [exec_noteFinalByte_noRecord s responding (status ▸ unrecorded), spent]
  case content =>
    refine ⟨fun expected received cause p good count =>
        ⟨rfl, NoticeBody.bytes_damageFound (.header expected received cause) p good count⟩,
      fun expected received p good count =>
        ⟨rfl, NoticeBody.bytes_damageFound (.payload expected received) p good count⟩,
      fun p good count => ⟨rfl, NoticeBody.bytes_damageFound .mark p good count⟩,
      fun w => ⟨bitsByte w.firing, getLsbD_bitsByte w.firing, rfl, ?watch⟩,
      fun a p station g => ⟨rfl, addressed_highFirst a p [codeByte station, g]⟩,
      fun a p owner g => ⟨rfl, addressed_highFirst a p [codeByte owner, g]⟩,
      fun released complete => ⟨rfl, ?sweep⟩, fun _ _ _ _ _ => ⟨rfl, rfl⟩,
      fun count => ⟨rfl, natBytes_highFirst count⟩⟩
    case watch =>
      rw [NoticeBody.bytes, w.bytes_eq]
      cases w.payload <;> rfl
    case sweep => rw [NoticeBody.bytes, natBytes_highFirst, boolByte_bitAt]

/-! ### The room of the notice queue (O28) -/

/-- A notice that finds room joins at the end, and none is lost (R150). -/
theorem Queues.post_of_room (q : Queues) (n : Notice) (h : q.notices.length < 16) :
    q.post n = { q with notices := q.notices ++ [n] } := if_pos h

/-- A notice that finds no room is dropped and counted, up to 65,535 (R150). -/
theorem Queues.post_of_full (q : Queues) (n : Notice) (h : 16 ≤ q.notices.length) :
    q.post n = { q with lost := min (q.lost + 1) 65535 } := if_neg (Nat.not_lt.mpr h)

/-- Settles O28: the entry into CENSUS posts one notice, whose fate is that of every notice. -/
theorem noticesBeyondSixteenAreCounted : Obligations.NoticesBeyondSixteenAreCounted := by
  intro hostedCount restore s hr legal hosted state
  obtain ⟨accepted, -, -⟩ := s.startRefusal_by_state _ legal hosted
  refine ⟨_, exec_start_accepted hostedCount restore s hr (accepted state), ?_⟩
  rw [State.enterCensus_eq]
  refine ⟨rfl, Queues.completions_post _ _, fun room => ?_, fun full => ?_,
    State.attn_of_notice _ (Queues.notices_post_ne_nil _ _)⟩
  · rw [State.queues_answered, Queues.post_of_room _ _ room]
    exact ⟨rfl, rfl⟩
  · rw [State.queues_answered, Queues.post_of_full _ _ full]
    exact ⟨rfl, fun below => Nat.min_eq_left below,
      fun greatest => Nat.min_eq_right (by omega)⟩

end Sys2Proof.Machine
end

section
/-! Proofs of the statements about loop break: the end of the break hold by the loop state that the
station has reached. -/

namespace Sys2Proof.Machine

/-! ### The end of the break hold (R156) -/

/-- A hold that ends in BROKEN leaves the line in CENSUS ONLY, with the cells gathered. -/
theorem exec_breakHold_broken (s : State) (ht : s.loop.holdTimer = .running)
    (hs : s.loop.state = .broken) :
    exec .breakHoldExpiry s = .next
      { s with
        loop := { s.loop with holdTimer := .stopped }
        line := { s.line with mode := .censusOnly } } := by
  simp [exec, execBreakHoldExpiry, ht, hs]

/-- A hold that outlasts the START into CENSUS ends in REPEAT with fill following off. -/
theorem exec_breakHold_census (s : State) (ht : s.loop.holdTimer = .running)
    (hs : s.loop.state = .census) :
    exec .breakHoldExpiry s = .next
      { s with
        loop := { s.loop with holdTimer := .stopped }
        line := s.line.repeatPlain } := by
  simp [exec, execBreakHoldExpiry, ht, hs]

theorem exec_breakHold_stopped (s : State) (ht : s.loop.holdTimer = .stopped) :
    exec .breakHoldExpiry s = .next s := by
  simp [exec, execBreakHoldExpiry, ht]

/-- Settles O13: one rule for each outcome of the expiry; REPEAT with fill following off is written
out. -/
theorem breakHoldEndsInTheStateReached : Obligations.BreakHoldEndsInTheStateReached := by
  intro s
  refine ⟨exec_breakHold_broken s, fun ht hs => ?_, exec_breakHold_stopped s⟩
  rw [exec_breakHold_census s ht hs, Line.repeatPlain]

end Sys2Proof.Machine
end

section
/-! Proofs of the statements about the host port: what the commands leave of the queue, what a frame
can do, the edges of CSN and FRAME FAULT, the frames that are not taken, and the responses of STATUS
and ROSTER. -/

namespace Sys2Proof.Machine

/-! ### The queue of commands (O2) -/

@[simp] theorem State.pending_enterBroken (s : State) (reason : Reason) :
    (s.enterBroken reason).pending = s.pending := by rw [State.enterBroken_eq]

@[simp] theorem State.pending_enterCensus (s : State) (hosted : Byte) (restore : Bool) :
    (s.enterCensus hosted restore).pending = s.pending := by rw [State.enterCensus_eq]

@[simp] theorem State.pending_enterBuild (s : State) (roster : List RosterEntry) (formation : Byte)
    (role : Role) : (s.enterBuild roster formation role).pending = s.pending := by
  rw [State.enterBuild_eq]

@[simp] theorem State.pending_enterRunning (s : State) : s.enterRunning.pending = s.pending := by
  rw [State.enterRunning_eq]

@[simp] theorem State.pending_enterExcluded (s : State) : s.enterExcluded.pending = s.pending := by
  rw [State.enterExcluded_eq]

@[simp] theorem State.pending_passage (s : State) (a : Arrival) :
    (s.passage a).pending = s.pending := by
  obtain ⟨table, released, queues, home, passed⟩ := s.passage_eq a
  rw [passed]

@[simp] theorem State.pending_markPassage (s : State) (mark : Cell) (rewritten : Option Bool) :
    (s.markPassage mark rewritten).pending = s.pending := by
  obtain ⟨queues, damage, sweep, passed, -⟩ := s.markPassage_eq mark rewritten
  rw [passed]

/-- Counting a MARK in BUILD leaves the queue, whether or not RUNNING is entered. -/
@[simp] theorem State.pending_countMark (s : State) (mark : Cell) :
    (s.countMark mark).pending = s.pending := by
  unfold State.countMark
  dsimp only
  split
  · rw [State.pending_markPassage, State.pending_enterRunning]
  · rfl

@[simp] theorem State.pending_insertAhead (s : State) (tail : Cell) :
    (s.insertAhead tail).pending = s.pending := by
  unfold State.insertAhead
  split
  · rfl
  · rw [State.enterCells_eq]
    rfl

@[simp] theorem State.pending_trackArrival (s : State) (r : Reception) :
    (s.trackArrival r).pending = s.pending := by
  apply s.trackArrival_cases (P := fun t => t.pending = s.pending) r
  case fault => exact fun cause position => State.pending_enterBroken _ _
  case mark => exact fun c rewritten _ _ => s.pending_markPassage c rewritten
  case pass => exact fun a _ _ _ _ => State.pending_passage _ a
  case found => exact fun a f b _ _ _ _ _ => State.pending_passage _ a
  case burst => exact fun f b => State.pending_enterBroken _ _

/-- An arriving cell leaves the queue of commands in every loop state. -/
@[simp] theorem State.pending_arrive (s : State) (r : Reception) :
    (s.arrive r).pending = s.pending := by
  apply s.arrive_cases (P := fun t => t.pending = s.pending) r
  case keep => rfl
  case enter => exact fun c _ => rfl
  case hear => exact fun n => rfl
  case hearEnter => exact fun n c _ => rfl
  case duplicate => exact fun _ => s.pending_enterBroken _
  case answer => exact fun c _ _ => rfl
  case complete => exact fun c _ _ _ => State.pending_enterBuild _ _ _ _
  case join => exact fun n c _ _ _ _ => State.pending_enterBuild _ _ _ _
  case exclude => exact fun n c _ _ _ => State.pending_enterExcluded _
  case insert => exact fun tail _ _ => s.pending_insertAhead tail
  case count => exact fun l c _ _ _ => State.pending_countMark _ c
  case run => exact fun _ => s.pending_enterRunning
  case track => exact fun _ => s.pending_trackArrival r

/-- No command touches the queue of commands, STATION_RESET included (log 30). -/
theorem exec_pending (i : Instr) (s t : State) (e : exec i s = .next t) :
    t.pending = s.pending := by
  refine exec_keeps (P := fun u => u.pending = s.pending) ?line ?port ?reset ?release ?arrive
    ?broken ?transmitted ?listened ?originates ?again ?held ?start ?submit ?abort ?watch ?load
    ?hostReset ?taken ?noted i s rfl t e
  case line => exact fun _ _ _ _ _ _ h => h
  case port => exact fun _ _ _ h => h
  case reset => exact fun _ _ h => h
  case release => exact fun _ _ h _ => h
  case arrive => exact fun u r h _ => (u.pending_arrive r).trans h
  case broken => exact fun u reason h _ => (u.pending_enterBroken reason).trans h
  case transmitted => exact fun _ h => h
  case listened => exact fun _ h _ _ _ => h
  case originates => exact fun _ h _ _ _ => h
  case again => exact fun _ h _ _ _ _ => h
  case held => exact fun _ h _ => h
  case start => exact fun u hosted restore h _ _ _ => (u.pending_enterCensus hosted restore).trans h
  case submit => exact fun _ _ _ _ h _ => h
  case abort =>
    intro u tag h
    obtain ⟨table, completions, aborted⟩ := abortEffect_eq tag u
    rw [aborted]
    exact h
  case watch => exact fun _ _ _ h => h
  case load => exact fun _ _ _ h => h
  case hostReset => exact fun _ _ h => h
  case taken => exact fun _ h => h
  case noted => exact fun _ h => h

/-- Settles O2: every command answers and keeps the queue; an empty queue is one quiet period. -/
theorem everyCommandAnswersAndKeepsTheQueue : Obligations.EveryCommandAnswersAndKeepsTheQueue := by
  refine ⟨fun i s => ?command, fun s empty => ⟨s.tick, step_nil s empty, ?quiet⟩⟩
  case command =>
    obtain ⟨t, e⟩ := exec_next i s
    exact ⟨t, e, exec_pending i s t e⟩
  case quiet =>
    obtain ⟨⟨gap, phase, command, response, incoming, -, moved⟩, -⟩ := s.tick_eq
    rw [moved]

/-! ### CSN_FALL (O16) -/

/-- Settles O16: the fall by RESETN and by the level of CSN. -/
theorem csnFallOpensATransaction : Obligations.CsnFallOpensATransaction := by
  refine fun s => ⟨fun released high => ?opens, fun held => ?held, fun low => ?low⟩
  case opens => simp [exec, execCsnFall, released, high]
  case low => simp [exec, execCsnFall, low]
  case held =>
    cases level : s.port.csnLow with
    | false => simp [exec, execCsnFall, held, level]
    | true =>
      have kept : s.port = { s.port with csnLow := true } := by rw [← level]
      simp only [exec, execCsnFall, if_pos level, ← kept]

/-! ### What a frame can do (O17, O18, O19) -/

/-- The effect of a START leaves the port. -/
@[simp] theorem port_startEffect (hostedCount restore : Byte) (s : State) :
    (startEffect hostedCount restore s).1.port = s.port := by
  unfold startEffect
  split
  · rfl
  · rw [State.enterCensus_eq]

@[simp] theorem port_submitEffect (f : SubmitFrame) (s : State) :
    (submitEffect f s).1.port = s.port := by
  unfold submitEffect
  split <;> rfl

@[simp] theorem port_abortEffect (tag : Byte) (s : State) :
    (abortEffect tag s).1.port = s.port := by
  obtain ⟨table, completions, aborted⟩ := abortEffect_eq tag s
  rw [aborted]

/-- TAKE changes nothing at its taking (R147). -/
@[simp] theorem takeEffect_fst (s : State) : (takeEffect s).1 = s := by
  unfold takeEffect
  split <;> rfl

/-- NOTE changes nothing at its taking (R151). -/
@[simp] theorem noteEffect_fst (s : State) : (noteEffect s).1 = s := by
  unfold noteEffect
  split <;> rfl

@[simp] theorem port_watchSetEffect (f : WatchSetFrame) (s : State) :
    (watchSetEffect f s).1.port = s.port := by
  unfold watchSetEffect
  split
  · rfl
  · split <;> rfl

@[simp] theorem port_watchClearEffect (entry : Byte) (s : State) :
    (watchClearEffect entry s).1.port = s.port := by
  unfold watchClearEffect
  dsimp only
  split <;> rfl

@[simp] theorem port_homeLoadEffect (index generation : Byte) (words : Payload) (s : State) :
    (homeLoadEffect index generation words s).1.port = s.port := by
  unfold homeLoadEffect
  dsimp only
  split <;> rfl

/-- HOME READ changes nothing (R139). -/
@[simp] theorem homeReadEffect_fst (index : Byte) (s : State) :
    (homeReadEffect index s).1 = s := by
  unfold homeReadEffect
  dsimp only
  split <;> rfl

/-- From `s` to `t` a frame is ignored, or is answered in RECEIVING: of the port the answer changes
the transaction alone (R164, R166, R167). -/
def State.AnswersFrame (s t : State) : Prop :=
  t = s ∨ s.receiving = true ∧ ∃ phase command response,
    t.port = { s.port with phase, command, response }

theorem State.AnswersFrame.eq_of_not_receiving {s t : State} (h : s.AnswersFrame t)
    (idle : s.receiving = false) : t = s := by
  obtain ignored | ⟨receiving, -⟩ := h
  · exact ignored
  · rw [idle] at receiving
    nomatch receiving

theorem State.AnswersFrame.frameFault {s t : State} (h : s.AnswersFrame t) :
    t.port.frameFault = s.port.frameFault := by
  obtain rfl | ⟨-, phase, command, response, port⟩ := h
  · rfl
  · rw [port]

/-- A command whose effect leaves the port answers its frame. -/
theorem State.takeCommand_answersFrame (s : State) (k : HostCommand) (fields : List Byte)
    (effect : State → State × List Byte) (h : (effect s).1.port = s.port) :
    s.AnswersFrame (s.takeCommand k fields effect) := by
  rcases s.takeCommand_cases k fields effect with ⟨receiving, taken⟩ | ⟨-, ignored⟩
  · refine .inr ⟨receiving, .responding, some ⟨k.code, fields ++ [checkByte (k.code :: fields)]⟩,
      some ⟨(effect s).2, 0⟩, ?_⟩
    rw [taken, h]
  · exact .inl ignored

/-- Every command that stands for a frame, or for a command byte, answers it or ignores it. -/
theorem exec_answersFrame (i : Instr) (s : State) (h : i.isFrame = true) :
    ∃ t, exec i s = .next t ∧ s.AnswersFrame t := by
  have taken := s.takeCommand_answersFrame
  cases i with
  | start hostedCount restore => exact ⟨_, rfl, taken _ _ _ (port_startEffect hostedCount restore s)⟩
  | submit f =>
    refine ⟨_, rfl, ?_⟩
    split
    · exact taken _ _ _ (port_submitEffect f s)
    · exact .inl rfl
  | abort tag => exact ⟨_, rfl, taken _ _ _ (port_abortEffect tag s)⟩
  | take => exact ⟨_, rfl, taken _ _ _ (by rw [takeEffect_fst])⟩
  | note => exact ⟨_, rfl, taken _ _ _ (by rw [noteEffect_fst])⟩
  | watchSet f => exact ⟨_, rfl, taken _ _ _ (port_watchSetEffect f s)⟩
  | watchClear entry => exact ⟨_, rfl, taken _ _ _ (port_watchClearEffect entry s)⟩
  | homeLoad index generation words =>
    exact ⟨_, rfl, taken _ _ _ (port_homeLoadEffect index generation words s)⟩
  | homeRead index => exact ⟨_, rfl, taken _ _ _ (by rw [homeReadEffect_fst])⟩
  | status => exact ⟨_, rfl, taken _ _ _ rfl⟩
  | roster => exact ⟨_, rfl, taken _ _ _ rfl⟩
  | reset option => exact ⟨_, rfl, taken _ _ _ rfl⟩
  | badCheck frame =>
    refine ⟨_, rfl, ?_⟩
    split
    · rename_i bad
      exact .inr ⟨bad.1, _, _, _, rfl⟩
    · exact .inl rfl
  | unknownCommand code =>
    refine ⟨_, rfl, ?_⟩
    split
    · rename_i unknown
      exact .inr ⟨unknown.1, _, _, _, rfl⟩
    · exact .inl rfl
  | _ => nomatch h

/-- Outside RECEIVING no frame has an effect (R164; log 8). -/
theorem exec_frame_ignored (i : Instr) (s : State) (h : i.isFrame = true)
    (idle : s.receiving = false) : exec i s = .next s := by
  obtain ⟨t, e, answers⟩ := exec_answersFrame i s h
  rw [e, answers.eq_of_not_receiving idle]

/-! ### CSN_RISE and FRAME FAULT (O17) -/

/-- The station once CSN has risen: the transaction is closed, and the bytes of a frame that the
rise cuts off are `received` (R168). -/
def State.closed (s : State) (received : List Byte) : State :=
  { s with port := { s.port with
      csnLow := false, phase := .idle, command := none, response := none, incoming := []
      frameFault :=
        s.port.frameFault ||
          (s.port.phase == .receiving && (s.port.command.isSome || frameCutOff received)) } }

theorem exec_csnRise (received : List Byte) (s : State) :
    exec (.csnRise received) s = .next (s.closed received) := rfl

/-- A rise in RECEIVING with a command cut off, in hand or among the bytes given, sets FRAME
FAULT. -/
theorem State.frameFault_closed_set (s : State) (received : List Byte)
    (hp : s.port.phase = .receiving) (h : s.port.command ≠ none ∨ frameCutOff received = true) :
    (s.closed received).port.frameFault = true := by
  have cut : (s.port.command.isSome || frameCutOff received) = true := by
    rwa [Bool.or_eq_true, Option.isSome_iff_ne_none]
  simp [State.closed, hp, cut]

/-- A rise outside RECEIVING leaves FRAME FAULT. -/
theorem State.frameFault_closed_of_phase (s : State) (received : List Byte)
    (hp : s.port.phase ≠ .receiving) :
    (s.closed received).port.frameFault = s.port.frameFault := by
  simp [State.closed, hp]

/-- A rise with no command in hand and no frame cut off among the bytes given leaves FRAME FAULT. -/
theorem State.frameFault_closed_of_whole (s : State) (received : List Byte)
    (hc : s.port.command = none) (h : frameCutOff received = false) :
    (s.closed received).port.frameFault = s.port.frameFault := by
  simp [State.closed, hc, h]

/-- A rise never clears FRAME FAULT. -/
theorem State.frameFault_closed_of_set (s : State) (received : List Byte)
    (h : s.port.frameFault = true) : (s.closed received).port.frameFault = true := by
  simp [State.closed, h]

/-- The final byte of a STATUS response that is shifted out to its end clears FRAME FAULT. -/
theorem exec_statusFinalByte_status (s : State) (hs : s.responding .status = true)
    (h : s.port.responseStatus = some Status.accepted.code) :
    exec .statusFinalByte s = .next { s with port := { s.port.spent with frameFault := false } } := by
  simp only [exec, execStatusFinalByte, if_pos hs, if_pos h]

/-- The final byte of a BAD CHECK response to a STATUS only ends it (R166). -/
theorem exec_statusFinalByte_other (s : State) (hs : s.responding .status = true)
    (h : s.port.responseStatus ≠ some Status.accepted.code) :
    exec .statusFinalByte s = .next { s with port := s.port.spent } := by
  simp only [exec, execStatusFinalByte, if_pos hs, if_neg h]

@[simp] theorem State.port_enterBroken (s : State) (reason : Reason) :
    (s.enterBroken reason).port = s.port := by rw [State.enterBroken_eq]

@[simp] theorem State.port_receiveSymbol (s : State) (x : Symbol) :
    (s.receiveSymbol x).port = s.port := (State.takeReport_keepsStation _ _).port

/-- FRAME FAULT is cleared by the final byte of STATUS and by station reset alone (R168, R173). -/
theorem exec_keeps_frameFault (i : Instr) (s t : State) (h : s.port.frameFault = true)
    (final : i ≠ .statusFinalByte) (reset : i ≠ .stationReset) (e : exec i s = .next t) :
    t.port.frameFault = true := by
  by_cases frame : i.isFrame = true
  · obtain ⟨u, eu, answers⟩ := exec_answersFrame i s frame
    rw [eu] at e
    injection e with e
    rw [← e, answers.frameFault, h]
  have kept : ∀ u : State, u.port.frameFault = s.port.frameFault →
      (.next u : Host.Outcome State Fault Refusal) = .next t → t.port.frameFault = true := by
    intro u hu eu
    injection eu with eu
    rw [← eu, hu, h]
  have port : ∀ u : State, u.port = s.port →
      (.next u : Host.Outcome State Fault Refusal) = .next t → t.port.frameFault = true :=
    fun u hu => kept u (by rw [hu])
  cases i with
  | stationReset => exact absurd rfl reset
  | statusFinalByte => exact absurd rfl final
  | csnRise received =>
    refine kept (s.closed received) ?_ e
    rw [s.frameFault_closed_of_set received h, h]
  | csnFall =>
    refine kept _ ?_ e
    split
    · rfl
    · split <;> rfl
  | stationResetRelease straps => exact kept _ (by split <;> rfl) e
  | takeFinalByte => exact kept _ (by split <;> rfl) e
  | noteFinalByte => exact kept _ (by split <;> rfl) e
  | cellArrival r =>
    refine port _ ?_ e
    split
    · rfl
    · exact (State.arrive_keepsStation _ r).port
  | breakFillReceived =>
    refine port _ ?_ e
    split
    · rfl
    · exact (State.breakReport_keepsStation _ _).port
  | signalLoss =>
    refine port _ ?_ e
    split
    · rfl
    · exact (State.breakReport_keepsStation _ _).port
  | signalReturn x =>
    refine port _ ?_ e
    split
    · exact s.port_receiveSymbol x
    · rfl
  | symbolReceived x =>
    refine port _ ?_ e
    split
    · rfl
    · exact s.port_receiveSymbol x
  | cellTransmitted => exact port _ (by split <;> rfl) e
  | listenTimerExpiry =>
    refine port _ ?_ e
    split
    · dsimp only
      split <;> rfl
    · rfl
  | censusTimerExpiry =>
    refine port _ ?_ e
    split
    · split
      · rfl
      · exact s.port_enterBroken _
    · rfl
  | yieldWaitExpiry =>
    refine port _ ?_ e
    split
    · exact s.port_enterBroken _
    · rfl
  | buildLimitExpiry =>
    refine port _ ?_ e
    split
    · exact s.port_enterBroken _
    · rfl
  | breakHoldExpiry => exact port _ (by split <;> rfl) e
  | _ => exact absurd rfl frame

/-- Settles O17: the rise by the phase and by what it cuts off; then who clears FRAME FAULT. -/
theorem csnRiseClosesTheTransaction : Obligations.CsnRiseClosesTheTransaction := by
  refine fun received s => ⟨⟨s.closed received, exec_csnRise received s, rfl,
      s.frameFault_closed_of_phase received, fun hc given => ?nothing,
      fun hp hc => s.frameFault_closed_set received hp (.inl hc),
      fun k rest hp given short => ?cutOff, fun code rest hc given unknown => ?unknown,
      fun k rest hc given whole => ?whole, rfl⟩,
    fun hr hp hk status => ?statusFinal, ⟨_, rfl, rfl⟩,
    fun i t h => exec_keeps_frameFault i s t h⟩
  case nothing => exact s.frameFault_closed_of_whole received hc (given ▸ rfl)
  case cutOff =>
    refine s.frameFault_closed_set received hp (.inr ?_)
    rw [given, frameCutOff_command, decide_eq_true short]
  case unknown =>
    refine s.frameFault_closed_of_whole received hc ?_
    rw [given, frameCutOff_unknown code rest unknown]
  case whole =>
    refine s.frameFault_closed_of_whole received hc ?_
    rw [given, frameCutOff_command, decide_eq_false (Nat.not_lt.mpr whole)]
  case statusFinal =>
    exact ⟨_, exec_statusFinalByte_status s (s.responding_of_inHand .status hr hp hk) status, rfl⟩

/-! ### Frames that are not taken (O18) -/

/-- A whole frame in RECEIVING whose bytes do not sum to 0 is answered BAD CHECK alone (R166). -/
theorem exec_badCheck (k : HostCommand) (rest : List Byte) (s : State) (hr : s.receiving = true)
    (whole : rest.length = k.fieldCount rest + 1) (bad : byteSum (k.code :: rest) ≠ 0#8) :
    exec (.badCheck (k.code :: rest)) s = .next
      { s with port := s.port.answer .responding k.code rest [Status.badCheck.code] } := by
  have complete : frameComplete (k.code :: rest) = true := by simp [frameComplete, whole]
  simp only [exec, execBadCheck, if_pos (And.intro hr (And.intro complete bad)), List.headD_cons,
    List.tail_cons]

/-- The sum of bytes followed by one more. -/
theorem byteSum_concat (bytes : List Byte) (b : Byte) :
    byteSum (bytes ++ [b]) = byteSum bytes + b := by
  simp [byteSum]

/-- The check byte makes the sum of a frame 0 (R166). -/
theorem byteSum_checkByte (bytes : List Byte) : byteSum (bytes ++ [checkByte bytes]) = 0#8 := by
  rw [byteSum_concat, checkByte, BitVec.add_right_neg]

/-- Settles O18: BAD CHECK, the check byte's sum, and the frames outside RECEIVING. -/
theorem framesNotTakenHaveNoEffect : Obligations.FramesNotTakenHaveNoEffect :=
  ⟨⟨exec_badCheck, byteSum_checkByte⟩, exec_frame_ignored⟩

/-! ### UNKNOWN_COMMAND (O19) -/

/-- The station once a command byte that names no command is answered UNKNOWN (R167; log 10). -/
def State.discarding (s : State) (code : Byte) : State :=
  { s with port := s.port.answer .discarding code [] [Status.unknown.code] }

theorem exec_unknownCommand (code : Byte) (s : State) (hr : s.receiving = true)
    (h : ∀ k : HostCommand, k.code ≠ code) :
    exec (.unknownCommand code) s = .next (s.discarding code) := by
  have unknown : s.receiving = true ∧ HostCommand.ofCode code = none :=
    ⟨hr, HostCommand.ofCode_of_unknown code h⟩
  simp only [exec, execUnknownCommand, if_pos unknown, State.discarding]

/-- A station that discards the rest of a transaction takes no frame. -/
theorem State.receiving_discarding (s : State) (code : Byte) :
    (s.discarding code).receiving = false := by
  simp [State.receiving, State.discarding, Port.answer]

/-- After the status UNKNOWN SO carries the fill byte. -/
theorem State.so_discarding (s : State) (code : Byte) (n : Nat) (h : 0 < n) :
    (s.discarding code).so n = 0xFF#8 := by
  refine (((s.discarding code).so_eq n).2 ⟨[Status.unknown.code], 0⟩ rfl).2 ?_
  change 1 ≤ 0 + n
  omega

/-- Settles O19: the answer, then what the discarding station ignores and how its rise ends it. -/
theorem unknownCommandDiscardsTheTransaction :
    Obligations.UnknownCommandDiscardsTheTransaction := by
  intro code s hr unknown
  refine ⟨s.discarding code, exec_unknownCommand code s hr unknown, rfl, rfl, s.so_discarding code,
    fun i frame => exec_frame_ignored i _ frame (s.receiving_discarding code), fun received =>
      ⟨_, exec_csnRise received (s.discarding code), rfl, ?_⟩⟩
  exact (s.discarding code).frameFault_closed_of_phase received nofun

/-! ### STATUS and ROSTER (O31) -/

/-- STATUS in RECEIVING answers ACCEPTED with its items and changes nothing (R173). -/
theorem exec_status (s : State) (hr : s.receiving = true) :
    exec .status s = .next (s.answered .status [] (Status.accepted.code :: s.statusItems)) := by
  simp only [exec, execStatus, s.takeCommand_of_receiving _ _ _ hr, statusEffect]

/-- The items of STATUS take 38 bytes, whether or not there has been a position fault. -/
theorem State.length_statusItems (s : State) : s.statusItems.length = 38 := by
  unfold State.statusItems
  cases s.tracker.lastFault <;> rfl

/-- ROSTER in RECEIVING answers ACCEPTED with its items and changes nothing (R174). -/
theorem exec_roster (s : State) (hr : s.receiving = true) :
    exec .roster s = .next (s.answered .roster []
      (Status.accepted.code :: s.loop.formation :: natByte s.loop.roster.length ::
        (natBytes s.total ++ rosterBytes s.loop.roster))) := by
  simp only [exec, execRoster, s.takeCommand_of_receiving _ _ _ hr, rosterEffect]

/-- A roster of up to 30 entries is filled up to 60 bytes with zero entries. -/
theorem length_rosterBytes (roster : List RosterEntry) (h : roster.length ≤ 30) :
    (rosterBytes roster).length = 60 := by
  have entries : (roster.flatMap fun e => [e.station, e.hosted]).length = 2 * roster.length := by
    simp [List.length_flatMap, Nat.mul_comm]
  have room : Config.maxEntries = 30 := rfl
  rw [rosterBytes, List.length_append, entries, List.length_replicate]
  omega

/-- Settles O31: the two responses item by item, the final byte of STATUS, and the codes. -/
theorem statusAndRosterReportTheState : Obligations.StatusAndRosterReportTheState := by
  refine ⟨fun s hr => ⟨_, exec_status s hr, ?statusLength, ?statusItems⟩,
    fun s r hr hp hk hresp => ?finalByte,
    fun s hr entries => ⟨_, exec_roster s hr, ?rosterLength, ?rosterItems⟩,
    rfl, rfl, rfl, rfl, rfl, rfl, rfl, rfl, rfl, getLsbD_bitsByte, fun _ => rfl, fun _ => rfl,
    natBytes_highFirst, wordBytes_highFirst⟩
  case statusLength => rw [List.length_cons, s.length_statusItems]
  case statusItems =>
    unfold State.statusItems
    cases s.tracker.lastFault <;> rfl
  case finalByte =>
    have responding := s.responding_of_inHand .status hr hp hk
    have status := s.port.responseStatus_of_response r hresp
    have spent := s.port.spent_of_response r hresp
    refine ⟨fun accepted => ?_, fun other => ?_⟩
    · rw [exec_statusFinalByte_status s responding (status.trans accepted), spent]
    · rw [exec_statusFinalByte_other s responding (status ▸ other), spent]
  case rosterLength =>
    simp only [List.length_cons, List.length_append, length_rosterBytes _ entries]
    rfl
  case rosterItems =>
    rw [rosterBytes]
    rfl

end Sys2Proof.Machine
end

section
/-! Proof of the statement about one step: the command at the front of the queue is run on the
state with the queue's rest. -/

namespace Sys2Proof.Machine

/-- Settles O1: the rule of a step on a nonempty queue, at the state whose queue is `c :: rest`;
the queue that the state held before is overwritten. -/
theorem stepRunsTheFrontCommand : Obligations.StepRunsTheFrontCommand :=
  fun c rest s => step_cons c rest { s with pending := c :: rest } rfl

end Sys2Proof.Machine
end
